-- ==== Sys2Proof/Word.lean ====
section
/-! DEFINITION. The words of the LC44: bytes of the service line, data words and addresses of the two bus ports,
carriers, and one value per carrier. -/

namespace Sys2Proof

/-- A byte of the service line (R187). -/
abbrev Byte := BitVec 8

/-- A 16-bit data word of the I-port and the M-port. -/
abbrev Word := BitVec 16

/-- A 20-bit word address, 00000h to FFFFFh. -/
abbrev Addr := BitVec 20

/-- One of the four radio carriers, numbered 0 to 3. -/
abbrev Carrier := Fin 4

/-- One value for each of the carriers 0 to 3. -/
structure PerCarrier (α : Type) where
  c0 : α
  c1 : α
  c2 : α
  c3 : α
deriving DecidableEq, Repr

/-- The same value for every carrier. -/
def PerCarrier.all {α : Type} (a : α) : PerCarrier α := ⟨a, a, a, a⟩

/-- A set of carriers, possibly empty. -/
abbrev CarrierSet := PerCarrier Bool

end Sys2Proof
end

