-- ==== Sys2Proof/Syntax.lean ====
section
/-! DEFINITION. The commands the LC44 takes: one constructor of `Instr` for each row of spec/opcode_table.json.
A request of the service line carries its body bytes as they were received (R204); an event between two units
carries what its sender gives with it. -/

namespace Sys2Proof

/-- The initiator tag of an I-port cycle: radio controller or modem report engine. -/
inductive Initiator where
  | ctl
  | rpt
deriving DecidableEq, Repr

/-- The direction of a bus cycle, with the data of a write. -/
inductive BusOp where
  | read
  | write (data : Word)
deriving DecidableEq, Repr

/-- What a cycle on the I-port carries (section 1.1). -/
structure BusCycle where
  initiator : Initiator
  addr : Addr
  op : BusOp
deriving DecidableEq, Repr

/-- Memory's answer to an M-port cycle (R21). The data of OK is taken for a READ and ignored for a WRITE. -/
inductive MemAnswer where
  | ok (data : Word)
  | fault
deriving DecidableEq, Repr

/-- What CCL gives RCU with an accepted OBSERVE write (R11). -/
structure Handoff where
  offset : Nat
  firstCarrier : Nat
  carrierCount : Nat
  stride : Nat
  data : Word
deriving DecidableEq, Repr

/-- A capture notice of RCU (R109): the kinds that were not fresh in the capture are absent. -/
structure CaptureNotice where
  carrier : Carrier
  rsl : Int
  mse : Option Int
  xpd : Option Int
  corr : Option Nat
  uncorr : Option Nat
  modstep : Option Nat
  lossRun : Nat
deriving DecidableEq, Repr

/-- The commands of the LC44, in the order of spec/opcode_table.json. -/
inductive Instr where
  | iPortCycle (c : BusCycle)
  | memoryAnswer (a : MemAnswer)
  | memoryTimeout
  | heldWriteRelease
  | markConfirm
  | markAbort
  | stepSignal
  | trialTimerExpiry
  | truCaptureNotice (n : CaptureNotice)
  | truStaleNotice (c : Carrier)
  | observeHandoff (h : Handoff)
  | reportTimerExpiry (c : Carrier)
  | mastLevelChange (asserted : Bool)
  | debounceTimerExpiry
  | holdOffExpiry
  | tmuCaptureNotice (n : CaptureNotice)
  | tmuStaleNotice (c : Carrier)
  | leftTrackReport (m : CarrierSet)
  | peakResetNotice (m : CarrierSet)
  | groupFlagsChange
  | acuCaptureNotice (n : CaptureNotice)
  | acuStaleNotice (c : Carrier)
  | muteNotice
  | rollbackNotice
  | armTimeoutExpiry
  | settleTimerExpiry
  | measureTimerExpiry
  | tick
  | commissioningSecond
  | resetAsserted
  | resetRelease (psel : BitVec 2) (commission depol : Bool)
  | refreshTimerExpiry
  | badFrame (code : Option Byte)
  | frameDiscarded
  | lineError
  | gapTimerExpiry
  | responseSent
  | unknownRequest (code : Byte) (body : List Byte)
  | ident (body : List Byte)
  | status (body : List Byte)
  | beginReq (body : List Byte)
  | wipe (body : List Byte)
  | save (body : List Byte)
  | handover (body : List Byte)
  | loadRegion (body : List Byte)
  | readRegion (body : List Byte)
  | loadRule (body : List Byte)
  | readRule (body : List Byte)
  | loadLayout (body : List Byte)
  | readLayout (body : List Byte)
  | setCarrier (body : List Byte)
  | readCarrier (body : List Byte)
  | peakReset (body : List Byte)
  | clearCapture (body : List Byte)
  | setGroups (body : List Byte)
  | setTone (body : List Byte)
  | setTimes (body : List Byte)
  | setMirror (body : List Byte)
  | muteRelease (body : List Byte)
  | trialOpen (body : List Byte)
  | trialConfirm (body : List Byte)
  | trialExtend (body : List Byte)
  | trialAbort (body : List Byte)
  | readTrial (body : List Byte)
  | overlayDiscard (body : List Byte)
  | readOverlay (body : List Byte)
  | loadStep (body : List Byte)
  | readStep (body : List Byte)
  | runStart (body : List Byte)
  | runAbort (body : List Byte)
  | readLog (body : List Byte)
  | logClear (body : List Byte)
  | byteReceived (b : Byte)
deriving DecidableEq, Repr

end Sys2Proof
end

