-- ==== Sys2Proof/Decode.lean ====
section
/-! DEFINITION. Commands spelled by words. The rows of spec/opcode_table.json give no bits, so no word spells a
command (log 7). -/

namespace Sys2Proof

/-- The command a word spells by the table's bits: none, since no row of the table has bits. -/
def decodeTableWord (nbits w : Nat) : Option Instr :=
  match nbits, w with
  | _, _ => none

end Sys2Proof
end

