-- ==== Sys2Proof/Config.lean ====
section
/-! DEFINITION. What the LC44 fixes once and for all: the constants the spec names. The spec leaves no result of a
command undefined, so there is no free value here (INVENTORY.md, What the manual leaves open). -/

namespace Sys2Proof.Config

/-- Entries of the Region Table (section 1.4). -/
def regionEntries : Nat := 16

/-- Rules of the Field Rule table (section 3.1). -/
def fieldRules : Nat := 64

/-- Plan slots (R138). -/
def planSlots : Nat := 32

/-- Entries the on-chip Trial Journal holds at most (R70). -/
def journalRoom : Nat := 48

/-- Records the acceptance log holds at most (R159). -/
def logRoom : Nat := 64

/-- Words of the profile block (R168). -/
def profileWords : Nat := 4096

/-- Words of the mirror block (R4). -/
def mirrorWords : Nat := 16

/-- Offset of the journal header's state word in the profile block (R79). -/
def journalState : Nat := 0x010

/-- Offset of the journal header's count word in the profile block (R79). -/
def journalCount : Nat := 0x011

/-- Offset of record slot 0 of the journal area (section 4.8). -/
def journalSlots : Nat := 0x012

/-- The words of the profile's header, offsets 000h to 00Fh (R168). -/
def headerWords : Nat := 16

/-- Offset of the first included body word of the profile (R168). -/
def bodyStart : Nat := 0x0B0

/-- The included body words of the profile, offsets 0B0h to F0Fh (R170). -/
def bodyWords : Nat := 3680

/-- The included words of the profile (R168). -/
def includedWords : Nat := 3696

/-- Writes of one SAVE or handover WRITE (R170). -/
def imageWrites : Nat := 3697

/-- The signature word of a profile (R168). -/
def signature : Word := 0x5A4B

/-- The default memory timeout in microseconds (R25). -/
def defaultMemoryTimeout : Nat := 20

/-- The default report timeout in milliseconds (R111). -/
def defaultReportTimeout : Nat := 2000

/-- The default loss floor in tenths of dBm (R108). -/
def defaultLossFloor : Int := -950

/-- The default hold-off in seconds (R129). -/
def defaultHoldoff : Nat := 30

/-- The default trial duration in seconds (R58). -/
def defaultTrialSeconds : Nat := 300

/-- The debounce time of MAST in ticks (R123). -/
def debounceTicks : Nat := 20

/-- The gap time of the receiver in ticks (R187). -/
def gapTicks : Nat := 20

/-- The refresh period of the status mirror in ticks (R199). -/
def refreshTicks : Nat := 250

/-- Limit of a saturating 8-bit count. -/
def max8 : Nat := 255

/-- Limit of a saturating 16-bit count. -/
def max16 : Nat := 65535

/-- Limit of a saturating 32-bit count. -/
def max32 : Nat := 4294967295

/-- The identity and revision bytes of IDENT (R204). -/
def identity : List Byte := [0x4C, 0x43, 0x34, 0x34, 0x01]

end Sys2Proof.Config
end

