-- ==== Sys2Proof/Machine/State.lean ====
section
/-! DEFINITION. The state of the LC44: everything the spec gives its ten blocks, the events they have raised for one
another, and the queue of commands waiting to be taken. `State.reset` is the block while RESET is asserted (log 5). -/

namespace Sys2Proof.Machine

/-- No command of the LC44 stops it with a fault: what the spec calls FAULT is an answer on a bus port (R19, R21),
and it is state. Nobody raises a fault; the type is empty (safe: it claims that no command stops). -/
inductive Fault where
deriving DecidableEq, Repr

/-- Reasons for which a command has no meaning. -/
inductive Refusal where
  /-- Raised by `exec` for a command whose meaning is not written yet (safe). No command of this model is. -/
  | notModelled (mnemonic : String)
deriving DecidableEq, Repr

/-! ## I-port and classification (chapter 1) -/

/-- The phase of the LC44 (R164). -/
inductive Phase where
  | transparent
  | commissioning
  | service
deriving DecidableEq, Repr

/-- Causes of a FAULT answer, in STATUS order (R19, section 11.4). -/
inductive FaultCause where
  | barred
  | rule
  | journalFull
  | journalWrite
  | rollback
  | redirect
  | memory
deriving DecidableEq, Repr

/-- One of the two presence maps (R86). -/
inductive MapId where
  | map0
  | map1
deriving DecidableEq, Repr

/-- The signal of a MARK entry (section 1.4). -/
inductive MarkSignal where
  | confirm
  | abort
  | step
deriving DecidableEq, Repr

/-- A treatment with its own parameters (section 1.4): parameters of other treatments are not held. -/
inductive Treatment where
  | pass
  | barred
  | observe (firstCarrier carrierCount stride : Nat)
  | guarded (firstRule ruleCount : Nat)
  | redirect (map : MapId) (overlayBase : Addr)
  | mark (value mask : Word) (signal : MarkSignal)
deriving DecidableEq, Repr

/-- A definition held by a Region Table entry (section 1.4). -/
structure Region where
  base : Addr
  length : Nat
  ctl : Bool
  rpt : Bool
  treatment : Treatment
deriving DecidableEq, Repr

/-- The classification record of a cycle (R6). -/
structure ClassRecord where
  treatment : Treatment
  index : Option (Fin 16)
  offset : Nat
deriving DecidableEq, Repr

/-- The seven fault-answer counters (R19). -/
structure FaultCounters where
  barred : Nat
  rule : Nat
  journalFull : Nat
  journalWrite : Nat
  rollback : Nat
  redirect : Nat
  memory : Nat
deriving DecidableEq, Repr

/-- The Cycle Classifier: Region Table, the phase and the mirror range in force for classification (R3, R4), and the
fault-answer counters. -/
structure Ccl where
  table : Vector (Option Region) 16
  phase : Phase
  mirror : Option Addr
  faults : FaultCounters
deriving DecidableEq, Repr

/-! ## Field Guard (chapter 3) -/

/-- The kind of a field rule with the bounds it uses (section 3.1). -/
inductive RuleKind where
  | range (lo hi : Int)
  | step (lo hi : Int) (step : Nat)
  | frozen
  | muteLock (lock : Int)
deriving DecidableEq, Repr

/-- The action of a field rule (section 3.1). -/
inductive RuleAction where
  | clamp
  | refuse
  | note
deriving DecidableEq, Repr

/-- A field of a word: width and offset of its bits, signed or not (R37). -/
structure Field where
  width : Nat
  offset : Nat
  signed : Bool
deriving DecidableEq, Repr

/-- A field rule (section 3.1). -/
structure Rule where
  word : Nat
  field : Field
  kind : RuleKind
  action : RuleAction
deriving DecidableEq, Repr

/-- The Field Guard: 64 rules and their violation counts. -/
structure Fgd where
  rules : Vector (Option Rule) 64
  counts : Vector Nat 64
deriving DecidableEq, Repr

/-- A rule as a guarded-write sequence fixed it (R46). `live` says that its index has not been loaded or emptied by
WIPE since, so that a violation is still counted there (R43). -/
structure FixedRule where
  index : Fin 64
  rule : Rule
  live : Bool
deriving DecidableEq, Repr

/-- What a guarded-write sequence in flight holds (section 3.3): the rules it fixed, whether it runs under an OPEN
trial, whether its address is new to the journal, the memory word its pre-read returned, the working value and the
TXMUTE sample of step 4. -/
structure GuardSeq where
  rules : List FixedRule
  journalled : Bool
  isNew : Bool
  memWord : Option Word
  working : Word
  sample : Bool
deriving DecidableEq, Repr

/-- How far the I-port cycle in progress has come. -/
inductive Stage where
  /-- One M-port cycle at the cycle's own address is waited for or under way (R8). -/
  | forward
  /-- OVU's redirected cycle (R87), with its void mark (R89). -/
  | redirected (void : Bool)
  /-- A guarded write held while the trial is OPENING or CLOSING (R46). -/
  | held
  /-- Step 2 of the guarded-write sequence (R47). -/
  | preRead (g : GuardSeq)
  /-- Step 5: word `k` of the write-ahead, 0 to 2 the record and 3 the count (R72). -/
  | writeAhead (g : GuardSeq) (k : Nat)
  /-- Step 7 is waited for or under way (R52); step 6 runs when it is presented (R51). -/
  | guardForward (g : GuardSeq)
deriving DecidableEq, Repr

/-- The I-port cycle in progress (R1). -/
structure ICycle where
  cycle : BusCycle
  record : ClassRecord
  stage : Stage
deriving DecidableEq, Repr

/-- An answer on the I-port (R1, R19). A FAULT given during STARTING carries no cause (R2). -/
inductive IAnswer where
  | okRead (data : Word)
  | okWrite
  | fault (cause : Option FaultCause)
deriving DecidableEq, Repr

/-- The I-port: the cycle in progress and the last answer given. -/
structure IPort where
  cycle : Option ICycle
  answer : Option IAnswer
deriving DecidableEq, Repr

/-! ## Memory Port Controller (chapter 2) -/

/-- The four M-port clients. -/
inductive Client where
  | fwd
  | rst
  | int
  | mir
deriving DecidableEq, Repr

/-- The three owners of INT requests (R27). -/
inductive IntOwner where
  | tru
  | ovu
  | phc
deriving DecidableEq, Repr

/-- An M-port cycle as a client presents it (section 2.1). -/
structure MRequest where
  addr : Addr
  op : BusOp
deriving DecidableEq, Repr

/-- An INT request with its owner (R27). -/
structure IntRequest where
  owner : IntOwner
  request : MRequest
deriving DecidableEq, Repr

/-- The M-port cycle in progress, with the memory timeout in force at its grant (R23, R24). -/
structure MCycle where
  client : Client
  request : MRequest
  timeout : Nat
deriving DecidableEq, Repr

/-- The alternation record (R29): the client of the two granted more recently. -/
inductive Alternation where
  | fwd
  | rst
deriving DecidableEq, Repr

/-- How a failed M-port cycle ended. -/
inductive MFailure where
  | fault
  | timeout
deriving DecidableEq, Repr

/-- The last-failure record (R34). -/
structure LastFailure where
  client : Client
  owner : Option IntOwner
  request : MRequest
  outcome : MFailure
deriving DecidableEq, Repr

/-- The Memory Port Controller. While INT is granted, its request stays at the head of the queue (R27). A FWD hold keeps
the memory timeout in force at its grant, under which each of its cycles runs (R23, R24, R28). -/
structure Mpc where
  cycle : Option MCycle
  hold : Option Nat
  fwdWaiting : Bool
  rstWaiting : Option MRequest
  mirWaiting : Option MRequest
  intQueue : List IntRequest
  alternation : Alternation
  timeout : Nat
  loadedTimeout : Option Nat
  faults : Nat
  timeouts : Nat
  lastFailure : Option LastFailure
deriving DecidableEq, Repr

/-! ## Trial Unit (chapter 4) -/

/-- The trial state (section 4.1). -/
inductive TrialState where
  | idle
  | opening
  | open
  | closing
  | rollingBack
deriving DecidableEq, Repr

/-- The end cause of a trial (R82). -/
inductive EndCause where
  | confirmedService
  | confirmedMark
  | expired
  | abortedService
  | abortedMark
  | loss
  | resetRecovered
deriving DecidableEq, Repr

/-- The result of a trial (R82). -/
inductive TrialResult where
  | confirmed
  | rolledBack
  | partly
  | openFailed
  | badJournal
deriving DecidableEq, Repr

/-- The restore mark of a journal entry (R70). -/
inductive RestoreMark where
  | none
  | waiting
  | unrestored
deriving DecidableEq, Repr

/-- An entry of the on-chip Trial Journal (R70). -/
structure JournalEntry where
  addr : Addr
  preImage : Word
  region : Fin 16
  writes : Nat
  last : Word
  mark : RestoreMark
deriving DecidableEq, Repr

/-- A rollback that waits for the sequence in flight (R68). -/
structure RollbackDue where
  cause : EndCause
  carrier : Option Carrier
deriving DecidableEq, Repr

/-- The outcome record (R82). A field that the record has not been given is absent (R81). -/
structure TrialOutcome where
  number : Nat
  result : Option TrialResult
  cause : Option EndCause
  entriesAtEnd : Option Nat
  restored : Option Nat
  unrestored : List Addr
  refused : Option Nat
  confirmFailures : Option Nat
  lossCarrier : Option Carrier
  secondsOpen : Option Nat
  recovered : Bool
deriving DecidableEq, Repr

/-- The header words TRU writes (R79), by the event that makes it write them. -/
inductive HeaderStep where
  | staleState
  | staleCount
  | openCount
  | openState
  | closeState
  | closeCount
  | endState
  | endCount
deriving DecidableEq, Repr

/-- What TRU is engaged in on the M-port. -/
inductive TruWork where
  | idle
  /-- The first header write waits for the sequence in flight to answer (R59, R64). -/
  | awaitSequence (step : HeaderStep)
  /-- A header word is requested; it is the retry, and an earlier attempt ended TIMEOUT. -/
  | header (step : HeaderStep) (retry timedOut : Bool)
  /-- The restore of the newest WAITING entry is requested; it is the retry (R74). -/
  | restore (retry : Bool)
deriving DecidableEq, Repr

/-- Duration in ticks and watch mask of a TRIAL-OPEN in OPENING (R59). -/
structure OpenRequest where
  ticks : Nat
  watch : CarrierSet
deriving DecidableEq, Repr

/-- Which confirm began the close (R64). -/
inductive CloseSource where
  | service
  | mark
deriving DecidableEq, Repr

/-- The Trial Unit (R56), with the work it is engaged in. -/
structure Tru where
  state : TrialState
  number : Nat
  timer : Option Nat
  watch : CarrierSet
  due : Option RollbackDue
  expiryHeld : Bool
  journal : List JournalEntry
  stale : Bool
  outcome : Option TrialOutcome
  opened : Nat
  confirmed : Nat
  rolledBack : Nat
  ignoredMarks : Nat
  work : TruWork
  openRequest : Option OpenRequest
  closeSource : Option CloseSource
  openTicks : Nat
deriving DecidableEq, Repr

/-! ## Overlay Unit (chapter 5) -/

/-- State of the fold record (R94). -/
inductive FoldState where
  | none
  | running
  | done
  | failed
deriving DecidableEq, Repr

/-- The step of a word at which a fold stopped (R94). -/
inductive FoldStep where
  | read
  | write
deriving DecidableEq, Repr

/-- The outcome at which a fold stopped (R94). -/
inductive FoldOutcome where
  | fault
  | timeout
  | barred
deriving DecidableEq, Repr

/-- The word at which a fold stopped (R94). -/
structure FoldFailure where
  map : MapId
  offset : Nat
  step : FoldStep
  outcome : FoldOutcome
deriving DecidableEq, Repr

/-- The fold record (R94). In NONE it holds no count. -/
structure FoldRecord where
  state : FoldState
  count : Option Nat
  failure : Option FoldFailure
deriving DecidableEq, Repr

/-- The fold step under way (R94, R95). -/
inductive FoldWork where
  | idle
  | awaitWrite
  | reading (map : MapId) (offset : Nat)
  | writing (map : MapId) (offset : Nat)
deriving DecidableEq, Repr

/-- The Overlay Unit. A presence map is the strictly rising list of the offsets whose flag is set; its set count is
the length of the list (R86). -/
structure Ovu where
  map0 : List Nat
  map1 : List Nat
  fold : FoldRecord
  work : FoldWork
deriving DecidableEq, Repr

/-! ## Report Capture Unit (chapter 6) -/

/-- Kind of a layout slot other than NONE (R99). -/
inductive ReportKind where
  | rsl
  | mse
  | xpd
  | corr
  | uncorr
  | modstep
deriving DecidableEq, Repr

/-- A layout slot that is not of kind NONE (R99). -/
structure LayoutSlot where
  wordIndex : Nat
  kind : ReportKind
  field : Field
deriving DecidableEq, Repr

/-- A loaded report layout (R99): a slot of kind NONE is absent. -/
structure Layout where
  closing : Nat
  slots : Vector (Option LayoutSlot) 8
deriving DecidableEq, Repr

/-- A value of an assembly buffer with its fresh mark (R104). -/
structure Assembled where
  value : Int
  fresh : Bool
deriving DecidableEq, Repr

/-- The assembly buffer of one carrier (R104). -/
structure Buffer where
  rsl : Assembled
  mse : Assembled
  xpd : Assembled
  corr : Assembled
  uncorr : Assembled
  modstep : Assembled
deriving DecidableEq, Repr

/-- Capture state of a carrier (R106). -/
inductive CaptureState where
  | none
  | track
  | stale
deriving DecidableEq, Repr

/-- Verdict on a carrier's peak (R112). -/
inductive Verdict where
  | none
  | main
  | low
  | side
deriving DecidableEq, Repr

/-- A peak RSL with its tick (R106). -/
structure Peak where
  rsl : Int
  tick : BitVec 32
deriving DecidableEq, Repr

/-- The carrier settings (R106, R116). -/
structure CarrierSettings where
  enabled : Bool
  expected : Option Int
  tolerance : Nat
  margin : Nat
deriving DecidableEq, Repr

/-- The capture record of one carrier (R106). -/
structure CaptureRecord where
  state : CaptureState
  lastRsl : Option Int
  lastMse : Option Int
  lastXpd : Option Int
  lastModstep : Option Nat
  lastCorr : Option Nat
  lastUncorr : Option Nat
  captures : Nat
  incomplete : Nat
  lastTick : Option (BitVec 32)
  peak : Option Peak
  lossRun : Nat
  timer : Option Nat
  verdict : Verdict
  settings : CarrierSettings
deriving DecidableEq, Repr

/-- The Report Capture Unit. -/
structure Rcu where
  layout : Option Layout
  buffers : PerCarrier Buffer
  records : PerCarrier CaptureRecord
  tickCount : BitVec 32
  reportTimeout : Nat
  lossFloor : Int
  ga : Bool
  gb : Bool
  gx : Bool
deriving DecidableEq, Repr

/-! ## Tone and Mute Unit (chapter 7) -/

/-- The mute state (R124). -/
inductive MuteState where
  | clear
  | muted
  | holdoff
deriving DecidableEq, Repr

/-- The kind of the tone source (R132). -/
inductive SourceKind where
  | carrier
  | group
deriving DecidableEq, Repr

/-- The tone state (R135). -/
inductive ToneState where
  | silent
  | noSignal
  | pulsed
  | steady
deriving DecidableEq, Repr

/-- The tone settings (R132). -/
structure ToneSettings where
  enabled : Bool
  kind : SourceKind
  carrier : Carrier
  floor : Int
  span : Nat
deriving DecidableEq, Repr

/-- TMU's view of one carrier (R131). -/
structure CarrierView where
  tracking : Bool
  lastRsl : Option Int
deriving DecidableEq, Repr

/-- The Tone and Mute Unit. -/
structure Tmu where
  mastRaw : Bool
  mastAccepted : Bool
  debounce : Option Nat
  mute : MuteState
  holdoff : Option Nat
  holdoffSetting : Nat
  settings : ToneSettings
  members : CarrierSet
  view : PerCarrier CarrierView
  value : Option Int
  peak : Option Int
  pitch : Nat
  tone : ToneState
  cadence : Nat
deriving DecidableEq, Repr

/-! ## Acceptance Unit (chapter 8) -/

/-- How a step starts (R139). -/
inductive StepStart where
  | immediate
  | onMark
deriving DecidableEq, Repr

/-- A plan step (R139). -/
structure PlanStep where
  mask : CarrierSet
  start : StepStart
  arm : Nat
  settle : Nat
  measure : Nat
  needsTransmit : Bool
  reportsMin : Nat
  rslMin : Option Int
  rslMax : Option Int
  mseMax : Option Int
  xpdMin : Option Int
  uncorrMax : Option Nat
  modstepMin : Option Nat
deriving DecidableEq, Repr

/-- The run state (section 8.4). -/
inductive RunState where
  | idle
  | armed
  | settling
  | measuring
deriving DecidableEq, Repr

/-- The aggregates of one carrier (R150). -/
structure Aggregate where
  reports : Nat
  rslLeast : Option Int
  rslGreatest : Option Int
  mseWorst : Option Int
  xpdLeast : Option Int
  uncorrSum : Nat
  uncorrSeen : Bool
  corrSum : Nat
  downshifts : Nat
  modstepSeen : Bool
  stale : Bool
deriving DecidableEq, Repr

/-- The criteria of a step, in the order of section 11.4. -/
inductive Criterion where
  | reportsMin
  | rslMin
  | rslMax
  | mseMax
  | xpdMin
  | uncorrMax
  | modstepMin
deriving DecidableEq, Repr

/-- How a step ended (R158). -/
inductive StepOutcome where
  | pass
  | fail
  | aborted
deriving DecidableEq, Repr

/-- Why a step ended so (R158). -/
inductive StepCause where
  | none
  | criteria
  | stale
  | noMark
  | mute
  | rollback
  | operator
deriving DecidableEq, Repr

/-- The result of one carrier in a log record (R158). The criteria sets list their members in the order of section
11.4. -/
structure CarrierResult where
  carrier : Carrier
  aggregate : Aggregate
  failed : List Criterion
  noData : List Criterion
deriving DecidableEq, Repr

/-- A record of the acceptance log (R158). -/
structure LogRecord where
  sequence : Nat
  step : Nat
  outcome : StepOutcome
  cause : StepCause
  measured : Nat
  results : List CarrierResult
deriving DecidableEq, Repr

/-- Outcome of the last run (R157). -/
inductive RunOutcome where
  | none
  | pass
  | fail
  | aborted
  | void
deriving DecidableEq, Repr

/-- The last-run record (R157). -/
structure LastRun where
  outcome : RunOutcome
  firstStep : Option Nat
  firstSequence : Option Nat
  lastSequence : Option Nat
  passed : Nat
  stray : Nat
deriving DecidableEq, Repr

/-- The Acceptance Unit (R138). A plan length of 0 is "no plan". -/
structure Acu where
  planLength : Nat
  stopOnFail : Bool
  plan : Vector (Option PlanStep) 32
  runState : RunState
  current : Option Nat
  timer : Option Nat
  measured : Nat
  aggregates : PerCarrier (Option Aggregate)
  lastRun : LastRun
  log : List LogRecord
  nextSequence : Nat
deriving DecidableEq, Repr

/-! ## Phase Controller (chapter 9) -/

/-- The handover sub-step (R164). -/
inductive HandoverStep where
  | fold
  | write
deriving DecidableEq, Repr

/-- The start-up sub-step (R164). -/
inductive StartupStep where
  | load
  | recover
deriving DecidableEq, Repr

/-- The operation state PHOP (R164). -/
inductive Phop where
  | none
  | saving
  | handingOver (step : HandoverStep)
  | starting (step : StartupStep)
deriving DecidableEq, Repr

/-- Operation of the profile operation record (R172). -/
inductive OpKind where
  | none
  | save
  | handover
deriving DecidableEq, Repr

/-- Result of the profile operation record (R172). -/
inductive OpResult where
  | running
  | done
  | failed
deriving DecidableEq, Repr

/-- The profile operation record (R172). -/
structure OpRecord where
  operation : OpKind
  result : Option OpResult
  step : Option HandoverStep
  cause : Option HandoverStep
  writes : Nat
  failOffset : Option Nat
  failOutcome : Option MFailure
deriving DecidableEq, Repr

/-- The profile status of a start-up (R180). -/
inductive ProfileStatus where
  | valid
  | absent
  | badSum
  | noMem
deriving DecidableEq, Repr

/-- The recovery result (R184). -/
inductive RecoveryResult where
  | closed
  | empty
  | restored
  | partly
  | badJournal
  | noRead
deriving DecidableEq, Repr

/-- What became of the header close of RECOVER (R184). -/
inductive HeaderClose where
  | notWritten
  | closed
  | countFailed
  | stateFailed
deriving DecidableEq, Repr

/-- The start-up record (R184). -/
structure StartupRecord where
  status : ProfileStatus
  commission : Bool
  phase : Phase
  recovery : RecoveryResult
  recovered : Nat
  unrestored : Nat
  close : HeaderClose
deriving DecidableEq, Repr

/-- A record of the journal area as RECOVER read it (R183). -/
structure JournalRecord where
  addr : Addr
  preImage : Word
deriving DecidableEq, Repr

/-- What RECOVER has found once its restores are over (R182, R183). -/
structure RecoverySummary where
  result : RecoveryResult
  recovered : Nat
  unrestored : Nat
deriving DecidableEq, Repr

/-- How far RECOVER has come; `retry` says that the cycle requested is the retry (R182, R183). -/
inductive RecoverStage where
  | readState (retry : Bool)
  | readCount (state : Word) (retry : Bool)
  | readRecord (number count : Nat) (good : List JournalRecord) (part : List Word) (retry : Bool)
  | restore (number count : Nat) (todo : List JournalRecord) (restored : Nat) (unrestored : List Addr) (retry : Bool)
  | closeState (number : Nat) (summary : RecoverySummary) (retry : Bool)
  | closeCount (summary : RecoverySummary) (retry : Bool)
deriving DecidableEq, Repr

/-- What PHC is engaged in on the M-port. -/
inductive PhcWork where
  | idle
  /-- The probe read of BEGIN (R166). -/
  | probe
  /-- Write number `index` of the fixed image, in the order of R170. -/
  | writing (image : List Word) (index : Nat)
  /-- LOAD, with the words staged so far (R180). -/
  | loading (staged : List Word)
  /-- RECOVER, after a LOAD of this status (R182). -/
  | recovering (status : ProfileStatus) (stage : RecoverStage)
deriving DecidableEq, Repr

/-- The Phase Controller (R164). -/
structure Phc where
  phase : Phase
  phop : Phop
  seconds : Nat
  accumulator : Nat
  operation : OpRecord
  startup : Option StartupRecord
  work : PhcWork
deriving DecidableEq, Repr

/-! ## Service Line Interface (chapter 10) -/

/-- The frame state of the receiver with the bytes gathered (R187); `badLength` is the bad length of R188 waiting
for the byte taken as the frame's code. -/
inductive RxState where
  | hunt
  | length
  | code (len : Nat)
  | body (len : Nat) (code : Byte) (bytes : List Byte)
  | check (len : Nat) (code : Byte) (bytes : List Byte)
  | badLength
deriving DecidableEq, Repr

/-- A frame the receiver has completed and that is not yet taken, answered or discarded (R187 to R189). -/
inductive RxFrame where
  | good (code : Byte) (body : List Byte)
  | bad (code : Option Byte)
deriving DecidableEq, Repr

/-- The 16 values a refresh has fixed, with its number and the index of the word requested (R199, R200). -/
structure Refresh where
  number : Nat
  values : List Word
  index : Nat
deriving DecidableEq, Repr

/-- The Service Line Interface. -/
structure Sli where
  rx : RxState
  gap : Option Nat
  completed : List RxFrame
  inHand : Option Byte
  sending : Option (List (List Byte))
  taken : Nat
  badFrames : Nat
  discarded : Nat
  mirrorEnabled : Bool
  mirrorAddress : Addr
  refreshTimer : Option Nat
  refreshNumber : Nat
  lastCompleted : Nat
  mirrorFaults : Nat
  mirrorAbandons : Nat
  refresh : Option Refresh
  orphan : Bool
deriving DecidableEq, Repr

/-! ## Events between blocks, and the whole -/

/-- An event raised to TRU (R10, R109). -/
inductive TruEvent where
  | confirm
  | abort
  | capture (n : CaptureNotice)
  | stale (c : Carrier)
deriving DecidableEq, Repr

/-- An event raised to ACU (R10, R73, R109, R130). -/
inductive AcuEvent where
  | step
  | mute
  | rollback
  | capture (n : CaptureNotice)
  | stale (c : Carrier)
deriving DecidableEq, Repr

/-- An event raised to TMU (R109, R113, R115, R119, R121). -/
inductive TmuEvent where
  | capture (n : CaptureNotice)
  | stale (c : Carrier)
  | leftTrack (m : CarrierSet)
  | peakReset (m : CarrierSet)
  | groups
deriving DecidableEq, Repr

/-- Events raised and not yet taken by their receiver, oldest first (log 2). -/
structure Raised where
  rcu : List Handoff
  tru : List TruEvent
  acu : List AcuEvent
  tmu : List TmuEvent
deriving DecidableEq, Repr

/-- The straps as sampled at RESET release (R179). -/
structure Straps where
  psel : BitVec 2
  commission : Bool
  depol : Bool
deriving DecidableEq, Repr

/-- The LC44: everything but the queue of commands. -/
structure Lc44 where
  resetAsserted : Bool
  straps : Straps
  iport : IPort
  mpc : Mpc
  ccl : Ccl
  fgd : Fgd
  tru : Tru
  ovu : Ovu
  rcu : Rcu
  tmu : Tmu
  acu : Acu
  phc : Phc
  sli : Sli
  raised : Raised
deriving DecidableEq, Repr

/-- The state of the model: the LC44 and the queue of commands that wait to be taken, first in, first out. -/
structure State where
  part : Lc44
  pending : List Instr
deriving DecidableEq, Repr

/-! ## Reset values -/

/-- No carrier. -/
def noCarriers : CarrierSet := PerCarrier.all false

/-- Every carrier. -/
def allCarriers : CarrierSet := PerCarrier.all true

/-- Fault-answer counters at 0 (R19). -/
def FaultCounters.zero : FaultCounters := ⟨0, 0, 0, 0, 0, 0, 0⟩

/-- CCL after a hardware reset (R4, R18, R19). -/
def Ccl.reset : Ccl where
  table := Vector.replicate 16 none
  phase := .transparent
  mirror := none
  faults := .zero

/-- FGD after a hardware reset (R36). -/
def Fgd.reset : Fgd where
  rules := Vector.replicate 64 none
  counts := Vector.replicate 64 0

/-- The I-port after a hardware reset (R1). -/
def IPort.reset : IPort where
  cycle := none
  answer := none

/-- MPC after a hardware reset (R35). -/
def Mpc.reset : Mpc where
  cycle := none
  hold := none
  fwdWaiting := false
  rstWaiting := none
  mirWaiting := none
  intQueue := []
  alternation := .rst
  timeout := Config.defaultMemoryTimeout
  loadedTimeout := none
  faults := 0
  timeouts := 0
  lastFailure := none

/-- TRU after a hardware reset (R56). -/
def Tru.reset : Tru where
  state := .idle
  number := 0
  timer := none
  watch := noCarriers
  due := none
  expiryHeld := false
  journal := []
  stale := false
  outcome := none
  opened := 0
  confirmed := 0
  rolledBack := 0
  ignoredMarks := 0
  work := .idle
  openRequest := none
  closeSource := none
  openTicks := 0

/-- The fold record NONE (R94). -/
def FoldRecord.reset : FoldRecord := ⟨.none, none, none⟩

/-- OVU after a hardware reset (R86, R94). -/
def Ovu.reset : Ovu where
  map0 := []
  map1 := []
  fold := .reset
  work := .idle

/-- An assembly buffer with every value 0 and every mark clear (R104). -/
def Buffer.reset : Buffer :=
  ⟨⟨0, false⟩, ⟨0, false⟩, ⟨0, false⟩, ⟨0, false⟩, ⟨0, false⟩, ⟨0, false⟩⟩

/-- The default carrier settings (R106, R117). -/
def CarrierSettings.default : CarrierSettings where
  enabled := false
  expected := none
  tolerance := 30
  margin := 150

/-- A capture record at its reset values but for the settings (R106, R115). -/
def CaptureRecord.cleared (settings : CarrierSettings) : CaptureRecord where
  state := .none
  lastRsl := none
  lastMse := none
  lastXpd := none
  lastModstep := none
  lastCorr := none
  lastUncorr := none
  captures := 0
  incomplete := 0
  lastTick := none
  peak := none
  lossRun := 0
  timer := none
  verdict := .none
  settings := settings

/-- RCU after a hardware reset (R99, R104, R106, R108, R111, R119). -/
def Rcu.reset : Rcu where
  layout := none
  buffers := PerCarrier.all Buffer.reset
  records := PerCarrier.all (CaptureRecord.cleared CarrierSettings.default)
  tickCount := 0
  reportTimeout := Config.defaultReportTimeout
  lossFloor := Config.defaultLossFloor
  ga := false
  gb := false
  gx := false

/-- The default tone settings (R132). -/
def ToneSettings.default : ToneSettings where
  enabled := true
  kind := .carrier
  carrier := 0
  floor := -900
  span := 600

/-- TMU after a hardware reset, with the MAST pin at a level (R124, R129, R131, R137; log 6). -/
def Tmu.reset (mastRaw : Bool) : Tmu where
  mastRaw := mastRaw
  mastAccepted := false
  debounce := none
  mute := .clear
  holdoff := none
  holdoffSetting := Config.defaultHoldoff
  settings := .default
  members := ⟨true, false, false, false⟩
  view := PerCarrier.all ⟨false, none⟩
  value := none
  peak := none
  pitch := 400
  tone := .silent
  cadence := 0

/-- The last-run record after a hardware reset, BEGIN and WIPE (R157). -/
def LastRun.reset : LastRun := ⟨.none, none, none, none, 0, 0⟩

/-- ACU after a hardware reset (R138). -/
def Acu.reset : Acu where
  planLength := 0
  stopOnFail := false
  plan := Vector.replicate 32 none
  runState := .idle
  current := none
  timer := none
  measured := 0
  aggregates := PerCarrier.all none
  lastRun := .reset
  log := []
  nextSequence := 1

/-- The profile operation record NONE (R172); its result is absent (log 36). -/
def OpRecord.reset : OpRecord := ⟨.none, none, none, none, 0, none, none⟩

/-- PHC after a hardware reset (R164). -/
def Phc.reset : Phc where
  phase := .transparent
  phop := .starting .load
  seconds := 0
  accumulator := 0
  operation := .reset
  startup := none
  work := .idle

/-- SLI after a hardware reset (R187, R195, R198, R201). -/
def Sli.reset : Sli where
  rx := .hunt
  gap := none
  completed := []
  inHand := none
  sending := none
  taken := 0
  badFrames := 0
  discarded := 0
  mirrorEnabled := false
  mirrorAddress := 0
  refreshTimer := none
  refreshNumber := 0
  lastCompleted := 0
  mirrorFaults := 0
  mirrorAbandons := 0
  refresh := none
  orphan := false

/-- No event raised. -/
def Raised.none : Raised := ⟨[], [], [], []⟩

/-- Straps before they are sampled (log 6). -/
def Straps.unsampled : Straps := ⟨0, false, false⟩

/-- The LC44 while RESET is asserted, with the MAST pin at a level (R35, R179). -/
def Lc44.inReset (mastRaw : Bool) : Lc44 where
  resetAsserted := true
  straps := .unsampled
  iport := .reset
  mpc := .reset
  ccl := .reset
  fgd := .reset
  tru := .reset
  ovu := .reset
  rcu := .reset
  tmu := .reset mastRaw
  acu := .reset
  phc := .reset
  sli := .reset
  raised := .none

/-- The machine at reset: RESET asserted, an open switch on MAST, no command waiting (log 5, log 6). -/
def State.reset : State where
  part := .inReset false
  pending := []

end Sys2Proof.Machine
end

