-- ==== Sys2Proof/Machine/Ops.lean ====
section
/-! DEFINITION. The shared operations: saturating counts, bytes and bit fields of words, one value per carrier, the
update of one block of the LC44, presence maps, requests for the M-port, and the raising of events. -/

namespace Sys2Proof

/-- The value of one carrier. -/
def PerCarrier.get {α : Type} (p : PerCarrier α) (c : Carrier) : α :=
  match c with
  | 0 => p.c0
  | 1 => p.c1
  | 2 => p.c2
  | 3 => p.c3

/-- One carrier's value replaced. -/
def PerCarrier.set {α : Type} (p : PerCarrier α) (c : Carrier) (a : α) : PerCarrier α :=
  match c with
  | 0 => { p with c0 := a }
  | 1 => { p with c1 := a }
  | 2 => { p with c2 := a }
  | 3 => { p with c3 := a }

/-- A function of the carrier and its value applied to every carrier. -/
def PerCarrier.mapAll {α β : Type} (p : PerCarrier α) (f : Carrier → α → β) : PerCarrier β :=
  ⟨f 0 p.c0, f 1 p.c1, f 2 p.c2, f 3 p.c3⟩

/-- The values in ascending carrier order. -/
def PerCarrier.toList {α : Type} (p : PerCarrier α) : List α := [p.c0, p.c1, p.c2, p.c3]

/-- A function of the carrier as one value per carrier. -/
def PerCarrier.ofFn {α : Type} (f : Carrier → α) : PerCarrier α := ⟨f 0, f 1, f 2, f 3⟩

namespace Machine

/-- The set of one carrier. -/
def onlyCarrier (c : Carrier) : CarrierSet := PerCarrier.ofFn fun b => decide (b = c)

/-- The carriers in ascending order. -/
def carriers : List Carrier := [0, 1, 2, 3]

/-- The members of a set of carriers in ascending order. -/
def membersOf (m : CarrierSet) : List Carrier := carriers.filter m.get

/-- The set of carriers of a mask: bit n stands for carrier n (R204). -/
def maskCarriers (n : Nat) : CarrierSet := PerCarrier.ofFn fun c => n.testBit c.val

/-- The mask of a set of carriers. -/
def carriersMask (m : CarrierSet) : Nat :=
  m.c0.toNat + 2 * m.c1.toNat + 4 * m.c2.toNat + 8 * m.c3.toNat

/-- A carrier named by a number 0 to 3. -/
def carrierOf (n : Nat) : Option Carrier := if h : n < 4 then some ⟨n, h⟩ else none

/-! ## Counts and timers -/

/-- A saturating count raised by `k`: it stops at its upper limit. -/
def satAdd (limit n k : Nat) : Nat := min limit (n + k)

/-- A saturating count raised by one. -/
def satInc (limit n : Nat) : Nat := satAdd limit n 1

/-- One tick of a timer: a running timer counts down to 0 and waits there for its expiry to be taken (log 1). -/
def tickTimer (t : Option Nat) : Option Nat := t.map (· - 1)

/-- A running timer has counted down to 0, and its expiry waits to be taken (log 1). A timer that was reloaded or
stopped meanwhile is not due: the earlier expiry does not happen (R62, R110, R127, R148). -/
def timerDue (t : Option Nat) : Bool := decide (t = some 0)

/-- Remaining ticks as seconds, rounded up; 0 when the timer is stopped (R62, R127, R163). -/
def secondsLeft (t : Option Nat) : Nat :=
  match t with
  | none => 0
  | some n => (n + 999) / 1000

/-! ## Words, bytes and fields -/

/-- The mask of a field's bits (R37). -/
def fieldMask (f : Field) : Word := BitVec.ofNat 16 ((2 ^ f.width - 1) * 2 ^ f.offset)

/-- The value of a field of a word (R37): unsigned, or two's complement. -/
def extract (f : Field) (w : Word) : Int :=
  let n := w.toNat / 2 ^ f.offset % 2 ^ f.width
  if f.signed && decide (2 ^ f.width ≤ 2 * n) then (n : Int) - (2 ^ f.width : Nat) else n

/-- The lowest width bits of a value placed at a field's position of an otherwise zero word (R37). -/
def fieldBits (f : Field) (v : Int) : Word :=
  BitVec.ofNat 16 ((v % (2 ^ f.width : Nat)).toNat * 2 ^ f.offset)

/-- A value inserted into a word: the bits outside the field keep their values (R37). -/
def insertField (f : Field) (v : Int) (w : Word) : Word := (w &&& ~~~(fieldMask f)) ||| fieldBits f v

/-- A signed quantity as its two's complement word. -/
def signedWord (v : Int) : Word := BitVec.ofInt 16 v

/-- The bits hi to lo of a word as a number. -/
def bits (hi lo : Nat) (w : Word) : Nat := w.toNat / 2 ^ lo % 2 ^ (hi + 1 - lo)

/-- The bytes of a number in `n` bytes, most significant first (R204). -/
def bytesBE (n v : Nat) : List Byte :=
  match n with
  | 0 => []
  | k + 1 => BitVec.ofNat 8 (v / 256 ^ k) :: bytesBE k v

/-- An address as three bytes, of which the top 4 bits are 0 (R204). -/
def addrBytes (a : Addr) : List Byte := bytesBE 3 a.toNat

/-- A word as two bytes. -/
def wordBytes (w : Word) : List Byte := bytesBE 2 w.toNat

/-- A signed 16-bit value as two bytes. -/
def signedBytes (v : Int) : List Byte := wordBytes (signedWord v)

/-- A flag as one byte, 00h or 01h (R204). -/
def flagByte (b : Bool) : List Byte := [if b then 1 else 0]

/-- An optional value: a presence byte, then the value, which is zero when absent (R204). -/
def optBytes {α : Type} (n : Nat) (enc : α → List Byte) (v : Option α) : List Byte :=
  match v with
  | none => 0 :: List.replicate n 0
  | some a => 1 :: enc a

/-- The address `n` words above an address. -/
def addrPlus (a : Addr) (n : Nat) : Addr := a + BitVec.ofNat 20 n

/-! ## One block of the LC44 replaced -/

/-- The I-port updated. -/
def Lc44.onIport (f : IPort → IPort) (d : Lc44) : Lc44 := { d with iport := f d.iport }
/-- MPC updated. -/
def Lc44.onMpc (f : Mpc → Mpc) (d : Lc44) : Lc44 := { d with mpc := f d.mpc }
/-- CCL updated. -/
def Lc44.onCcl (f : Ccl → Ccl) (d : Lc44) : Lc44 := { d with ccl := f d.ccl }
/-- FGD updated. -/
def Lc44.onFgd (f : Fgd → Fgd) (d : Lc44) : Lc44 := { d with fgd := f d.fgd }
/-- TRU updated. -/
def Lc44.onTru (f : Tru → Tru) (d : Lc44) : Lc44 := { d with tru := f d.tru }
/-- OVU updated. -/
def Lc44.onOvu (f : Ovu → Ovu) (d : Lc44) : Lc44 := { d with ovu := f d.ovu }
/-- RCU updated. -/
def Lc44.onRcu (f : Rcu → Rcu) (d : Lc44) : Lc44 := { d with rcu := f d.rcu }
/-- TMU updated. -/
def Lc44.onTmu (f : Tmu → Tmu) (d : Lc44) : Lc44 := { d with tmu := f d.tmu }
/-- ACU updated. -/
def Lc44.onAcu (f : Acu → Acu) (d : Lc44) : Lc44 := { d with acu := f d.acu }
/-- PHC updated. -/
def Lc44.onPhc (f : Phc → Phc) (d : Lc44) : Lc44 := { d with phc := f d.phc }
/-- SLI updated. -/
def Lc44.onSli (f : Sli → Sli) (d : Lc44) : Lc44 := { d with sli := f d.sli }
/-- The raised events updated. -/
def Lc44.onRaised (f : Raised → Raised) (d : Lc44) : Lc44 := { d with raised := f d.raised }

/-- A command's effect on the LC44 as the outcome of `exec`: the queue is left alone, and while RESET is asserted
nothing happens (log 5). -/
def State.effect (f : Lc44 → Lc44) (s : State) : Host.Outcome State Fault Refusal :=
  .next { s with part := if s.part.resetAsserted then s.part else f s.part }

/-! ## Events between blocks (log 2) -/

/-- RCU is given an accepted OBSERVE word (R11). -/
def raiseRcu (h : Handoff) (d : Lc44) : Lc44 := d.onRaised fun r => { r with rcu := r.rcu ++ [h] }
/-- An event raised to TRU. -/
def raiseTru (e : TruEvent) (d : Lc44) : Lc44 := d.onRaised fun r => { r with tru := r.tru ++ [e] }
/-- An event raised to ACU. -/
def raiseAcu (e : AcuEvent) (d : Lc44) : Lc44 := d.onRaised fun r => { r with acu := r.acu ++ [e] }
/-- An event raised to TMU. -/
def raiseTmu (e : TmuEvent) (d : Lc44) : Lc44 := d.onRaised fun r => { r with tmu := r.tmu ++ [e] }

/-- A hand-off taken by RCU leaves the list of those raised, whichever stands before it (log 37). -/
def takenRcu (h : Handoff) (d : Lc44) : Lc44 := d.onRaised fun r => { r with rcu := r.rcu.erase h }
/-- An event taken by TRU leaves the list of those raised. -/
def takenTru (e : TruEvent) (d : Lc44) : Lc44 := d.onRaised fun r => { r with tru := r.tru.erase e }
/-- An event taken by ACU leaves the list of those raised. -/
def takenAcu (e : AcuEvent) (d : Lc44) : Lc44 := d.onRaised fun r => { r with acu := r.acu.erase e }
/-- An event taken by TMU leaves the list of those raised. -/
def takenTmu (e : TmuEvent) (d : Lc44) : Lc44 := d.onRaised fun r => { r with tmu := r.tmu.erase e }

/-- The carrier an event to TRU is a notice of (R109); a MARK signal is none. -/
def TruEvent.about (e : TruEvent) : CarrierSet :=
  match e with
  | .confirm | .abort => noCarriers
  | .capture n => onlyCarrier n.carrier
  | .stale c => onlyCarrier c

/-- The carrier an event to ACU is a notice of (R109). -/
def AcuEvent.about (e : AcuEvent) : CarrierSet :=
  match e with
  | .step | .mute | .rollback => noCarriers
  | .capture n => onlyCarrier n.carrier
  | .stale c => onlyCarrier c

/-- The carriers an event to TMU is a notice of (R109, R113, R115). -/
def TmuEvent.about (e : TmuEvent) : CarrierSet :=
  match e with
  | .groups => noCarriers
  | .capture n => onlyCarrier n.carrier
  | .stale c => onlyCarrier c
  | .leftTrack m | .peakReset m => m

/-- An event may be taken now: no other event about one of its carriers waits in front of it (R109). One that is not
among those waiting may be taken when none about its carriers waits (log 2). -/
def inOrder {ε : Type} [DecidableEq ε] (about : ε → CarrierSet) (e : ε) (waiting : List ε) : Bool :=
  match waiting.find? fun x => (membersOf (about e)).any (about x).get with
  | none => true
  | some x => decide (x = e)

/-- A notice reaches TRU: taken in its order, it leaves the list of those raised and has its effect (R109). -/
def deliverTru (e : TruEvent) (f : Lc44 → Lc44) (d : Lc44) : Lc44 :=
  if inOrder TruEvent.about e d.raised.tru then f (takenTru e d) else d
/-- A notice reaches ACU: taken in its order, it leaves the list of those raised and has its effect (R109). -/
def deliverAcu (e : AcuEvent) (f : Lc44 → Lc44) (d : Lc44) : Lc44 :=
  if inOrder AcuEvent.about e d.raised.acu then f (takenAcu e d) else d
/-- A notice reaches TMU: taken in its order, it leaves the list of those raised and has its effect (R109). -/
def deliverTmu (e : TmuEvent) (f : Lc44 → Lc44) (d : Lc44) : Lc44 :=
  if inOrder TmuEvent.about e d.raised.tmu then f (takenTmu e d) else d

/-- RCU's capture notice to TRU, ACU and TMU (R109). -/
def sendCapture (n : CaptureNotice) (d : Lc44) : Lc44 :=
  raiseTmu (.capture n) (raiseAcu (.capture n) (raiseTru (.capture n) d))

/-- RCU's stale notice to TRU, ACU and TMU (R109). -/
def sendStale (c : Carrier) (d : Lc44) : Lc44 :=
  raiseTmu (.stale c) (raiseAcu (.stale c) (raiseTru (.stale c) d))

/-! ## Presence maps (R86) -/

/-- The set offsets of a map. -/
def Ovu.map (o : Ovu) (m : MapId) : List Nat :=
  match m with
  | .map0 => o.map0
  | .map1 => o.map1

/-- A map replaced. -/
def Ovu.setMap (o : Ovu) (m : MapId) (flags : List Nat) : Ovu :=
  match m with
  | .map0 => { o with map0 := flags }
  | .map1 => { o with map1 := flags }

/-- An offset entered into a strictly rising list of offsets. -/
def setFlag (k : Nat) (flags : List Nat) : List Nat :=
  match flags with
  | [] => [k]
  | x :: xs => if k < x then k :: x :: xs else if k = x then x :: xs else x :: setFlag k xs

/-- An offset removed from the list of set offsets. -/
def clearFlag (k : Nat) (flags : List Nat) : List Nat := flags.filter (· ≠ k)

/-- The set count of a map (R86). -/
def setCount (flags : List Nat) : Nat := flags.length

/-! ## Requests for the M-port (R26, R27) -/

/-- FWD requests the port for the I-port cycle in progress. -/
def requestFwd (d : Lc44) : Lc44 := d.onMpc fun m => { m with fwdWaiting := true }

/-- RST requests one restore cycle. -/
def requestRst (r : MRequest) (d : Lc44) : Lc44 := d.onMpc fun m => { m with rstWaiting := some r }

/-- An INT request of an owner joins the queue at its tail (R27). -/
def requestInt (o : IntOwner) (r : MRequest) (d : Lc44) : Lc44 :=
  d.onMpc fun m => { m with intQueue := m.intQueue ++ [⟨o, r⟩] }

/-- MIR requests one mirror word. -/
def requestMir (r : MRequest) (d : Lc44) : Lc44 := d.onMpc fun m => { m with mirWaiting := some r }

/-- The memory timeout of the grant that the port is under: that of the FWD hold, or the one in force when the port is
granted now (R23, R24, R28). -/
def Mpc.grantTimeout (m : Mpc) : Nat := m.hold.getD m.timeout

/-- A cycle presented on the M-port, with the memory timeout of its grant (R23, R24). -/
def present (c : Client) (r : MRequest) (d : Lc44) : Lc44 :=
  d.onMpc fun m => { m with cycle := some ⟨c, r, m.grantTimeout⟩ }

/-- The port is free: no cycle is under way and no FWD grant holds it (R28). -/
def Mpc.free (m : Mpc) : Bool := m.cycle.isNone && m.hold.isNone

/-! ## The profile block and the reserved ranges (R4) -/

/-- The base of the profile block that PSEL selects (R4). -/
def profileBase (psel : BitVec 2) : Nat := 0xFF000 - 0x1000 * psel.toNat

/-- The address of an offset in the profile block. -/
def Lc44.profileAddr (d : Lc44) (offset : Nat) : Addr := BitVec.ofNat 20 (profileBase d.straps.psel + offset)

/-- An address lies in the profile block. -/
def inProfile (psel : BitVec 2) (a : Nat) : Bool :=
  decide (profileBase psel ≤ a) && decide (a < profileBase psel + Config.profileWords)

/-- An address lies in a reserved range in force (R4). -/
def Lc44.reserved (d : Lc44) (a : Nat) : Bool :=
  inProfile d.straps.psel a ||
  match d.ccl.mirror with
  | none => false
  | some m => decide (m.toNat ≤ a) && decide (a < m.toNat + Config.mirrorWords)

/-- CCL puts the phase and the mirror range reported to it in force: at once when no cycle is in progress, and
otherwise when that cycle has been answered (R3, R4). -/
def syncCcl (d : Lc44) : Lc44 :=
  if d.iport.cycle.isSome then d
  else d.onCcl fun c =>
    { c with
      phase := d.phc.phase
      mirror := if d.sli.mirrorEnabled then some d.sli.mirrorAddress else none }

end Machine

end Sys2Proof
end

