-- ==== Sys2Proof/Machine/Flags.lean ====
section
/-! DEFINITION. The output lines of the LC44 and the flags other blocks read, computed from the state. -/

namespace Sys2Proof.Machine

/-- PHOP is STARTING. -/
def Phop.isStarting (p : Phop) : Bool :=
  match p with
  | .starting _ => true
  | _ => false

/-- PHOP is HANDING_OVER, in either sub-step. -/
def Phop.isHandingOver (p : Phop) : Bool :=
  match p with
  | .handingOver _ => true
  | _ => false

/-- The TXMUTE line: asserted in MUTED and HOLDOFF, and while RESET is asserted (R124). -/
def Lc44.txmute (d : Lc44) : Bool := d.resetAsserted || decide (d.tmu.mute ≠ .clear)

/-- The HOLD line: asserted while RESET is, and until start-up ends (R179, R184). -/
def Lc44.holdLine (d : Lc44) : Bool := d.resetAsserted || d.phc.phop.isStarting

/-- The wait line of the I-port: asserted from the take of a cycle to its answer (R1). -/
def Lc44.waitLine (d : Lc44) : Bool := d.iport.cycle.isSome

/-- DE, the driver enable: asserted while a response is sent (R191). -/
def Lc44.deAsserted (d : Lc44) : Bool := !d.resetAsserted && d.sli.sending.isSome

/-- The level of the DE pin: not driven while RESET is asserted; with DEPOL released high means asserted, with DEPOL
asserted low does (R191). -/
def Lc44.deLevel (d : Lc44) : Option Bool :=
  if d.resetAsserted then none else some (d.deAsserted != d.straps.depol)

/-- The TONE output in a tick: low, or a square wave of a frequency in hertz (R136). -/
inductive ToneOutput where
  | low
  | square (hertz : Nat)
deriving DecidableEq, Repr

/-- The length of the cadence of a tone state in ticks; 0 where it has none (R136). -/
def cadenceLength (t : ToneState) : Nat :=
  match t with
  | .silent => 0
  | .noSignal => 1000
  | .pulsed => 200
  | .steady => 0

/-- The TONE output (R136). -/
def Tmu.toneOutput (t : Tmu) : ToneOutput :=
  match t.tone with
  | .silent => .low
  | .noSignal => if t.cadence < 50 then .square 1000 else .low
  | .pulsed => if t.cadence < 100 then .square t.pitch else .low
  | .steady => .square t.pitch

/-- The trial state as it is reported: rollback due is shown as ROLLING_BACK (R85). -/
def Tru.reported (t : Tru) : TrialState :=
  if t.due.isSome then .rollingBack else t.state

/-- A guarded-write sequence is in flight: its settle step has ended and its answer is not given (R68). -/
def IPort.inFlight (p : IPort) : Bool :=
  match p.cycle with
  | none => false
  | some c =>
    match c.stage with
    | .preRead _ => true
    | .writeAhead _ _ => true
    | .guardForward _ => true
    | _ => false

/-- A redirected write is in progress (R89, R94). -/
def IPort.redirectedWrite (p : IPort) : Bool :=
  match p.cycle with
  | none => false
  | some c =>
    match c.stage, c.cycle.op with
    | .redirected _, .write _ => true
    | _, _ => false

/-- The group of a carrier: the carriers joined to it through GA, GB and GX (R119). -/
def group (ga gb gx : Bool) (c : Carrier) : CarrierSet :=
  match c with
  | 0 => ⟨true, ga, ga && gx, ga && gx && gb⟩
  | 1 => ⟨ga, true, gx, gx && gb⟩
  | 2 => ⟨gx && ga, gx, true, gb⟩
  | 3 => ⟨gb && gx && ga, gb && gx, gb, true⟩

/-- The verdict on a peak (R112), its conditions taken in order. -/
def verdictOf (s : CarrierSettings) (peak : Option Peak) : Verdict :=
  match s.expected, peak with
  | none, _ => .none
  | some _, none => .none
  | some e, some p =>
    if e - s.tolerance ≤ p.rsl then .main
    else if p.rsl ≤ e - s.margin then .side
    else .low

/-- A capture record with its verdict recomputed (R112). -/
def CaptureRecord.judged (r : CaptureRecord) : CaptureRecord :=
  { r with verdict := verdictOf r.settings r.peak }

/-- A carrier counts as lost to a trial: STALE, or a loss run of 3 or more (R61). -/
def CaptureRecord.lost (r : CaptureRecord) : Bool :=
  decide (r.state = .stale) || decide (3 ≤ r.lossRun)

end Sys2Proof.Machine
end

