-- ==== Sys2Proof/Machine/Codes.lean ====
section
/-! DEFINITION. The codes of the enumerated values, in memory and on the service line (section 11.4), the status
codes (R192), and the requests with their codes, body lengths and filter (R193, R204). -/

namespace Sys2Proof.Machine

/-! ## Codes of enumerated values (section 11.4) -/

/-- Phase. -/
def Phase.code (p : Phase) : Nat :=
  match p with
  | .transparent => 0
  | .commissioning => 1
  | .service => 2

/-- PHOP. -/
def Phop.code (p : Phop) : Nat :=
  match p with
  | .none => 0
  | .saving => 1
  | .handingOver _ => 2
  | .starting _ => 3

/-- Handover sub-step; also the failure cause of a handover. -/
def HandoverStep.code (h : HandoverStep) : Nat :=
  match h with
  | .fold => 0
  | .write => 1

/-- Start-up sub-step. -/
def StartupStep.code (h : StartupStep) : Nat :=
  match h with
  | .load => 0
  | .recover => 1

/-- The sub-step of PHOP, held while it is HANDING_OVER or STARTING (R164). -/
def Phop.subStep (p : Phop) : Option Nat :=
  match p with
  | .handingOver h => some h.code
  | .starting h => some h.code
  | _ => Option.none

/-- Treatment. -/
def Treatment.code (t : Treatment) : Nat :=
  match t with
  | .pass => 1
  | .barred => 2
  | .observe _ _ _ => 3
  | .guarded _ _ => 4
  | .redirect _ _ => 5
  | .mark _ _ _ => 6

/-- MARK signal. -/
def MarkSignal.code (m : MarkSignal) : Nat :=
  match m with
  | .confirm => 1
  | .abort => 2
  | .step => 3

/-- MARK signal of a code. -/
def MarkSignal.ofCode (n : Nat) : Option MarkSignal :=
  match n with
  | 1 => some .confirm
  | 2 => some .abort
  | 3 => some .step
  | _ => none

/-- Map number. -/
def MapId.code (m : MapId) : Nat :=
  match m with
  | .map0 => 0
  | .map1 => 1

/-- Map of a number. -/
def MapId.ofCode (n : Nat) : Option MapId :=
  match n with
  | 0 => some .map0
  | 1 => some .map1
  | _ => none

/-- Rule kind. -/
def RuleKind.code (k : RuleKind) : Nat :=
  match k with
  | .range _ _ => 0
  | .step _ _ _ => 1
  | .frozen => 2
  | .muteLock _ => 3

/-- Rule action. -/
def RuleAction.code (a : RuleAction) : Nat :=
  match a with
  | .clamp => 0
  | .refuse => 1
  | .note => 2

/-- Rule action of a code. -/
def RuleAction.ofCode (n : Nat) : Option RuleAction :=
  match n with
  | 0 => some .clamp
  | 1 => some .refuse
  | 2 => some .note
  | _ => none

/-- Layout kind of a slot: NONE for an absent one. -/
def slotKindCode (s : Option LayoutSlot) : Nat :=
  match s with
  | none => 0
  | some s =>
    match s.kind with
    | .rsl => 1
    | .mse => 2
    | .xpd => 3
    | .corr => 4
    | .uncorr => 5
    | .modstep => 6

/-- Layout kind of a code other than NONE. -/
def ReportKind.ofCode (n : Nat) : Option ReportKind :=
  match n with
  | 1 => some .rsl
  | 2 => some .mse
  | 3 => some .xpd
  | 4 => some .corr
  | 5 => some .uncorr
  | 6 => some .modstep
  | _ => none

/-- Capture state. -/
def CaptureState.code (c : CaptureState) : Nat :=
  match c with
  | .none => 0
  | .track => 1
  | .stale => 2

/-- Verdict. -/
def Verdict.code (v : Verdict) : Nat :=
  match v with
  | .none => 0
  | .main => 1
  | .low => 2
  | .side => 3

/-- Trial state. -/
def TrialState.code (t : TrialState) : Nat :=
  match t with
  | .idle => 0
  | .opening => 1
  | .open => 2
  | .closing => 3
  | .rollingBack => 4

/-- Restore mark. -/
def RestoreMark.code (m : RestoreMark) : Nat :=
  match m with
  | .none => 0
  | .waiting => 1
  | .unrestored => 2

/-- Trial result. -/
def TrialResult.code (t : TrialResult) : Nat :=
  match t with
  | .confirmed => 0
  | .rolledBack => 1
  | .partly => 2
  | .openFailed => 3
  | .badJournal => 4

/-- Trial end cause. -/
def EndCause.code (e : EndCause) : Nat :=
  match e with
  | .confirmedService => 0
  | .confirmedMark => 1
  | .expired => 2
  | .abortedService => 3
  | .abortedMark => 4
  | .loss => 5
  | .resetRecovered => 6

/-- Fold state. -/
def FoldState.code (f : FoldState) : Nat :=
  match f with
  | .none => 0
  | .running => 1
  | .done => 2
  | .failed => 3

/-- Fold step. -/
def FoldStep.code (f : FoldStep) : Nat :=
  match f with
  | .read => 0
  | .write => 1

/-- Fold outcome. -/
def FoldOutcome.code (f : FoldOutcome) : Nat :=
  match f with
  | .fault => 0
  | .timeout => 1
  | .barred => 2

/-- Mute state. -/
def MuteState.code (m : MuteState) : Nat :=
  match m with
  | .clear => 0
  | .muted => 1
  | .holdoff => 2

/-- Tone state. -/
def ToneState.code (t : ToneState) : Nat :=
  match t with
  | .silent => 0
  | .noSignal => 1
  | .pulsed => 2
  | .steady => 3

/-- Source kind. -/
def SourceKind.code (s : SourceKind) : Nat :=
  match s with
  | .carrier => 0
  | .group => 1

/-- Run state. -/
def RunState.code (r : RunState) : Nat :=
  match r with
  | .idle => 0
  | .armed => 1
  | .settling => 2
  | .measuring => 3

/-- Step start. -/
def StepStart.code (s : StepStart) : Nat :=
  match s with
  | .immediate => 0
  | .onMark => 1

/-- Step outcome. -/
def StepOutcome.code (s : StepOutcome) : Nat :=
  match s with
  | .pass => 0
  | .fail => 1
  | .aborted => 2

/-- Step outcome of a code. -/
def StepOutcome.ofCode (n : Nat) : Option StepOutcome :=
  match n with
  | 0 => some .pass
  | 1 => some .fail
  | 2 => some .aborted
  | _ => none

/-- Step cause. -/
def StepCause.code (s : StepCause) : Nat :=
  match s with
  | .none => 0
  | .criteria => 1
  | .stale => 2
  | .noMark => 3
  | .mute => 4
  | .rollback => 5
  | .operator => 6

/-- Step cause of a code. -/
def StepCause.ofCode (n : Nat) : Option StepCause :=
  match n with
  | 0 => some .none
  | 1 => some .criteria
  | 2 => some .stale
  | 3 => some .noMark
  | 4 => some .mute
  | 5 => some .rollback
  | 6 => some .operator
  | _ => none

/-- Last-run outcome. -/
def RunOutcome.code (r : RunOutcome) : Nat :=
  match r with
  | .none => 0
  | .pass => 1
  | .fail => 2
  | .aborted => 3
  | .void => 4

/-- The seven criteria in the order of their set bits. -/
def allCriteria : List Criterion :=
  [.reportsMin, .rslMin, .rslMax, .mseMax, .xpdMin, .uncorrMax, .modstepMin]

/-- The bit of a criterion in a criteria set. -/
def Criterion.bit (c : Criterion) : Nat :=
  match c with
  | .reportsMin => 0
  | .rslMin => 1
  | .rslMax => 2
  | .mseMax => 3
  | .xpdMin => 4
  | .uncorrMax => 5
  | .modstepMin => 6

/-- A criteria set as the number whose bit n stands for member n (R204). -/
def criteriaMask (l : List Criterion) : Nat :=
  (allCriteria.map fun c => if c ∈ l then 2 ^ c.bit else 0).sum

/-- The criteria set of a mask. -/
def criteriaOfMask (n : Nat) : List Criterion := allCriteria.filter fun c => n.testBit c.bit

/-- Profile status. -/
def ProfileStatus.code (p : ProfileStatus) : Nat :=
  match p with
  | .valid => 0
  | .absent => 1
  | .badSum => 2
  | .noMem => 3

/-- Recovery result. -/
def RecoveryResult.code (r : RecoveryResult) : Nat :=
  match r with
  | .closed => 0
  | .empty => 1
  | .restored => 2
  | .partly => 3
  | .badJournal => 4
  | .noRead => 5

/-- Header close. -/
def HeaderClose.code (h : HeaderClose) : Nat :=
  match h with
  | .notWritten => 0
  | .closed => 1
  | .countFailed => 2
  | .stateFailed => 3

/-- Profile operation. -/
def OpKind.code (o : OpKind) : Nat :=
  match o with
  | .none => 0
  | .save => 1
  | .handover => 2

/-- Result of a profile operation. -/
def OpResult.code (o : OpResult) : Nat :=
  match o with
  | .running => 0
  | .done => 1
  | .failed => 2

/-- M-port client. -/
def Client.code (c : Client) : Nat :=
  match c with
  | .fwd => 0
  | .rst => 1
  | .int => 2
  | .mir => 3

/-- INT owner. -/
def IntOwner.code (o : IntOwner) : Nat :=
  match o with
  | .tru => 0
  | .ovu => 1
  | .phc => 2

/-- Direction. -/
def BusOp.code (o : BusOp) : Nat :=
  match o with
  | .read => 0
  | .write _ => 1

/-- M-port outcome of a failed cycle. -/
def MFailure.code (f : MFailure) : Nat :=
  match f with
  | .fault => 0
  | .timeout => 1

/-! ## Statuses (R192) -/

/-- The status of a response. -/
inductive Status where
  | ok
  | accepted
  | busy
  | badPhase
  | badArg
  | badRule
  | full
  | tooLate
  | badState
  | noMem
  | notReady
  | badFrame
  | unknown
deriving DecidableEq, Repr

/-- The status byte (R192). -/
def Status.code (s : Status) : Nat :=
  match s with
  | .ok => 0x00
  | .accepted => 0x01
  | .busy => 0x02
  | .badPhase => 0x03
  | .badArg => 0x04
  | .badRule => 0x05
  | .full => 0x06
  | .tooLate => 0x07
  | .badState => 0x08
  | .noMem => 0x09
  | .notReady => 0x0A
  | .badFrame => 0x0B
  | .unknown => 0x0C

/-! ## Requests (R193, R204) -/

/-- The requests of the catalogue (section 10.6). -/
inductive Req where
  | ident
  | status
  | begin
  | wipe
  | save
  | handover
  | loadRegion
  | readRegion
  | loadRule
  | readRule
  | loadLayout
  | readLayout
  | setCarrier
  | readCarrier
  | peakReset
  | clearCapture
  | setGroups
  | setTone
  | setTimes
  | setMirror
  | muteRelease
  | trialOpen
  | trialConfirm
  | trialExtend
  | trialAbort
  | readTrial
  | overlayDiscard
  | readOverlay
  | loadStep
  | readStep
  | runStart
  | runAbort
  | readLog
  | logClear
deriving DecidableEq, Repr

/-- The code of a request (section 11.3). -/
def Req.code (r : Req) : Byte :=
  match r with
  | .ident => 0x01
  | .status => 0x02
  | .begin => 0x03
  | .wipe => 0x04
  | .save => 0x05
  | .handover => 0x06
  | .loadRegion => 0x10
  | .readRegion => 0x11
  | .loadRule => 0x12
  | .readRule => 0x13
  | .loadLayout => 0x14
  | .readLayout => 0x15
  | .setCarrier => 0x20
  | .readCarrier => 0x21
  | .peakReset => 0x22
  | .clearCapture => 0x23
  | .setGroups => 0x24
  | .setTone => 0x25
  | .setTimes => 0x26
  | .setMirror => 0x27
  | .muteRelease => 0x28
  | .trialOpen => 0x30
  | .trialConfirm => 0x31
  | .trialExtend => 0x32
  | .trialAbort => 0x33
  | .readTrial => 0x34
  | .overlayDiscard => 0x38
  | .readOverlay => 0x39
  | .loadStep => 0x40
  | .readStep => 0x41
  | .runStart => 0x42
  | .runAbort => 0x43
  | .readLog => 0x44
  | .logClear => 0x45

/-- The body bytes of a request (section 11.3). -/
def Req.bodyLength (r : Req) : Nat :=
  match r with
  | .ident => 0
  | .status => 0
  | .begin => 0
  | .wipe => 0
  | .save => 0
  | .handover => 0
  | .loadRegion => 24
  | .readRegion => 1
  | .loadRule => 15
  | .readRule => 1
  | .loadLayout => 42
  | .readLayout => 0
  | .setCarrier => 9
  | .readCarrier => 1
  | .peakReset => 1
  | .clearCapture => 1
  | .setGroups => 3
  | .setTone => 7
  | .setTimes => 7
  | .setMirror => 4
  | .muteRelease => 0
  | .trialOpen => 3
  | .trialConfirm => 0
  | .trialExtend => 2
  | .trialAbort => 0
  | .readTrial => 2
  | .overlayDiscard => 1
  | .readOverlay => 2
  | .loadStep => 36
  | .readStep => 1
  | .runStart => 1
  | .runAbort => 0
  | .readLog => 1
  | .logClear => 0

/-- All requests. -/
def allReqs : List Req :=
  [.ident, .status, .begin, .wipe, .save, .handover, .loadRegion, .readRegion, .loadRule, .readRule, .loadLayout,
    .readLayout, .setCarrier, .readCarrier, .peakReset, .clearCapture, .setGroups, .setTone, .setTimes, .setMirror,
    .muteRelease, .trialOpen, .trialConfirm, .trialExtend, .trialAbort, .readTrial, .overlayDiscard, .readOverlay,
    .loadStep, .readStep, .runStart, .runAbort, .readLog, .logClear]

/-- A code names a request. -/
def namesRequest (code : Byte) : Bool := allReqs.any fun r => decide (r.code = code)

/-- IDENT, STATUS and the eight READ requests, which are taken during SAVING and HANDING_OVER (R193). -/
def Req.isRead (r : Req) : Bool :=
  match r with
  | .ident | .status | .readRegion | .readRule | .readLayout | .readCarrier | .readTrial | .readOverlay
  | .readStep | .readLog => true
  | _ => false

/-- The phase and operation filter (R193): the status with which it refuses a request, or none when it takes it. -/
def requestFilter (phase : Phase) (phop : Phop) (r : Req) : Option Status :=
  match phop with
  | .starting _ => some .busy
  | .saving | .handingOver _ => if r.isRead then none else some .busy
  | .none =>
    match phase with
    | .transparent =>
      match r with
      | .ident | .status | .begin | .muteRelease => none
      | _ => some .badPhase
    | .commissioning =>
      match r with
      | .begin => some .badPhase
      | _ => none
    | .service =>
      match r with
      | .peakReset | .setTone | .muteRelease => none
      | _ => if r.isRead then none else some .badPhase

end Sys2Proof.Machine
end

