-- ==== Sys2Proof/Machine/Operands.lean ====
section
/-! DEFINITION. The operands of the requests: reading the fields of a body (R204), the definitions as they arrive in a
request or lie in the profile (raw), and the checks that turn a raw definition into one the LC44 holds. Start-up LOAD
makes the same checks (R18, R45, R120, R162, R181). -/

namespace Sys2Proof.Machine

/-! ## Fields of a body (R204) -/

/-- The byte at a position of a body. -/
def byteAt (body : List Byte) (i : Nat) : Nat := (body.getD i 0).toNat

/-- The 2-byte value at a position, most significant byte first. -/
def u16At (body : List Byte) (i : Nat) : Nat := byteAt body i * 256 + byteAt body (i + 1)

/-- The 3-byte value at a position, most significant byte first. -/
def u24At (body : List Byte) (i : Nat) : Nat := u16At body i * 256 + byteAt body (i + 2)

/-- The 4-byte value at a position, most significant byte first. -/
def u32At (body : List Byte) (i : Nat) : Nat := u16At body i * 65536 + u16At body (i + 2)

/-- A 16-bit value read as two's complement. -/
def signed16 (n : Nat) : Int := (BitVec.ofNat 16 n).toInt

/-- A 16-bit value read as two's complement when signed and as unsigned otherwise (section 3.2). -/
def value16 (signed : Bool) (n : Nat) : Int := if signed then signed16 n else (n : Int)

/-- A flag byte is 00h or 01h (R204). -/
def flagOk (n : Nat) : Bool := decide (n ≤ 1)

/-- A number lies in a range, both ends included. -/
def within (lo hi n : Nat) : Bool := decide (lo ≤ n) && decide (n ≤ hi)

/-- A value lies in a range, both ends included. -/
def withinInt (lo hi v : Int) : Bool := decide (lo ≤ v) && decide (v ≤ hi)

/-- Two ranges of words share no word. -/
def disjoint (a la b lb : Nat) : Bool := decide (a + la ≤ b) || decide (b + lb ≤ a)

/-! ## Region Table entries (R15) -/

/-- A Region Table entry as it is carried. -/
structure RawRegion where
  base : Nat
  length : Nat
  initiators : Nat
  treatment : Nat
  firstRule : Nat
  ruleCount : Nat
  firstCarrier : Nat
  carrierCount : Nat
  stride : Nat
  map : Nat
  overlayBase : Nat
  value : Nat
  mask : Nat
  signal : Nat
deriving DecidableEq, Repr

/-- The definition of a LOAD-REGION body (section 11.3). -/
def RawRegion.ofBody (b : List Byte) : RawRegion where
  base := u24At b 2
  length := u24At b 5
  initiators := byteAt b 8
  treatment := byteAt b 9
  firstRule := byteAt b 10
  ruleCount := byteAt b 11
  firstCarrier := byteAt b 12
  carrierCount := byteAt b 13
  stride := byteAt b 14
  map := byteAt b 15
  overlayBase := u24At b 16
  value := u16At b 19
  mask := u16At b 21
  signal := byteAt b 23

/-- The conditions R15 puts on every treatment. An initiators byte with a bit above bit 1 set does not meet them
(log 38). -/
def RawRegion.frameOk (r : RawRegion) : Bool :=
  decide (r.base ≤ 0xFFFFF) && within 1 65536 r.length && decide (r.base + r.length ≤ 0x100000) &&
    within 1 3 r.initiators

/-- The conditions of R15 on a REDIRECT definition, `taken` saying that an entry at another index references a map. -/
def RawRegion.redirectOk (psel : BitVec 2) (taken : MapId → Bool) (m : MapId) (r : RawRegion) : Bool :=
  decide (r.length ≤ 512) && decide (r.overlayBase + r.length ≤ 0x100000) &&
    disjoint r.overlayBase r.length r.base r.length &&
    disjoint r.overlayBase r.length (profileBase psel) Config.profileWords && !taken m

/-- The treatment of a raw entry, when the conditions R15 puts on it hold (`closing` is the closing index of the
loaded layout). -/
def RawRegion.treatmentOf (psel : BitVec 2) (closing : Option Nat) (taken : MapId → Bool) (r : RawRegion) :
    Option Treatment :=
  match r.treatment with
  | 1 => some .pass
  | 2 => some .barred
  | 3 =>
    if decide (r.firstCarrier ≤ 3) && within 1 4 r.carrierCount && decide (r.firstCarrier + r.carrierCount ≤ 4) &&
        within 2 64 r.stride && (closing.all fun c => decide (c < r.stride)) then
      some (.observe r.firstCarrier r.carrierCount r.stride)
    else none
  | 4 =>
    if decide (r.firstRule ≤ 63) && decide (r.ruleCount ≤ 64) && decide (r.firstRule + r.ruleCount ≤ 64) then
      some (.guarded r.firstRule r.ruleCount)
    else none
  | 5 =>
    match MapId.ofCode r.map with
    | none => none
    | some m =>
      if r.redirectOk psel taken m then some (.redirect m (BitVec.ofNat 20 r.overlayBase)) else none
  | 6 => (MarkSignal.ofCode r.signal).map fun s => .mark (BitVec.ofNat 16 r.value) (BitVec.ofNat 16 r.mask) s
  | _ => none

/-- The entry a raw definition gives, when it passes R15. -/
def RawRegion.check (psel : BitVec 2) (closing : Option Nat) (taken : MapId → Bool) (r : RawRegion) : Option Region :=
  if r.frameOk then
    (r.treatmentOf psel closing taken).map fun t =>
      { base := BitVec.ofNat 20 r.base
        length := r.length
        ctl := r.initiators.testBit 0
        rpt := r.initiators.testBit 1
        treatment := t }
  else none

/-- The map a Region Table entry references. -/
def Region.map (r : Region) : Option MapId :=
  match r.treatment with
  | .redirect m _ => some m
  | _ => none

/-- The index and definition of each non-empty entry of the Region Table, in ascending index order. -/
def Ccl.entries (c : Ccl) : List (Fin 16 × Region) :=
  (List.finRange 16).filterMap fun i => c.table[i].map fun r => (i, r)

/-- An entry at another index references a map (R15). -/
def Ccl.mapTaken (c : Ccl) (index : Nat) (m : MapId) : Bool :=
  c.entries.any fun e => decide (e.1.val ≠ index) && decide (e.2.map = some m)

/-! ## Field rules (R42) -/

/-- The least value of a field (R37). -/
def Field.least (f : Field) : Int := if f.signed then -(2 ^ (f.width - 1) : Nat) else 0

/-- The greatest value of a field (R37). -/
def Field.greatest (f : Field) : Int :=
  if f.signed then (2 ^ (f.width - 1) : Nat) - 1 else (2 ^ f.width : Nat) - 1

/-- A value lies in a field's range. -/
def Field.holds (f : Field) (v : Int) : Bool := withinInt f.least f.greatest v

/-- A field rule as it is carried. -/
structure RawRule where
  word : Nat
  width : Nat
  offset : Nat
  signed : Nat
  kind : Nat
  lo : Nat
  hi : Nat
  step : Nat
  action : Nat
deriving DecidableEq, Repr

/-- The definition of a LOAD-RULE body (section 11.3). -/
def RawRule.ofBody (b : List Byte) : RawRule where
  word := u16At b 2
  width := byteAt b 4
  offset := byteAt b 5
  signed := byteAt b 6
  kind := byteAt b 7
  lo := u16At b 8
  hi := u16At b 10
  step := u16At b 12
  action := byteAt b 14

/-- The checks of R42 that refuse a rule BADARG. -/
def RawRule.argsOk (r : RawRule) : Bool := decide (r.kind ≤ 3) && decide (r.action ≤ 2) && flagOk r.signed

/-- The kind of a raw rule, with the bounds it uses; the fields a kind does not use are not held (R42). -/
def RawRule.kindOf (r : RawRule) : RuleKind :=
  let v := value16 (decide (r.signed = 1))
  match r.kind with
  | 0 => .range (v r.lo) (v r.hi)
  | 1 => .step (v r.lo) (v r.hi) r.step
  | 2 => .frozen
  | _ => .muteLock (v r.lo)

/-- The rule a raw definition describes. -/
def RawRule.toRule (r : RawRule) : Rule where
  word := r.word
  field := ⟨r.width, r.offset, decide (r.signed = 1)⟩
  kind := r.kindOf
  action := (RuleAction.ofCode r.action).getD .note

/-- The bounds of a rule satisfy R42. -/
def Rule.boundsOk (r : Rule) : Bool :=
  match r.kind with
  | .range lo hi => r.field.holds lo && r.field.holds hi && decide (lo ≤ hi)
  | .step lo hi step => r.field.holds lo && r.field.holds hi && decide (lo ≤ hi) && within 1 32767 step
  | .frozen => true
  | .muteLock lock => r.field.holds lock && decide (r.action ≠ .note)

/-- Two MUTE-LOCK rules ask for different values of a bit they share (R42). -/
def Rule.lockConflict (r q : Rule) : Bool :=
  match r.kind, q.kind with
  | .muteLock a, .muteLock b =>
    decide (r.word = q.word) &&
      decide ((fieldBits r.field a ^^^ fieldBits q.field b) &&& fieldMask r.field &&& fieldMask q.field ≠ 0)
  | _, _ => false

/-- The width and offset of a field as R42 wants them. -/
def Field.shapeOk (f : Field) : Bool := within 1 16 f.width && decide (f.offset ≤ 15) && decide (f.width + f.offset ≤ 16)

/-- The checks of R42 that refuse a rule BADRULE, against the rules at other indexes. -/
def Rule.defOk (others : List Rule) (r : Rule) : Bool :=
  r.field.shapeOk && r.boundsOk && !others.any r.lockConflict

/-- The rules at indexes other than the one named. -/
def Fgd.others (f : Fgd) (index : Nat) : List Rule :=
  (List.finRange 64).filterMap fun i => if i.val = index then none else f.rules[i]

/-! ## Report layout (R101) -/

/-- A layout slot as it is carried. -/
structure RawSlot where
  wordIndex : Nat
  kind : Nat
  width : Nat
  offset : Nat
  signed : Nat
deriving DecidableEq, Repr

/-- The slots of a LOAD-LAYOUT body (section 11.3). -/
def rawSlotsOfBody (b : List Byte) : Vector RawSlot 8 :=
  Vector.ofFn fun k =>
    { wordIndex := byteAt b (2 + 5 * k.val)
      kind := byteAt b (3 + 5 * k.val)
      width := byteAt b (4 + 5 * k.val)
      offset := byteAt b (5 + 5 * k.val)
      signed := byteAt b (6 + 5 * k.val) }

/-- The field of a raw slot. -/
def RawSlot.field (s : RawSlot) : Field := ⟨s.width, s.offset, decide (s.signed = 1)⟩

/-- The conditions R101 puts on the sign and width of a kind. -/
def kindFieldOk (k : ReportKind) (f : Field) : Bool :=
  match k with
  | .rsl | .mse | .xpd => f.signed || decide (f.width ≤ 15)
  | .corr | .uncorr => !f.signed
  | .modstep => !f.signed && decide (f.width ≤ 4)

/-- The conditions R101 puts on a slot. Of a slot of kind NONE only the kind is checked: that its signed byte is not is
the model's choice (log 42). -/
def RawSlot.ok (closing : Nat) (s : RawSlot) : Bool :=
  match ReportKind.ofCode s.kind with
  | none => decide (s.kind = 0)
  | some k => decide (s.wordIndex ≤ closing) && s.field.shapeOk && flagOk s.signed && kindFieldOk k s.field

/-- The slot a raw slot describes; a slot of kind NONE is absent. -/
def RawSlot.toSlot (s : RawSlot) : Option LayoutSlot :=
  (ReportKind.ofCode s.kind).map fun k => ⟨s.wordIndex, k, s.field⟩

/-- The layout a closing index and eight raw slots give, when they pass R101 but for its stride condition. -/
def checkLayout (closing : Nat) (slots : Vector RawSlot 8) : Option Layout :=
  if decide (closing ≤ 63) && slots.toList.all (RawSlot.ok closing) &&
      decide ((slots.toList.map RawSlot.kind).filter (· ≠ 0)).Nodup then
    some ⟨closing, slots.map RawSlot.toSlot⟩
  else none

/-- The closing index lies below the stride of every OBSERVE entry (R101). -/
def Ccl.stridesAllow (c : Ccl) (closing : Nat) : Bool :=
  c.entries.all fun e =>
    match e.2.treatment with
    | .observe _ _ stride => decide (closing < stride)
    | _ => true

/-! ## Carrier settings (R116) -/

/-- Carrier settings as they are carried. -/
structure RawCarrier where
  enabled : Nat
  present : Nat
  expected : Nat
  tolerance : Nat
  margin : Nat
deriving DecidableEq, Repr

/-- The settings of a SET-CARRIER body (section 11.3). -/
def RawCarrier.ofBody (b : List Byte) : RawCarrier where
  enabled := byteAt b 1
  present := byteAt b 2
  expected := u16At b 3
  tolerance := u16At b 5
  margin := u16At b 7

/-- The settings a raw form gives, when they pass R116. -/
def RawCarrier.check (r : RawCarrier) : Option CarrierSettings :=
  if flagOk r.enabled && flagOk r.present &&
      (decide (r.present = 0) || withinInt (-1500) 0 (signed16 r.expected)) &&
      decide (r.tolerance ≤ 500) && within 1 1000 r.margin && decide (r.tolerance < r.margin) then
    some
      { enabled := decide (r.enabled = 1)
        expected := if r.present = 1 then some (signed16 r.expected) else none
        tolerance := r.tolerance
        margin := r.margin }
  else none

/-! ## Tone settings (R132) and timing settings (R24, R111, R129) -/

/-- A tone floor in its range (R132). -/
def floorOk (v : Int) : Bool := withinInt (-1500) 0 v

/-- A tone span in its range (R132). -/
def spanOk (n : Nat) : Bool := within 100 1200 n

/-- The settings of a SET-TONE body, when each lies in its range (R132). -/
def toneOfBody (b : List Byte) : Option ToneSettings :=
  match carrierOf (byteAt b 2) with
  | none => none
  | some c =>
    if flagOk (byteAt b 0) && decide (byteAt b 1 ≤ 1) && floorOk (signed16 (u16At b 3)) && spanOk (u16At b 5) then
      some
        { enabled := decide (byteAt b 0 = 1)
          kind := if byteAt b 1 = 1 then .group else .carrier
          carrier := c
          floor := signed16 (u16At b 3)
          span := u16At b 5 }
    else none

/-- A memory timeout in its range (R24). -/
def memoryTimeoutOk (n : Nat) : Bool := within 2 250 n

/-- A report timeout in its range (R111). -/
def reportTimeoutOk (n : Nat) : Bool := within 100 10000 n

/-- A hold-off in its range (R129). -/
def holdoffOk (n : Nat) : Bool := decide (n ≤ 600)

/-- A loss floor in its range (R111). -/
def lossFloorOk (v : Int) : Bool := withinInt (-1500) 0 v

/-! ## Mirror settings (R198) -/

/-- Mirror settings pass the checks SET-MIRROR makes of an enabled mirror (R198). -/
def mirrorOk (psel : BitVec 2) (addr : Nat) : Bool :=
  decide (addr + Config.mirrorWords ≤ 0x100000) &&
    disjoint addr Config.mirrorWords (profileBase psel) Config.profileWords

/-! ## Plan steps (R140) -/

/-- A plan step as it is carried; each criterion with its presence. -/
structure RawStep where
  mask : Nat
  start : Nat
  arm : Nat
  settle : Nat
  measure : Nat
  needsTransmit : Nat
  reportsMin : Nat
  rslMin : Nat × Nat
  rslMax : Nat × Nat
  mseMax : Nat × Nat
  xpdMin : Nat × Nat
  uncorrMax : Nat × Nat
  modstepMin : Nat × Nat
deriving DecidableEq, Repr

/-- The step of a LOAD-STEP body (section 11.3). -/
def RawStep.ofBody (b : List Byte) : RawStep where
  mask := byteAt b 4
  start := byteAt b 5
  arm := u16At b 6
  settle := u16At b 8
  measure := u32At b 10
  needsTransmit := byteAt b 14
  reportsMin := u16At b 15
  rslMin := (byteAt b 17, u16At b 18)
  rslMax := (byteAt b 20, u16At b 21)
  mseMax := (byteAt b 23, u16At b 24)
  xpdMin := (byteAt b 26, u16At b 27)
  uncorrMax := (byteAt b 29, u32At b 30)
  modstepMin := (byteAt b 34, byteAt b 35)

/-- A signed criterion, absent when its presence is 0. -/
def rawSigned (p : Nat × Nat) : Option Int := if p.1 = 1 then some (signed16 p.2) else none

/-- An unsigned criterion, absent when its presence is 0. -/
def rawUnsigned (p : Nat × Nat) : Option Nat := if p.1 = 1 then some p.2 else none

/-- The step a raw form describes: reports-min 0 stands for 1, and an IMMEDIATE step holds no arm timeout (R139). -/
def RawStep.toStep (r : RawStep) : PlanStep where
  mask := maskCarriers r.mask
  start := if r.start = 1 then .onMark else .immediate
  arm := if r.start = 1 then r.arm else 0
  settle := r.settle
  measure := r.measure
  needsTransmit := decide (r.needsTransmit = 1)
  reportsMin := if r.reportsMin = 0 then 1 else r.reportsMin
  rslMin := rawSigned r.rslMin
  rslMax := rawSigned r.rslMax
  mseMax := rawSigned r.mseMax
  xpdMin := rawSigned r.xpdMin
  uncorrMax := rawUnsigned r.uncorrMax
  modstepMin := rawUnsigned r.modstepMin

/-- The conditions R140 puts on a step definition. -/
def RawStep.ok (r : RawStep) : Bool :=
  within 1 15 r.mask && decide (r.start ≤ 1) && (decide (r.start = 0) || within 1 3600 r.arm) &&
    decide (r.settle ≤ 600) && within 1 86400 r.measure && flagOk r.needsTransmit &&
    flagOk r.rslMin.1 && flagOk r.rslMax.1 && flagOk r.mseMax.1 && flagOk r.xpdMin.1 && flagOk r.uncorrMax.1 &&
    flagOk r.modstepMin.1 && (decide (r.modstepMin.1 = 0) || decide (r.modstepMin.2 ≤ 15)) &&
    match rawSigned r.rslMin, rawSigned r.rslMax with
    | some lo, some hi => decide (lo ≤ hi)
    | _, _ => true

/-- The step a raw form gives, when it passes R140. -/
def RawStep.check (r : RawStep) : Option PlanStep := if r.ok then some r.toStep else none

end Sys2Proof.Machine
end

