-- ==== Sys2Proof/Machine/Guard.lean ====
section
/-! DEFINITION. The Field Guard's rules on a working value (chapter 3): violations, corrections, the rule step and the
lock pass of the guarded-write sequence, and the violation counts. -/

namespace Sys2Proof.Machine

/-- A rule finds a violation in a word (R38), given the memory word and the TXMUTE sample. -/
def Rule.violated (mem : Option Word) (muted : Bool) (w : Word) (r : Rule) : Bool :=
  let v := extract r.field w
  match r.kind with
  | .range lo hi => decide (v < lo) || decide (hi < v)
  | .step lo hi step => decide (v < lo) || decide (hi < v) || decide ((v - lo) % step ≠ 0)
  | .frozen =>
    match mem with
    | none => false
    | some m => decide (v ≠ extract r.field m)
  | .muteLock lock => muted && decide (v ≠ lock)

/-- The correction of a violating value (R39). -/
def Rule.correction (mem : Option Word) (w : Word) (r : Rule) : Int :=
  let v := extract r.field w
  match r.kind with
  | .range lo hi => if v < lo then lo else hi
  | .step lo hi step => if v < lo then lo else lo + (min v hi - lo) / step * step
  | .frozen => (mem.map (extract r.field)).getD v
  | .muteLock lock => lock

/-- What the rules leave: the working value, the indexes whose counts rise, and whether a rule refused the write. -/
structure RuleResult where
  working : Word
  hits : List (Fin 64)
  refused : Bool
deriving DecidableEq, Repr

/-- The index at which a violation of a fixed rule is counted: none when it has been loaded since (R43). -/
def FixedRule.counted (r : FixedRule) : List (Fin 64) := if r.live then [r.index] else []

/-- Rules applied one after another to a working value (R48): CLAMP corrects it, NOTE leaves it, REFUSE ends. -/
def applyRules (mem : Option Word) (muted : Bool) (rules : List FixedRule) (w : Word) : RuleResult :=
  match rules with
  | [] => ⟨w, [], false⟩
  | r :: rs =>
    if r.rule.violated mem muted w then
      match r.rule.action with
      | .refuse => ⟨w, r.counted, true⟩
      | .note =>
        let rest := applyRules mem muted rs w
        { rest with hits := r.counted ++ rest.hits }
      | .clamp =>
        let rest := applyRules mem muted rs (insertField r.rule.field (r.rule.correction mem w) w)
        { rest with hits := r.counted ++ rest.hits }
    else applyRules mem muted rs w

/-- A rule is of kind MUTE-LOCK. -/
def Rule.isMuteLock (r : Rule) : Bool :=
  match r.kind with
  | .muteLock _ => true
  | _ => false

/-- A rule is of kind FROZEN. -/
def Rule.isFrozen (r : Rule) : Bool :=
  match r.kind with
  | .frozen => true
  | _ => false

/-- The lock values inserted again where a later rule has moved them; whatever the action, uncounted (R51). -/
def reinsertLocks (rules : List FixedRule) (w : Word) : Word :=
  match rules with
  | [] => w
  | r :: rs =>
    match r.rule.kind with
    | .muteLock lock => reinsertLocks rs (insertField r.rule.field lock w)
    | _ => reinsertLocks rs w

/-- The lock pass (R51) with the new TXMUTE sample. -/
def lockPass (muted : Bool) (g : GuardSeq) : RuleResult :=
  if !muted then ⟨g.working, [], false⟩
  else if g.sample then ⟨reinsertLocks g.rules g.working, [], false⟩
  else applyRules g.memWord true (g.rules.filter fun r => r.rule.isMuteLock) g.working

/-- Violation counts raised by one at each index, saturating at 255 (R40). -/
def raiseCounts (hits : List (Fin 64)) (counts : Vector Nat 64) : Vector Nat 64 :=
  match hits with
  | [] => counts
  | i :: is => raiseCounts is (counts.set i (satInc Config.max8 counts[i]))

/-- FGD counts violations. -/
def countHits (hits : List (Fin 64)) (d : Lc44) : Lc44 :=
  d.onFgd fun f => { f with counts := raiseCounts hits f.counts }

/-- The rules a sequence fixes (R46): the non-empty rules of the span whose word is the write's offset, in ascending
index order. -/
def Fgd.fixRules (f : Fgd) (first count offset : Nat) : List FixedRule :=
  (List.finRange 64).filterMap fun i =>
    match f.rules[i] with
    | none => none
    | some r =>
      if first ≤ i.val ∧ i.val < first + count ∧ r.word = offset then some ⟨i, r, true⟩ else none

/-- A fixed rule once an index has been loaded or emptied: its violations are no longer counted (R43). -/
def FixedRule.unlive (touched : Fin 64 → Bool) (r : FixedRule) : FixedRule :=
  if touched r.index then { r with live := false } else r

/-- A sequence once indexes have been loaded or emptied (R43). -/
def GuardSeq.unlive (touched : Fin 64 → Bool) (g : GuardSeq) : GuardSeq :=
  { g with rules := g.rules.map (FixedRule.unlive touched) }

/-- A stage once indexes have been loaded or emptied (R43). -/
def Stage.unlive (touched : Fin 64 → Bool) (s : Stage) : Stage :=
  match s with
  | .preRead g => .preRead (g.unlive touched)
  | .writeAhead g k => .writeAhead (g.unlive touched) k
  | .guardForward g => .guardForward (g.unlive touched)
  | s => s

/-- The cycle in progress once rule indexes have been loaded or emptied by WIPE (R43). -/
def unliveRules (touched : Fin 64 → Bool) (d : Lc44) : Lc44 :=
  d.onIport fun p => { p with cycle := p.cycle.map fun c => { c with stage := c.stage.unlive touched } }

end Sys2Proof.Machine
end

