-- ==== Sys2Proof/Machine/Respond.lean ====
section
/-! DEFINITION. Frames and responses of the service line (R186, R188 to R190): building a good frame, splitting a chain,
and starting to send an answer. -/

namespace Sys2Proof.Machine

/-- The 8-bit sum of bytes. -/
def byteSum (l : List Byte) : Byte := l.foldr (· + ·) 0

/-- A good frame with a code and a body (R186): start byte, length, code, body, checksum. -/
def frame (code : Byte) (body : List Byte) : List Byte :=
  let covered := BitVec.ofNat 8 (body.length + 1) :: code :: body
  0xC3 :: covered ++ [-(byteSum covered)]

/-- The code of the response to a code: the code plus 80h, or FFh where the code lies outside 01h to 7Fh (R186, R188,
R193). -/
def responseCode (code : Byte) : Byte := if 1 ≤ code.toNat ∧ code.toNat ≤ 0x7F then code + 0x80 else 0xFF

/-- The status byte of a response. -/
def Status.byte (s : Status) : Byte := BitVec.ofNat 8 s.code

/-- Data cut into pieces of at most 62 bytes, with enough fuel for its length (R190). -/
def cut62 (fuel : Nat) (data : List Byte) : List (List Byte) :=
  match fuel with
  | 0 => [data]
  | k + 1 => if data.length ≤ 62 then [data] else data.take 62 :: cut62 k (data.drop 62)

/-- The frames of a chain from segment `n` on: status, segment byte with the last-segment mark, data (R190). -/
def chainFrom (code : Byte) (s : Status) (n : Nat) (pieces : List (List Byte)) : List (List Byte) :=
  match pieces with
  | [] => []
  | [p] => [frame code (s.byte :: BitVec.ofNat 8 (n + 0x80) :: p)]
  | p :: q :: rest => frame code (s.byte :: BitVec.ofNat 8 n :: p) :: chainFrom code s (n + 1) (q :: rest)

/-- A chained response (R190). -/
def chain (code : Byte) (s : Status) (data : List Byte) : List (List Byte) :=
  chainFrom code s 0 (cut62 data.length data)

/-- The frames held that a response's beginning discards (R189; log 8): the completed ones that nothing has taken, and
one partly received. -/
def Sli.held (s : Sli) : Nat := s.completed.length + if s.rx = .hunt then 0 else 1

/-- SLI begins to send a response: the frames held, partly received or completed and not taken, are discarded and
counted (R189). -/
def startSending (frames : List (List Byte)) (d : Lc44) : Lc44 :=
  d.onSli fun s =>
    { s with
      sending := some frames
      discarded := satAdd Config.max16 s.discarded s.held
      completed := []
      rx := .hunt
      gap := none }

/-- The request in hand is answered by one frame. With no request in hand there is nothing to answer. -/
def answer (s : Status) (data : List Byte) (d : Lc44) : Lc44 :=
  match d.sli.inHand with
  | none => d
  | some code => startSending [frame (responseCode code) (s.byte :: data)] d

/-- The request in hand is answered by a chain (R190). -/
def answerChain (s : Status) (data : List Byte) (d : Lc44) : Lc44 :=
  match d.sli.inHand with
  | none => d
  | some code => startSending (chain (responseCode code) s data) d

/-- A request is in hand and waits for its owner's outcome (R194). -/
def Sli.awaits (s : Sli) (r : Req) : Bool := decide (s.inHand = some r.code) && s.sending.isNone

end Sys2Proof.Machine
end

