-- ==== Sys2Proof/Machine/Tone.lean ====
section
/-! DEFINITION. The Tone and Mute Unit's shared operations (chapter 7): the tone's recomputation, its members and view,
the default settings, and the mute state. -/

namespace Sys2Proof.Machine

/-- The last RSLs of the members of the source whose tracking flag is set (R134). -/
def Tmu.heard (t : Tmu) : List Int :=
  (membersOf t.members).filterMap fun c =>
    let v := t.view.get c
    if v.tracking then v.lastRsl else none

/-- The least of a list of values, absent for an empty list. -/
def leastOf (l : List Int) : Option Int :=
  match l with
  | [] => none
  | x :: xs =>
    match leastOf xs with
    | none => some x
    | some y => some (min x y)

/-- The tone peak after a recomputation (R134). -/
def peakAfter (value peak : Option Int) : Option Int :=
  match value, peak with
  | none, p => p
  | some v, none => some v
  | some v, some p => some (max v p)

/-- The pitch of a tone value in hertz (R135). -/
def pitchOf (s : ToneSettings) (v : Int) : Nat :=
  (max 400 (min 3600 (400 + ((v - s.floor) * 3200).tdiv s.span))).toNat

/-- The tone state (R135), its conditions taken in order. -/
def toneStateOf (phase : Phase) (s : ToneSettings) (value peak : Option Int) : ToneState :=
  if !s.enabled || decide (phase = .transparent) then .silent
  else
    match value, peak with
    | none, _ => .noSignal
    | some _, none => .steady
    | some v, some p => if p - 5 ≤ v then .steady else .pulsed

/-- The tone recomputed (R135): value, peak, pitch, state; the cadence begins anew when the state changes (R136). -/
def Tmu.recomputed (phase : Phase) (t : Tmu) : Tmu :=
  let value := leastOf t.heard
  let peak := peakAfter value t.peak
  let tone := toneStateOf phase t.settings value peak
  { t with
    value := value
    peak := peak
    pitch :=
      match value with
      | none => t.pitch
      | some v => pitchOf t.settings v
    tone := tone
    cadence := if tone = t.tone then t.cadence else 0 }

/-- TMU recomputes the tone under the phase in force. -/
def recomputeTone (d : Lc44) : Lc44 := d.onTmu (Tmu.recomputed d.phc.phase)

/-- The members of a source (R132): its carrier, or the group RCU gives for it. -/
def membersFor (r : Rcu) (s : ToneSettings) : CarrierSet :=
  match s.kind with
  | .carrier => group false false false s.carrier
  | .group => group r.ga r.gb r.gx s.carrier

/-- TMU's part of BEGIN and WIPE (R129, R134, R137): default settings, no peak, 400 Hz, hold-off 30 s, and no carrier
heard, since RCU has none in TRACK any more (R121; log 26). -/
def Tmu.toDefaults (t : Tmu) : Tmu :=
  { t with
    settings := .default
    members := group false false false 0
    view := PerCarrier.all ⟨false, none⟩
    peak := none
    pitch := 400
    holdoffSetting := Config.defaultHoldoff }

/-- A set names a member of the source. -/
def Tmu.namesMember (t : Tmu) (m : CarrierSet) : Bool := (membersOf m).any t.members.get

/-- A carrier's view replaced, and the tone recomputed when the carrier is a member of the source (R131, R135). -/
def changeView (c : Carrier) (v : CarrierView) (d : Lc44) : Lc44 :=
  let d := d.onTmu fun t => { t with view := t.view.set c v }
  if d.tmu.members.get c then recomputeTone d else d

/-- A MAST asserted event (R125): CLEAR and HOLDOFF go to MUTED; from CLEAR a mute notice is sent to ACU (R130). -/
def mastAsserted (d : Lc44) : Lc44 :=
  let notice := decide (d.tmu.mute = .clear)
  let d := d.onTmu fun t => { t with mute := .muted, holdoff := none }
  if notice then raiseAcu .mute d else d

/-- A MAST released event (R126): MUTED goes to HOLDOFF with its timer loaded, or to CLEAR when the hold-off is 0. -/
def mastReleased (d : Lc44) : Lc44 :=
  d.onTmu fun t =>
    if t.mute = .muted then
      if t.holdoffSetting = 0 then { t with mute := .clear, holdoff := none }
      else { t with mute := .holdoff, holdoff := some (t.holdoffSetting * 1000) }
    else t

/-- The phase set by PHC, which tells CCL, TMU and SLI (R164): CCL puts it in force as R3 says, TMU recomputes. -/
def setPhase (p : Phase) (d : Lc44) : Lc44 :=
  recomputeTone (syncCcl (d.onPhc fun x => { x with phase := p }))

end Sys2Proof.Machine
end

