-- ==== Sys2Proof/Machine/Profile.lean ====
section
/-! DEFINITION. The profile block (sections 11.1 and 11.2): the stored forms SAVE and handover write, the image with its
checksum and the order of its writes (R169, R170, R176, R202), the handover record (R174, R203), and what start-up LOAD
makes of the words it has staged (R180, R181). -/

namespace Sys2Proof.Machine

/-! ## Words from numbers -/

/-- A number as a word. -/
def natWord (n : Nat) : Word := BitVec.ofNat 16 n

/-- A 32-bit quantity as two words, the low 16 bits first (chapter 11). -/
def words32 (n : Nat) : List Word := [natWord n, natWord (n / 65536)]

/-- A bit of a word being built. -/
def bit (b : Bool) (n : Nat) : Nat := if b then 2 ^ n else 0

/-- An optional signed value as a word, 0 when absent. -/
def optWord (v : Option Int) : Word := signedWord (v.getD 0)

/-! ## Stored forms (section 11.1) -/

/-- Words +3 to +5 of a Region Table entry. -/
def Treatment.words (t : Treatment) : List Word :=
  match t with
  | .pass | .barred => [0, 0, 0]
  | .guarded first count => [natWord first, natWord count, 0]
  | .observe first count stride => [natWord (first + count * 16), natWord stride, 0]
  | .redirect m base => [natWord base.toNat, natWord (base.toNat / 65536 + m.code * 256), 0]
  | .mark value mask signal => [value, mask, natWord signal.code]

/-- A Region Table entry as stored: an empty one as zeros. -/
def regionWords (r : Option Region) : List Word :=
  match r with
  | none => List.replicate 6 0
  | some r =>
    [natWord r.base.toNat, natWord (r.base.toNat / 65536 + r.treatment.code * 16 + bit r.ctl 8 + bit r.rpt 9),
      natWord (r.length - 1)] ++ r.treatment.words

/-- Lo, hi and step of a rule as stored: 0 where the kind does not use them. -/
def RuleKind.words (k : RuleKind) : List Word :=
  match k with
  | .range lo hi => [signedWord lo, signedWord hi, 0]
  | .step lo hi n => [signedWord lo, signedWord hi, natWord n]
  | .frozen => [0, 0, 0]
  | .muteLock lock => [signedWord lock, 0, 0]

/-- A field rule as stored. -/
def ruleWords (r : Option Rule) : List Word :=
  match r with
  | none => List.replicate 5 0
  | some r =>
    [natWord r.word,
      natWord (r.field.offset + r.field.width * 16 + bit r.field.signed 9 + r.kind.code * 1024 +
        r.action.code * 4096 + bit true 15)] ++ r.kind.words

/-- A layout slot as stored, but for its kind. -/
def slotWord (s : Option LayoutSlot) : Word :=
  match s with
  | none => 0
  | some s =>
    natWord (s.wordIndex + s.field.offset * 64 + (s.field.width - 1) * 1024 + bit s.field.signed 14)

/-- The kinds of four slots as stored. -/
def kindsWord (a b c d : Option LayoutSlot) : Word :=
  natWord (slotKindCode a + slotKindCode b * 16 + slotKindCode c * 256 + slotKindCode d * 4096)

/-- The report layout as stored, 11 words. -/
def layoutWords (l : Option Layout) : List Word :=
  match l with
  | none => List.replicate 11 0
  | some l =>
    natWord (l.closing + bit true 15) :: l.slots.toList.map slotWord ++
      [kindsWord l.slots[0] l.slots[1] l.slots[2] l.slots[3], kindsWord l.slots[4] l.slots[5] l.slots[6] l.slots[7]]

/-- The settings of one carrier as stored. -/
def carrierWords (s : CarrierSettings) : List Word :=
  [natWord (bit s.enabled 0 + bit s.expected.isSome 1), optWord s.expected, natWord s.tolerance, natWord s.margin]

/-- A plan step as stored. -/
def planWords (p : Option PlanStep) : List Word :=
  match p with
  | none => List.replicate 12 0
  | some p =>
    [natWord (carriersMask p.mask + p.start.code * 16 + bit p.needsTransmit 5 + bit p.rslMin.isSome 8 +
        bit p.rslMax.isSome 9 + bit p.mseMax.isSome 10 + bit p.xpdMin.isSome 11 + bit p.uncorrMax.isSome 12 +
        bit p.modstepMin.isSome 13 + bit true 15),
      natWord (p.arm + p.modstepMin.getD 0 * 4096), natWord p.settle] ++ words32 p.measure ++
    [natWord p.reportsMin, optWord p.rslMin, optWord p.rslMax, optWord p.mseMax, optWord p.xpdMin] ++
    words32 (p.uncorrMax.getD 0)

/-- A carrier result as stored: reports and sums saturated at 65,535 (R202). -/
def resultWords (r : CarrierResult) : List Word :=
  let a := r.aggregate
  [natWord (r.carrier.val + bit a.uncorrSeen 2 + bit a.modstepSeen 3 + bit a.stale 4 + bit a.rslLeast.isSome 5 +
      bit a.rslGreatest.isSome 6 + bit a.mseWorst.isSome 7 + bit a.xpdLeast.isSome 8),
    natWord (criteriaMask r.failed + criteriaMask r.noData * 256), natWord (min Config.max16 a.reports),
    optWord a.rslLeast, optWord a.rslGreatest, optWord a.mseWorst, optWord a.xpdLeast,
    natWord (min Config.max16 a.uncorrSum), natWord (min Config.max16 a.corrSum), natWord a.downshifts]

/-- A log record as stored, 44 words. -/
def logWords (r : LogRecord) : List Word :=
  [natWord r.sequence,
    natWord (r.step + r.outcome.code * 32 + r.cause.code * 256 + r.results.length * 4096)] ++
  words32 r.measured ++ r.results.flatMap resultWords ++ List.replicate (40 - 10 * r.results.length) 0

/-! ## The handover record (R174, R203) -/

/-- One carrier's words of the handover record. -/
def handoverCarrier (r : CaptureRecord) : List Word :=
  [natWord (bit r.settings.enabled 0 + r.verdict.code * 2 + bit r.settings.expected.isSome 4 +
      bit r.peak.isSome 5 + bit r.lastRsl.isSome 6),
    optWord r.settings.expected, optWord (r.peak.map Peak.rsl), optWord r.lastRsl]

/-- A count saturated to one word. -/
def satWord (n : Nat) : Word := natWord (min Config.max16 n)

/-- The handover record from the items as they stand (R174). -/
def handoverRecord (d : Lc44) : List Word :=
  let f := d.ccl.faults
  [1] ++ words32 d.phc.seconds ++
  [natWord d.tru.opened, natWord d.tru.confirmed, natWord d.tru.rolledBack,
    satWord f.rule, satWord f.barred, satWord (f.journalFull + f.journalWrite), satWord f.rollback,
    satWord f.redirect] ++
  words32 (min Config.max32 (d.mpc.faults + d.mpc.timeouts)) ++
  [natWord d.acu.planLength, natWord (d.acu.lastRun.firstSequence.getD 0),
    natWord (d.acu.lastRun.lastSequence.getD 0)] ++
  d.rcu.records.toList.flatMap handoverCarrier

/-! ## The image (R169, R170, R176) -/

/-- The header words 000h to 00Eh from the items as they stand, with a phase. -/
def headerWords (phase : Phase) (d : Lc44) : List Word :=
  let s := d.tmu.settings
  [Config.signature, 1,
    natWord (phase.code + d.sli.mirrorAddress.toNat / 65536 * 256 + bit d.sli.mirrorEnabled 15),
    natWord (d.acu.planLength + bit d.acu.stopOnFail 6 + d.acu.log.length * 256),
    natWord (bit d.rcu.ga 0 + bit d.rcu.gb 1 + bit d.rcu.gx 2 + bit s.enabled 4 + s.kind.code * 32 +
      s.carrier.val * 64),
    signedWord s.floor, natWord s.span, natWord d.mpc.timeout, natWord d.rcu.reportTimeout,
    natWord d.tmu.holdoffSetting, signedWord d.rcu.lossFloor, natWord d.sli.mirrorAddress.toNat,
    natWord d.acu.nextSequence] ++ words32 d.phc.seconds

/-- The body words 0B0h to F0Fh from the items as they stand, with the words of the handover record section. -/
def profileBody (record : List Word) (d : Lc44) : List Word :=
  d.ccl.table.toList.flatMap regionWords ++ d.fgd.rules.toList.flatMap ruleWords ++ layoutWords d.rcu.layout ++
  List.replicate 5 0 ++ d.rcu.records.toList.flatMap (fun r => carrierWords r.settings) ++
  d.acu.plan.toList.flatMap planWords ++ record ++ d.acu.log.flatMap logWords ++
  List.replicate (44 * (Config.logRoom - d.acu.log.length)) 0

/-- The 16-bit sum, modulo 65,536, of words. -/
def wordSum (l : List Word) : Word := l.foldl (· + ·) 0

/-- The 3,696 included words in ascending order of offset, the checksum making their sum 0 (R168, R169). -/
def profileImage (phase : Phase) (record : List Word) (d : Lc44) : List Word :=
  let header := headerWords phase d
  let body := profileBody record d
  header ++ [-(wordSum header + wordSum body)] ++ body

/-- The image of SAVE: phase COMMISSIONING and no handover record (R169). -/
def saveImage (d : Lc44) : List Word := profileImage .commissioning (List.replicate 32 0) d

/-- The image of the handover WRITE: phase SERVICE and the handover record (R176). -/
def handoverImage (d : Lc44) : List Word := profileImage .service (handoverRecord d) d

/-- The offset of an included word by its number in ascending order. -/
def includedOffset (n : Nat) : Nat :=
  if n < Config.headerWords then n else Config.bodyStart + (n - Config.headerWords)

/-- Write number `index` of an image, as offset and word, in the order of R170: signature 0000h, body, header from
001h, signature. -/
def imageWrite (image : List Word) (index : Nat) : Nat × Word :=
  if index = 0 then (0, 0)
  else if index ≤ Config.bodyWords then
    (includedOffset (index + 15), image.getD (index + 15) 0)
  else if index < Config.imageWrites - 1 then
    (index - Config.bodyWords, image.getD (index - Config.bodyWords) 0)
  else (0, image.getD 0 0)

/-! ## What LOAD makes of the staged words (R181, R202) -/

/-- The staged word of an included offset. -/
def stagedWord (staged : List Word) (offset : Nat) : Word :=
  if offset < Config.headerWords then staged.getD offset 0
  else staged.getD (offset - Config.bodyStart + Config.headerWords) 0

/-- A 32-bit quantity of the staged words. -/
def staged32 (staged : List Word) (offset : Nat) : Nat :=
  (stagedWord staged offset).toNat + (stagedWord staged (offset + 1)).toNat * 65536

/-- A bit of a word. -/
def wordBit (w : Word) (n : Nat) : Bool := w.toNat.testBit n

/-- The stored Region Table entry at an offset; its treatment code is 0 when it is empty. -/
def RawRegion.ofStored (w : Nat → Word) : RawRegion where
  base := (w 0).toNat + bits 3 0 (w 1) * 65536
  length := (w 2).toNat + 1
  initiators := bits 9 8 (w 1)
  treatment := bits 6 4 (w 1)
  firstRule := (w 3).toNat
  ruleCount := (w 4).toNat
  firstCarrier := bits 1 0 (w 3)
  carrierCount := bits 6 4 (w 3)
  stride := (w 4).toNat
  map := bits 8 8 (w 4)
  overlayBase := (w 3).toNat + bits 3 0 (w 4) * 65536
  value := (w 3).toNat
  mask := (w 4).toNat
  signal := (w 5).toNat

/-- One stored entry loaded into the Region Table, empty when it fails R15 against the entries already loaded (R18). -/
def loadRegionAt (psel : BitVec 2) (closing : Option Nat) (staged : List Word) (c : Ccl) (i : Fin 16) : Ccl :=
  let raw := RawRegion.ofStored fun k => stagedWord staged (0x0B0 + 6 * i.val + k)
  { c with table := c.table.set i (raw.check psel closing (c.mapTaken i.val)) }

/-- A stored field rule. -/
def RawRule.ofStored (w : Nat → Word) : RawRule where
  word := (w 0).toNat
  width := bits 8 4 (w 1)
  offset := bits 3 0 (w 1)
  signed := bits 9 9 (w 1)
  kind := bits 11 10 (w 1)
  lo := (w 2).toNat
  hi := (w 3).toNat
  step := (w 4).toNat
  action := bits 13 12 (w 1)

/-- One stored rule loaded, empty when it is not defined or fails R42 against the rules already loaded (R45). -/
def loadRuleAt (staged : List Word) (f : Fgd) (i : Fin 64) : Fgd :=
  let w := fun k => stagedWord staged (0x110 + 5 * i.val + k)
  let raw := RawRule.ofStored w
  let ok := wordBit (w 1) 15 && raw.argsOk && raw.toRule.defOk (f.others i.val)
  { f with rules := f.rules.set i (if ok then some raw.toRule else none) }

/-- The stored report layout (R120). -/
def loadLayoutFrom (staged : List Word) : Option Layout :=
  let head := stagedWord staged 0x250
  let raw := fun (k : Fin 8) =>
    let w := stagedWord staged (0x251 + k.val)
    let kinds := stagedWord staged (if k.val < 4 then 0x259 else 0x25A)
    ({ wordIndex := bits 5 0 w
       kind := bits (4 * (k.val % 4) + 3) (4 * (k.val % 4)) kinds
       width := bits 13 10 w + 1
       offset := bits 9 6 w
       signed := bits 14 14 w } : RawSlot)
  if wordBit head 15 then checkLayout (bits 5 0 head) (Vector.ofFn raw) else none

/-- The stored settings of a carrier; defaults when they fail R116 (R120). -/
def loadCarrierFrom (staged : List Word) (c : Carrier) : CarrierSettings :=
  let w := fun k => stagedWord staged (0x260 + 4 * c.val + k)
  let raw : RawCarrier :=
    { enabled := bits 0 0 (w 0)
      present := bits 1 1 (w 0)
      expected := (w 1).toNat
      tolerance := (w 2).toNat
      margin := (w 3).toNat }
  raw.check.getD .default

/-- A stored plan slot; empty when it is not defined or fails R140 (R162). A stored reports-min of 0 is loaded as 1, as
LOAD-STEP takes it (log 35). -/
def loadStepFrom (staged : List Word) (i : Nat) : Option PlanStep :=
  let w := fun k => stagedWord staged (0x270 + 12 * i + k)
  let flag := fun n => bits n n (w 0)
  let raw : RawStep :=
    { mask := bits 3 0 (w 0)
      start := flag 4
      arm := bits 11 0 (w 1)
      settle := (w 2).toNat
      measure := (w 3).toNat + (w 4).toNat * 65536
      needsTransmit := flag 5
      reportsMin := (w 5).toNat
      rslMin := (flag 8, (w 6).toNat)
      rslMax := (flag 9, (w 7).toNat)
      mseMax := (flag 10, (w 8).toNat)
      xpdMin := (flag 11, (w 9).toNat)
      uncorrMax := (flag 12, (w 10).toNat + (w 11).toNat * 65536)
      modstepMin := (flag 13, bits 15 12 (w 1)) }
  if wordBit (w 0) 15 then raw.check else none

/-- A signed value of the staged words, absent when its present flag is clear. -/
def storedSigned (present : Bool) (w : Word) : Option Int := if present then some w.toInt else none

/-- A stored carrier result. -/
def loadResultFrom (w : Nat → Word) : Option CarrierResult :=
  (carrierOf (bits 1 0 (w 0))).map fun c =>
    { carrier := c
      aggregate :=
        { reports := (w 2).toNat
          rslLeast := storedSigned (wordBit (w 0) 5) (w 3)
          rslGreatest := storedSigned (wordBit (w 0) 6) (w 4)
          mseWorst := storedSigned (wordBit (w 0) 7) (w 5)
          xpdLeast := storedSigned (wordBit (w 0) 8) (w 6)
          uncorrSum := (w 7).toNat
          uncorrSeen := wordBit (w 0) 2
          corrSum := (w 8).toNat
          downshifts := (w 9).toNat
          modstepSeen := wordBit (w 0) 3
          stale := wordBit (w 0) 4 }
      failed := criteriaOfMask (bits 6 0 (w 1))
      noData := criteriaOfMask (bits 14 8 (w 1)) }

/-- Outcome and cause of a record go together (R158). -/
def causeFits (o : StepOutcome) (c : StepCause) : Bool :=
  match o, c with
  | .pass, .none => true
  | .fail, .criteria | .fail, .stale | .fail, .noMark => true
  | .aborted, .mute | .aborted, .rollback | .aborted, .operator => true
  | _, _ => false

/-- A record's fields lie within R158: each in its values, outcome with cause, and no criteria sets without an
evaluation. That a step which ended before MEASURING has 0 ms and cleared aggregates, and that the no-data set lies in
the failed set, is not asked (log 34). -/
def LogRecord.fits (r : LogRecord) : Bool :=
  within 1 Config.max16 r.sequence && decide (r.step ≤ 31) && causeFits r.outcome r.cause &&
    decide (r.measured ≤ 86400000) && within 1 4 r.results.length &&
    decide ((r.results.map fun x => x.carrier.val).Pairwise (· < ·)) &&
    r.results.all fun x => decide (r.cause = .criteria) || (x.failed.isEmpty && x.noData.isEmpty)

/-- The stored log record of a position, when its codes are listed. -/
def loadRecordFrom (staged : List Word) (p : Nat) : Option LogRecord :=
  let w := fun k => stagedWord staged (0x410 + 44 * p + k)
  match StepOutcome.ofCode (bits 6 5 (w 1)), StepCause.ofCode (bits 10 8 (w 1)) with
  | some o, some c =>
    some
      { sequence := (w 0).toNat
        step := bits 4 0 (w 1)
        outcome := o
        cause := c
        measured := (w 2).toNat + (w 3).toNat * 65536
        results := (List.range (bits 14 12 (w 1))).filterMap fun r => loadResultFrom fun k => w (4 + 10 * r + k) }
  | _, _ => none

/-- Each record's sequence is one greater than that of the record before it (R159). -/
def consecutive (l : List LogRecord) : Bool :=
  match l with
  | [] => true
  | a :: rest =>
    match rest with
    | [] => true
    | b :: _ => decide (b.sequence = a.sequence + 1) && consecutive rest

/-- The last sequence of a log and a next sequence agree (R162). -/
def endsBefore (l : List LogRecord) (next : Nat) : Bool :=
  match l.getLast? with
  | none => true
  | some r => decide (next = r.sequence + 1)

/-- The log as stored, or empty when a condition of R162 fails. -/
def loadLogFrom (staged : List Word) (next : Nat) : List LogRecord :=
  let count := bits 14 8 (stagedWord staged 0x003)
  let records := (List.range count).filterMap (loadRecordFrom staged)
  if decide (count ≤ Config.logRoom) && decide (records.length = count) && records.all LogRecord.fits &&
      consecutive records && endsBefore records next then
    records
  else []

/-- The loaded next sequence (R162). -/
def loadNextFrom (staged : List Word) : Nat :=
  let n := (stagedWord staged 0x00C).toNat
  if n = 0 then 1 else n

/-- Order 1: layout, carrier settings, group flags, report timeout, loss floor (R120). -/
def loadRcu (staged : List Word) (d : Lc44) : Lc44 :=
  let flags := stagedWord staged 0x004
  let timeout := (stagedWord staged 0x008).toNat
  let floor := (stagedWord staged 0x00A).toInt
  d.onRcu fun r =>
    { r with
      layout := loadLayoutFrom staged
      records := r.records.mapAll fun c x => CaptureRecord.judged { x with settings := loadCarrierFrom staged c }
      ga := wordBit flags 0
      gb := wordBit flags 1
      gx := wordBit flags 2
      reportTimeout := if reportTimeoutOk timeout then timeout else Config.defaultReportTimeout
      lossFloor := if lossFloorOk floor then floor else Config.defaultLossFloor }

/-- Order 2: Region Table; both maps cleared (R18, R91). -/
def loadCcl (staged : List Word) (d : Lc44) : Lc44 :=
  let closing := d.rcu.layout.map Layout.closing
  let d := d.onCcl fun c => (List.finRange 16).foldl (loadRegionAt d.straps.psel closing staged) c
  d.onOvu fun o => { o with map0 := [], map1 := [] }

/-- Order 3: Field Rule table (R45). -/
def loadFgd (staged : List Word) (d : Lc44) : Lc44 :=
  d.onFgd fun f => (List.finRange 64).foldl (loadRuleAt staged) f

/-- Order 4: plan, plan flags, log, next sequence (R162). -/
def loadAcu (staged : List Word) (d : Lc44) : Lc44 :=
  let w := stagedWord staged 0x003
  let next := loadNextFrom staged
  d.onAcu fun a =>
    { a with
      planLength := if within 1 32 (bits 5 0 w) then bits 5 0 w else 0
      stopOnFail := wordBit w 6
      plan := Vector.ofFn fun i => loadStepFrom staged i.val
      log := loadLogFrom staged next
      nextSequence := next }

/-- Order 5: tone settings, hold-off (R129, R137); the tone is recomputed (R135). -/
def loadTmu (staged : List Word) (d : Lc44) : Lc44 :=
  let w := stagedWord staged 0x004
  let floor := (stagedWord staged 0x005).toInt
  let span := (stagedWord staged 0x006).toNat
  let holdoff := (stagedWord staged 0x009).toNat
  let settings : ToneSettings :=
    { enabled := wordBit w 4
      kind := if wordBit w 5 then .group else .carrier
      carrier := (carrierOf (bits 7 6 w)).getD 0
      floor := if floorOk floor then floor else ToneSettings.default.floor
      span := if spanOk span then span else ToneSettings.default.span }
  recomputeTone (d.onTmu fun t =>
    { t with
      settings := settings
      members := membersFor d.rcu settings
      holdoffSetting := if holdoffOk holdoff then holdoff else Config.defaultHoldoff })

/-- Order 6: memory timeout, held until start-up ends (R25). -/
def loadMpc (staged : List Word) (d : Lc44) : Lc44 :=
  let n := (stagedWord staged 0x007).toNat
  d.onMpc fun m => { m with loadedTimeout := some (if memoryTimeoutOk n then n else Config.defaultMemoryTimeout) }

/-- Order 7: mirror address and enable, checked as SET-MIRROR checks them, and reported to CCL (R201, R4). -/
def loadSli (staged : List Word) (d : Lc44) : Lc44 :=
  let w := stagedWord staged 0x002
  let addr := (stagedWord staged 0x00B).toNat + bits 11 8 w * 65536
  let on := wordBit w 15 && mirrorOk d.straps.psel addr
  syncCcl (d.onSli fun s =>
    { s with
      mirrorEnabled := on
      mirrorAddress := if on then BitVec.ofNat 20 addr else 0 })

/-- Order 8: commissioning seconds, the accumulator left at 0 (R165). -/
def loadSeconds (staged : List Word) (d : Lc44) : Lc44 :=
  d.onPhc fun p => { p with seconds := staged32 staged 0x00D, accumulator := 0 }

/-- Order 9: the phase of a stored phase and the COMMISSION strap (R181). -/
def loadedPhase (staged : List Word) (commission : Bool) : Phase :=
  if bits 1 0 (stagedWord staged 0x002) = 2 && !commission then .service else .commissioning

/-- The staged items of a VALID profile put in force (R181). -/
def putInForce (staged : List Word) (d : Lc44) : Lc44 :=
  let d := loadSeconds staged (loadSli staged (loadMpc staged (loadTmu staged (loadAcu staged (loadFgd staged
    (loadCcl staged (loadRcu staged d)))))))
  setPhase (loadedPhase staged d.straps.commission) d

end Sys2Proof.Machine
end

