-- ==== Sys2Proof/Machine/Mirror.lean ====
section
/-! DEFINITION. The status mirror writer of SLI (section 10.5): the 16 values of a refresh, its words on the M-port, its
end, and its abandonment. -/

namespace Sys2Proof.Machine

/-- How an M-port cycle ended: OK with the memory's data (of use to a READ), or a failure (R21). -/
abbrev MEnd := Except MFailure Word

/-- The failure of an ended cycle, if it failed. -/
def failureOf (e : MEnd) : Option MFailure :=
  match e with
  | .ok _ => none
  | .error f => some f

/-- The bits of one carrier in mirror word 12 (section 11.2). -/
def verdictBits (c : Nat) (r : CaptureRecord) : Nat :=
  r.verdict.code * 2 ^ (2 * c) + bit r.lastRsl.isSome (8 + c) + bit r.peak.isSome (12 + c)

/-- The 16 values of a refresh with a number (R199, section 11.2). -/
def mirrorValues (number : Nat) (d : Lc44) : List Word :=
  let r := d.rcu.records
  [natWord (d.phc.phase.code + d.phc.phop.code * 4),
    natWord (d.tru.reported.code + secondsLeft d.tru.timer * 16),
    natWord (d.acu.runState.code + d.acu.current.getD 0 * 256),
    natWord d.tmu.mute.code] ++
  r.toList.map (fun x => optWord x.lastRsl) ++ r.toList.map (fun x => optWord (x.peak.map Peak.rsl)) ++
  [natWord (verdictBits 0 r.c0 + verdictBits 1 r.c1 + verdictBits 2 r.c2 + verdictBits 3 r.c3),
    natWord d.acu.log.length, satWord (d.mpc.faults + d.mpc.timeouts), natWord number]

/-- The refresh number after a number (R199): from 65,535 to 1, and from 0 to 1. -/
def nextRefreshNumber (n : Nat) : Nat := if n < 65535 then n + 1 else 1

/-- The word a refresh has reached is requested through MIR (R200). -/
def requestMirrorWord (r : Refresh) (d : Lc44) : Lc44 :=
  requestMir ⟨addrPlus d.sli.mirrorAddress r.index, .write (r.values.getD r.index 0)⟩
    (d.onSli fun s => { s with refresh := some r })

/-- A refresh begins (R199): the number rises, the values are fixed, the first word is requested. -/
def startRefresh (d : Lc44) : Lc44 :=
  let n := nextRefreshNumber d.sli.refreshNumber
  requestMirrorWord ⟨n, mirrorValues n d, 0⟩ (d.onSli fun s => { s with refreshNumber := n })

/-- A refresh begins and the refresh timer is loaded with 250 ms (R198, R199, R201). -/
def startMirror (d : Lc44) : Lc44 :=
  (startRefresh d).onSli fun s => { s with refreshTimer := some Config.refreshTicks }

/-- The M-port carries a cycle of MIR. -/
def Mpc.carriesMir (m : Mpc) : Bool :=
  match m.cycle with
  | none => false
  | some c => decide (c.client = .mir)

/-- A refresh in progress is abandoned (R200, R32): a waiting request is withdrawn, and a word on the port will have
its outcome discarded. -/
def abandonRefresh (d : Lc44) : Lc44 :=
  let onPort := d.mpc.carriesMir
  (d.onMpc fun m => { m with mirWaiting := none }).onSli fun s => { s with refresh := none, orphan := onPort }

/-- A mirror word ended (R200). -/
def mirrorEnded (failure : Option MFailure) (d : Lc44) : Lc44 :=
  if d.sli.orphan then d.onSli fun s => { s with orphan := false }
  else
    match d.sli.refresh, failure with
    | none, _ => d
    | some _, some _ =>
      d.onSli fun s => { s with refresh := none, mirrorFaults := satInc Config.max16 s.mirrorFaults }
    | some r, none =>
      if r.index + 1 < Config.mirrorWords then requestMirrorWord { r with index := r.index + 1 } d
      else d.onSli fun s => { s with refresh := none, lastCompleted := r.number }

/-- The refresh timer expires (R199, R200). A timer that was reloaded or stopped is not due. -/
def refreshExpired (d : Lc44) : Lc44 :=
  if !timerDue d.sli.refreshTimer then d
  else
    startMirror
      (if d.sli.refresh.isSome then
        (abandonRefresh d).onSli fun s => { s with mirrorAbandons := satInc Config.max16 s.mirrorAbandons }
      else d)

/-- New mirror settings in force (R198): reported to CCL, the refresh in progress abandoned uncounted, and a refresh
begun when they are enabled. -/
def setMirror (enabled : Bool) (addr : Addr) (d : Lc44) : Lc44 :=
  let d := (abandonRefresh d).onSli fun s =>
    { s with mirrorEnabled := enabled, mirrorAddress := if enabled then addr else 0, refreshTimer := none }
  let d := syncCcl d
  if enabled then startMirror d else d

/-- SLI's part of BEGIN and WIPE (R201). -/
def mirrorToDefaults (d : Lc44) : Lc44 :=
  (setMirror false 0 d).onSli fun s =>
    { s with mirrorFaults := 0, mirrorAbandons := 0, refreshNumber := 0, lastCompleted := 0 }

end Sys2Proof.Machine
end

