-- ==== Sys2Proof/Machine/Handover.lean ====
section
/-! DEFINITION. PHC's writing of the profile by SAVE and handover (R169 to R177), the readiness conditions of a handover
(R173), and OVU's fold (section 5.5). -/

namespace Sys2Proof.Machine

/-! ## Writing an image (R170, R176) -/

/-- PHC requests the write its work has reached. -/
def requestImageWrite (d : Lc44) : Lc44 :=
  match d.phc.work with
  | .writing image index =>
    let w := imageWrite image index
    requestInt .phc ⟨d.profileAddr w.1, .write w.2⟩ d
  | _ => d

/-- PHC begins to write an image (R170). -/
def beginWriting (image : List Word) (d : Lc44) : Lc44 :=
  requestImageWrite (d.onPhc fun p => { p with work := .writing image 0 })

/-- The profile operation record updated. -/
def Phc.onRecord (f : OpRecord → OpRecord) (p : Phc) : Phc := { p with operation := f p.operation }

/-- The profile operation record begun afresh (R172). -/
def OpRecord.begun (kind : OpKind) (step : Option HandoverStep) : OpRecord :=
  { OpRecord.reset with operation := kind, result := some .running, step := step }

/-- A SAVE is taken (R169): the image is fixed and its writing begins. -/
def beginSave (d : Lc44) : Lc44 :=
  beginWriting (saveImage d) (d.onPhc fun p => { p with phop := .saving, operation := .begun .save none })

/-- The last write of an image ended OK (R170, R176). -/
def writingDone (d : Lc44) : Lc44 :=
  let handover := d.phc.phop.isHandingOver
  let d := d.onPhc fun p =>
    Phc.onRecord (fun r => { r with result := some .done }) { p with phop := .none, work := .idle }
  if handover then setPhase .service d else d

/-- A write of an image failed (R170, R177). -/
def writingFailed (offset : Nat) (f : MFailure) (d : Lc44) : Lc44 :=
  let cause := if d.phc.phop.isHandingOver then some HandoverStep.write else none
  d.onPhc fun p =>
    Phc.onRecord
      (fun r => { r with result := some .failed, cause := cause, failOffset := some offset, failOutcome := some f })
      { p with phop := .none, work := .idle }

/-- A write of an image ended; each write counts as made (R170, log 13). -/
def imageWriteEnded (failure : Option MFailure) (d : Lc44) : Lc44 :=
  match d.phc.work with
  | .writing image index =>
    let d := d.onPhc (Phc.onRecord fun r => { r with writes := r.writes + 1 })
    match failure with
    | some f => writingFailed (imageWrite image index).1 f d
    | none =>
      if index + 1 < Config.imageWrites then
        requestImageWrite (d.onPhc fun p => { p with work := .writing image (index + 1) })
      else writingDone d
  | _ => d

/-! ## The fold (R94 to R96) -/

/-- The Region Table entry that references a map, with its overlay base. -/
def Ccl.mapEntry (c : Ccl) (m : MapId) : Option (Fin 16 × Region × Addr) :=
  c.entries.findSome? fun e =>
    match e.2.treatment with
    | .redirect k base => if k = m then some (e.1, e.2, base) else none
    | _ => none

/-- The lowest set offset of a map that an entry references, with that entry's base and overlay base (log 17). -/
def Lc44.foldable (d : Lc44) (m : MapId) : Option (MapId × Nat × Region × Addr) :=
  match d.ovu.map m, d.ccl.mapEntry m with
  | k :: _, some (_, r, base) => some (m, k, r, base)
  | _, _ => none

/-- The word the fold takes next: map 0 first, then map 1 (R95). -/
def Lc44.foldPick (d : Lc44) : Option (MapId × Nat × Region × Addr) :=
  match d.foldable .map0 with
  | some w => some w
  | none => d.foldable .map1

/-- The fold is complete (R95), and PHC enters WRITE with the handover image fixed (R175, R176). -/
def foldDone (d : Lc44) : Lc44 :=
  let d := d.onOvu fun o => { o with fold := { o.fold with state := .done }, work := .idle }
  let d := d.onPhc fun p =>
    Phc.onRecord (fun r => { r with step := some .write }) { p with phop := .handingOver .write }
  beginWriting (handoverImage d) d

/-- The fold takes its next word, or is complete (R95). -/
def foldNext (d : Lc44) : Lc44 :=
  match d.foldPick with
  | none => foldDone d
  | some (m, k, _, base) =>
    requestInt .ovu ⟨addrPlus base k, .read⟩ (d.onOvu fun o => { o with work := .reading m k })

/-- OVU begins a fold (R94): it waits while a redirected write is in progress. -/
def startFold (d : Lc44) : Lc44 :=
  let d := d.onOvu fun o => { o with fold := ⟨.running, some 0, none⟩ }
  if d.iport.redirectedWrite then d.onOvu fun o => { o with work := .awaitWrite } else foldNext d

/-- The redirected write a fold waited for has been answered, and the fold begins (R94). -/
def foldReleased (d : Lc44) : Lc44 := if d.ovu.work = .awaitWrite then foldNext d else d

/-- The fold ends at a word (R96), and the handover fails with cause FOLD (R177). -/
def foldFailed (w : FoldFailure) (d : Lc44) : Lc44 :=
  let d := d.onOvu fun o => { o with fold := { o.fold with state := .failed, failure := some w }, work := .idle }
  d.onPhc fun p =>
    Phc.onRecord (fun r => { r with result := some .failed, cause := some .fold })
      { p with phop := .none, work := .idle }

/-- How a fold's cycle failed. -/
def MFailure.ofFold (f : MFailure) : FoldOutcome :=
  match f with
  | .fault => .fault
  | .timeout => .timeout

/-- The overlay word has been read: it is written to its original address, unless that address is reserved (R95). -/
def foldWrite (m : MapId) (k : Nat) (w : Word) (d : Lc44) : Lc44 :=
  match d.ccl.mapEntry m with
  | none => foldNext d
  | some (_, r, _) =>
    if d.reserved (r.base.toNat + k) then foldFailed ⟨m, k, .write, .barred⟩ d
    else
      requestInt .ovu ⟨addrPlus r.base k, .write w⟩ (d.onOvu fun o => { o with work := .writing m k })

/-- The original word has been written: its flag is cleared and the fold goes on (R95). -/
def foldWritten (m : MapId) (k : Nat) (d : Lc44) : Lc44 :=
  foldNext (d.onOvu fun o =>
    { o.setMap m (clearFlag k (o.map m)) with fold := { o.fold with count := o.fold.count.map (· + 1) } })

/-- A cycle of the fold ended (R95, R96). -/
def foldEnded (e : MEnd) (d : Lc44) : Lc44 :=
  match d.ovu.work, e with
  | .reading m k, .ok w => foldWrite m k w d
  | .reading m k, .error f => foldFailed ⟨m, k, .read, f.ofFold⟩ d
  | .writing m k, .ok _ => foldWritten m k d
  | .writing m k, .error f => foldFailed ⟨m, k, .write, f.ofFold⟩ d
  | _, _ => d

/-! ## Accepting a handover (R173, R175) -/

/-- The enabled carriers. -/
def Rcu.enabled (r : Rcu) : CarrierSet := PerCarrier.ofFn fun c => (r.records.get c).settings.enabled

/-- The enabled carriers whose verdict is not MAIN (R173). -/
def Rcu.notMain (r : Rcu) : CarrierSet :=
  PerCarrier.ofFn fun c => (r.records.get c).settings.enabled && decide ((r.records.get c).verdict ≠ .main)

/-- The reason set of a HANDOVER as a mask (R173): empty when the link is ready. -/
def Lc44.notReady (d : Lc44) : Nat :=
  let enabled := membersOf d.rcu.enabled
  bit (decide (d.tru.state ≠ .idle)) 0 + bit d.tru.stale 1 + bit (decide (d.acu.runState ≠ .idle)) 2 +
    bit (decide (d.acu.lastRun.outcome ≠ .pass) || decide (d.acu.lastRun.firstStep ≠ some 0)) 3 +
    bit enabled.isEmpty 4 +
    bit (enabled.any fun c => (d.rcu.records.get c).settings.expected.isNone) 5 +
    bit (!(membersOf d.rcu.notMain).isEmpty) 6

/-- An accepted HANDOVER: the fold starts (R175). -/
def beginHandover (d : Lc44) : Lc44 :=
  startFold (d.onPhc fun p =>
    { p with phop := .handingOver .fold, operation := .begun .handover (some .fold) })

end Sys2Proof.Machine
end

