-- ==== Sys2Proof/Machine/Begin.lean ====
section
/-! DEFINITION. Clearing presence maps (R89, R91), what BEGIN and WIPE do to each block (R166, R167), and the BEGIN
probe. -/

namespace Sys2Proof.Machine

/-! ## Clearing maps (R89, R91) -/

/-- The void mark of a redirected write in progress to one of the maps cleared (R89). -/
def ICycle.voided (cleared : MapId → Bool) (c : ICycle) : ICycle :=
  match c.stage, c.cycle.op, c.record.treatment with
  | .redirected _, .write _, .redirect m _ => if cleared m then { c with stage := .redirected true } else c
  | _, _, _ => c

/-- Maps cleared without memory traffic; a redirected write in progress to one of them is marked void (R89, R91). -/
def clearMaps (cleared : MapId → Bool) (d : Lc44) : Lc44 :=
  (d.onOvu fun o =>
    { o with
      map0 := if cleared .map0 then [] else o.map0
      map1 := if cleared .map1 then [] else o.map1 }).onIport fun p =>
    { p with cycle := p.cycle.map (ICycle.voided cleared) }

/-! ## BEGIN and WIPE (R166, R167) -/

/-- RCU in its reset state (R121); the tick count goes on. -/
def Rcu.toReset (r : Rcu) : Rcu := { Rcu.reset with tickCount := r.tickCount }

/-- What BEGIN and WIPE have in common, with ACU's next sequence after it. -/
def commonReset (next : Nat) (d : Lc44) : Lc44 :=
  let d := d.onMpc fun m =>
    { m with timeout := Config.defaultMemoryTimeout, faults := 0, timeouts := 0, lastFailure := none }
  let d := d.onCcl fun c => { c with table := Vector.replicate 16 none, faults := .zero }
  let d := unliveRules (fun _ => true) (d.onFgd fun _ => Fgd.reset)
  let d := d.onTru fun t => { t with opened := 0, confirmed := 0, rolledBack := 0, ignoredMarks := 0 }
  let d := clearMaps (fun _ => true) (d.onOvu fun o => { o with fold := .reset })
  let d := d.onRcu Rcu.toReset
  let d := d.onTmu Tmu.toDefaults
  let d := d.onAcu fun _ => { Acu.reset with nextSequence := next }
  let d := mirrorToDefaults d
  d.onPhc fun p => { p with operation := .reset }

/-- BEGIN after its probe read (R166). -/
def beginEffect (d : Lc44) : Lc44 :=
  setPhase .commissioning ((commonReset 1 d).onPhc fun p => { p with seconds := 0, accumulator := 0 })

/-- A WIPE that is taken (R167): RCU tells TMU that every carrier has left TRACK and every peak is reset (R121). TMU's
view and peak have no carrier already (R134, R137), so the two notices, when they are taken, confirm it (log 26). -/
def wipeEffect (d : Lc44) : Lc44 :=
  let d := commonReset d.acu.nextSequence d
  raiseTmu (.peakReset allCarriers) (raiseTmu (.leftTrack allCarriers) (setPhase .transparent d))

/-- The BEGIN probe is requested (R166). -/
def beginProbe (d : Lc44) : Lc44 :=
  requestInt .phc ⟨d.profileAddr 0, .read⟩ (d.onPhc fun p => { p with work := .probe })

/-- The BEGIN probe ended (R166). -/
def probeEnded (failure : Option MFailure) (d : Lc44) : Lc44 :=
  let d := d.onPhc fun p => { p with work := .idle }
  match failure with
  | some _ => answer .noMem [] d
  | none => answer .ok [] (beginEffect d)

end Sys2Proof.Machine
end

