-- ==== Sys2Proof/Machine/Acceptance.lean ====
section
/-! DEFINITION. The Acceptance Unit's shared operations (chapter 8): the beginning of a step, its entry to SETTLING and
MEASURING, the aggregates, the evaluation, the log record, and the end of a step and of a run. -/

namespace Sys2Proof.Machine

/-! ## Aggregates (R150) -/

/-- Aggregates at their cleared values. -/
def Aggregate.cleared : Aggregate where
  reports := 0
  rslLeast := none
  rslGreatest := none
  mseWorst := none
  xpdLeast := none
  uncorrSum := 0
  uncorrSeen := false
  corrSum := 0
  downshifts := 0
  modstepSeen := false
  stale := false

/-- The lesser of a value held and a value met. -/
def keepLeast (held met : Option Int) : Option Int :=
  match held, met with
  | h, none => h
  | none, m => m
  | some h, some m => some (min h m)

/-- The greater of a value held and a value met. -/
def keepGreatest (held met : Option Int) : Option Int :=
  match held, met with
  | h, none => h
  | none, m => m
  | some h, some m => some (max h m)

/-- A notice's MODSTEP lies below the step's MODSTEP-min. -/
def isDownshift (least met : Option Nat) : Bool :=
  match least, met with
  | some l, some m => decide (m < l)
  | _, _ => false

/-- The aggregates of a carrier after a capture notice (R150). -/
def Aggregate.gather (modstepMin : Option Nat) (n : CaptureNotice) (a : Aggregate) : Aggregate :=
  { a with
    reports := satInc Config.max32 a.reports
    rslLeast := keepLeast a.rslLeast (some n.rsl)
    rslGreatest := keepGreatest a.rslGreatest (some n.rsl)
    mseWorst := keepGreatest a.mseWorst n.mse
    xpdLeast := keepLeast a.xpdLeast n.xpd
    uncorrSum := satAdd Config.max32 a.uncorrSum (n.uncorr.getD 0)
    uncorrSeen := a.uncorrSeen || n.uncorr.isSome
    corrSum := satAdd Config.max32 a.corrSum (n.corr.getD 0)
    downshifts := if isDownshift modstepMin n.modstep then satInc Config.max16 a.downshifts else a.downshifts
    modstepSeen := a.modstepSeen || n.modstep.isSome }

/-- Cleared aggregates for each carrier of a mask. -/
def clearedFor (mask : CarrierSet) : PerCarrier (Option Aggregate) :=
  mask.mapAll fun _ m => if m then some .cleared else none

/-- A carrier's aggregates changed, when the current step's mask has the carrier. -/
def Acu.onAggregate (c : Carrier) (f : Aggregate → Aggregate) (a : Acu) : Acu :=
  { a with aggregates := a.aggregates.set c ((a.aggregates.get c).map f) }

/-- The stale mark of a carrier set. -/
def Acu.markStale (c : Carrier) (a : Acu) : Acu := a.onAggregate c fun g => { g with stale := true }

/-! ## Evaluation (R151) -/

/-- How a criterion turns out for a carrier. -/
inductive CriterionResult where
  | passes
  | fails
  | noData
deriving DecidableEq, Repr

/-- A bound tested against a value that may not have been gathered. -/
def testBound {α : Type} (bound value : Option α) (bad : α → α → Bool) : CriterionResult :=
  match bound, value with
  | none, _ => .passes
  | some _, none => .noData
  | some b, some v => if bad v b then .fails else .passes

/-- A criterion of a step evaluated on a carrier's aggregates (R151). -/
def PlanStep.evaluate (s : PlanStep) (a : Aggregate) (k : Criterion) : CriterionResult :=
  match k with
  | .reportsMin => if a.reports < s.reportsMin then .fails else .passes
  | .rslMin => testBound s.rslMin a.rslLeast fun v b => decide (v < b)
  | .rslMax => testBound s.rslMax a.rslGreatest fun v b => decide (b < v)
  | .mseMax => testBound s.mseMax a.mseWorst fun v b => decide (b < v)
  | .xpdMin => testBound s.xpdMin a.xpdLeast fun v b => decide (v < b)
  | .uncorrMax =>
    testBound s.uncorrMax (if a.uncorrSeen then some a.uncorrSum else none) fun v b => decide (b < v)
  | .modstepMin =>
    testBound s.modstepMin (if a.modstepSeen then some a.downshifts else none) fun v _ => decide (1 ≤ v)

/-- The failed-criteria set of a carrier. -/
def PlanStep.failedSet (s : PlanStep) (a : Aggregate) : List Criterion :=
  allCriteria.filter fun k => decide (s.evaluate a k ≠ .passes)

/-- The no-data set of a carrier. -/
def PlanStep.noDataSet (s : PlanStep) (a : Aggregate) : List Criterion :=
  allCriteria.filter fun k => decide (s.evaluate a k = .noData)

/-! ## The end of a step (R152) -/

/-- How a step ends. -/
structure StepEnd where
  outcome : StepOutcome
  cause : StepCause
deriving DecidableEq, Repr

/-- The carrier results of a record (R158): the criteria sets are filled only by an evaluation, of the step given. -/
def Acu.results (evaluated : Option PlanStep) (a : Acu) : List CarrierResult :=
  carriers.filterMap fun c =>
    (a.aggregates.get c).map fun g =>
      { carrier := c
        aggregate := g
        failed := (evaluated.map fun s => s.failedSet g).getD []
        noData := (evaluated.map fun s => s.noDataSet g).getD [] }

/-- The log record of the current step's end (R158). -/
def Acu.recordOf (e : StepEnd) (evaluated : Option PlanStep) (a : Acu) : LogRecord where
  sequence := a.nextSequence
  step := a.current.getD 0
  outcome := e.outcome
  cause := e.cause
  measured := a.measured
  results := a.results evaluated

/-- The record of a step's end is appended and the last-run record moves (R152, R159). -/
def Acu.logStep (e : StepEnd) (evaluated : Option PlanStep) (a : Acu) : Acu :=
  { a with
    timer := none
    log := a.log ++ [a.recordOf e evaluated]
    nextSequence := a.nextSequence + 1
    lastRun :=
      { a.lastRun with
        firstSequence := a.lastRun.firstSequence <|> some a.nextSequence
        lastSequence := some a.nextSequence
        passed := if e.outcome = .pass then a.lastRun.passed + 1 else a.lastRun.passed } }

/-- What the end of a step leads to: the run's end with an outcome, or the next step. -/
inductive RunNext where
  | ends (o : RunOutcome)
  | goesOn (i : Nat)
deriving DecidableEq, Repr

/-- The outcome of a run that reached its last step. -/
def Acu.finalOutcome (a : Acu) : RunOutcome :=
  if a.lastRun.passed = a.planLength - a.lastRun.firstStep.getD 0 then .pass else .fail

/-- ACU decides the run after a step's end (R152). -/
def Acu.runNext (o : StepOutcome) (a : Acu) : RunNext :=
  match o with
  | .aborted => .ends .aborted
  | _ =>
    if o = .fail ∧ a.stopOnFail then .ends .fail
    else if a.planLength ≤ a.current.getD 0 + 1 then .ends a.finalOutcome
    else .goesOn (a.current.getD 0 + 1)

/-- The run ends (R152). The measuring ticks keep the count of the last step (log 33). -/
def Acu.endRun (o : RunOutcome) (a : Acu) : Acu :=
  { a with
    runState := .idle
    current := none
    timer := none
    aggregates := PerCarrier.all none
    lastRun := { a.lastRun with outcome := o } }

/-! ## The beginning of a step (R145, R146, R149) -/

/-- The run enters MEASURING (R149). -/
def Acu.enterMeasuring (s : PlanStep) (a : Acu) : Acu :=
  { a with
    runState := .measuring
    aggregates := clearedFor s.mask
    measured := 0
    timer := some (s.measure * 1000) }

/-- The carriers of a mask that are not in TRACK. -/
def Rcu.notTracking (r : Rcu) (mask : CarrierSet) : List Carrier :=
  (membersOf mask).filter fun c => decide ((r.records.get c).state ≠ .track)

/-- The entry to SETTLING (R146): the step goes on, or it ends FAIL with cause STALE. -/
def enterSettling (s : PlanStep) (d : Lc44) : Lc44 × Option StepEnd :=
  let lost := d.rcu.notTracking s.mask
  if lost.isEmpty then
    (d.onAcu fun a =>
      if s.settle = 0 then a.enterMeasuring s
      else { a with runState := .settling, timer := some (s.settle * 1000) }, none)
  else (d.onAcu fun a => lost.foldl (fun a c => a.markStale c) a, some ⟨.fail, .stale⟩)

/-- A step needs the transmitter, and TXMUTE is asserted (R145, R147). -/
def mutedFor (s : PlanStep) (d : Lc44) : Bool := s.needsTransmit && d.txmute

/-- The beginning of a step, up to the state it enters or its early end (R145). -/
def openStep (i : Nat) (s : PlanStep) (d : Lc44) : Lc44 × Option StepEnd :=
  let d := d.onAcu fun a => { a with current := some i, aggregates := clearedFor s.mask, measured := 0 }
  if mutedFor s d then (d, some ⟨.aborted, .mute⟩)
  else
    match s.start with
    | .onMark => (d.onAcu fun a => { a with runState := .armed, timer := some (s.arm * 1000) }, none)
    | .immediate => enterSettling s d

/-- The plan step at an index. -/
def Acu.stepAt (a : Acu) (i : Nat) : Option PlanStep := if h : i < 32 then a.plan[i] else none

/-- The current plan step. -/
def Acu.currentStep (a : Acu) : Option PlanStep := a.current.bind a.stepAt

/-- A step begins (R145); a step that ends at its beginning is handled in turn (R152), at most `fuel` of them. R143
leaves no empty slot in a run's reach. -/
def beginStep (fuel i : Nat) (d : Lc44) : Lc44 :=
  match fuel with
  | 0 => d
  | k + 1 =>
    match d.acu.stepAt i with
    | none => d
    | some s =>
      match openStep i s d with
      | (d, none) => d
      | (d, some e) =>
        let d := d.onAcu (Acu.logStep e none)
        match d.acu.runNext e.outcome with
        | .ends o => d.onAcu (Acu.endRun o)
        | .goesOn j => beginStep k j d

/-- The current step ends (R152). -/
def endStep (e : StepEnd) (evaluated : Option PlanStep) (d : Lc44) : Lc44 :=
  let d := d.onAcu (Acu.logStep e evaluated)
  match d.acu.runNext e.outcome with
  | .ends o => d.onAcu (Acu.endRun o)
  | .goesOn j => beginStep Config.planSlots j d

/-! ## Events (R147 to R155) -/

/-- A step is in SETTLING or MEASURING. -/
def Acu.settled (a : Acu) : Bool := decide (a.runState = .settling) || decide (a.runState = .measuring)

/-- ACU takes a STEP signal (R147). -/
def takeStep (d : Lc44) : Lc44 :=
  match d.acu.runState, d.acu.currentStep with
  | .armed, some s =>
    if mutedFor s d then endStep ⟨.aborted, .mute⟩ none d
    else
      match enterSettling s (d.onAcu fun a => { a with timer := none }) with
      | (d, none) => d
      | (d, some e) => endStep e none d
  | _, _ => d.onAcu fun a => { a with lastRun := { a.lastRun with stray := satInc Config.max16 a.lastRun.stray } }

/-- ACU takes a capture notice (R150). -/
def takeAcuCapture (n : CaptureNotice) (d : Lc44) : Lc44 :=
  match d.acu.runState, d.acu.currentStep with
  | .measuring, some s => d.onAcu (Acu.onAggregate n.carrier (Aggregate.gather s.modstepMin n))
  | _, _ => d

/-- ACU takes a stale notice (R153). -/
def takeAcuStale (c : Carrier) (d : Lc44) : Lc44 :=
  if d.acu.settled && (d.acu.aggregates.get c).isSome then
    endStep ⟨.fail, .stale⟩ none (d.onAcu (Acu.markStale c))
  else d

/-- ACU takes a mute notice (R154). -/
def takeMute (d : Lc44) : Lc44 :=
  match d.acu.currentStep with
  | none => d
  | some s => if d.acu.settled && s.needsTransmit then endStep ⟨.aborted, .mute⟩ none d else d

/-- A last-run outcome of PASS becomes VOID (R155). -/
def LastRun.voidPass (r : LastRun) : LastRun := { r with outcome := if r.outcome = .pass then .void else r.outcome }

/-- The last-run outcomes PASS, FAIL and ABORTED become VOID (R157). -/
def LastRun.void (r : LastRun) : LastRun := { r with outcome := if r.outcome = .none then .none else .void }

/-- ACU takes a rollback notice (R155). -/
def takeRollback (d : Lc44) : Lc44 :=
  let d := if d.acu.runState = .idle then d else endStep ⟨.aborted, .rollback⟩ none d
  d.onAcu fun a => { a with lastRun := a.lastRun.voidPass }

/-- The arm timeout expires (R148). -/
def armExpired (d : Lc44) : Lc44 :=
  if d.acu.runState = .armed ∧ timerDue d.acu.timer then endStep ⟨.fail, .noMark⟩ none d else d

/-- The settle timer expires (R149). -/
def settleExpired (d : Lc44) : Lc44 :=
  match d.acu.runState, d.acu.currentStep with
  | .settling, some s => if timerDue d.acu.timer then d.onAcu (Acu.enterMeasuring s) else d
  | _, _ => d

/-- The measurement of a step ends, and the step is evaluated (R149, R151). -/
def measurementEnded (s : PlanStep) (d : Lc44) : Lc44 :=
  let d := d.onAcu fun a => { a with measured := s.measure * 1000 }
  let failed := (d.acu.results (some s)).any fun r => !r.failed.isEmpty
  endStep (if failed then ⟨.fail, .criteria⟩ else ⟨.pass, .none⟩) (some s) d

/-- The measure timer expires (R149). -/
def measureExpired (d : Lc44) : Lc44 :=
  match d.acu.runState, d.acu.currentStep with
  | .measuring, some s => if timerDue d.acu.timer then measurementEnded s d else d
  | _, _ => d

end Sys2Proof.Machine
end

