-- ==== Sys2Proof/Machine/AcceptanceCommands.lean ====
section
/-! DEFINITION. The events of ACU: STEP_SIGNAL, its notices, and the expiries of its step timer. -/

namespace Sys2Proof.Machine

/-- STEP_SIGNAL (R147). -/
def execStepSignal (s : State) : Host.Outcome State Fault Refusal := s.effect fun d => takeStep (takenAcu .step d)

/-- ACU_CAPTURE_NOTICE (R150). -/
def execAcuCaptureNotice (n : CaptureNotice) (s : State) : Host.Outcome State Fault Refusal :=
  s.effect (deliverAcu (.capture n) (takeAcuCapture n))

/-- ACU_STALE_NOTICE (R153). -/
def execAcuStaleNotice (c : Carrier) (s : State) : Host.Outcome State Fault Refusal :=
  s.effect (deliverAcu (.stale c) (takeAcuStale c))

/-- MUTE_NOTICE (R154). -/
def execMuteNotice (s : State) : Host.Outcome State Fault Refusal := s.effect fun d => takeMute (takenAcu .mute d)

/-- ROLLBACK_NOTICE (R155). -/
def execRollbackNotice (s : State) : Host.Outcome State Fault Refusal :=
  s.effect fun d => takeRollback (takenAcu .rollback d)

/-- ARM_TIMEOUT_EXPIRY (R148). -/
def execArmTimeoutExpiry (s : State) : Host.Outcome State Fault Refusal := s.effect armExpired

/-- SETTLE_TIMER_EXPIRY (R149). -/
def execSettleTimerExpiry (s : State) : Host.Outcome State Fault Refusal := s.effect settleExpired

/-- MEASURE_TIMER_EXPIRY (R149, R151). -/
def execMeasureTimerExpiry (s : State) : Host.Outcome State Fault Refusal := s.effect measureExpired

end Sys2Proof.Machine
end

