-- ==== Sys2Proof/Machine/Trial.lean ====
section
/-! DEFINITION. The Trial Unit's shared operations (chapter 4): header writes, opening and closing, the start and end of
a rollback, the restore engine, and what TRU does when a guarded-write sequence answers. -/

namespace Sys2Proof.Machine

/-! ## Header words (R79) -/

/-- The header's state word: CLOSED or OPEN with the trial number in its high byte. -/
def headerStateWord (number : Nat) (isOpen : Bool) : Word := BitVec.ofNat 16 (number * 256 + isOpen.toNat)

/-- The word a header step writes. -/
def headerRequest (step : HeaderStep) (d : Lc44) : MRequest :=
  match step with
  | .staleState | .closeState | .endState =>
    ⟨d.profileAddr Config.journalState, .write (headerStateWord d.tru.number false)⟩
  | .openState => ⟨d.profileAddr Config.journalState, .write (headerStateWord d.tru.number true)⟩
  | .staleCount | .openCount | .closeCount | .endCount => ⟨d.profileAddr Config.journalCount, .write 0⟩

/-- TRU requests a header word through INT. -/
def requestHeader (step : HeaderStep) (retry timedOut : Bool) (d : Lc44) : Lc44 :=
  requestInt .tru (headerRequest step d) (d.onTru fun t => { t with work := .header step retry timedOut })

/-- TRU requests the first header word of an open or close, or waits for the sequence in flight to answer (R59, R64). -/
def startHeader (step : HeaderStep) (d : Lc44) : Lc44 :=
  if d.iport.inFlight then d.onTru fun t => { t with work := .awaitSequence step }
  else requestHeader step false false d

/-! ## The outcome record (R82) -/

/-- A new outcome record that holds only the trial number, with its two counts from 0 (R59, R82). -/
def TrialOutcome.fresh (number : Nat) : TrialOutcome where
  number := number
  result := none
  cause := none
  entriesAtEnd := none
  restored := none
  unrestored := []
  refused := some 0
  confirmFailures := some 0
  lossCarrier := none
  secondsOpen := none
  recovered := false

/-- The outcome record updated, when there is one. -/
def Tru.onOutcome (f : TrialOutcome → TrialOutcome) (t : Tru) : Tru := { t with outcome := t.outcome.map f }

/-- The refused-write count of the outcome record rises (R71, R72, R75). -/
def countRefused (d : Lc44) : Lc44 :=
  d.onTru (Tru.onOutcome fun o => { o with refused := o.refused.map (satInc Config.max16) })

/-- The trial enters IDLE, and the seconds open are recorded (R82). -/
def Tru.enterIdle (t : Tru) : Tru :=
  { t with
    state := .idle
    timer := none
    due := none
    work := .idle
    closeSource := none
    openTicks := 0
    outcome := t.outcome.map fun o => { o with secondsOpen := some (min Config.max16 (t.openTicks / 1000)) } }

/-! ## Rollback (section 4.7) -/

/-- The newest entry that waits for restore. -/
def newestWaiting (j : List JournalEntry) : Option JournalEntry :=
  j.reverse.find? fun e => decide (e.mark = .waiting)

/-- The entry of an address that waits for restore (R75, R76). -/
def waitingEntry (j : List JournalEntry) (a : Addr) : Option JournalEntry :=
  j.find? fun e => decide (e.addr = a) && decide (e.mark = .waiting)

/-- The journal has an entry for an address (R70). -/
def hasEntry (j : List JournalEntry) (a : Addr) : Bool := j.any fun e => decide (e.addr = a)

/-- The restore engine takes the newest waiting entry; with none left TRU closes the header (R74, R78). -/
def restoreNext (d : Lc44) : Lc44 :=
  match newestWaiting d.tru.journal with
  | some e => requestRst ⟨e.addr, .write e.preImage⟩ (d.onTru fun t => { t with work := .restore false })
  | none => requestHeader .endState false false d

/-- A rollback starts (R73); a TRIAL-ABORT that waits for it is answered (R67). -/
def startRollback (cause : EndCause) (carrier : Option Carrier) (d : Lc44) : Lc44 :=
  let d := d.onTru fun t =>
    { t with
      state := .rollingBack
      timer := none
      due := none
      journal := t.journal.map fun e => { e with mark := .waiting }
      outcome := t.outcome.map fun o =>
        { o with cause := some cause, lossCarrier := carrier, entriesAtEnd := some t.journal.length } }
  let d := raiseAcu .rollback d
  let d := if d.sli.awaits .trialAbort then answer .ok [] d else d
  restoreNext d

/-- TRU takes a rollback cause with the trial OPEN and no rollback due: the rollback starts, or it is due while a
sequence is in flight, and the timer stops (R68). -/
def takeRollbackCause (cause : EndCause) (carrier : Option Carrier) (d : Lc44) : Lc44 :=
  if d.iport.inFlight then d.onTru fun t => { t with due := some ⟨cause, carrier⟩, timer := none }
  else startRollback cause carrier d

/-- The trial is OPEN with no rollback due. -/
def Tru.openUndue (t : Tru) : Bool := decide (t.state = .open) && t.due.isNone

/-- The end of a rollback (R78). -/
def endRollback (d : Lc44) : Lc44 :=
  d.onTru fun t =>
    let lost := (t.journal.filter fun e => decide (e.mark = .unrestored)).map JournalEntry.addr
    Tru.enterIdle
      { t with
        journal := []
        rolledBack := satInc Config.max16 t.rolledBack
        outcome := t.outcome.map fun o =>
          { o with
            unrestored := lost
            restored := o.entriesAtEnd.map (· - lost.length)
            result := some (if lost.isEmpty then .rolledBack else .partly) } }

/-- A restore ended OK: the entry is removed (R74). -/
def removeEntry (a : Addr) (j : List JournalEntry) : List JournalEntry := j.filter fun e => decide (e.addr ≠ a)

/-- A restore failed twice: the entry is marked UNRESTORED and stays (R74). -/
def markUnrestored (a : Addr) (j : List JournalEntry) : List JournalEntry :=
  j.map fun e => if e.addr = a then { e with mark := .unrestored } else e

/-- The outcome of a restore cycle (R74). -/
def restoreEnded (failure : Option MFailure) (d : Lc44) : Lc44 :=
  match d.tru.work, newestWaiting d.tru.journal with
  | .restore retry, some e =>
    match failure, retry with
    | none, _ => restoreNext (d.onTru fun t => { t with journal := removeEntry e.addr t.journal })
    | some _, false =>
      requestRst ⟨e.addr, .write e.preImage⟩ (d.onTru fun t => { t with work := .restore true })
    | some _, true => restoreNext (d.onTru fun t => { t with journal := markUnrestored e.addr t.journal })
  | _, _ => d

/-! ## Opening and closing (sections 4.2 and 4.4) -/

/-- The lowest-numbered watched carrier that is STALE or has a loss run of 3 or more (R61). -/
def lostCarrier (d : Lc44) : Option Carrier :=
  carriers.find? fun c => d.tru.watch.get c && (d.rcu.records.get c).lost

/-- The entry check (R61). -/
def entryCheck (d : Lc44) : Lc44 :=
  match lostCarrier d with
  | some c => takeRollbackCause .loss (some c) d
  | none => d

/-- The number of the next trial: from 255 to 1, and from 0 to 1 (R57). -/
def nextTrialNumber (n : Nat) : Nat := if n < 255 then n + 1 else 1

/-- TRIAL-OPEN has passed its stale rewrite: the number rises, the journal is empty, the outcome record is new (R59). -/
def renumber (d : Lc44) : Lc44 :=
  d.onTru fun t =>
    { t with
      number := nextTrialNumber t.number
      journal := []
      outcome := some (TrialOutcome.fresh (nextTrialNumber t.number)) }

/-- A taken TRIAL-OPEN (R59). -/
def beginOpening (r : OpenRequest) (d : Lc44) : Lc44 :=
  let d := d.onTru fun t => { t with state := .opening, openRequest := some r }
  if d.tru.stale then startHeader .staleState d else startHeader .openCount (renumber d)

/-- The trial enters OPEN from OPENING (R59), and the entry check is made (R61). -/
def enterOpen (d : Lc44) : Lc44 :=
  let d := d.onTru fun t =>
    { t with
      state := .open
      timer := t.openRequest.map OpenRequest.ticks
      watch := (t.openRequest.map OpenRequest.watch).getD noCarriers
      opened := satInc Config.max16 t.opened
      work := .idle
      openRequest := none
      openTicks := 0 }
  entryCheck (answer .ok (bytesBE 1 d.tru.number) d)

/-- An open fails: the trial is IDLE and the request is answered NOMEM (R59). -/
def failOpen (f : Tru → Tru) (d : Lc44) : Lc44 :=
  answer .noMem [] (d.onTru fun t => f { t with state := .idle, work := .idle, openRequest := none })

/-- A confirm taken while the trial is OPEN with no rollback due (R64). -/
def beginClosing (source : CloseSource) (d : Lc44) : Lc44 :=
  startHeader .closeState (d.onTru fun t => { t with state := .closing, closeSource := some source })

/-- The close succeeds (R64): what it records, and the answer to a TRIAL-CONFIRM. -/
def closeSucceeds (d : Lc44) : Lc44 :=
  let fromService := decide (d.tru.closeSource = some .service)
  let d := d.onTru fun t =>
    { t with
      timer := none
      expiryHeld := false
      journal := []
      confirmed := satInc Config.max16 t.confirmed
      outcome := t.outcome.map fun o =>
        { o with
          entriesAtEnd := some t.journal.length
          restored := some 0
          result := some .confirmed
          cause := some (if fromService then .confirmedService else .confirmedMark) } }
  if fromService then answer .ok [] d else d

/-- The close fails: the trial returns to OPEN, and a held expiry is taken or the entry check made (R65). -/
def closeFails (d : Lc44) : Lc44 :=
  let fromService := decide (d.tru.closeSource = some .service)
  let held := d.tru.expiryHeld
  let d := d.onTru fun t =>
    { t with state := .open, work := .idle, closeSource := none, expiryHeld := false }
  let d :=
    if fromService then answer .noMem [] d
    else d.onTru (Tru.onOutcome fun o => { o with confirmFailures := o.confirmFailures.map (satInc Config.max8) })
  if held then takeRollbackCause .expired none d else entryCheck d

/-- A header word was written (R59, R64, R78). -/
def headerWritten (step : HeaderStep) (d : Lc44) : Lc44 :=
  match step with
  | .staleState => requestHeader .staleCount false false d
  | .staleCount => requestHeader .openCount false false (renumber (d.onTru fun t => { t with stale := false }))
  | .openCount => requestHeader .openState false false d
  | .openState => enterOpen d
  | .closeState => requestHeader .closeCount false false (closeSucceeds d)
  | .closeCount => d.onTru Tru.enterIdle
  | .endState => requestHeader .endCount false false d
  | .endCount => endRollback d

/-- A header word failed twice; `timedOut` says that an attempt ended TIMEOUT (R59, R64, R65, R78). -/
def headerFailed (step : HeaderStep) (timedOut : Bool) (d : Lc44) : Lc44 :=
  match step with
  | .staleState | .staleCount => failOpen id d
  | .openCount | .openState => failOpen (Tru.onOutcome fun o => { o with result := some .openFailed }) d
  | .closeState =>
    if timedOut then (closeSucceeds d).onTru fun t => Tru.enterIdle { t with stale := true } else closeFails d
  | .closeCount => d.onTru Tru.enterIdle
  | .endState => endRollback (d.onTru fun t => { t with stale := true })
  | .endCount => endRollback d

/-- The outcome of a header write: one retry for each word. -/
def headerEnded (failure : Option MFailure) (d : Lc44) : Lc44 :=
  match d.tru.work with
  | .header step retry timedOut =>
    match failure with
    | none => headerWritten step d
    | some f =>
      let timedOut := timedOut || decide (f = .timeout)
      if retry then headerFailed step timedOut d else requestHeader step true timedOut d
  | _ => d

/-! ## The guarded-write sequence answers (R59, R64, R68) -/

/-- What TRU does when the guarded-write sequence in flight answers: a rollback due starts, and a first header write
that waited is requested. -/
def sequenceAnswered (d : Lc44) : Lc44 :=
  match d.tru.due with
  | some x => startRollback x.cause x.carrier d
  | none =>
    match d.tru.work with
    | .awaitSequence step => requestHeader step false false d
    | _ => d

end Sys2Proof.Machine
end

