-- ==== Sys2Proof/Machine/Startup.lean ====
section
/-! DEFINITION. Start-up (section 9.5): LOAD, RECOVER, the end of start-up, and what PHC does with the end of each of its
M-port cycles. -/

namespace Sys2Proof.Machine

/-! ## RECOVER (R182 to R184) -/

/-- PHC requests one read of an offset of the profile block. -/
def requestRead (offset : Nat) (d : Lc44) : Lc44 := requestInt .phc ⟨d.profileAddr offset, .read⟩ d

/-- PHC requests one write of an offset of the profile block. -/
def requestWrite (offset : Nat) (w : Word) (d : Lc44) : Lc44 := requestInt .phc ⟨d.profileAddr offset, .write w⟩ d

/-- The cycle a stage of RECOVER asks for. -/
def recoverRequest (g : RecoverStage) (d : Lc44) : Lc44 :=
  match g with
  | .readState _ => requestRead Config.journalState d
  | .readCount _ _ => requestRead Config.journalCount d
  | .readRecord _ _ good part _ => requestRead (Config.journalSlots + 3 * good.length + part.length) d
  | .restore _ _ todo _ _ _ =>
    match todo with
    | [] => d
    | r :: _ => requestInt .phc ⟨r.addr, .write r.preImage⟩ d
  | .closeState number _ _ => requestWrite Config.journalState (headerStateWord number false) d
  | .closeCount _ _ => requestWrite Config.journalCount 0 d

/-- RECOVER enters a stage and asks for its cycle. -/
def enterRecover (status : ProfileStatus) (g : RecoverStage) (d : Lc44) : Lc44 :=
  recoverRequest g (d.onPhc fun p => { p with work := .recovering status g })

/-- Start-up ends (R184): the start-up record is complete, the loaded timeout and CCL's settings are in force, PHOP is
NONE, and the first refresh begins when the mirror is enabled (R25, R201). -/
def endStartup (status : ProfileStatus) (x : RecoverySummary) (close : HeaderClose) (d : Lc44) : Lc44 :=
  let d := d.onPhc fun p =>
    { p with
      phop := .none
      work := .idle
      startup := some
        { status := status
          commission := d.straps.commission
          phase := p.phase
          recovery := x.result
          recovered := x.recovered
          unrestored := x.unrestored
          close := close } }
  let d := d.onMpc fun m =>
    { m with timeout := m.loadedTimeout.getD Config.defaultMemoryTimeout, loadedTimeout := none }
  if d.sli.mirrorEnabled then startMirror d else d

/-- The outcome record RECOVER writes (R81, R183). -/
def recoveredOutcome (number entries restored : Nat) (unrestored : List Addr) (result : TrialResult) : TrialOutcome where
  number := number
  result := some result
  cause := some .resetRecovered
  entriesAtEnd := some entries
  restored := some restored
  unrestored := unrestored
  refused := none
  confirmFailures := none
  lossCarrier := none
  secondsOpen := none
  recovered := true

/-- RECOVER writes the outcome record and goes on to close the header. -/
def recoverClose (status : ProfileStatus) (result : RecoveryResult) (o : TrialOutcome) (d : Lc44) : Lc44 :=
  enterRecover status
    (.closeState o.number ⟨result, o.restored.getD 0, o.unrestored.length⟩ false)
    (d.onTru fun t => { t with outcome := some o })

/-- A bad journal (R182, R183): nothing is restored. -/
def recoverBad (status : ProfileStatus) (number entries : Nat) (unrestored : List Addr) (d : Lc44) : Lc44 :=
  recoverClose status .badJournal (recoveredOutcome number entries 0 unrestored .badJournal) d

/-- RECOVER restores its next record, or has restored them all (R183). -/
def recoverRestore (status : ProfileStatus) (number count : Nat) (todo : List JournalRecord) (restored : Nat)
    (unrestored : List Addr) (d : Lc44) : Lc44 :=
  match todo with
  | [] =>
    recoverClose status (if unrestored.isEmpty then .restored else .partly)
      (recoveredOutcome number count restored unrestored (if unrestored.isEmpty then .rolledBack else .partly)) d
  | _ :: _ => enterRecover status (.restore number count todo restored unrestored false) d

/-- What RECOVER does once both header words are read (R182). -/
def recoverBy (status : ProfileStatus) (state count : Word) (d : Lc44) : Lc44 :=
  let number := bits 15 8 state
  let n := count.toNat
  let d := d.onTru fun t => { t with number := number }
  match bits 7 0 state with
  | 0 => endStartup status ⟨.closed, 0, 0⟩ .notWritten d
  | 1 =>
    if n = 0 then enterRecover status (.closeState number ⟨.empty, 0, 0⟩ false) d
    else if n ≤ Config.journalRoom then enterRecover status (.readRecord number n [] [] false) d
    else recoverBad status number 0 [] d
  | _ => recoverBad status number 0 [] d

/-- The record three words of a slot give (R183, section 11.1). -/
def recordOf (a b c : Word) : JournalRecord := ⟨BitVec.ofNat 20 (a.toNat + bits 3 0 b * 65536), c⟩

/-- A word of a record has been read (R183). The record is judged when its three words are read: its address is known from
the first two, and that the third is read also when it lies in the profile block is the model's choice (log 41). -/
def recordWordRead (status : ProfileStatus) (number count : Nat) (good : List JournalRecord) (part : List Word)
    (w : Word) (d : Lc44) : Lc44 :=
  match part with
  | [a, b] =>
    let r := recordOf a b w
    if inProfile d.straps.psel r.addr.toNat then
      recoverBad status number count (good.map JournalRecord.addr) d
    else if good.length + 1 < count then
      enterRecover status (.readRecord number count (good ++ [r]) [] false) d
    else recoverRestore status number count (good ++ [r]).reverse 0 [] d
  | _ => enterRecover status (.readRecord number count good (part ++ [w]) false) d

/-- RECOVER could not read the header (R182). -/
def recoverNoRead (status : ProfileStatus) (d : Lc44) : Lc44 :=
  endStartup status ⟨.noRead, 0, 0⟩ .notWritten (d.onTru fun t => { t with stale := true })

/-- The cycle of a stage of RECOVER ended OK. -/
def recoverOk (status : ProfileStatus) (g : RecoverStage) (w : Word) (d : Lc44) : Lc44 :=
  match g with
  | .readState _ => enterRecover status (.readCount w false) d
  | .readCount state _ => recoverBy status state w d
  | .readRecord number count good part _ => recordWordRead status number count good part w d
  | .restore number count todo restored unrestored _ =>
    recoverRestore status number count todo.tail (restored + 1) unrestored d
  | .closeState _ x _ => enterRecover status (.closeCount x false) d
  | .closeCount x _ => endStartup status x .closed d

/-- The cycle of a stage of RECOVER failed: it is retried once. -/
def recoverFailed (status : ProfileStatus) (g : RecoverStage) (d : Lc44) : Lc44 :=
  match g with
  | .readState false => enterRecover status (.readState true) d
  | .readState true => recoverNoRead status d
  | .readCount s false => enterRecover status (.readCount s true) d
  | .readCount _ true => recoverNoRead status d
  | .readRecord number count good part false => enterRecover status (.readRecord number count good part true) d
  | .readRecord number count good _ true => recoverBad status number count (good.map JournalRecord.addr) d
  | .restore number count todo restored unrestored false =>
    enterRecover status (.restore number count todo restored unrestored true) d
  | .restore number count todo restored unrestored true =>
    recoverRestore status number count todo.tail restored ((todo.map JournalRecord.addr).take 1 ++ unrestored) d
  | .closeState number x false => enterRecover status (.closeState number x true) d
  | .closeState _ x true => endStartup status x .stateFailed (d.onTru fun t => { t with stale := true })
  | .closeCount x false => enterRecover status (.closeCount x true) d
  | .closeCount x true => endStartup status x .countFailed d

/-! ## LOAD (R180, R181) -/

/-- LOAD ends with a profile status, and RECOVER begins (R180, R182). -/
def loadEndsWith (status : ProfileStatus) (d : Lc44) : Lc44 :=
  enterRecover status (.readState false) (d.onPhc fun p => { p with phop := .starting .recover })

/-- LOAD asks for its next word, in ascending order of the included offsets (R180). -/
def loadNext (staged : List Word) (d : Lc44) : Lc44 :=
  requestRead (includedOffset staged.length) (d.onPhc fun p => { p with work := .loading staged })

/-- LOAD has read another word (R180). The signature and the format are looked at when all 16 header words are read
(log 40). -/
def loadWordRead (staged : List Word) (d : Lc44) : Lc44 :=
  if staged.length < Config.headerWords then loadNext staged d
  else if staged.getD 0 0 ≠ Config.signature ∨ staged.getD 1 0 ≠ 1 then loadEndsWith .absent d
  else if staged.length < Config.includedWords then loadNext staged d
  else if wordSum staged = 0 then loadEndsWith .valid (putInForce staged d)
  else loadEndsWith .badSum d

/-! ## PHC's M-port cycles -/

/-- An INT cycle of PHC ended. -/
def phcEnded (e : MEnd) (d : Lc44) : Lc44 :=
  match d.phc.work with
  | .idle => d
  | .probe => probeEnded (failureOf e) d
  | .writing _ _ => imageWriteEnded (failureOf e) d
  | .loading staged =>
    match e with
    | .error _ => loadEndsWith .noMem d
    | .ok w => loadWordRead (staged ++ [w]) d
  | .recovering status g =>
    match e with
    | .error _ => recoverFailed status g d
    | .ok w => recoverOk status g w d

/-- An INT cycle of TRU ended: a header write (R79). -/
def truEnded (failure : Option MFailure) (d : Lc44) : Lc44 := headerEnded failure d

/-- An INT cycle ended: its outcome goes to its owner (R27). -/
def intEnded (o : IntOwner) (e : MEnd) (d : Lc44) : Lc44 :=
  match o with
  | .tru => truEnded (failureOf e) d
  | .ovu => foldEnded e d
  | .phc => phcEnded e d

end Sys2Proof.Machine
end

