-- ==== Sys2Proof/Machine/Cycle.lean ====
section
/-! DEFINITION. The I-port cycle from its take to its answer (chapter 1), the guarded-write sequence (section 3.3), the
redirected cycle (sections 5.2 and 5.3), the arbiter (section 2.4), and the end of an M-port cycle (R21). -/

namespace Sys2Proof.Machine

/-! ## The answer (R19, R20) -/

/-- The fault-answer counter of a cause rises (R19). -/
def FaultCounters.count (c : FaultCause) (f : FaultCounters) : FaultCounters :=
  match c with
  | .barred => { f with barred := satInc Config.max32 f.barred }
  | .rule => { f with rule := satInc Config.max32 f.rule }
  | .journalFull => { f with journalFull := satInc Config.max32 f.journalFull }
  | .journalWrite => { f with journalWrite := satInc Config.max32 f.journalWrite }
  | .rollback => { f with rollback := satInc Config.max32 f.rollback }
  | .redirect => { f with redirect := satInc Config.max32 f.redirect }
  | .memory => { f with memory := satInc Config.max32 f.memory }

/-- CCL counts a FAULT answer's cause. -/
def countFault (c : FaultCause) (d : Lc44) : Lc44 := d.onCcl fun x => { x with faults := x.faults.count c }

/-- What follows the answer of the cycle: a phase or mirror range that waited is put in force (R3, R4), a sequence in
flight has answered (R68), and a fold that waited begins (R94). -/
def afterAnswer (inFlight : Bool) (d : Lc44) : Lc44 :=
  let d := syncCcl d
  foldReleased (if inFlight then sequenceAnswered d else d)

/-- The I-port is answered: the cycle and the FWD hold end (R1, R28). -/
def answerCycle (a : IAnswer) (d : Lc44) : Lc44 :=
  let inFlight := d.iport.inFlight
  let d := d.onIport fun p => { p with cycle := none, answer := some a }
  afterAnswer inFlight (d.onMpc fun m => { m with hold := none })

/-- The I-port is answered FAULT with a cause, which is counted (R19). -/
def faultCycle (c : FaultCause) (d : Lc44) : Lc44 := answerCycle (.fault (some c)) (countFault c d)

/-- The cycle in progress goes on to a stage. -/
def enterStage (g : Stage) (d : Lc44) : Lc44 :=
  d.onIport fun p => { p with cycle := p.cycle.map fun c => { c with stage := g } }

/-! ## Presenting FWD's cycles -/

/-- The word `k` of the write-ahead of an address (R72, section 11.1). -/
def writeAheadRequest (c : ICycle) (g : GuardSeq) (k : Nat) (d : Lc44) : MRequest :=
  let n := d.tru.journal.length
  let slot := Config.journalSlots + 3 * n
  match k with
  | 0 => ⟨d.profileAddr slot, .write (natWord c.cycle.addr.toNat)⟩
  | 1 =>
    ⟨d.profileAddr (slot + 1),
      .write (natWord (c.cycle.addr.toNat / 65536 + (c.record.index.map Fin.val).getD 0 * 16))⟩
  | 2 => ⟨d.profileAddr (slot + 2), .write (g.memWord.getD 0)⟩
  | _ => ⟨d.profileAddr Config.journalCount, .write (natWord (n + 1))⟩

/-- The address OVU gives a redirected cycle (R87, R90): a write goes to the overlay; a read goes there when its flag
is set. -/
def redirectedAddr (c : ICycle) (d : Lc44) : Addr :=
  match c.record.treatment with
  | .redirect m base =>
    match c.cycle.op with
    | .write _ => addrPlus base c.record.offset
    | .read => if c.record.offset ∈ d.ovu.map m then addrPlus base c.record.offset else c.cycle.addr
  | _ => c.cycle.addr

/-- Step 6, the lock pass (R51), and the presentation of step 7 (R52). -/
def presentGuarded (c : ICycle) (g : GuardSeq) (d : Lc44) : Lc44 :=
  let r := lockPass d.txmute g
  let d := countHits r.hits d
  if r.refused then faultCycle .rule d
  else
    present .fwd ⟨c.cycle.addr, .write r.working⟩ (enterStage (.guardForward { g with working := r.working }) d)

/-- The M-port cycle that the cycle in progress has reached is presented under the FWD hold (R28). -/
def presentStage (d : Lc44) : Lc44 :=
  match d.iport.cycle with
  | none => d
  | some c =>
    match c.stage with
    | .forward => present .fwd ⟨c.cycle.addr, c.cycle.op⟩ d
    | .redirected _ => present .fwd ⟨redirectedAddr c d, c.cycle.op⟩ d
    | .held => d
    | .preRead _ => present .fwd ⟨c.cycle.addr, .read⟩ d
    | .writeAhead g k => present .fwd (writeAheadRequest c g k d) d
    | .guardForward g => presentGuarded c g d

/-- The cycle in progress goes on to a stage that needs an M-port cycle: under the hold it is presented, otherwise FWD
requests the port (R26, R28). -/
def goOn (g : Stage) (d : Lc44) : Lc44 :=
  if d.mpc.hold.isSome then presentStage (enterStage g d) else requestFwd (enterStage g d)

/-! ## The guarded-write sequence -/

/-- Step 4, the rules (R48, R49), and what follows it. -/
def guardRules (data : Word) (g : GuardSeq) (d : Lc44) : Lc44 :=
  let r := applyRules g.memWord d.txmute g.rules data
  let g := { g with working := r.working, sample := d.txmute }
  let d := countHits r.hits d
  if r.refused then faultCycle .rule d
  else goOn (if g.isNew then .writeAhead g 0 else .guardForward g) d

/-- The end of step 1: the rules are fixed, and step 2 is made when it is needed (R46, R47). -/
def guardGo (journalled : Bool) (first count : Nat) (c : BusCycle) (offset : Nat) (data : Word) (d : Lc44) : Lc44 :=
  let g : GuardSeq :=
    { rules := d.fgd.fixRules first count offset
      journalled := journalled
      isNew := journalled && !hasEntry d.tru.journal c.addr
      memWord := none
      working := data
      sample := false }
  if g.isNew || g.rules.any fun r => r.rule.isFrozen then goOn (.preRead g) d else guardRules data g d

/-- Step 1, the settle (R46, R75). -/
def settle (first count : Nat) (c : BusCycle) (offset : Nat) (data : Word) (d : Lc44) : Lc44 :=
  match d.tru.state with
  | .opening | .closing => enterStage .held d
  | .open => guardGo true first count c offset data d
  | .idle => guardGo false first count c offset data d
  | .rollingBack =>
    match waitingEntry d.tru.journal c.addr with
    | some _ => faultCycle .rollback (countRefused d)
    | none => guardGo false first count c offset data d

/-- The entry an open trial's journal takes for a new address (R70, R72). -/
def appendEntry (c : ICycle) (g : GuardSeq) (d : Lc44) : Lc44 :=
  let pre := g.memWord.getD 0
  d.onTru fun t =>
    { t with journal := t.journal ++ [⟨c.cycle.addr, pre, c.record.index.getD 0, 0, pre, .none⟩] }

/-- An accepted guarded forward moves the write count and last value of its entry (R52). -/
def noteForward (a : Addr) (w : Word) (j : List JournalEntry) : List JournalEntry :=
  j.map fun e => if e.addr = a then { e with writes := satInc Config.max8 e.writes, last := w } else e

/-! ## Taking a cycle -/

/-- The Region Table lookup (R5): the first entry, from index 0 upward, that matches address and initiator. -/
def Ccl.lookup (c : Ccl) (x : BusCycle) : Option (Fin 16 × Region) :=
  c.entries.find? fun e =>
    decide (e.2.base.toNat ≤ x.addr.toNat) && decide (x.addr.toNat < e.2.base.toNat + e.2.length) &&
      match x.initiator with
      | .ctl => e.2.ctl
      | .rpt => e.2.rpt

/-- A treatment as a phase has it (R3): in SERVICE, REDIRECT and MARK act as PASS. -/
def Treatment.inPhase (p : Phase) (t : Treatment) : Treatment :=
  match p, t with
  | .service, .redirect _ _ => .pass
  | .service, .mark _ _ _ => .pass
  | _, t => t

/-- The record of a cycle that no entry decides: PASS, with no entry index. -/
def ClassRecord.plain : ClassRecord := ⟨.pass, none, 0⟩

/-- The reserved-range check applies to a cycle (R4). -/
def Lc44.reservedCycle (d : Lc44) (x : BusCycle) : Bool :=
  decide (d.ccl.phase ≠ .transparent) && d.reserved x.addr.toNat

/-- The classification record of a cycle (R3 to R6). -/
def classify (x : BusCycle) (d : Lc44) : ClassRecord :=
  if decide (d.ccl.phase = .transparent) || d.reserved x.addr.toNat then .plain
  else
    match d.ccl.lookup x with
    | none => .plain
    | some (i, r) => ⟨r.treatment.inPhase d.ccl.phase, some i, x.addr.toNat - r.base.toNat⟩

/-- A redirected write at the take (R7, R88). -/
def takeRedirectedWrite (base : Addr) (offset : Nat) (d : Lc44) : Lc44 :=
  if d.reserved (base.toNat + offset) then faultCycle .barred d
  else if d.phc.phop.isHandingOver then faultCycle .redirect d
  else goOn (.redirected false) d

/-- A guarded read at the take (R12, R76). -/
def takeGuardedRead (a : Addr) (d : Lc44) : Lc44 :=
  match d.tru.state with
  | .rollingBack =>
    match waitingEntry d.tru.journal a with
    | some e => answerCycle (.okRead e.preImage) d
    | none => goOn .forward d
  | _ => goOn .forward d

/-- A classified cycle is handled by its treatment (section 1.5). -/
def handleCycle (x : BusCycle) (r : ClassRecord) (d : Lc44) : Lc44 :=
  let d := d.onIport fun p => { p with cycle := some ⟨x, r, .forward⟩ }
  match r.treatment, x.op with
  | .barred, .write _ => faultCycle .barred d
  | .guarded first count, .write data => settle first count x r.offset data d
  | .guarded _ _, .read => takeGuardedRead x.addr d
  | .redirect _ base, .write _ => takeRedirectedWrite base r.offset d
  | .redirect _ _, .read => goOn (.redirected false) d
  | _, _ => goOn .forward d

/-- A cycle is taken at the I-port (R1 to R4). -/
def takeCycle (x : BusCycle) (d : Lc44) : Lc44 :=
  if d.phc.phop.isStarting then d.onIport fun p => { p with answer := some (.fault none) }
  else
    match x.op with
    | .write _ => if d.reservedCycle x then faultCycle .barred d else handleCycle x (classify x d) d
    | .read => handleCycle x (classify x d) d

/-! ## The end of FWD's cycles -/

/-- A MARK write accepted by memory matches (R10). -/
def markMatches (value mask data : Word) : Bool := decide ((data ^^^ value) &&& mask = 0)

/-- The signal of a MARK entry is raised to its owner (R10). -/
def raiseSignal (s : MarkSignal) (d : Lc44) : Lc44 :=
  match s with
  | .confirm => raiseTru .confirm d
  | .abort => raiseTru .abort d
  | .step => raiseAcu .step d

/-- What an accepted forwarded write brings about beside its answer (R10, R11). -/
def acceptedWrite (r : ClassRecord) (data : Word) (d : Lc44) : Lc44 :=
  match r.treatment with
  | .mark value mask s =>
    if markMatches value mask data && !d.phc.phop.isHandingOver then raiseSignal s d else d
  | .observe first count stride => raiseRcu ⟨r.offset, first, count, stride, data⟩ d
  | _ => d

/-- A forwarded cycle accepted by memory (R8, R10, R11). -/
def forwardOk (c : ICycle) (w : Word) (d : Lc44) : Lc44 :=
  match c.cycle.op with
  | .read => answerCycle (.okRead w) d
  | .write data => answerCycle .okWrite (acceptedWrite c.record data d)

/-- A redirected cycle accepted by memory (R88, R90). -/
def redirectedOk (c : ICycle) (void : Bool) (w : Word) (d : Lc44) : Lc44 :=
  match c.cycle.op, c.record.treatment with
  | .write _, .redirect m _ =>
    answerCycle .okWrite
      (if void then d else d.onOvu fun o => o.setMap m (setFlag c.record.offset (o.map m)))
  | .write _, _ => answerCycle .okWrite d
  | .read, _ => answerCycle (.okRead w) d

/-- The pre-read ended OK: the journal room is looked at, then the rules are applied (R47, R71). -/
def preReadOk (g : GuardSeq) (w : Word) (d : Lc44) : Lc44 :=
  if g.isNew && decide (Config.journalRoom ≤ d.tru.journal.length) then faultCycle .journalFull (countRefused d)
  else guardRules g.working { g with memWord := some w } d

/-- A write of the write-ahead ended OK (R72). -/
def writeAheadOk (c : ICycle) (g : GuardSeq) (k : Nat) (d : Lc44) : Lc44 :=
  if k < 3 then goOn (.writeAhead g (k + 1)) d else goOn (.guardForward g) (appendEntry c g d)

/-- The guarded forward ended OK (R52). -/
def guardForwardOk (c : ICycle) (g : GuardSeq) (d : Lc44) : Lc44 :=
  answerCycle .okWrite
    (if g.journalled then d.onTru fun t => { t with journal := noteForward c.cycle.addr g.working t.journal } else d)

/-- A cycle of FWD ended OK. -/
def fwdOk (c : ICycle) (w : Word) (d : Lc44) : Lc44 :=
  match c.stage with
  | .forward => forwardOk c w d
  | .redirected void => redirectedOk c void w d
  | .held => d
  | .preRead g => preReadOk g w d
  | .writeAhead g k => writeAheadOk c g k d
  | .guardForward g => guardForwardOk c g d

/-- The cause with which a failed cycle of FWD is answered (R19, R47, R72). -/
def Stage.failCause (s : Stage) : FaultCause :=
  match s with
  | .preRead g => if g.isNew then .journalWrite else .memory
  | .writeAhead _ _ => .journalWrite
  | _ => .memory

/-- A cycle of FWD ended FAULT or TIMEOUT: the I-port is answered FAULT (R8, R47, R52, R72). -/
def fwdFailed (c : ICycle) (d : Lc44) : Lc44 :=
  faultCycle c.stage.failCause (if c.stage.failCause = .journalWrite then countRefused d else d)

/-- A cycle of FWD ended. -/
def fwdEnded (e : MEnd) (d : Lc44) : Lc44 :=
  match d.iport.cycle, e with
  | none, _ => d
  | some c, .ok w => fwdOk c w d
  | some c, .error _ => fwdFailed c d

/-! ## The arbiter (R28 to R31) -/

/-- The client that the arbiter grants when the port frees (R29). -/
def Mpc.choice (m : Mpc) : Option Client :=
  if m.fwdWaiting && m.rstWaiting.isSome then
    match m.alternation with
    | .fwd => some .rst
    | .rst => some .fwd
  else if m.fwdWaiting then some .fwd
  else if m.rstWaiting.isSome then some .rst
  else if !m.intQueue.isEmpty then some .int
  else if m.mirWaiting.isSome then some .mir
  else none

/-- A client is granted the port, FWD with the memory timeout in force now (R24). The head of the INT queue leaves it
when its cycle ends (R27). -/
def grantTo (c : Client) (d : Lc44) : Lc44 :=
  match c with
  | .fwd => presentStage (d.onMpc fun m => { m with fwdWaiting := false, hold := some m.timeout, alternation := .fwd })
  | .rst =>
    match d.mpc.rstWaiting with
    | none => d
    | some r => present .rst r (d.onMpc fun m => { m with rstWaiting := none, alternation := .rst })
  | .int =>
    match d.mpc.intQueue with
    | [] => d
    | q :: _ => present .int q.request d
  | .mir =>
    match d.mpc.mirWaiting with
    | none => d
    | some r => present .mir r (d.onMpc fun m => { m with mirWaiting := none })

/-- One decision of the arbiter: a free port goes to the client chosen. -/
def arbitrateOnce (d : Lc44) : Lc44 :=
  if d.mpc.free then
    match d.mpc.choice with
    | none => d
    | some c => grantTo c d
  else d

/-- The arbiter decides, and decides again when the FWD grant ended at once in a refusal of the lock pass (R28, R51). -/
def arbitrate (d : Lc44) : Lc44 := arbitrateOnce (arbitrateOnce d)

/-! ## The end of an M-port cycle (R21, R33, R34) -/

/-- The owner of the INT request whose cycle is on the port. -/
def Mpc.headOwner (m : Mpc) : Option IntOwner := m.intQueue.head?.map IntRequest.owner

/-- A cycle that failed is counted and recorded (R33, R34). -/
def Mpc.failed (c : MCycle) (f : MFailure) (m : Mpc) : Mpc :=
  { m with
    faults := if f = .fault then satInc Config.max32 m.faults else m.faults
    timeouts := if f = .timeout then satInc Config.max32 m.timeouts else m.timeouts
    lastFailure :=
      some ⟨c.client, if c.client = .int then m.headOwner else none, c.request, f⟩ }

/-- The M-port cycle leaves the port, a failure being counted. -/
def Mpc.ended (c : MCycle) (e : MEnd) (m : Mpc) : Mpc :=
  match e with
  | .ok _ => { m with cycle := none }
  | .error f => { m.failed c f with cycle := none }

/-- The outcome of an M-port cycle goes to its client (R21). -/
def dispatchEnd (c : MCycle) (e : MEnd) (d : Lc44) : Lc44 :=
  match c.client with
  | .fwd => fwdEnded e d
  | .rst => restoreEnded (failureOf e) d
  | .int =>
    match d.mpc.intQueue with
    | [] => d
    | q :: rest => intEnded q.owner e (d.onMpc fun m => { m with intQueue := rest })
  | .mir => mirrorEnded (failureOf e) d

/-- An M-port cycle ends (R21), and the arbiter decides when the port has freed (R29). Without a cycle on the port
nothing happens (R23). -/
def memoryEnd (e : MEnd) (d : Lc44) : Lc44 :=
  match d.mpc.cycle with
  | none => d
  | some c => arbitrate (dispatchEnd c e (d.onMpc (Mpc.ended c e)))

/-- A held guarded write whose trial has settled resumes its sequence (R46, R60). -/
def releaseHeld (d : Lc44) : Lc44 :=
  match d.iport.cycle with
  | none => d
  | some c =>
    match c.stage, c.record.treatment, c.cycle.op with
    | .held, .guarded first count, .write data => settle first count c.cycle c.record.offset data d
    | _, _, _ => d

end Sys2Proof.Machine
end

