-- ==== Sys2Proof/Machine/BusCommands.lean ====
section
/-! DEFINITION. The commands of the two bus ports: I_PORT_CYCLE, MEMORY_ANSWER, MEMORY_TIMEOUT, HELD_WRITE_RELEASE. -/

namespace Sys2Proof.Machine

/-- I_PORT_CYCLE (R1): a cycle is taken when none is unanswered; otherwise it goes on waiting at the port (log 12). -/
def execIPortCycle (c : BusCycle) (s : State) : Host.Outcome State Fault Refusal :=
  s.effect fun d => if d.iport.cycle.isSome then d else arbitrate (takeCycle c d)

/-- MEMORY_ANSWER (R21): the M-port cycle in progress ends as memory answers. -/
def execMemoryAnswer (a : MemAnswer) (s : State) : Host.Outcome State Fault Refusal :=
  s.effect fun d =>
    match a with
    | .ok data => memoryEnd (.ok data) d
    | .fault => memoryEnd (.error .fault) d

/-- MEMORY_TIMEOUT (R23): the M-port cycle in progress ends TIMEOUT (log 21). -/
def execMemoryTimeout (s : State) : Host.Outcome State Fault Refusal :=
  s.effect fun d => memoryEnd (.error .timeout) d

/-- HELD_WRITE_RELEASE (R46, R60): a held guarded write resumes under the trial state as it has settled. -/
def execHeldWriteRelease (s : State) : Host.Outcome State Fault Refusal :=
  s.effect fun d => arbitrate (releaseHeld d)

end Sys2Proof.Machine
end

