-- ==== Sys2Proof/Machine/Capture.lean ====
section
/-! DEFINITION. The Report Capture Unit's shared operations (chapter 6): assembly, the capture attempt, the capture, the
STALE state, and the changes of settings that reach TMU. -/

namespace Sys2Proof.Machine

/-- The slot of a kind in a layout. -/
def Layout.hasKind (l : Layout) (k : ReportKind) : Bool :=
  l.slots.toList.any fun s => decide (s.map LayoutSlot.kind = some k)

/-- A value put into an assembly buffer under its kind, and marked fresh (R104). -/
def Buffer.put (b : Buffer) (k : ReportKind) (v : Int) : Buffer :=
  match k with
  | .rsl => { b with rsl := ⟨v, true⟩ }
  | .mse => { b with mse := ⟨v, true⟩ }
  | .xpd => { b with xpd := ⟨v, true⟩ }
  | .corr => { b with corr := ⟨v, true⟩ }
  | .uncorr => { b with uncorr := ⟨v, true⟩ }
  | .modstep => { b with modstep := ⟨v, true⟩ }

/-- A word assembled: each slot that names its index extracts its field (R104). -/
def assemble (l : Layout) (index : Nat) (w : Word) (b : Buffer) : Buffer :=
  l.slots.toList.foldl
    (fun b s =>
      match s with
      | none => b
      | some s => if s.wordIndex = index then b.put s.kind (extract s.field w) else b)
    b

/-- A fresh value, or none. -/
def Assembled.taken (a : Assembled) : Option Int := if a.fresh then some a.value else none

/-- The fresh mark cleared. -/
def Assembled.used (a : Assembled) : Assembled := { a with fresh := false }

/-- Every fresh mark of a buffer cleared (R105). -/
def Buffer.used (b : Buffer) : Buffer :=
  ⟨b.rsl.used, b.mse.used, b.xpd.used, b.corr.used, b.uncorr.used, b.modstep.used⟩

/-- The loss run after a capture (R108). -/
def lossRunAfter (floor rsl : Int) (run : Nat) : Nat := if rsl < floor then satInc Config.max8 run else 0

/-- The peak after a capture (R107). -/
def peakAfterCapture (rsl : Int) (tick : BitVec 32) (p : Option Peak) : Option Peak :=
  match p with
  | none => some ⟨rsl, tick⟩
  | some q => if q.rsl < rsl then some ⟨rsl, tick⟩ else some q

/-- A capture record after a capture from a buffer (R107). -/
def CaptureRecord.captured (r : CaptureRecord) (b : Buffer) (tick : BitVec 32) (timeout : Nat) (floor : Int) :
    CaptureRecord :=
  CaptureRecord.judged
    { r with
      state := .track
      lastRsl := some b.rsl.value
      lastMse := b.mse.taken <|> r.lastMse
      lastXpd := b.xpd.taken <|> r.lastXpd
      lastModstep := b.modstep.taken.map Int.toNat <|> r.lastModstep
      lastCorr := b.corr.taken.map Int.toNat <|> r.lastCorr
      lastUncorr := b.uncorr.taken.map Int.toNat <|> r.lastUncorr
      captures := satInc Config.max32 r.captures
      lastTick := some tick
      peak := peakAfterCapture b.rsl.value tick r.peak
      lossRun := lossRunAfter floor b.rsl.value r.lossRun
      timer := some timeout }

/-- The capture notice of a capture (R109). -/
def noticeOf (c : Carrier) (b : Buffer) (lossRun : Nat) : CaptureNotice where
  carrier := c
  rsl := b.rsl.value
  mse := b.mse.taken
  xpd := b.xpd.taken
  corr := b.corr.taken.map Int.toNat
  uncorr := b.uncorr.taken.map Int.toNat
  modstep := b.modstep.taken.map Int.toNat
  lossRun := lossRun

/-- The buffer of one carrier replaced. -/
def setBuffer (c : Carrier) (b : Buffer) (d : Lc44) : Lc44 := d.onRcu fun r => { r with buffers := r.buffers.set c b }

/-- The capture record of one carrier replaced. -/
def setRecord (c : Carrier) (x : CaptureRecord) (d : Lc44) : Lc44 :=
  d.onRcu fun r => { r with records := r.records.set c x }

/-- A capture attempt from a carrier's buffer (R105, R107): a capture with its notices, or an incomplete report. -/
def captureAttempt (c : Carrier) (b : Buffer) (d : Lc44) : Lc44 :=
  let r := d.rcu.records.get c
  if b.rsl.fresh then
    let x := r.captured b d.rcu.tickCount d.rcu.reportTimeout d.rcu.lossFloor
    sendCapture (noticeOf c b x.lossRun) (setRecord c x (setBuffer c b.used d))
  else setRecord c { r with incomplete := satInc Config.max16 r.incomplete } (setBuffer c Buffer.reset d)

/-- An OBSERVE word for a carrier under a layout (R98, R104). -/
def observeWord (l : Layout) (c : Carrier) (index : Nat) (w : Word) (d : Lc44) : Lc44 :=
  let b := assemble l index w (d.rcu.buffers.get c)
  if index = l.closing then captureAttempt c b d else setBuffer c b d

/-- The carrier an OBSERVE word belongs to, absent when its block lies beyond the carrier count (R98). -/
def handoffCarrier (h : Handoff) : Option Carrier :=
  if h.offset / h.stride < h.carrierCount then carrierOf (h.firstCarrier + h.offset / h.stride) else none

/-- RCU takes a hand-off (R98). The words of a carrier are assembled in the order they are taken in (R104; log 37). -/
def takeHandoff (h : Handoff) (d : Lc44) : Lc44 :=
  match handoffCarrier h, d.rcu.layout with
  | some c, some l => if l.hasKind .rsl then observeWord l c (h.offset % h.stride) h.data d else d
  | _, _ => d

/-- A carrier in TRACK becomes STALE, with its stale notices (R110). -/
def becomeStale (c : Carrier) (d : Lc44) : Lc44 :=
  let r := d.rcu.records.get c
  if r.state = .track then sendStale c (setRecord c { r with state := .stale, timer := none } d) else d

/-- The report timer of one carrier under a new timeout (R111): the new timeout less the ticks since the last capture,
or STALE when that is 0 or less. -/
def retimeCarrier (timeout : Nat) (c : Carrier) (d : Lc44) : Lc44 :=
  let r := d.rcu.records.get c
  if r.state = .track then
    let elapsed := (d.rcu.tickCount - r.lastTick.getD d.rcu.tickCount).toNat
    if timeout ≤ elapsed then becomeStale c d else setRecord c { r with timer := some (timeout - elapsed) } d
  else d

/-- A new report timeout and loss floor in force (R111). Several carriers that become STALE at once are taken in
ascending order, and their notices raised in that order (log 31). -/
def setReportTimes (timeout : Nat) (floor : Int) (d : Lc44) : Lc44 :=
  let d := d.onRcu fun r => { r with reportTimeout := timeout, lossFloor := floor }
  retimeCarrier timeout 3 (retimeCarrier timeout 2 (retimeCarrier timeout 1 (retimeCarrier timeout 0 d)))

/-- The peaks of a set of carriers reset, and TMU told (R113). -/
def resetPeaks (m : CarrierSet) (d : Lc44) : Lc44 :=
  raiseTmu (.peakReset m) (d.onRcu fun r =>
    { r with
      records := r.records.mapAll fun c x => if m.get c then CaptureRecord.judged { x with peak := none } else x })

/-- The captures of a set of carriers cleared, and TMU told (R115): that they have left TRACK, and then of the peak
reset, so that the peak reset finds none of them heard (R134; log 26). -/
def clearCaptures (m : CarrierSet) (d : Lc44) : Lc44 :=
  raiseTmu (.peakReset m) (raiseTmu (.leftTrack m) (d.onRcu fun r =>
    { r with
      records := r.records.mapAll fun c x => if m.get c then CaptureRecord.cleared x.settings else x
      buffers := r.buffers.mapAll fun c b => if m.get c then Buffer.reset else b }))

end Sys2Proof.Machine
end

