-- ==== Sys2Proof/Machine/CaptureCommands.lean ====
section
/-! DEFINITION. The events of RCU: OBSERVE_HANDOFF and REPORT_TIMER_EXPIRY. -/

namespace Sys2Proof.Machine

/-- OBSERVE_HANDOFF (R98): RCU takes an accepted OBSERVE word. -/
def execObserveHandoff (h : Handoff) (s : State) : Host.Outcome State Fault Refusal :=
  s.effect fun d => takeHandoff h (takenRcu h d)

/-- REPORT_TIMER_EXPIRY (R110): a carrier in TRACK becomes STALE. A timer that a capture has reloaded is not due. -/
def execReportTimerExpiry (c : Carrier) (s : State) : Host.Outcome State Fault Refusal :=
  s.effect fun d => if timerDue (d.rcu.records.get c).timer then becomeStale c d else d

end Sys2Proof.Machine
end

