-- ==== Sys2Proof/Machine/Service.lean ====
section
/-! DEFINITION. The service line (sections 10.1 to 10.3): the receiver, bad and discarded frames, the end of a response,
and the take of a request with its checks before the owner. -/

namespace Sys2Proof.Machine

/-! ## The receiver (R187) -/

/-- The start byte of a frame (section 10.1). -/
def startByte : Byte := 0xC3

/-- A frame's bytes from the length on sum to 0 (R186). -/
def sumsToZero (len : Nat) (code : Byte) (body : List Byte) (check : Byte) : Bool :=
  decide (byteSum (BitVec.ofNat 8 len :: code :: body) + check = 0)

/-- The frame a receiver has completed: good, or bad with its code (R186, R188). -/
def completedFrame (len : Nat) (code : Byte) (body : List Byte) (check : Byte) : RxFrame :=
  if sumsToZero len code body check then .good code body else .bad (some code)

/-- The receiver is in a state, with the gap timer loaded (R187). -/
def Sli.gather (r : RxState) (s : Sli) : Sli := { s with rx := r, gap := some Config.gapTicks }

/-- A frame is complete: the receiver is in HUNT, and the frame waits to be taken, answered or discarded (log 8). -/
def Sli.complete (f : RxFrame) (s : Sli) : Sli :=
  { s with rx := .hunt, gap := none, completed := s.completed ++ [f] }

/-- A byte received (R187, R188). -/
def Sli.receive (b : Byte) (s : Sli) : Sli :=
  match s.rx with
  | .hunt => if b = startByte then s.gather .length else s
  | .length => if 1 ≤ b.toNat ∧ b.toNat ≤ 65 then s.gather (.code b.toNat) else s.gather .badLength
  | .code len => s.gather (if 1 < len then .body len b [] else .check len b [])
  | .body len code held =>
    let held := held ++ [b]
    s.gather (if held.length + 1 < len then .body len code held else .check len code held)
  | .check len code body => s.complete (completedFrame len code body b)
  | .badLength => s.complete (.bad (some b))

/-- The service line is deaf: during STARTING, and while a response is being sent (R187, R189). -/
def Lc44.deaf (d : Lc44) : Bool := d.phc.phop.isStarting || d.sli.sending.isSome

/-- A byte arrives on the S-line. -/
def receiveByte (b : Byte) (d : Lc44) : Lc44 := if d.deaf then d else d.onSli (Sli.receive b)

/-- The discarded-frame count rises (R195). -/
def Sli.discard (s : Sli) : Sli := { s with discarded := satInc Config.max16 s.discarded }

/-- A bad frame is answered BADFRAME, with its code when it has one (R188). -/
def answerBadFrame (code : Option Byte) (d : Lc44) : Lc44 :=
  let response := (code.map responseCode).getD 0xFF
  startSending [frame response [Status.badFrame.byte]]
    (d.onSli fun s => { s with badFrames := satInc Config.max16 s.badFrames })

/-- A frame that fails R186: answered when no request is in hand, discarded otherwise (R188). -/
def takeBadFrame (code : Option Byte) (d : Lc44) : Lc44 :=
  if d.deaf then d
  else
    let d := d.onSli fun s => { s with completed := s.completed.erase (.bad code) }
    if d.sli.inHand.isSome then d.onSli Sli.discard else answerBadFrame code d

/-- A frame that completed while a request is in hand is discarded and counted (R189). -/
def discardFrame (d : Lc44) : Lc44 :=
  if d.deaf || d.sli.inHand.isNone then d
  else d.onSli fun s => Sli.discard { s with completed := s.completed.tail }

/-- A partial frame is discarded and counted (R187); in HUNT nothing is held. -/
def Sli.dropPartial (s : Sli) : Sli :=
  if s.rx = .hunt then s else Sli.discard { s with rx := .hunt, gap := none }

/-- A bad stop bit or a break (R187; log 16). -/
def lineFailed (d : Lc44) : Lc44 := if d.deaf then d else d.onSli Sli.dropPartial

/-- The gap timer expires (R187): the partial frame is discarded; a bad length that no byte followed is answered with
response code FFh, or discarded while a request is in hand (R188). A gap timer that a byte has reloaded is not due. -/
def gapExpired (d : Lc44) : Lc44 :=
  if d.deaf || !timerDue d.sli.gap then d
  else if d.sli.rx = .badLength ∧ d.sli.inHand = none then
    answerBadFrame none (d.onSli fun s => { s with rx := .hunt, gap := none })
  else d.onSli Sli.dropPartial

/-- The last stop bit of a response has been sent (R189). -/
def responseEnded (d : Lc44) : Lc44 :=
  if d.sli.sending.isNone then d
  else d.onSli fun s => { s with sending := none, inHand := none, rx := .hunt, gap := none, completed := [] }

/-! ## Taking a request (R189, R193) -/

/-- The data of a refused request's response beside its status: none, but for MUTE-RELEASE the mute state (R192). -/
def refusalData (r : Req) (d : Lc44) : List Byte :=
  match r with
  | .muteRelease => bytesBE 1 d.tmu.mute.code
  | _ => []

/-- The request in hand is refused. -/
def refuse (r : Req) (s : Status) (d : Lc44) : Lc44 := answer s (refusalData r d) d

/-- A good frame leaves the completed frames and is in hand, counted as taken (R189, R195). -/
def takeFrame (code : Byte) (body : List Byte) (d : Lc44) : Lc44 :=
  d.onSli fun s =>
    { s with
      completed := s.completed.erase (.good code body)
      inHand := some code
      taken := satInc Config.max16 s.taken }

/-- A good frame that completes: taken when no request is in hand, discarded otherwise, and not received while the
line is deaf (R187, R189). -/
def onFrame (code : Byte) (body : List Byte) (f : Lc44 → Lc44) (d : Lc44) : Lc44 :=
  if d.deaf then d
  else if d.sli.inHand.isSome then
    d.onSli fun s => Sli.discard { s with completed := s.completed.erase (.good code body) }
  else f (takeFrame code body d)

/-- The checks before the owner (R193): the filter, then the body length; then the owner decides. -/
def dispatchRequest (r : Req) (body : List Byte) (owner : List Byte → Lc44 → Lc44) (d : Lc44) : Lc44 :=
  match requestFilter d.phc.phase d.phc.phop r with
  | some s => refuse r s d
  | none => if body.length = r.bodyLength then owner body d else refuse r .badArg d

/-- A request of the catalogue as a command: its frame completes, it is taken, checked and given to its owner. -/
def request (r : Req) (owner : List Byte → Lc44 → Lc44) (body : List Byte) (d : Lc44) : Lc44 :=
  onFrame r.code body (dispatchRequest r body owner) d

/-- A taken request whose code names no request is answered UNKNOWN (R193). -/
def unknownTaken (code : Byte) (body : List Byte) (d : Lc44) : Lc44 :=
  if namesRequest code then d else onFrame code body (answer .unknown []) d

end Sys2Proof.Machine
end

