-- ==== Sys2Proof/Machine/LineCommands.lean ====
section
/-! DEFINITION. The events of the service line: BYTE_RECEIVED, BAD_FRAME, FRAME_DISCARDED, LINE_ERROR,
GAP_TIMER_EXPIRY, RESPONSE_SENT and UNKNOWN_REQUEST. -/

namespace Sys2Proof.Machine

/-- BYTE_RECEIVED (R187). -/
def execByteReceived (b : Byte) (s : State) : Host.Outcome State Fault Refusal := s.effect (receiveByte b)

/-- BAD_FRAME (R188). -/
def execBadFrame (code : Option Byte) (s : State) : Host.Outcome State Fault Refusal := s.effect (takeBadFrame code)

/-- FRAME_DISCARDED (R189). -/
def execFrameDiscarded (s : State) : Host.Outcome State Fault Refusal := s.effect discardFrame

/-- LINE_ERROR (R187). -/
def execLineError (s : State) : Host.Outcome State Fault Refusal := s.effect lineFailed

/-- GAP_TIMER_EXPIRY (R187, R188). -/
def execGapTimerExpiry (s : State) : Host.Outcome State Fault Refusal := s.effect gapExpired

/-- RESPONSE_SENT (R189). -/
def execResponseSent (s : State) : Host.Outcome State Fault Refusal := s.effect responseEnded

/-- UNKNOWN_REQUEST (R193). -/
def execUnknownRequest (code : Byte) (body : List Byte) (s : State) : Host.Outcome State Fault Refusal :=
  s.effect (unknownTaken code body)

end Sys2Proof.Machine
end

