-- ==== Sys2Proof/Machine/Reports.lean ====
section
/-! DEFINITION. The data of responses (R204): what STATUS and the READ requests report, in the order the owning rules
list it. Sizes follow R204: the size of the request counterpart, else 1, 2 or 4 bytes by the range (log 9, 10). -/

namespace Sys2Proof.Machine

/-! ## Small encodings -/

/-- A number in one byte. -/
def b1 (n : Nat) : List Byte := bytesBE 1 n

/-- A number in two bytes. -/
def b2 (n : Nat) : List Byte := bytesBE 2 n

/-- A number in four bytes. -/
def b4 (n : Nat) : List Byte := bytesBE 4 n

/-- An optional one-byte number. -/
def opt1 (v : Option Nat) : List Byte := optBytes 1 b1 v

/-- An optional two-byte number. -/
def opt2 (v : Option Nat) : List Byte := optBytes 2 b2 v

/-- An optional signed 16-bit value. -/
def optSigned (v : Option Int) : List Byte := optBytes 2 signedBytes v

/-- An optional four-byte number. -/
def opt4 (v : Option Nat) : List Byte := optBytes 4 b4 v

/-- A set of carriers as one byte. -/
def setByte (m : CarrierSet) : List Byte := b1 (carriersMask m)

/-! ## Identification (R196) -/

/-- IDENT's data. -/
def identData (d : Lc44) : List Byte :=
  Config.identity ++ bytesBE 3 (profileBase d.straps.psel) ++ flagByte d.straps.commission ++ flagByte d.straps.depol ++
    b1 d.phc.phase.code ++ b1 d.phc.phop.code

/-! ## Tables, as their load requests carry them (R17, R44, R103, R142) -/

/-- The parameters of a treatment as LOAD-REGION carries them; those of other treatments are 0 (log 11). -/
def Treatment.bytes (t : Treatment) : List Byte :=
  match t with
  | .pass | .barred => List.replicate 14 0
  | .guarded first count => b1 first ++ b1 count ++ List.replicate 12 0
  | .observe first count stride => [0, 0] ++ b1 first ++ b1 count ++ b1 stride ++ List.replicate 9 0
  | .redirect m base => [0, 0, 0, 0, 0] ++ b1 m.code ++ addrBytes base ++ [0, 0, 0, 0, 0]
  | .mark value mask signal => List.replicate 9 0 ++ wordBytes value ++ wordBytes mask ++ b1 signal.code

/-- READ-REGION's data: the body of the LOAD-REGION that would reload the entry. -/
def regionData (index : Nat) (r : Option Region) : List Byte :=
  match r with
  | none => b1 index ++ [1] ++ List.replicate 22 0
  | some r =>
    b1 index ++ [0] ++ addrBytes r.base ++ bytesBE 3 r.length ++ b1 (bit r.ctl 0 + bit r.rpt 1) ++
      b1 r.treatment.code ++ r.treatment.bytes

/-- Kind, lo, hi and step of a rule as LOAD-RULE carries them; the fields a kind does not use are 0 (R44). -/
def RuleKind.bytes (k : RuleKind) : List Byte :=
  b1 k.code ++
    match k with
    | .range lo hi => signedBytes lo ++ signedBytes hi ++ [0, 0]
    | .step lo hi n => signedBytes lo ++ signedBytes hi ++ b2 n
    | .frozen => [0, 0, 0, 0, 0, 0]
    | .muteLock lock => signedBytes lock ++ [0, 0, 0, 0]

/-- READ-RULE's data: the body of the LOAD-RULE that would reload the rule, and the violation count. -/
def ruleData (index : Nat) (r : Option Rule) (count : Nat) : List Byte :=
  (match r with
    | none => b1 index ++ [1] ++ List.replicate 13 0
    | some r =>
      b1 index ++ [0] ++ b2 r.word ++ b1 r.field.width ++ b1 r.field.offset ++ flagByte r.field.signed ++
        r.kind.bytes ++ b1 r.action.code) ++ b1 count

/-- A slot as LOAD-LAYOUT carries it. -/
def slotBytes (s : Option LayoutSlot) : List Byte :=
  match s with
  | none => [0, 0, 0, 0, 0]
  | some x =>
    b1 x.wordIndex ++ b1 (slotKindCode s) ++ b1 x.field.width ++ b1 x.field.offset ++ flagByte x.field.signed

/-- READ-LAYOUT's data: the body of the LOAD-LAYOUT that would reload the layout. -/
def layoutData (l : Option Layout) : List Byte :=
  match l with
  | none => [1] ++ List.replicate 41 0
  | some l => [0] ++ b1 l.closing ++ l.slots.toList.flatMap slotBytes

/-- A step definition as LOAD-STEP carries it, from the carrier mask on. -/
def PlanStep.bytes (p : PlanStep) : List Byte :=
  setByte p.mask ++ b1 p.start.code ++ b2 p.arm ++ b2 p.settle ++ b4 p.measure ++ flagByte p.needsTransmit ++
    b2 p.reportsMin ++ optSigned p.rslMin ++ optSigned p.rslMax ++ optSigned p.mseMax ++ optSigned p.xpdMin ++
    opt4 p.uncorrMax ++ opt1 p.modstepMin

/-- READ-STEP's data: the body of the LOAD-STEP that would reload the slot. -/
def stepData (index : Nat) (a : Acu) (p : Option PlanStep) : List Byte :=
  b1 index ++ b1 a.planLength ++ flagByte a.stopOnFail ++
    match p with
    | none => [1] ++ List.replicate 32 0
    | some p => [0] ++ p.bytes

/-! ## Captures, groups and tone (R118, R119, R132) -/

/-- READ-CARRIER's data: the record in the order of R106, the remaining report time, the tick count. -/
def recordData (r : CaptureRecord) (tick : BitVec 32) : List Byte :=
  b1 r.state.code ++ optSigned r.lastRsl ++ optSigned r.lastMse ++ optSigned r.lastXpd ++ opt1 r.lastModstep ++
    opt2 r.lastCorr ++ opt2 r.lastUncorr ++ b4 r.captures ++ b2 r.incomplete ++
    opt4 (r.lastTick.map BitVec.toNat) ++ optSigned (r.peak.map Peak.rsl) ++
    opt4 (r.peak.map fun p => p.tick.toNat) ++ b1 r.lossRun ++ b1 r.verdict.code ++ flagByte r.settings.enabled ++
    optSigned r.settings.expected ++ b2 r.settings.tolerance ++ b2 r.settings.margin ++ opt2 r.timer ++ b4 tick.toNat

/-- The groups that the group flags make, each as a set of carriers, in ascending order of their least carrier (R119;
log 10). -/
def groupBytes (ga gb gx : Bool) : List Byte :=
  (carriers.filter fun c => carriers.all fun b => decide (c ≤ b) || !(group ga gb gx c).get b).flatMap
    fun c => setByte (group ga gb gx c)

/-- SET-GROUPS' data (R119): the groups it makes, then the three flags (the order: log 10). -/
def groupsData (ga gb gx : Bool) : List Byte :=
  groupBytes ga gb gx ++ flagByte ga ++ flagByte gb ++ flagByte gx

/-- SET-TONE's data (R132). -/
def toneData (t : Tmu) : List Byte :=
  b1 t.tone.code ++ optSigned t.value ++ optSigned t.peak ++ b2 t.pitch

/-! ## Trials (R83) -/

/-- A journal entry with all its fields, 10 bytes. -/
def JournalEntry.bytes (e : JournalEntry) : List Byte :=
  addrBytes e.addr ++ wordBytes e.preImage ++ b1 e.region.val ++ b1 e.writes ++ wordBytes e.last ++ b1 e.mark.code

/-- A page of a list, 8 elements a page (R83). -/
def pageOf {α : Type} (page : Nat) (l : List α) : List α := (l.drop (8 * page)).take 8

/-- READ-TRIAL's data for JOURNAL: the trial state itself, which a rollback due leaves OPEN (R68, R83). -/
def journalData (page : Nat) (t : Tru) : List Byte :=
  b1 t.state.code ++ b2 (secondsLeft t.timer) ++ flagByte t.stale ++ b1 t.journal.length ++
    (pageOf page t.journal).flatMap JournalEntry.bytes

/-- READ-TRIAL's data for OUTCOME; an empty record as its presence byte and zeros. -/
def outcomeData (page : Nat) (o : Option TrialOutcome) : List Byte :=
  match o with
  | none => List.replicate 21 0
  | some o =>
    [1] ++ b1 o.number ++ opt1 (o.result.map TrialResult.code) ++ opt1 (o.cause.map EndCause.code) ++
      opt1 o.entriesAtEnd ++ opt1 o.restored ++ opt2 o.refused ++ opt1 o.confirmFailures ++
      opt1 (o.lossCarrier.map Fin.val) ++ opt2 o.secondsOpen ++ flagByte o.recovered ++
      (pageOf page o.unrestored).flatMap addrBytes

/-! ## Overlay (R93) -/

/-- The fold record (R94), its count an optional value, and its failure four, each with a presence byte of its own
(log 36). -/
def foldData (f : FoldRecord) : List Byte :=
  b1 f.state.code ++ opt2 f.count ++ opt1 (f.failure.map fun w => w.map.code) ++
    opt2 (f.failure.map FoldFailure.offset) ++ opt1 (f.failure.map fun w => w.step.code) ++
    opt1 (f.failure.map fun w => w.outcome.code)

/-- Byte `j` of a page of a map: offset page × 256 + 8j + k in bit k (R204). -/
def flagsByte (flags : List Nat) (page j : Nat) : Byte :=
  BitVec.ofNat 8 (((List.range 8).map fun k => if page * 256 + 8 * j + k ∈ flags then 2 ^ k else 0).sum)

/-- READ-OVERLAY's data (R93), the entry's index and overlay base two optional values (log 36). -/
def overlayData (m : MapId) (page : Nat) (d : Lc44) : List Byte :=
  let e := d.ccl.mapEntry m
  opt1 (e.map fun x => x.1.val) ++ optBytes 3 addrBytes (e.map fun x => x.2.2) ++ b2 (setCount (d.ovu.map m)) ++
    foldData d.ovu.fold ++ (List.range 32).map (flagsByte (d.ovu.map m) page)

/-! ## The log (R160) -/

/-- A carrier result of a log record. -/
def CarrierResult.bytes (r : CarrierResult) : List Byte :=
  let a := r.aggregate
  b1 r.carrier.val ++ b4 a.reports ++ optSigned a.rslLeast ++ optSigned a.rslGreatest ++ optSigned a.mseWorst ++
    optSigned a.xpdLeast ++ b4 a.uncorrSum ++ b4 a.corrSum ++ b2 a.downshifts ++ flagByte a.uncorrSeen ++
    flagByte a.modstepSeen ++ flagByte a.stale ++ b1 (criteriaMask r.failed) ++ b1 (criteriaMask r.noData)

/-- A log record in full. -/
def LogRecord.bytes (r : LogRecord) : List Byte :=
  b2 r.sequence ++ b1 r.step ++ b1 r.outcome.code ++ b1 r.cause.code ++ b4 r.measured ++
    r.results.flatMap CarrierResult.bytes

/-- READ-LOG's data. A next sequence of 65,536 is sent as 0000h (log 32). -/
def logData (position : Nat) (a : Acu) : List Byte :=
  b1 a.log.length ++ b2 a.nextSequence ++
    match a.log[position]? with
    | none => List.replicate 10 0
    | some r => [1] ++ r.bytes

/-! ## STATUS (R197) -/

/-- The profile operation record (R172), its result an optional value (log 36). -/
def opRecordData (r : OpRecord) : List Byte :=
  b1 r.operation.code ++ opt1 (r.result.map OpResult.code) ++ opt1 (r.step.map HandoverStep.code) ++
    opt1 (r.cause.map HandoverStep.code) ++ b2 r.writes ++ opt2 r.failOffset ++ opt1 (r.failOutcome.map MFailure.code)

/-- The start-up record (R184). -/
def startupData (r : Option StartupRecord) : List Byte :=
  match r with
  | none => List.replicate 7 0
  | some r =>
    b1 r.status.code ++ flagByte r.commission ++ b1 r.phase.code ++ b1 r.recovery.code ++ b1 r.recovered ++
      b1 r.unrestored ++ b1 r.close.code

/-- The phase group. -/
def phaseGroup (p : Phc) : List Byte :=
  b1 p.phase.code ++ b1 p.phop.code ++ opt1 p.phop.subStep ++ b4 p.seconds ++ opRecordData p.operation ++
    startupData p.startup

/-- The last-failure record (R34), after its presence byte. -/
def lastFailureBytes (f : LastFailure) : List Byte :=
  b1 f.client.code ++ opt1 (f.owner.map IntOwner.code) ++ addrBytes f.request.addr ++ b1 (BusOp.code f.request.op) ++
    b1 f.outcome.code

/-- The memory port group. -/
def portGroup (m : Mpc) : List Byte :=
  b1 m.timeout ++ b4 m.faults ++ b4 m.timeouts ++ optBytes 8 lastFailureBytes m.lastFailure

/-- The cycles group (R19). -/
def cyclesGroup (f : FaultCounters) : List Byte :=
  b4 f.barred ++ b4 f.rule ++ b4 f.journalFull ++ b4 f.journalWrite ++ b4 f.rollback ++ b4 f.redirect ++ b4 f.memory

/-- The trial group (R85). -/
def trialGroup (t : Tru) : List Byte :=
  b1 t.reported.code ++ b2 (secondsLeft t.timer) ++ b1 t.journal.length ++ flagByte t.stale ++ b1 t.number ++
    b2 t.opened ++ b2 t.confirmed ++ b2 t.rolledBack ++ b2 t.ignoredMarks ++
    opt1 ((t.outcome.bind TrialOutcome.result).map TrialResult.code) ++
    opt1 ((t.outcome.bind TrialOutcome.cause).map EndCause.code)

/-- The overlay group. -/
def overlayGroup (o : Ovu) : List Byte := foldData o.fold ++ b2 (setCount o.map0) ++ b2 (setCount o.map1)

/-- One carrier of the capture group (R122). -/
def captureStatus (r : CaptureRecord) : List Byte :=
  b1 r.state.code ++ optSigned r.lastRsl ++ optSigned (r.peak.map Peak.rsl) ++ b1 r.verdict.code ++ b1 r.lossRun ++
    b4 r.captures ++ b2 r.incomplete

/-- The capture group. -/
def captureGroup (r : Rcu) : List Byte :=
  r.records.toList.flatMap captureStatus ++ b2 r.reportTimeout ++ signedBytes r.lossFloor ++
    flagByte r.layout.isSome ++ flagByte (r.layout.any fun l => l.hasKind .rsl)

/-- The tracking flags of the members of the source, as a set. -/
def Tmu.trackingMembers (t : Tmu) : CarrierSet := PerCarrier.ofFn fun c => t.members.get c && (t.view.get c).tracking

/-- The tone and mute group (R123, R127, R129, R136). -/
def toneGroup (t : Tmu) (r : Rcu) : List Byte :=
  flagByte t.mastAccepted ++ b1 t.mute.code ++ b2 (secondsLeft t.holdoff) ++ b2 t.holdoffSetting ++
    flagByte t.settings.enabled ++ b1 t.settings.kind.code ++ b1 t.settings.carrier.val ++
    signedBytes t.settings.floor ++ b2 t.settings.span ++ flagByte r.ga ++ flagByte r.gb ++ flagByte r.gx ++
    setByte t.members ++ setByte t.trackingMembers ++ optSigned t.value ++ optSigned t.peak ++ b2 t.pitch ++
    b1 t.tone.code

/-- The last-run record (R157). -/
def lastRunData (r : LastRun) : List Byte :=
  b1 r.outcome.code ++ opt1 r.firstStep ++ opt2 r.firstSequence ++ opt2 r.lastSequence ++ b1 r.passed ++ b2 r.stray

/-- The acceptance group (R163). A next sequence of 65,536 is sent as 0000h (log 32). -/
def acceptanceGroup (a : Acu) : List Byte :=
  b1 a.runState.code ++ opt1 a.current ++ b4 (secondsLeft a.timer) ++ b4 a.measured ++ b1 a.planLength ++
    flagByte a.stopOnFail ++ lastRunData a.lastRun ++ b1 a.log.length ++ b2 a.nextSequence

/-- The service line group (R195, R198, R200). -/
def lineGroup (s : Sli) : List Byte :=
  b2 s.taken ++ b2 s.badFrames ++ b2 s.discarded ++ flagByte s.mirrorEnabled ++ addrBytes s.mirrorAddress ++
    b2 s.mirrorFaults ++ b2 s.mirrorAbandons ++ b2 s.lastCompleted

/-- STATUS's data: its groups in the order of R197. -/
def statusData (d : Lc44) : List Byte :=
  phaseGroup d.phc ++ portGroup d.mpc ++ cyclesGroup d.ccl.faults ++ trialGroup d.tru ++ overlayGroup d.ovu ++
    captureGroup d.rcu ++ toneGroup d.tmu d.rcu ++ acceptanceGroup d.acu ++ lineGroup d.sli

end Sys2Proof.Machine
end

