-- ==== Sys2Proof/Machine/Requests.lean ====
section
/-! DEFINITION. The owners of the requests: what each does once the filter and the length check have let it through
(R193), with its own checks, its effect and its answer. -/

namespace Sys2Proof.Machine

/-- The request is refused with its status alone. -/
def deny (s : Status) (d : Lc44) : Lc44 := answer s [] d

/-- The trial is IDLE and the run is IDLE, as the loads of tables need (R14, R41, R100, R115, R167). -/
def Lc44.tablesFree (d : Lc44) : Bool := decide (d.tru.state = .idle) && decide (d.acu.runState = .idle)

/-! ## Phase and profile -/

/-- IDENT (R196). -/
def ownIdent (_ : List Byte) (d : Lc44) : Lc44 := answer .ok (identData d) d

/-- STATUS (R197). -/
def ownStatus (_ : List Byte) (d : Lc44) : Lc44 := answerChain .ok (statusData d) d

/-- BEGIN (R166): answered when its probe read ends. -/
def ownBegin (_ : List Byte) (d : Lc44) : Lc44 := beginProbe d

/-- WIPE (R167). -/
def ownWipe (_ : List Byte) (d : Lc44) : Lc44 :=
  if d.tablesFree then answer .ok [] (wipeEffect d) else deny .busy d

/-- The trial lets a SAVE be taken (R169): IDLE, or OPEN with no rollback due. -/
def Tru.letsSave (t : Tru) : Bool := decide (t.state = .idle) || t.openUndue

/-- SAVE (R169). -/
def ownSave (_ : List Byte) (d : Lc44) : Lc44 :=
  if d.tru.letsSave then answer .accepted [] (beginSave d) else deny .busy d

/-- HANDOVER (R173, R175). -/
def ownHandover (_ : List Byte) (d : Lc44) : Lc44 :=
  if d.notReady = 0 then answer .accepted [] (beginHandover d)
  else answer .notReady (b1 d.notReady ++ setByte d.rcu.notMain) d

/-! ## Tables -/

/-- A Region Table entry replaced, with the maps of the old and the new entry cleared (R16). -/
def storeRegion (i : Fin 16) (r : Option Region) (d : Lc44) : Lc44 :=
  let old := d.ccl.table[i].bind Region.map
  let d := clearMaps (fun m => decide (old = some m) || decide (r.bind Region.map = some m)) d
  d.onCcl fun c => { c with table := c.table.set i r }

/-- The definition a LOAD-REGION body gives when it passes R15: absent inside for the CLEAR flag. -/
def checkRegionBody (b : List Byte) (d : Lc44) : Option (Option Region) :=
  match byteAt b 1 with
  | 1 => some none
  | 0 =>
    ((RawRegion.ofBody b).check d.straps.psel (d.rcu.layout.map Layout.closing) (d.ccl.mapTaken (byteAt b 0))).map some
  | _ => none

/-- LOAD-REGION (R14 to R16). -/
def ownLoadRegion (b : List Byte) (d : Lc44) : Lc44 :=
  if !d.tablesFree then deny .busy d
  else if h : byteAt b 0 < 16 then
    match checkRegionBody b d with
    | none => deny .badArg d
    | some r => answer .ok [] (storeRegion ⟨byteAt b 0, h⟩ r d)
  else deny .badArg d

/-- READ-REGION (R17). -/
def ownReadRegion (b : List Byte) (d : Lc44) : Lc44 :=
  if h : byteAt b 0 < 16 then answer .ok (regionData (byteAt b 0) d.ccl.table[byteAt b 0]) d else deny .badArg d

/-- A field rule replaced, its count 0, and no longer counted by a sequence in progress (R43). -/
def storeRule (i : Fin 64) (r : Option Rule) (d : Lc44) : Lc44 :=
  unliveRules (fun k => decide (k = i))
    (d.onFgd fun f => { f with rules := f.rules.set i r, counts := f.counts.set i 0 })

/-- LOAD-RULE (R41 to R43). -/
def ownLoadRule (b : List Byte) (d : Lc44) : Lc44 :=
  let raw := RawRule.ofBody b
  if !d.tablesFree then deny .busy d
  else if h : byteAt b 0 < 64 then
    if byteAt b 1 = 1 then answer .ok [] (storeRule ⟨byteAt b 0, h⟩ none d)
    else if byteAt b 1 ≠ 0 ∨ !raw.argsOk then deny .badArg d
    else if raw.toRule.defOk (d.fgd.others (byteAt b 0)) then
      answer .ok [] (storeRule ⟨byteAt b 0, h⟩ (some raw.toRule) d)
    else deny .badRule d
  else deny .badArg d

/-- READ-RULE (R44). -/
def ownReadRule (b : List Byte) (d : Lc44) : Lc44 :=
  if h : byteAt b 0 < 64 then
    answer .ok (ruleData (byteAt b 0) d.fgd.rules[byteAt b 0] d.fgd.counts[byteAt b 0]) d
  else deny .badArg d

/-- The report layout replaced, and every assembly buffer cleared (R102). -/
def storeLayout (l : Option Layout) (d : Lc44) : Lc44 :=
  d.onRcu fun r => { r with layout := l, buffers := PerCarrier.all Buffer.reset }

/-- The layout a LOAD-LAYOUT body gives when it passes R101: absent inside for the CLEAR flag. -/
def checkLayoutBody (b : List Byte) (d : Lc44) : Option (Option Layout) :=
  match byteAt b 0 with
  | 1 => some none
  | 0 => if d.ccl.stridesAllow (byteAt b 1) then (checkLayout (byteAt b 1) (rawSlotsOfBody b)).map some else none
  | _ => none

/-- LOAD-LAYOUT (R100 to R102). -/
def ownLoadLayout (b : List Byte) (d : Lc44) : Lc44 :=
  if !d.tablesFree then deny .busy d
  else
    match checkLayoutBody b d with
    | none => deny .badArg d
    | some l => answer .ok [] (storeLayout l d)

/-- READ-LAYOUT (R103). -/
def ownReadLayout (_ : List Byte) (d : Lc44) : Lc44 := answer .ok (layoutData d.rcu.layout) d

/-! ## Capture, tone and times -/

/-- The settings of a carrier replaced, and its verdict recomputed (R117). -/
def storeCarrier (c : Carrier) (s : CarrierSettings) (d : Lc44) : Lc44 :=
  setRecord c (CaptureRecord.judged { d.rcu.records.get c with settings := s }) d

/-- SET-CARRIER (R116, R117): answered with the new verdict. With the run not IDLE a bad field is answered BUSY too
(log 30). -/
def ownSetCarrier (b : List Byte) (d : Lc44) : Lc44 :=
  if d.acu.runState ≠ .idle then deny .busy d
  else
    match carrierOf (byteAt b 0), (RawCarrier.ofBody b).check with
    | some c, some s =>
      let d := storeCarrier c s d
      answer .ok (b1 (d.rcu.records.get c).verdict.code) d
    | _, _ => deny .badArg d

/-- READ-CARRIER (R118). -/
def ownReadCarrier (b : List Byte) (d : Lc44) : Lc44 :=
  match carrierOf (byteAt b 0) with
  | none => deny .badArg d
  | some c => answer .ok (recordData (d.rcu.records.get c) d.rcu.tickCount) d

/-- PEAK-RESET (R113). -/
def ownPeakReset (b : List Byte) (d : Lc44) : Lc44 :=
  if within 1 15 (byteAt b 0) then answer .ok [] (resetPeaks (maskCarriers (byteAt b 0)) d) else deny .badArg d

/-- CLEAR-CAPTURE (R115). With the trial or the run not IDLE a bad mask is answered BUSY too (log 30). -/
def ownClearCapture (b : List Byte) (d : Lc44) : Lc44 :=
  if !d.tablesFree then deny .busy d
  else if within 1 15 (byteAt b 0) then answer .ok [] (clearCaptures (maskCarriers (byteAt b 0)) d)
  else deny .badArg d

/-- SET-GROUPS (R119): answered with the groups it makes and with the flags. -/
def ownSetGroups (b : List Byte) (d : Lc44) : Lc44 :=
  if flagOk (byteAt b 0) && flagOk (byteAt b 1) && flagOk (byteAt b 2) then
    let ga := decide (byteAt b 0 = 1)
    let gb := decide (byteAt b 1 = 1)
    let gx := decide (byteAt b 2 = 1)
    answer .ok (groupsData ga gb gx)
      (raiseTmu .groups (d.onRcu fun r => { r with ga := ga, gb := gb, gx := gx }))
  else deny .badArg d

/-- The tone settings replaced (R132): the peak is made absent when the source changes, and the tone is recomputed. With
the same GROUP source the peak is kept also when the group flags have changed and TMU has not been told yet, so that the
member set changes here (log 39). -/
def storeTone (s : ToneSettings) (d : Lc44) : Lc44 :=
  recomputeTone (d.onTmu fun t =>
    { t with
      settings := s
      members := membersFor d.rcu s
      peak := if s.kind = t.settings.kind ∧ s.carrier = t.settings.carrier then t.peak else none })

/-- SET-TONE (R132): answered with the tone that results. -/
def ownSetTone (b : List Byte) (d : Lc44) : Lc44 :=
  match toneOfBody b with
  | none => deny .badArg d
  | some s =>
    let d := storeTone s d
    answer .ok (toneData d.tmu) d

/-- SET-TIMES (R24, R111, R129): all four settings, or none. The new memory timeout is in force for every grant made
after the take, also before the end of the response (log 29). -/
def ownSetTimes (b : List Byte) (d : Lc44) : Lc44 :=
  let memory := byteAt b 0
  let report := u16At b 1
  let holdoff := u16At b 3
  let floor := signed16 (u16At b 5)
  if memoryTimeoutOk memory && reportTimeoutOk report && holdoffOk holdoff && lossFloorOk floor then
    let d := d.onMpc fun m => { m with timeout := memory }
    let d := d.onTmu fun t => { t with holdoffSetting := holdoff }
    answer .ok [] (setReportTimes report floor d)
  else deny .badArg d

/-- SET-MIRROR (R198). -/
def ownSetMirror (b : List Byte) (d : Lc44) : Lc44 :=
  if flagOk (byteAt b 0) && (decide (byteAt b 0 = 0) || mirrorOk d.straps.psel (u24At b 1)) then
    answer .ok [] (setMirror (decide (byteAt b 0 = 1)) (BitVec.ofNat 20 (u24At b 1)) d)
  else deny .badArg d

/-- MUTE-RELEASE (R128): answered with the mute state after the request. -/
def ownMuteRelease (_ : List Byte) (d : Lc44) : Lc44 :=
  match d.tmu.mute with
  | .muted => answer .badState (b1 MuteState.muted.code) d
  | .clear => answer .ok (b1 MuteState.clear.code) d
  | .holdoff => answer .ok (b1 MuteState.clear.code) (d.onTmu fun t => { t with mute := .clear, holdoff := none })

/-! ## Trials and overlay -/

/-- A trial duration in its range: 0 for the default, or 10 to 3,600 s (R58). -/
def durationOk (n : Nat) : Bool := decide (n = 0) || within 10 3600 n

/-- A carrier may be watched by a trial that opens (R58). -/
def CaptureRecord.watchable (r : CaptureRecord) : Bool :=
  r.settings.enabled && decide (r.state = .track) && decide (r.lossRun < 3)

/-- A watch mask of a TRIAL-OPEN is good (R58; log 15). -/
def watchOk (mask : Nat) (d : Lc44) : Bool :=
  decide (mask ≤ 15) && (membersOf (maskCarriers mask)).all fun c => (d.rcu.records.get c).watchable

/-- The ticks of a TRIAL-OPEN's duration (R58). -/
def durationTicks (n : Nat) : Nat := (if n = 0 then Config.defaultTrialSeconds else n) * 1000

/-- TRIAL-OPEN (R58, R59): answered when OPENING ends. -/
def ownTrialOpen (b : List Byte) (d : Lc44) : Lc44 :=
  if d.tru.state ≠ .idle then deny .busy d
  else if durationOk (u16At b 0) && watchOk (byteAt b 2) d then
    beginOpening ⟨durationTicks (u16At b 0), maskCarriers (byteAt b 2)⟩ d
  else deny .badArg d

/-- TRIAL-CONFIRM (R64, R66): a confirm that is taken is answered when the close succeeds or fails. -/
def ownTrialConfirm (_ : List Byte) (d : Lc44) : Lc44 :=
  if d.tru.openUndue then beginClosing .service d
  else
    match d.tru.state with
    | .idle => deny .badState d
    | .opening | .closing => deny .busy d
    | .open | .rollingBack => deny .tooLate d

/-- TRIAL-EXTEND (R62, R63). -/
def ownTrialExtend (b : List Byte) (d : Lc44) : Lc44 :=
  if !within 10 3600 (u16At b 0) then deny .badArg d
  else if d.tru.openUndue then
    answer .ok [] (d.onTru fun t => { t with timer := some (u16At b 0 * 1000) })
  else
    match d.tru.state with
    | .open | .rollingBack => deny .tooLate d
    | .idle | .opening | .closing => deny .badState d

/-- TRIAL-ABORT (R66, R67): an abort that is taken is answered when the rollback starts. -/
def ownTrialAbort (_ : List Byte) (d : Lc44) : Lc44 :=
  if d.tru.openUndue then takeRollbackCause .abortedService none d
  else
    match d.tru.state with
    | .idle => deny .badState d
    | .opening | .closing | .open | .rollingBack => deny .busy d

/-- READ-TRIAL's data in one frame, or in a chain when longer than 63 bytes (R204). -/
def answerTrial (data : List Byte) (d : Lc44) : Lc44 :=
  if data.length ≤ 63 then answer .ok data d else answerChain .ok data d

/-- READ-TRIAL (R83). -/
def ownReadTrial (b : List Byte) (d : Lc44) : Lc44 :=
  if byteAt b 1 ≤ 5 then
    match byteAt b 0 with
    | 0 => answerTrial (journalData (byteAt b 1) d.tru) d
    | 1 => answerTrial (outcomeData (byteAt b 1) d.tru.outcome) d
    | _ => deny .badArg d
  else deny .badArg d

/-- OVERLAY-DISCARD (R92): answered with the set count of each named map before the clear. -/
def ownOverlayDiscard (b : List Byte) (d : Lc44) : Lc44 :=
  match byteAt b 0 with
  | 0 => answer .ok (b2 (setCount d.ovu.map0)) (clearMaps (fun m => decide (m = .map0)) d)
  | 1 => answer .ok (b2 (setCount d.ovu.map1)) (clearMaps (fun m => decide (m = .map1)) d)
  | 2 => answer .ok (b2 (setCount d.ovu.map0) ++ b2 (setCount d.ovu.map1)) (clearMaps (fun _ => true) d)
  | _ => deny .badArg d

/-- READ-OVERLAY (R93). -/
def ownReadOverlay (b : List Byte) (d : Lc44) : Lc44 :=
  match MapId.ofCode (byteAt b 0) with
  | none => deny .badArg d
  | some m => if byteAt b 1 ≤ 1 then answer .ok (overlayData m (byteAt b 1) d) d else deny .badArg d

/-! ## Acceptance -/

/-- A plan slot replaced, with the plan length and flag carried; the last run is void (R141). -/
def storeStep (i : Fin 32) (length : Nat) (flag : Bool) (p : Option PlanStep) (d : Lc44) : Lc44 :=
  d.onAcu fun a =>
    { a with
      plan := a.plan.set i p
      planLength := length
      stopOnFail := flag
      lastRun := a.lastRun.void }

/-- The slot a LOAD-STEP body gives when it passes R140: absent inside for the CLEAR flag. -/
def checkStepBody (b : List Byte) : Option (Option PlanStep) :=
  if within 1 32 (byteAt b 1) && flagOk (byteAt b 2) then
    match byteAt b 3 with
    | 1 => some none
    | 0 => (RawStep.ofBody b).check.map some
    | _ => none
  else none

/-- LOAD-STEP (R140, R141). -/
def ownLoadStep (b : List Byte) (d : Lc44) : Lc44 :=
  if d.acu.runState ≠ .idle then deny .busy d
  else if h : byteAt b 0 < 32 then
    match checkStepBody b with
    | none => deny .badArg d
    | some p =>
      answer .ok (b1 (byteAt b 1) ++ b1 (byteAt b 2))
        (storeStep ⟨byteAt b 0, h⟩ (byteAt b 1) (decide (byteAt b 2 = 1)) p d)
  else deny .badArg d

/-- READ-STEP (R142). -/
def ownReadStep (b : List Byte) (d : Lc44) : Lc44 :=
  if h : byteAt b 0 < 32 then answer .ok (stepData (byteAt b 0) d.acu d.acu.plan[byteAt b 0]) d else deny .badArg d

/-- Each slot from f to N − 1 holds a step whose carriers are enabled (R143). -/
def stepsReady (f : Nat) (d : Lc44) : Bool :=
  (List.range (d.acu.planLength - f)).all fun k =>
    match d.acu.stepAt (f + k) with
    | none => false
    | some s => (membersOf s.mask).all fun c => d.rcu.enabled.get c

/-- The log has room and numbers for a run from f (R143). -/
def Acu.runFits (f : Nat) (a : Acu) : Bool :=
  decide (a.log.length + (a.planLength - f) ≤ Config.logRoom) &&
    decide (a.nextSequence + (a.planLength - f) ≤ Config.max16 + 1)

/-- RUN-START (R143, R144): answered with the run state that results. -/
def ownRunStart (b : List Byte) (d : Lc44) : Lc44 :=
  let f := byteAt b 0
  if d.acu.runState ≠ .idle then deny .busy d
  else if d.acu.planLength ≤ f ∨ 32 ≤ f ∨ !stepsReady f d then deny .badArg d
  else if !d.acu.runFits f then deny .full d
  else
    let d :=
      beginStep Config.planSlots f (d.onAcu fun a => { a with lastRun := { LastRun.reset with firstStep := some f } })
    answer .ok (b1 d.acu.runState.code) d

/-- RUN-ABORT (R156): answered with the sequence of the record appended. -/
def ownRunAbort (_ : List Byte) (d : Lc44) : Lc44 :=
  if d.acu.runState = .idle then deny .badState d
  else answer .ok (b2 d.acu.nextSequence) (endStep ⟨.aborted, .operator⟩ none d)

/-- READ-LOG (R160). -/
def ownReadLog (b : List Byte) (d : Lc44) : Lc44 :=
  if byteAt b 0 ≤ 63 then answerChain .ok (logData (byteAt b 0) d.acu) d else deny .badArg d

/-- LOG-CLEAR (R161): answered with the number of records removed. -/
def ownLogClear (_ : List Byte) (d : Lc44) : Lc44 :=
  if d.acu.runState ≠ .idle then deny .busy d
  else
    answer .ok (b1 d.acu.log.length) (d.onAcu fun a => { a with log := [], lastRun := a.lastRun.void })

end Sys2Proof.Machine
end

