-- ==== Sys2Proof/Machine/RequestCommands.lean ====
section
/-! DEFINITION. The requests of the service line as commands. A request whose owner may ask for the M-port is followed
by the arbiter's decision (R30). -/

namespace Sys2Proof.Machine

/-- IDENT (R196). -/
def execIdent (body : List Byte) (s : State) : Host.Outcome State Fault Refusal :=
  s.effect (request .ident ownIdent body)

/-- STATUS (R197). -/
def execStatus (body : List Byte) (s : State) : Host.Outcome State Fault Refusal :=
  s.effect (request .status ownStatus body)

/-- BEGIN (R166). -/
def execBegin (body : List Byte) (s : State) : Host.Outcome State Fault Refusal :=
  s.effect fun d => arbitrate (request .begin ownBegin body d)

/-- WIPE (R167). -/
def execWipe (body : List Byte) (s : State) : Host.Outcome State Fault Refusal :=
  s.effect (request .wipe ownWipe body)

/-- SAVE (R169). -/
def execSave (body : List Byte) (s : State) : Host.Outcome State Fault Refusal :=
  s.effect fun d => arbitrate (request .save ownSave body d)

/-- HANDOVER (R173). -/
def execHandover (body : List Byte) (s : State) : Host.Outcome State Fault Refusal :=
  s.effect fun d => arbitrate (request .handover ownHandover body d)

/-- LOAD-REGION (R16). -/
def execLoadRegion (body : List Byte) (s : State) : Host.Outcome State Fault Refusal :=
  s.effect (request .loadRegion ownLoadRegion body)

/-- READ-REGION (R17). -/
def execReadRegion (body : List Byte) (s : State) : Host.Outcome State Fault Refusal :=
  s.effect (request .readRegion ownReadRegion body)

/-- LOAD-RULE (R43). -/
def execLoadRule (body : List Byte) (s : State) : Host.Outcome State Fault Refusal :=
  s.effect (request .loadRule ownLoadRule body)

/-- READ-RULE (R44). -/
def execReadRule (body : List Byte) (s : State) : Host.Outcome State Fault Refusal :=
  s.effect (request .readRule ownReadRule body)

/-- LOAD-LAYOUT (R102). -/
def execLoadLayout (body : List Byte) (s : State) : Host.Outcome State Fault Refusal :=
  s.effect (request .loadLayout ownLoadLayout body)

/-- READ-LAYOUT (R103). -/
def execReadLayout (body : List Byte) (s : State) : Host.Outcome State Fault Refusal :=
  s.effect (request .readLayout ownReadLayout body)

/-- SET-CARRIER (R117). -/
def execSetCarrier (body : List Byte) (s : State) : Host.Outcome State Fault Refusal :=
  s.effect (request .setCarrier ownSetCarrier body)

/-- READ-CARRIER (R118). -/
def execReadCarrier (body : List Byte) (s : State) : Host.Outcome State Fault Refusal :=
  s.effect (request .readCarrier ownReadCarrier body)

/-- PEAK-RESET (R113). -/
def execPeakReset (body : List Byte) (s : State) : Host.Outcome State Fault Refusal :=
  s.effect (request .peakReset ownPeakReset body)

/-- CLEAR-CAPTURE (R115). -/
def execClearCapture (body : List Byte) (s : State) : Host.Outcome State Fault Refusal :=
  s.effect (request .clearCapture ownClearCapture body)

/-- SET-GROUPS (R119). -/
def execSetGroups (body : List Byte) (s : State) : Host.Outcome State Fault Refusal :=
  s.effect (request .setGroups ownSetGroups body)

/-- SET-TONE (R132). -/
def execSetTone (body : List Byte) (s : State) : Host.Outcome State Fault Refusal :=
  s.effect (request .setTone ownSetTone body)

/-- SET-TIMES (R24, R111, R129). -/
def execSetTimes (body : List Byte) (s : State) : Host.Outcome State Fault Refusal :=
  s.effect (request .setTimes ownSetTimes body)

/-- SET-MIRROR (R198). -/
def execSetMirror (body : List Byte) (s : State) : Host.Outcome State Fault Refusal :=
  s.effect fun d => arbitrate (request .setMirror ownSetMirror body d)

/-- MUTE-RELEASE (R128). -/
def execMuteRelease (body : List Byte) (s : State) : Host.Outcome State Fault Refusal :=
  s.effect (request .muteRelease ownMuteRelease body)

/-- TRIAL-OPEN (R58, R59). -/
def execTrialOpen (body : List Byte) (s : State) : Host.Outcome State Fault Refusal :=
  s.effect fun d => arbitrate (request .trialOpen ownTrialOpen body d)

/-- TRIAL-CONFIRM (R64, R66). -/
def execTrialConfirm (body : List Byte) (s : State) : Host.Outcome State Fault Refusal :=
  s.effect fun d => arbitrate (request .trialConfirm ownTrialConfirm body d)

/-- TRIAL-EXTEND (R63). -/
def execTrialExtend (body : List Byte) (s : State) : Host.Outcome State Fault Refusal :=
  s.effect (request .trialExtend ownTrialExtend body)

/-- TRIAL-ABORT (R66, R67). -/
def execTrialAbort (body : List Byte) (s : State) : Host.Outcome State Fault Refusal :=
  s.effect fun d => arbitrate (request .trialAbort ownTrialAbort body d)

/-- READ-TRIAL (R83). -/
def execReadTrial (body : List Byte) (s : State) : Host.Outcome State Fault Refusal :=
  s.effect (request .readTrial ownReadTrial body)

/-- OVERLAY-DISCARD (R92). -/
def execOverlayDiscard (body : List Byte) (s : State) : Host.Outcome State Fault Refusal :=
  s.effect (request .overlayDiscard ownOverlayDiscard body)

/-- READ-OVERLAY (R93). -/
def execReadOverlay (body : List Byte) (s : State) : Host.Outcome State Fault Refusal :=
  s.effect (request .readOverlay ownReadOverlay body)

/-- LOAD-STEP (R140, R141). -/
def execLoadStep (body : List Byte) (s : State) : Host.Outcome State Fault Refusal :=
  s.effect (request .loadStep ownLoadStep body)

/-- READ-STEP (R142). -/
def execReadStep (body : List Byte) (s : State) : Host.Outcome State Fault Refusal :=
  s.effect (request .readStep ownReadStep body)

/-- RUN-START (R143, R144). -/
def execRunStart (body : List Byte) (s : State) : Host.Outcome State Fault Refusal :=
  s.effect (request .runStart ownRunStart body)

/-- RUN-ABORT (R156). -/
def execRunAbort (body : List Byte) (s : State) : Host.Outcome State Fault Refusal :=
  s.effect (request .runAbort ownRunAbort body)

/-- READ-LOG (R160). -/
def execReadLog (body : List Byte) (s : State) : Host.Outcome State Fault Refusal :=
  s.effect (request .readLog ownReadLog body)

/-- LOG-CLEAR (R161). -/
def execLogClear (body : List Byte) (s : State) : Host.Outcome State Fault Refusal :=
  s.effect (request .logClear ownLogClear body)

end Sys2Proof.Machine
end

