-- ==== Sys2Proof/Machine/TimeCommands.lean ====
section
/-! DEFINITION. Time and reset: TICK, COMMISSIONING_SECOND, RESET_ASSERTED, RESET_RELEASE and REFRESH_TIMER_EXPIRY. -/

namespace Sys2Proof.Machine

/-! ## The tick (spec/00_scope.md, Time) -/

/-- TRU's part of a tick: the trial timer and the time since the entry to OPEN (R62, R82). -/
def Tru.tick (t : Tru) : Tru :=
  { t with
    timer := tickTimer t.timer
    openTicks :=
      match t.state with
      | .idle | .opening => t.openTicks
      | .open | .closing | .rollingBack => t.openTicks + 1 }

/-- RCU's part of a tick: the tick count and the report timers (R106, R110). -/
def Rcu.tick (r : Rcu) : Rcu :=
  { r with
    tickCount := r.tickCount + 1
    records := r.records.mapAll fun _ x => { x with timer := tickTimer x.timer } }

/-- TMU's part of a tick: the debounce and hold-off timers, and the cadence (R123, R127, R136). -/
def Tmu.tick (t : Tmu) : Tmu :=
  { t with
    debounce := tickTimer t.debounce
    holdoff := tickTimer t.holdoff
    cadence := if cadenceLength t.tone = 0 then 0 else (t.cadence + 1) % cadenceLength t.tone }

/-- ACU's part of a tick: the step timer, and the measuring ticks in MEASURING up to the measure time (R149). -/
def Acu.tick (a : Acu) : Acu :=
  { a with
    timer := tickTimer a.timer
    measured :=
      match a.runState, a.currentStep with
      | .measuring, some p => satInc (p.measure * 1000) a.measured
      | _, _ => a.measured }

/-- The commissioning seconds run (R165): phase COMMISSIONING and PHOP not STARTING. -/
def Phc.counts (p : Phc) : Bool := decide (p.phase = .commissioning) && !p.phop.isStarting

/-- The next tick brings the accumulator to 1,000 (R165). -/
def Phc.secondEnds (p : Phc) : Bool := p.counts && decide (1000 ≤ p.accumulator + 1)

/-- PHC's part of a tick (R165): the accumulator rises, and on reaching 1,000 it returns to 0 and the commissioning
seconds rise. -/
def Phc.tick (p : Phc) : Phc :=
  if p.secondEnds then { p with accumulator := 0, seconds := satInc Config.max32 p.seconds }
  else if p.counts then { p with accumulator := p.accumulator + 1 }
  else p

/-- SLI's part of a tick: the gap and refresh timers (R187, R199). -/
def Sli.tick (s : Sli) : Sli := { s with gap := tickTimer s.gap, refreshTimer := tickTimer s.refreshTimer }

/-- A tick passes (R106, R165; log 1). -/
def tickAll (d : Lc44) : Lc44 :=
  ((((((d.onTru Tru.tick).onRcu Rcu.tick).onTmu Tmu.tick).onAcu Acu.tick).onPhc Phc.tick).onSli Sli.tick)

/-- TICK (R165). -/
def execTick (s : State) : Host.Outcome State Fault Refusal := s.effect tickAll

/-- COMMISSIONING_SECOND (R165): the accumulator reaches 1,000, returns to 0, and the commissioning seconds rise. It is
the tick that does this, in every unit, as TICK is; where the next tick does not do it nothing happens (log 19). -/
def execCommissioningSecond (s : State) : Host.Outcome State Fault Refusal :=
  s.effect fun d => if d.phc.secondEnds then tickAll d else d

/-! ## Reset (R35, R179) -/

/-- RESET_ASSERTED (R35, R179): every block takes its reset values; the MAST pin keeps its level. -/
def execResetAsserted (s : State) : Host.Outcome State Fault Refusal :=
  .next { s with part := Lc44.inReset s.part.tmu.mastRaw }

/-- RESET is released (R179): straps sampled, mute state by the MAST level (R124), start-up begins with LOAD. -/
def release (straps : Straps) (d : Lc44) : Lc44 :=
  let d := { d with resetAsserted := false, straps := straps }
  let d := d.onTmu fun t =>
    { t with
      mastAccepted := t.mastRaw
      debounce := none
      mute := if t.mastRaw then .muted else .clear
      holdoff := none }
  arbitrate (loadNext [] (d.onPhc fun p => { p with phop := .starting .load }))

/-- RESET_RELEASE (R179); without RESET asserted there is nothing to release (log 5). -/
def execResetRelease (psel : BitVec 2) (commission depol : Bool) (s : State) : Host.Outcome State Fault Refusal :=
  .next { s with part := if s.part.resetAsserted then release ⟨psel, commission, depol⟩ s.part else s.part }

/-! ## The mirror's timer -/

/-- REFRESH_TIMER_EXPIRY (R199, R200). -/
def execRefreshTimerExpiry (s : State) : Host.Outcome State Fault Refusal :=
  s.effect fun d => arbitrate (refreshExpired d)

end Sys2Proof.Machine
end

