-- ==== Sys2Proof/Machine/ToneCommands.lean ====
section
/-! DEFINITION. The events of TMU: MAST_LEVEL_CHANGE, DEBOUNCE_TIMER_EXPIRY, HOLD_OFF_EXPIRY, TMU_CAPTURE_NOTICE,
TMU_STALE_NOTICE, LEFT_TRACK_REPORT, PEAK_RESET_NOTICE and GROUP_FLAGS_CHANGE. -/

namespace Sys2Proof.Machine

/-- The raw MAST level changes (R123): a difference from the accepted level loads the debounce timer, a return to it
cancels the timer. While RESET is asserted only the level on the pin changes (log 5). -/
def Tmu.levelChange (asserted inReset : Bool) (t : Tmu) : Tmu :=
  if asserted = t.mastRaw then t
  else if inReset then { t with mastRaw := asserted }
  else
    { t with
      mastRaw := asserted
      debounce := if asserted = t.mastAccepted then none else some Config.debounceTicks }

/-- MAST_LEVEL_CHANGE (R123). The pin's level is outside the block, so it changes while RESET is asserted too. -/
def execMastLevelChange (asserted : Bool) (s : State) : Host.Outcome State Fault Refusal :=
  .next { s with part := s.part.onTmu (Tmu.levelChange asserted s.part.resetAsserted) }

/-- The accepted level takes the raw level, and its event is taken (R123, R125, R126). -/
def acceptLevel (d : Lc44) : Lc44 :=
  let d := d.onTmu fun t => { t with mastAccepted := t.mastRaw, debounce := none }
  if d.tmu.mastAccepted then mastAsserted d else mastReleased d

/-- DEBOUNCE_TIMER_EXPIRY (R123). -/
def execDebounceTimerExpiry (s : State) : Host.Outcome State Fault Refusal :=
  s.effect fun d => if timerDue d.tmu.debounce then acceptLevel d else d

/-- HOLD_OFF_EXPIRY (R127): HOLDOFF becomes CLEAR. -/
def execHoldOffExpiry (s : State) : Host.Outcome State Fault Refusal :=
  s.effect fun d =>
    d.onTmu fun t => if t.mute = .holdoff ∧ timerDue t.holdoff then { t with mute := .clear, holdoff := none } else t

/-- TMU_CAPTURE_NOTICE (R131). -/
def execTmuCaptureNotice (n : CaptureNotice) (s : State) : Host.Outcome State Fault Refusal :=
  s.effect (deliverTmu (.capture n) (changeView n.carrier ⟨true, some n.rsl⟩))

/-- TMU_STALE_NOTICE (R131): the tracking flag is cleared, and the last RSL is left. -/
def execTmuStaleNotice (c : Carrier) (s : State) : Host.Outcome State Fault Refusal :=
  s.effect (deliverTmu (.stale c) fun d => changeView c ⟨false, (d.tmu.view.get c).lastRsl⟩ d)

/-- Carriers have left TRACK (R131): their flags are cleared and their last RSLs absent. -/
def leftTrack (m : CarrierSet) (d : Lc44) : Lc44 :=
  let d := d.onTmu fun t => { t with view := t.view.mapAll fun c v => if m.get c then ⟨false, none⟩ else v }
  if d.tmu.namesMember m then recomputeTone d else d

/-- LEFT_TRACK_REPORT (R131). -/
def execLeftTrackReport (m : CarrierSet) (s : State) : Host.Outcome State Fault Refusal :=
  s.effect (deliverTmu (.leftTrack m) (leftTrack m))

/-- A peak reset that names a member of the source (R134, R135); one that names none leaves the tone peak. -/
def tonePeakReset (m : CarrierSet) (d : Lc44) : Lc44 :=
  if d.tmu.namesMember m then recomputeTone (d.onTmu fun t => { t with peak := none }) else d

/-- PEAK_RESET_NOTICE (R134). -/
def execPeakResetNotice (m : CarrierSet) (s : State) : Host.Outcome State Fault Refusal :=
  s.effect (deliverTmu (.peakReset m) (tonePeakReset m))

/-- The member set under the group flags in force (R133): a changed set makes the tone peak absent. -/
def changeGroups (d : Lc44) : Lc44 :=
  if d.tmu.settings.kind = .group then
    let m := membersFor d.rcu d.tmu.settings
    recomputeTone (d.onTmu fun t => { t with members := m, peak := if m = t.members then t.peak else none })
  else d

/-- GROUP_FLAGS_CHANGE (R133). -/
def execGroupFlagsChange (s : State) : Host.Outcome State Fault Refusal :=
  s.effect fun d => changeGroups (takenTmu .groups d)

end Sys2Proof.Machine
end

