-- ==== Sys2Proof/Machine/TrialCommands.lean ====
section
/-! DEFINITION. The events that reach TRU: MARK_CONFIRM, MARK_ABORT, TRIAL_TIMER_EXPIRY, TRU_CAPTURE_NOTICE and
TRU_STALE_NOTICE. -/

namespace Sys2Proof.Machine

/-- A MARK signal is ignored and counted (R66). -/
def ignoreMark (d : Lc44) : Lc44 := d.onTru fun t => { t with ignoredMarks := satInc Config.max16 t.ignoredMarks }

/-- MARK_CONFIRM (R64, R66): an OPEN trial begins to close; otherwise the mark is ignored and counted. -/
def execMarkConfirm (s : State) : Host.Outcome State Fault Refusal :=
  s.effect fun d =>
    let d := takenTru .confirm d
    if d.tru.openUndue then arbitrate (beginClosing .mark d) else ignoreMark d

/-- MARK_ABORT (R66, R67): an OPEN trial rolls back or is due to; otherwise the mark is ignored and counted. -/
def execMarkAbort (s : State) : Host.Outcome State Fault Refusal :=
  s.effect fun d =>
    let d := takenTru .abort d
    if d.tru.openUndue then arbitrate (takeRollbackCause .abortedMark none d) else ignoreMark d

/-- TRIAL_TIMER_EXPIRY (R62): an OPEN trial rolls back or is due to; in CLOSING the expiry is held. A timer that an
extend has reloaded is not due. -/
def execTrialTimerExpiry (s : State) : Host.Outcome State Fault Refusal :=
  s.effect fun d =>
    if !timerDue d.tru.timer then d
    else if d.tru.openUndue then arbitrate (takeRollbackCause .expired none d)
    else if d.tru.state = .closing then d.onTru fun t => { t with expiryHeld := true }
    else d

/-- A loss report of a watched carrier under an OPEN trial (R69). -/
def lossReport (c : Carrier) (d : Lc44) : Lc44 :=
  if d.tru.openUndue && d.tru.watch.get c then arbitrate (takeRollbackCause .loss (some c) d) else d

/-- TRU_CAPTURE_NOTICE (R69): a loss run of 3 or more is a loss. -/
def execTruCaptureNotice (n : CaptureNotice) (s : State) : Host.Outcome State Fault Refusal :=
  s.effect (deliverTru (.capture n) fun d => if 3 ≤ n.lossRun then lossReport n.carrier d else d)

/-- TRU_STALE_NOTICE (R69): a watched carrier that goes stale is a loss. -/
def execTruStaleNotice (c : Carrier) (s : State) : Host.Outcome State Fault Refusal :=
  s.effect (deliverTru (.stale c) (lossReport c))

end Sys2Proof.Machine
end

