-- ==== Sys2Proof/Machine/Dispatch.lean ====
section
/-! DEFINITION. The dispatch: one arm for each command of the LC44. -/

namespace Sys2Proof.Machine

/-- The effect of a command on everything but the queue. -/
def exec (i : Instr) (s : State) : Host.Outcome State Fault Refusal :=
  match i with
  | .iPortCycle c => Sys2Proof.Machine.execIPortCycle c s
  | .memoryAnswer a => Sys2Proof.Machine.execMemoryAnswer a s
  | .memoryTimeout => Sys2Proof.Machine.execMemoryTimeout s
  | .heldWriteRelease => Sys2Proof.Machine.execHeldWriteRelease s
  | .markConfirm => Sys2Proof.Machine.execMarkConfirm s
  | .markAbort => Sys2Proof.Machine.execMarkAbort s
  | .stepSignal => Sys2Proof.Machine.execStepSignal s
  | .trialTimerExpiry => Sys2Proof.Machine.execTrialTimerExpiry s
  | .truCaptureNotice n => Sys2Proof.Machine.execTruCaptureNotice n s
  | .truStaleNotice c => Sys2Proof.Machine.execTruStaleNotice c s
  | .observeHandoff h => Sys2Proof.Machine.execObserveHandoff h s
  | .reportTimerExpiry c => Sys2Proof.Machine.execReportTimerExpiry c s
  | .mastLevelChange asserted => Sys2Proof.Machine.execMastLevelChange asserted s
  | .debounceTimerExpiry => Sys2Proof.Machine.execDebounceTimerExpiry s
  | .holdOffExpiry => Sys2Proof.Machine.execHoldOffExpiry s
  | .tmuCaptureNotice n => Sys2Proof.Machine.execTmuCaptureNotice n s
  | .tmuStaleNotice c => Sys2Proof.Machine.execTmuStaleNotice c s
  | .leftTrackReport m => Sys2Proof.Machine.execLeftTrackReport m s
  | .peakResetNotice m => Sys2Proof.Machine.execPeakResetNotice m s
  | .groupFlagsChange => Sys2Proof.Machine.execGroupFlagsChange s
  | .acuCaptureNotice n => Sys2Proof.Machine.execAcuCaptureNotice n s
  | .acuStaleNotice c => Sys2Proof.Machine.execAcuStaleNotice c s
  | .muteNotice => Sys2Proof.Machine.execMuteNotice s
  | .rollbackNotice => Sys2Proof.Machine.execRollbackNotice s
  | .armTimeoutExpiry => Sys2Proof.Machine.execArmTimeoutExpiry s
  | .settleTimerExpiry => Sys2Proof.Machine.execSettleTimerExpiry s
  | .measureTimerExpiry => Sys2Proof.Machine.execMeasureTimerExpiry s
  | .tick => Sys2Proof.Machine.execTick s
  | .commissioningSecond => Sys2Proof.Machine.execCommissioningSecond s
  | .resetAsserted => Sys2Proof.Machine.execResetAsserted s
  | .resetRelease psel commission depol => Sys2Proof.Machine.execResetRelease psel commission depol s
  | .refreshTimerExpiry => Sys2Proof.Machine.execRefreshTimerExpiry s
  | .badFrame code => Sys2Proof.Machine.execBadFrame code s
  | .frameDiscarded => Sys2Proof.Machine.execFrameDiscarded s
  | .lineError => Sys2Proof.Machine.execLineError s
  | .gapTimerExpiry => Sys2Proof.Machine.execGapTimerExpiry s
  | .responseSent => Sys2Proof.Machine.execResponseSent s
  | .unknownRequest code body => Sys2Proof.Machine.execUnknownRequest code body s
  | .ident body => Sys2Proof.Machine.execIdent body s
  | .status body => Sys2Proof.Machine.execStatus body s
  | .beginReq body => Sys2Proof.Machine.execBegin body s
  | .wipe body => Sys2Proof.Machine.execWipe body s
  | .save body => Sys2Proof.Machine.execSave body s
  | .handover body => Sys2Proof.Machine.execHandover body s
  | .loadRegion body => Sys2Proof.Machine.execLoadRegion body s
  | .readRegion body => Sys2Proof.Machine.execReadRegion body s
  | .loadRule body => Sys2Proof.Machine.execLoadRule body s
  | .readRule body => Sys2Proof.Machine.execReadRule body s
  | .loadLayout body => Sys2Proof.Machine.execLoadLayout body s
  | .readLayout body => Sys2Proof.Machine.execReadLayout body s
  | .setCarrier body => Sys2Proof.Machine.execSetCarrier body s
  | .readCarrier body => Sys2Proof.Machine.execReadCarrier body s
  | .peakReset body => Sys2Proof.Machine.execPeakReset body s
  | .clearCapture body => Sys2Proof.Machine.execClearCapture body s
  | .setGroups body => Sys2Proof.Machine.execSetGroups body s
  | .setTone body => Sys2Proof.Machine.execSetTone body s
  | .setTimes body => Sys2Proof.Machine.execSetTimes body s
  | .setMirror body => Sys2Proof.Machine.execSetMirror body s
  | .muteRelease body => Sys2Proof.Machine.execMuteRelease body s
  | .trialOpen body => Sys2Proof.Machine.execTrialOpen body s
  | .trialConfirm body => Sys2Proof.Machine.execTrialConfirm body s
  | .trialExtend body => Sys2Proof.Machine.execTrialExtend body s
  | .trialAbort body => Sys2Proof.Machine.execTrialAbort body s
  | .readTrial body => Sys2Proof.Machine.execReadTrial body s
  | .overlayDiscard body => Sys2Proof.Machine.execOverlayDiscard body s
  | .readOverlay body => Sys2Proof.Machine.execReadOverlay body s
  | .loadStep body => Sys2Proof.Machine.execLoadStep body s
  | .readStep body => Sys2Proof.Machine.execReadStep body s
  | .runStart body => Sys2Proof.Machine.execRunStart body s
  | .runAbort body => Sys2Proof.Machine.execRunAbort body s
  | .readLog body => Sys2Proof.Machine.execReadLog body s
  | .logClear body => Sys2Proof.Machine.execLogClear body s
  | .byteReceived b => Sys2Proof.Machine.execByteReceived b s

end Sys2Proof.Machine
end

