-- ==== Sys2Proof/Safety.lean ====
section
/-! DEFINITION. The words of the claims about the LC44: what a command leaves alone, the service line once a request
is taken or answered, the conditions under which a command has its own effect, and the laws the spec states of every
moment (R4, R30, R70, R86, R112, R123 to R128, R159, R186). -/

namespace Sys2Proof.Machine

/-! ## Conditions on a state -/

/-- RESET is not asserted. -/
def State.running (s : State) : Bool := !s.part.resetAsserted

/-- A request's frame that completes now is taken, and passes the filter and the length check (R187, R189, R193). -/
def State.takes (r : Req) (body : List Byte) (s : State) : Bool :=
  s.running && !s.part.deaf && s.part.sli.inHand.isNone &&
    decide (requestFilter s.part.phc.phase s.part.phc.phop r = none) && decide (body.length = r.bodyLength)

/-- The M-port is busy, or no client waits for it (R30). -/
def Mpc.settled (m : Mpc) : Bool := !m.free || m.choice.isNone

/-- No client but FWD waits for the M-port. -/
def Mpc.noRival (m : Mpc) : Bool := m.rstWaiting.isNone && m.intQueue.isEmpty && m.mirWaiting.isNone

/-- The phase and mirror range in force for classification are those of PHC and SLI (R3, R4). -/
def Lc44.inStep (d : Lc44) : Bool :=
  decide (d.ccl.phase = d.phc.phase) &&
    decide (d.ccl.mirror = if d.sli.mirrorEnabled then some d.sli.mirrorAddress else none)

/-- The I-port can take a cycle: none is unanswered and nothing is left of the last one (R1, R26, R28, R94). Under
`State.stepLaw` the first says it all. -/
def Lc44.openToCycle (d : Lc44) : Bool :=
  d.iport.cycle.isNone && d.mpc.hold.isNone && !d.mpc.fwdWaiting && decide (d.ovu.work ≠ .awaitWrite) && d.inStep

/-- The LC44 runs, start-up is over, and the I-port can take a cycle. -/
def State.takesCycle (s : State) : Bool :=
  s.running && !s.part.phc.phop.isStarting && s.part.openToCycle

/-- An entry's range contains a cycle's address, and its initiators include the cycle's initiator (R5). -/
def Region.matches (r : Region) (x : BusCycle) : Bool :=
  decide (r.base.toNat ≤ x.addr.toNat) && decide (x.addr.toNat < r.base.toNat + r.length) &&
    match x.initiator with
    | .ctl => r.ctl
    | .rpt => r.rpt

/-! ## What a command leaves alone -/

/-- The parts of the LC44's state. -/
inductive Block where
  | iport
  | mpc
  | ccl
  | fgd
  | tru
  | ovu
  | rcu
  | tmu
  | acu
  | phc
  | sli
  | raised
deriving DecidableEq, Repr

/-- A block has the same state in both. -/
def Lc44.sameBlock (d e : Lc44) (b : Block) : Prop :=
  match b with
  | .iport => e.iport = d.iport
  | .mpc => e.mpc = d.mpc
  | .ccl => e.ccl = d.ccl
  | .fgd => e.fgd = d.fgd
  | .tru => e.tru = d.tru
  | .ovu => e.ovu = d.ovu
  | .rcu => e.rcu = d.rcu
  | .tmu => e.tmu = d.tmu
  | .acu => e.acu = d.acu
  | .phc => e.phc = d.phc
  | .sli => e.sli = d.sli
  | .raised => e.raised = d.raised

/-- Everything outside the blocks listed is unchanged: RESET, the straps and every other block. -/
def Lc44.keepsOutside (changed : List Block) (d e : Lc44) : Prop :=
  e.resetAsserted = d.resetAsserted ∧ e.straps = d.straps ∧ ∀ b, b ∉ changed → d.sameBlock e b

/-! ## The service line around a request -/

/-- A request is in hand (R189): its frame leaves the completed frames and the frames-taken count rises (R195). -/
def Sli.holding (r : Req) (body : List Byte) (s : Sli) : Sli :=
  { s with
    completed := s.completed.erase (.good r.code body)
    inHand := some r.code
    taken := min 65535 (s.taken + 1) }

/-- Frames begin to be sent: the frames held, one partly received or completed and not taken, are discarded and counted
(R189; log 8). -/
def Sli.sends (frames : List (List Byte)) (s : Sli) : Sli :=
  { s with
    sending := some frames
    completed := []
    rx := .hunt
    gap := none
    discarded := min 65535 (s.discarded + (s.completed.length + if s.rx = .hunt then 0 else 1)) }

/-- The response to a request in one frame: its code plus 80h, the status, the data (R186, R190). -/
def response (r : Req) (status : Status) (data : List Byte) : List Byte :=
  frame (r.code + 0x80) (status.byte :: data)

/-- A request is taken and answered at once by one frame. -/
def Lc44.reply (r : Req) (body : List Byte) (status : Status) (data : List Byte) (d : Lc44) : Lc44 :=
  { d with sli := (d.sli.holding r body).sends [response r status data] }

/-- A request is taken and answered at once by a chain. -/
def Lc44.replyChain (r : Req) (body : List Byte) (data : List Byte) (d : Lc44) : Lc44 :=
  { d with sli := (d.sli.holding r body).sends (chain (r.code + 0x80) .ok data) }

/-- A request is taken and waits for its outcome (R194). -/
def Lc44.takeInHand (r : Req) (body : List Byte) (d : Lc44) : Lc44 := { d with sli := d.sli.holding r body }

/-- The request in hand, if it is this one, is answered by one frame. -/
def Lc44.answerInHand (r : Req) (status : Status) (data : List Byte) (d : Lc44) : Lc44 :=
  if d.sli.inHand = some r.code then { d with sli := d.sli.sends [response r status data] } else d

/-! ## The M-port and the journal header -/

/-- The command by which the M-port cycle in progress fails (R21, R23). -/
def MFailure.command (f : MFailure) : Instr :=
  match f with
  | .fault => .memoryAnswer .fault
  | .timeout => .memoryTimeout

/-- MPC once the cycle of the INT request at the queue's head has ended OK (R21, R27). -/
def Mpc.intEnded (m : Mpc) : Mpc := { m with cycle := none, intQueue := m.intQueue.tail }

/-- MPC with the failure of a cycle counted and recorded (R33, R34). -/
def Mpc.failing (p : MCycle) (owner : Option IntOwner) (f : MFailure) (m : Mpc) : Mpc :=
  { m with
    faults := if f = .fault then min 4294967295 (m.faults + 1) else m.faults
    timeouts := if f = .timeout then min 4294967295 (m.timeouts + 1) else m.timeouts
    lastFailure := some ⟨p.client, owner, p.request, f⟩ }

/-- MPC with an INT request of TRU at the tail of the queue (R27). -/
def Mpc.queuesTru (r : MRequest) (m : Mpc) : Mpc := { m with intQueue := m.intQueue ++ [⟨.tru, r⟩] }

/-- The write of a word at an offset of the profile block (R4, R79). -/
def Lc44.profileWrite (offset value : Nat) (d : Lc44) : MRequest :=
  ⟨BitVec.ofNat 20 (0xFF000 - 0x1000 * d.straps.psel.toNat + offset), .write (BitVec.ofNat 16 value)⟩

/-- TRU's header word is on the M-port: the cycle of its INT request, at its first or second attempt (R59, R64, R78). -/
def State.writesHeader (step : HeaderStep) (retry timedOut : Bool) (p : MCycle) (s : State) : Prop :=
  s.running = true ∧ s.part.mpc.cycle = some p ∧ p.client = .int ∧
    s.part.mpc.intQueue.head?.map IntRequest.owner = some .tru ∧ s.part.tru.work = .header step retry timedOut

/-! ## Rollback -/

/-- A rollback starts (R73, R74): every entry waits, ACU is told, and the newest entry's pre-image is requested for its
address, or with an empty journal the state word CLOSED. -/
def Lc44.rollbackStarted (cause : EndCause) (carrier : Option Carrier) (d : Lc44) : Lc44 :=
  let tru : Tru :=
    { d.tru with
      state := .rollingBack
      timer := none
      due := none
      journal := d.tru.journal.map fun e => { e with mark := .waiting }
      outcome := d.tru.outcome.map fun o =>
        { o with cause := some cause, lossCarrier := carrier, entriesAtEnd := some d.tru.journal.length } }
  let raised : Raised := { d.raised with acu := d.raised.acu ++ [.rollback] }
  match d.tru.journal.getLast? with
  | some e =>
    { d with
      tru := { tru with work := .restore false }
      mpc := { d.mpc with rstWaiting := some ⟨e.addr, .write e.preImage⟩ }
      raised := raised }
  | none =>
    { d with
      tru := { tru with work := .header .endState false false }
      mpc := d.mpc.queuesTru (d.profileWrite 0x010 (d.tru.number * 256))
      raised := raised }

/-- A rollback cause is taken in OPEN: the rollback starts, or it is due while a sequence is in flight (R68). -/
def Lc44.causeTaken (cause : EndCause) (carrier : Option Carrier) (d : Lc44) : Lc44 :=
  if d.iport.inFlight then { d with tru := { d.tru with due := some ⟨cause, carrier⟩, timer := none } }
  else d.rollbackStarted cause carrier

/-- The entry check (R61): the lowest watched carrier that is STALE, or has a loss run of 3 or more, is a loss. -/
def Lc44.checkedAtEntry (d : Lc44) : Lc44 :=
  let lost (c : Carrier) : Bool :=
    d.tru.watch.get c &&
      (decide ((d.rcu.records.get c).state = .stale) || decide (3 ≤ (d.rcu.records.get c).lossRun))
  if lost 0 then d.causeTaken .loss (some 0)
  else if lost 1 then d.causeTaken .loss (some 1)
  else if lost 2 then d.causeTaken .loss (some 2)
  else if lost 3 then d.causeTaken .loss (some 3)
  else d

/-! ## The end of a step -/

/-- Aggregates of a step with the stale mark of each carrier of its mask that is not in TRACK (R146). -/
def Lc44.lossMarked (p : PlanStep) (x : PerCarrier (Option Aggregate)) (d : Lc44) : PerCarrier (Option Aggregate) :=
  x.mapAll fun c g =>
    if p.mask.get c && decide ((d.rcu.records.get c).state ≠ .track) then g.map fun a => { a with stale := true }
    else g

/-- ACU once step `i` has ended without an evaluation on the aggregates given: one record with the next sequence, and
the last-run record (R152, R158, R159). -/
def Acu.stepEnded (i : Nat) (o : StepOutcome) (c : StepCause) (x : PerCarrier (Option Aggregate)) (a : Acu) : Acu :=
  { a with
    timer := none
    aggregates := x
    log :=
      a.log ++
        [⟨a.nextSequence, i, o, c, a.measured, carriers.filterMap fun c => (x.get c).map fun g => ⟨c, g, [], []⟩⟩]
    nextSequence := a.nextSequence + 1
    lastRun :=
      { a.lastRun with
        firstSequence := some (a.lastRun.firstSequence.getD a.nextSequence)
        lastSequence := some a.nextSequence } }

/-- ACU once the run has ended: IDLE, with its outcome (R152). -/
def Acu.runEnded (run : RunOutcome) (a : Acu) : Acu :=
  { a with
    runState := .idle
    current := none
    timer := none
    aggregates := PerCarrier.all none
    lastRun := { a.lastRun with outcome := run } }

/-- What follows the FAIL of step `i` (R152): under stop-on-fail the run ends FAIL; at the plan's end it ends PASS when
every step from its first has passed, and FAIL otherwise; else the next step begins. -/
def Lc44.afterFail (fuel i : Nat) (d : Lc44) : Lc44 :=
  if d.acu.stopOnFail then { d with acu := d.acu.runEnded .fail }
  else if d.acu.planLength ≤ i + 1 then
    { d with
      acu :=
        d.acu.runEnded
          (if d.acu.lastRun.passed = d.acu.planLength - d.acu.lastRun.firstStep.getD 0 then .pass else .fail) }
  else beginStep fuel (i + 1) d

/-! ## Laws of every moment -/

/-- No request waits while the port is free (R30). -/
def State.portLaw (s : State) : Prop := s.part.mpc.settled = true

/-- The I-port, its hold and the fold: with no cycle in progress CCL classifies by PHC's phase and SLI's mirror (R3,
R4), nothing holds or waits for the port on the I-port's behalf and no fold waits for it; a held write neither holds nor
waits (R46); under the hold FWD does not wait, and FWD's cycle is on the port only under it, with the memory timeout of
its grant (R23, R26, R28); a fold waits only for a redirected write in progress (R94). -/
def State.stepLaw (s : State) : Prop :=
  (s.part.iport.cycle = none →
    s.part.inStep = true ∧ s.part.mpc.hold = none ∧ s.part.mpc.fwdWaiting = false ∧ s.part.ovu.work ≠ .awaitWrite) ∧
  (∀ c, s.part.iport.cycle = some c → c.stage = .held → s.part.mpc.hold = none ∧ s.part.mpc.fwdWaiting = false) ∧
  (s.part.mpc.hold ≠ none → s.part.mpc.fwdWaiting = false) ∧
  (∀ p, s.part.mpc.cycle = some p → p.client = .fwd → s.part.mpc.hold = some p.timeout) ∧
  (s.part.ovu.work = .awaitWrite → s.part.iport.redirectedWrite = true)

/-- A frame as the LC44 builds its responses: a body of at most 64 bytes, and a response code (R186, R190). -/
def goodFrame (f : List Byte) : Prop :=
  ∃ (code : Byte) (body : List Byte), 0x80 < code.toNat ∧ body.length ≤ 64 ∧ f = frame code body

/-- Every frame being sent is a good one. -/
def Lc44.sendsGood (d : Lc44) : Prop := ∀ frames, d.sli.sending = some frames → ∀ f ∈ frames, goodFrame f

/-- Every frame being sent is built by the LC44 with a body of at most 64 bytes and a response code (R186, R190). -/
def State.framesLaw (s : State) : Prop := s.part.sendsGood

/-- The mute machine (R123 to R128): MUTED exactly when the accepted level is ASSERTED, the hold-off timer running
exactly in HOLDOFF, the debounce timer exactly while the raw level differs from the accepted one. -/
def State.muteLaw (s : State) : Prop :=
  s.part.resetAsserted = false →
    (s.part.tmu.mute = .muted ↔ s.part.tmu.mastAccepted = true) ∧
    (s.part.tmu.holdoff.isSome = true ↔ s.part.tmu.mute = .holdoff) ∧
    (s.part.tmu.debounce.isSome = true ↔ s.part.tmu.mastRaw ≠ s.part.tmu.mastAccepted)

/-- What a stage of the cycle in progress promises of the journal: a sequence that is to create an entry has an
address that is new, and room once its write-ahead runs (R70 to R72). -/
def Stage.journalPromise (a : Addr) (j : List JournalEntry) (g : Stage) : Prop :=
  match g with
  | .preRead g => g.isNew = true → hasEntry j a = false
  | .writeAhead _ _ => hasEntry j a = false ∧ j.length < 48
  | _ => True

/-- The journal holds at most 48 entries, no two with the same word address (R70). -/
def State.journalLaw (s : State) : Prop :=
  s.part.tru.journal.length ≤ 48 ∧ (s.part.tru.journal.map JournalEntry.addr).Nodup ∧
    ∀ c, s.part.iport.cycle = some c → c.stage.journalPromise c.cycle.addr s.part.tru.journal

/-- The peak of every carrier holds at least its last RSL, and its verdict is that of R112. -/
def State.peakLaw (s : State) : Prop :=
  ∀ c : Carrier,
    let r := s.part.rcu.records.get c
    (∀ p, r.peak = some p → ∃ v, r.lastRsl = some v ∧ v ≤ p.rsl) ∧ r.verdict = verdictOf r.settings r.peak

/-- An offset belongs to an entry of the Region Table that references a map (R86). -/
def Ccl.owns (c : Ccl) (m : MapId) (k : Nat) : Prop :=
  ∃ (i : Fin 16) (r : Region), c.table[i] = some r ∧ r.map = some m ∧ k < r.length

/-- A presence map lists its set offsets in strictly rising order, and each belongs to the entry that references the
map; at most one entry references it, and a redirected write in progress that is to set a flag names such an offset.
Reset and start-up find no cycle in progress (R1, R2, R15, R16, R86, R89). -/
def State.mapLaw (s : State) : Prop :=
  (∀ m, (s.part.ovu.map m).Pairwise (· < ·) ∧ ∀ k ∈ s.part.ovu.map m, s.part.ccl.owns m k) ∧
    (∀ (i j : Fin 16) (r q : Region) (m : MapId), s.part.ccl.table[i] = some r → s.part.ccl.table[j] = some q →
      r.map = some m → q.map = some m → i = j) ∧
    (∀ (c : ICycle) (m : MapId) (base : Addr), s.part.iport.cycle = some c → c.stage = .redirected false →
      c.cycle.op ≠ .read → c.record.treatment = .redirect m base → s.part.ccl.owns m c.record.offset) ∧
    (s.part.holdLine = true → s.part.iport.cycle = none) ∧
    (∀ staged, s.part.phc.work = .loading staged → s.part.phc.phop.isStarting = true)

/-- A run in progress has a step below the plan length, its remaining slots filled, and room in the log (R143). -/
def Acu.runLaw (a : Acu) : Prop :=
  a.runState ≠ .idle →
    ∃ i, a.current = some i ∧ i < a.planLength ∧ a.log.length + (a.planLength - i) ≤ 64 ∧
      ∀ j, i ≤ j → j < a.planLength → ∃ p, a.stepAt j = some p

/-- The acceptance log holds at most 64 records, each with a sequence number one greater than that of the record before
it, and the next sequence follows the last (R159); no run goes on while start-up replaces the plan (R144, R179). -/
def State.logLaw (s : State) : Prop :=
  s.part.acu.planLength ≤ 32 ∧ s.part.acu.log.length ≤ 64 ∧ consecutive s.part.acu.log = true ∧
    endsBefore s.part.acu.log s.part.acu.nextSequence = true ∧ s.part.acu.runLaw ∧
    (s.part.holdLine = true → s.part.acu.runState = .idle) ∧
    (∀ staged, s.part.phc.work = .loading staged → s.part.phc.phop.isStarting = true)

end Sys2Proof.Machine
end

