-- ==== Sys2Proof/Certificates/Slice0/Obligations.lean ====
section
/-! DEFINITION. The statements about the LC44, from the rules of spec/: each is a claim over every state and command it
names, for the provers. -/

open Sys2Proof Sys2Proof.Machine

/-! ## The queue, reset and time -/

/-- A step takes the command at the front of the queue and has its effect on the rest; on an empty queue the model
idles (the model's choice, log 4). -/
def Obligations.StepRunsTheFrontCommand : Prop :=
  (∀ (c : Instr) (s : State), step { s with pending := c :: s.pending } = exec c s) ∧
    ∀ s : State, s.pending = [] → step s = .next s

/-- Every command completes in every state, and leaves the queue alone. While RESET is asserted no command but the two
of RESET and the level of the MAST pin changes anything (the model's reading, log 5). -/
def Obligations.EveryCommandCompletes : Prop :=
  (∀ (c : Instr) (s : State), ∃ d, exec c s = .next ⟨d, s.pending⟩) ∧
  (∀ (c : Instr) (s : State), s.part.resetAsserted = true → c ≠ .resetAsserted →
    (∀ psel commission depol, c ≠ .resetRelease psel commission depol) → (∀ level, c ≠ .mastLevelChange level) →
    exec c s = .next s)

/-- RESET_ASSERTED gives every block its reset values and keeps the level on the MAST pin; the values of the spec, with
those that the model names where the spec gives none (logs 6, 36). -/
def Obligations.ResetAssertedGivesTheResetValues : Prop :=
  (∀ s : State, exec .resetAsserted s =
      .next ⟨{ State.reset.part with tmu := { State.reset.part.tmu with mastRaw := s.part.tmu.mastRaw } }, s.pending⟩) ∧
    let d := State.reset.part
    d.resetAsserted = true ∧ d.txmute = true ∧ d.holdLine = true ∧ d.deLevel = none ∧ d.waitLine = false ∧
    (∀ i : Fin 16, d.ccl.table[i] = none) ∧ d.ccl.mirror = none ∧ d.ccl.faults = ⟨0, 0, 0, 0, 0, 0, 0⟩ ∧
    d.mpc.cycle = none ∧ d.mpc.choice = none ∧ d.mpc.alternation = .rst ∧ d.mpc.timeout = 20 ∧ d.mpc.faults = 0 ∧
    d.mpc.timeouts = 0 ∧ d.mpc.lastFailure = none ∧
    (∀ i : Fin 64, d.fgd.rules[i] = none ∧ d.fgd.counts[i] = 0) ∧
    d.tru.state = .idle ∧ d.tru.number = 0 ∧ d.tru.timer = none ∧ membersOf d.tru.watch = [] ∧ d.tru.due = none ∧
    d.tru.expiryHeld = false ∧ d.tru.journal = [] ∧ d.tru.stale = false ∧ d.tru.outcome = none ∧ d.tru.opened = 0 ∧
    d.tru.confirmed = 0 ∧ d.tru.rolledBack = 0 ∧ d.tru.ignoredMarks = 0 ∧
    d.ovu.map0 = [] ∧ d.ovu.map1 = [] ∧ d.ovu.fold = ⟨.none, none, none⟩ ∧
    d.rcu.layout = none ∧ d.rcu.tickCount = 0 ∧ d.rcu.reportTimeout = 2000 ∧ d.rcu.lossFloor = -950 ∧
    d.rcu.ga = false ∧ d.rcu.gb = false ∧ d.rcu.gx = false ∧
    (∀ c, d.rcu.buffers.get c = ⟨⟨0, false⟩, ⟨0, false⟩, ⟨0, false⟩, ⟨0, false⟩, ⟨0, false⟩, ⟨0, false⟩⟩ ∧
      d.rcu.records.get c =
        { state := .none, lastRsl := none, lastMse := none, lastXpd := none, lastModstep := none, lastCorr := none,
          lastUncorr := none, captures := 0, incomplete := 0, lastTick := none, peak := none, lossRun := 0,
          timer := none, verdict := .none, settings := ⟨false, none, 30, 150⟩ }) ∧
    d.tmu.holdoffSetting = 30 ∧ d.tmu.settings = ⟨true, .carrier, 0, -900, 600⟩ ∧ d.tmu.value = none ∧
    d.tmu.peak = none ∧ d.tmu.pitch = 400 ∧ d.tmu.tone = .silent ∧ (∀ c, d.tmu.view.get c = ⟨false, none⟩) ∧
    d.acu.planLength = 0 ∧ d.acu.stopOnFail = false ∧ (∀ i : Fin 32, d.acu.plan[i] = none) ∧ d.acu.runState = .idle ∧
    d.acu.current = none ∧ d.acu.timer = none ∧ d.acu.measured = 0 ∧ d.acu.log = [] ∧ d.acu.nextSequence = 1 ∧
    d.acu.lastRun = ⟨.none, none, none, none, 0, 0⟩ ∧
    d.phc.phase = .transparent ∧ d.phc.seconds = 0 ∧ d.phc.accumulator = 0 ∧ d.phc.operation.operation = .none ∧
    d.sli.rx = .hunt ∧ d.sli.gap = none ∧ d.sli.inHand = none ∧ d.sli.sending = none ∧ d.sli.taken = 0 ∧
    d.sli.badFrames = 0 ∧ d.sli.discarded = 0 ∧ d.sli.mirrorEnabled = false ∧ d.sli.mirrorAddress = 0 ∧
    d.sli.refreshTimer = none ∧ d.sli.refreshNumber = 0 ∧ d.sli.lastCompleted = 0 ∧ d.sli.mirrorFaults = 0 ∧
    d.sli.mirrorAbandons = 0

/-- RESET_RELEASE: the straps are sampled, the accepted MAST level is the raw level and the mute state follows it, and
start-up begins with the read of the profile's first word, under the timeout of 20 µs; nothing else changes. -/
def Obligations.ResetReleaseStartsLoad : Prop :=
  ∀ (s : State) (raw : Bool) (psel : BitVec 2) (commission depol : Bool), s.part = Lc44.inReset raw →
    let d := Lc44.inReset raw
    let first : MRequest := ⟨BitVec.ofNat 20 (0xFF000 - 0x1000 * psel.toNat), .read⟩
    exec (.resetRelease psel commission depol) s =
      .next
        ⟨{ d with
            resetAsserted := false
            straps := ⟨psel, commission, depol⟩
            tmu := { d.tmu with mastAccepted := raw, mute := if raw then .muted else .clear }
            phc := { d.phc with phase := .transparent, phop := .starting .load, work := .loading [] }
            mpc := { d.mpc with cycle := some ⟨.int, first, 20⟩, intQueue := [⟨.phc, first⟩] } },
          s.pending⟩

/-- TICK: every running timer has one tick less (log 1: down to 0, where its expiry is waited for), the tick count rises
modulo 2^32, the time since the entry to OPEN (log 24), the measuring ticks up to the measure time (log 23) and the
cadence (log 18) go on, and in COMMISSIONING after start-up the accumulator of the commissioning seconds rises; on
reaching 1,000 it returns to 0 and the seconds rise, saturating. In TRANSPARENT and SERVICE, and during STARTING, both
hold. Nothing else changes. COMMISSIONING_SECOND is the tick that brings the accumulator to 1,000, the same as TICK
there; where the next tick does not, it changes nothing (log 19: the model's reading). -/
def Obligations.TicksAndSecondsCountTime : Prop :=
  ∀ s : State, s.running →
    let counting := s.part.phc.phase = .commissioning ∧ s.part.phc.phop.isStarting = false
    (∃ d, exec .tick s = .next ⟨d, s.pending⟩ ∧
      s.part.keepsOutside [.tru, .rcu, .tmu, .acu, .phc, .sli] d ∧
      d.tru =
        { s.part.tru with
          timer := s.part.tru.timer.map (· - 1)
          openTicks :=
            if s.part.tru.state = .idle ∨ s.part.tru.state = .opening then s.part.tru.openTicks
            else s.part.tru.openTicks + 1 } ∧
      d.rcu = { s.part.rcu with tickCount := s.part.rcu.tickCount + 1, records := d.rcu.records } ∧
      (∀ c, d.rcu.records.get c =
        { s.part.rcu.records.get c with timer := (s.part.rcu.records.get c).timer.map (· - 1) }) ∧
      d.tmu =
        { s.part.tmu with
          debounce := s.part.tmu.debounce.map (· - 1)
          holdoff := s.part.tmu.holdoff.map (· - 1)
          cadence :=
            match s.part.tmu.tone with
            | .noSignal => (s.part.tmu.cadence + 1) % 1000
            | .pulsed => (s.part.tmu.cadence + 1) % 200
            | _ => 0 } ∧
      d.acu = { s.part.acu with timer := s.part.acu.timer.map (· - 1), measured := d.acu.measured } ∧
      (s.part.acu.runState ≠ .measuring → d.acu.measured = s.part.acu.measured) ∧
      (∀ p, s.part.acu.runState = .measuring → s.part.acu.currentStep = some p →
        d.acu.measured = min (p.measure * 1000) (s.part.acu.measured + 1)) ∧
      (counting → s.part.phc.accumulator < 999 →
        d.phc = { s.part.phc with accumulator := s.part.phc.accumulator + 1 }) ∧
      (counting → s.part.phc.accumulator = 999 →
        d.phc = { s.part.phc with accumulator := 0, seconds := min 4294967295 (s.part.phc.seconds + 1) }) ∧
      (¬ counting → d.phc = s.part.phc) ∧
      d.sli =
        { s.part.sli with
          gap := s.part.sli.gap.map (· - 1)
          refreshTimer := s.part.sli.refreshTimer.map (· - 1) }) ∧
    (counting → s.part.phc.accumulator = 999 → exec .commissioningSecond s = exec .tick s) ∧
    (¬ counting ∨ s.part.phc.accumulator < 999 → exec .commissioningSecond s = .next s)

/-! ## Cycles of the I-port (chapter 1) -/

/-- R2: during STARTING each cycle is answered FAULT at once, with no record, no M-port cycle and no counter moved,
the controller held by HOLD; after it a cycle is classified as R3 says and handled by its record. -/
def Obligations.StartingAnswersEveryCycleFault : Prop :=
  ∀ (s : State) (x : BusCycle), s.running → s.part.iport.cycle = none → s.part.mpc.settled →
    (s.part.phc.phop.isStarting = true →
      s.part.holdLine = true ∧
        exec (.iPortCycle x) s =
          .next ⟨{ s.part with iport := { s.part.iport with answer := some (.fault none) } }, s.pending⟩) ∧
    (s.part.phc.phop.isStarting = false →
      exec (.iPortCycle x) s =
        .next
          ⟨arbitrate
              (if x.op ≠ .read ∧ s.part.reservedCycle x = true then faultCycle .barred s.part
              else handleCycle x (classify x s.part) s.part),
            s.pending⟩)

/-- Classification: PASS without lookup in TRANSPARENT and for a read of a reserved range; otherwise the first entry,
from index 0 upward, whose range and initiators match gives treatment, index and offset, REDIRECT and MARK becoming
PASS in SERVICE; PASS with no index when none matches. A write into a reserved range is a reserved cycle. -/
def Obligations.FirstMatchingEntryClassifies : Prop :=
  ∀ (d : Lc44) (x : BusCycle),
    let reserved : Prop :=
      (0xFF000 - 0x1000 * d.straps.psel.toNat ≤ x.addr.toNat ∧
          x.addr.toNat < 0xFF000 - 0x1000 * d.straps.psel.toNat + 4096) ∨
        ∃ m, d.ccl.mirror = some m ∧ m.toNat ≤ x.addr.toNat ∧ x.addr.toNat < m.toNat + 16
    (d.ccl.phase = .transparent → classify x d = ⟨.pass, none, 0⟩ ∧ d.reservedCycle x = false) ∧
    (d.ccl.phase ≠ .transparent → (d.reservedCycle x = true ↔ reserved)) ∧
    (d.ccl.phase ≠ .transparent → reserved → classify x d = ⟨.pass, none, 0⟩) ∧
    (d.ccl.phase ≠ .transparent → ¬ reserved →
      (∀ (i : Fin 16) (r : Region), d.ccl.table[i] = some r → r.matches x = true →
        (∀ (j : Fin 16) (q : Region), j < i → d.ccl.table[j] = some q → q.matches x = false) →
        classify x d =
          ⟨match d.ccl.phase, r.treatment with
            | .service, .redirect _ _ => .pass
            | .service, .mark _ _ _ => .pass
            | _, t => t,
            some i, x.addr.toNat - r.base.toNat⟩) ∧
      ((∀ (j : Fin 16) (q : Region), d.ccl.table[j] = some q → q.matches x = false) →
        classify x d = ⟨.pass, none, 0⟩))

/-- A cycle that is forwarded: PASS, OBSERVE, MARK, a read of BARRED, a guarded read that no waiting entry answers. At
a port that is free with nobody waiting, FWD is granted at once and the cycle's address and direction are presented
under the timeout in force; at a busy port FWD waits. Nothing else changes. -/
def Obligations.ForwardedCyclesRequestThePort : Prop :=
  ∀ (s : State) (x : BusCycle), s.takesCycle →
    let r := classify x s.part
    ¬ (x.op ≠ .read ∧ s.part.reservedCycle x = true) →
    (r.treatment = .pass ∨ (r.treatment = .barred ∧ x.op = .read) ∨
      (∃ first count stride, r.treatment = .observe first count stride) ∨
      (∃ value mask signal, r.treatment = .mark value mask signal) ∨
      (∃ first count, r.treatment = .guarded first count ∧ x.op = .read ∧
        (s.part.tru.state = .rollingBack → waitingEntry s.part.tru.journal x.addr = none))) →
    let taken := { s.part.iport with cycle := some ⟨x, r, .forward⟩ }
    (s.part.mpc.cycle = none → s.part.mpc.noRival →
      exec (.iPortCycle x) s =
        .next
          ⟨{ s.part with
              iport := taken
              mpc :=
                { s.part.mpc with
                  cycle := some ⟨.fwd, ⟨x.addr, x.op⟩, s.part.mpc.timeout⟩
                  hold := some s.part.mpc.timeout
                  alternation := .fwd } },
            s.pending⟩) ∧
    (s.part.mpc.cycle ≠ none →
      exec (.iPortCycle x) s =
        .next ⟨{ s.part with iport := taken, mpc := { s.part.mpc with fwdWaiting := true } }, s.pending⟩)

/-- Cycles answered without memory: FAULT with cause BARRED for a write into a reserved range or a BARRED region and
for a redirected write whose overlay address is reserved; REDIRECT for a redirected write during HANDING_OVER;
ROLLBACK for a guarded write to a waiting address, counted as refused by the trial too; OK from the pre-image for a
guarded read of one. The cause is counted, and nothing else changes. -/
def Obligations.CyclesAnsweredWithoutMemory : Prop :=
  ∀ (s : State) (x : BusCycle), s.takesCycle → s.part.mpc.settled →
    let r := classify x s.part
    let refused (c : FaultCause) : IPort := ⟨none, some (.fault (some c))⟩
    let f := s.part.ccl.faults
    let bounded (n : Nat) : Nat := min 4294967295 (n + 1)
    let waits := s.part.tru.state = .rollingBack ∧ (waitingEntry s.part.tru.journal x.addr).isSome = true
    (x.op ≠ .read →
      (s.part.reservedCycle x = true ∨ r.treatment = .barred ∨
          ∃ m base, r.treatment = .redirect m base ∧ s.part.reserved (base.toNat + r.offset) = true) →
      exec (.iPortCycle x) s =
        .next
          ⟨{ s.part with
              iport := refused .barred
              ccl := { s.part.ccl with faults := { f with barred := bounded f.barred } } },
            s.pending⟩) ∧
    (x.op ≠ .read → s.part.reservedCycle x = false →
      (∃ m base, r.treatment = .redirect m base ∧ s.part.reserved (base.toNat + r.offset) = false) →
      s.part.phc.phop.isHandingOver = true →
      exec (.iPortCycle x) s =
        .next
          ⟨{ s.part with
              iport := refused .redirect
              ccl := { s.part.ccl with faults := { f with redirect := bounded f.redirect } } },
            s.pending⟩) ∧
    (∀ first count, r.treatment = .guarded first count → waits → s.part.reservedCycle x = false →
      (x.op ≠ .read →
        exec (.iPortCycle x) s =
          .next
            ⟨{ s.part with
                iport := refused .rollback
                ccl := { s.part.ccl with faults := { f with rollback := bounded f.rollback } }
                tru :=
                  { s.part.tru with
                    outcome := s.part.tru.outcome.map fun o =>
                      { o with refused := o.refused.map fun n => min 65535 (n + 1) } } },
              s.pending⟩) ∧
      (x.op = .read → ∀ e, waitingEntry s.part.tru.journal x.addr = some e →
        exec (.iPortCycle x) s =
          .next ⟨{ s.part with iport := ⟨none, some (.okRead e.preImage)⟩ }, s.pending⟩))

/-- A redirected cycle in COMMISSIONING at a free port with nobody waiting: a write goes to overlay base + offset; a
read goes there when its flag is set, and to its own address when it is clear. A redirected cycle ends: a write that
memory accepts sets the flag of its offset, unless it is void, and is answered OK; a read is answered with memory's
data and sets nothing; a memory FAULT is answered FAULT with cause MEMORY and leaves the maps. Both maps' other flags
stay. -/
def Obligations.RedirectedCyclesUseTheOverlay : Prop :=
  (∀ (s : State) (x : BusCycle) (m : MapId) (base : Addr), s.takesCycle → s.part.mpc.cycle = none →
    s.part.mpc.noRival →
    let r := classify x s.part
    r.treatment = .redirect m base →
    (x.op ≠ .read → s.part.reservedCycle x = false ∧ s.part.reserved (base.toNat + r.offset) = false ∧
      s.part.phc.phop.isHandingOver = false) →
    exec (.iPortCycle x) s =
      .next
        ⟨{ s.part with
            iport := { s.part.iport with cycle := some ⟨x, r, .redirected false⟩ }
            mpc :=
              { s.part.mpc with
                cycle :=
                  some
                    ⟨.fwd,
                      ⟨if x.op ≠ .read ∨ r.offset ∈ s.part.ovu.map m then base + BitVec.ofNat 20 r.offset else x.addr,
                        x.op⟩,
                      s.part.mpc.timeout⟩
                hold := some s.part.mpc.timeout
                alternation := .fwd } },
          s.pending⟩) ∧
  (∀ (s : State) (c : ICycle) (void : Bool) (m : MapId) (base : Addr) (p : MCycle) (w : Word), s.running →
    s.part.iport.cycle = some c → c.stage = .redirected void → c.record.treatment = .redirect m base →
    s.part.mpc.cycle = some p → p.client = .fwd → s.part.mpc.fwdWaiting = false → s.part.mpc.noRival →
    s.part.ovu.work ≠ .awaitWrite →
    (∃ d, exec (.memoryAnswer (.ok w)) s = .next ⟨d, s.pending⟩ ∧
      s.part.keepsOutside [.iport, .mpc, .ccl, .ovu] d ∧
      d.mpc = { s.part.mpc with cycle := none, hold := none } ∧ d.ccl.faults = s.part.ccl.faults ∧
      d.ccl.table = s.part.ccl.table ∧ d.ovu.fold = s.part.ovu.fold ∧ d.ovu.work = s.part.ovu.work ∧
      (c.cycle.op = .read → d.iport = ⟨none, some (.okRead w)⟩ ∧ d.ovu = s.part.ovu) ∧
      (∀ data, c.cycle.op = .write data →
        d.iport = ⟨none, some .okWrite⟩ ∧ (void = true → d.ovu = s.part.ovu) ∧
        (void = false → ∀ (n : MapId) (k : Nat),
          k ∈ d.ovu.map n ↔ k ∈ s.part.ovu.map n ∨ n = m ∧ k = c.record.offset))) ∧
    ∃ d, exec (.memoryAnswer .fault) s = .next ⟨d, s.pending⟩ ∧
      s.part.keepsOutside [.iport, .mpc, .ccl] d ∧ d.iport = ⟨none, some (.fault (some .memory))⟩ ∧
      d.ccl.faults = { s.part.ccl.faults with memory := min 4294967295 (s.part.ccl.faults.memory + 1) })

/-! ## The M-port (chapter 2) -/

/-- R29: which waiting client the arbiter grants when the port is free, what a grant does to the alternation record, and
that a client not granted goes on waiting. A run of it: a save's write ends OK, so INT waits with the next write, and
the port goes to the one of FWD and RST that the table names, or to INT; when the save is over, to MIR or to nobody. -/
def Obligations.ArbiterGrantsInTurn : Prop :=
  (∀ (s : State) (p : MCycle) (q : IntRequest) (image : List Word) (k : Nat) (w : Word) (c : ICycle), s.running →
    s.part.mpc.cycle = some p → p.client = .int → s.part.mpc.hold = none → s.part.mpc.intQueue = [q] →
    q.owner = .phc → s.part.phc.work = .writing image k → s.part.phc.phop = .saving →
    s.part.iport.cycle = some c → c.stage = .forward →
    let m := s.part.mpc
    let next : MRequest :=
      ⟨BitVec.ofNat 20 (0xFF000 - 0x1000 * s.part.straps.psel.toNat + (imageWrite image (k + 1)).1),
        .write (imageWrite image (k + 1)).2⟩
    ∃ d, exec (.memoryAnswer (.ok w)) s = .next ⟨d, s.pending⟩ ∧ s.part.keepsOutside [.mpc, .phc] d ∧
      (k < 3696 → m.fwdWaiting = true → m.rstWaiting = none ∨ m.alternation = .rst →
        d.mpc =
          { m with
            fwdWaiting := false, hold := some m.timeout, alternation := .fwd, intQueue := [⟨.phc, next⟩],
            cycle := some ⟨.fwd, ⟨c.cycle.addr, c.cycle.op⟩, m.timeout⟩ }) ∧
      (k < 3696 → ∀ r, m.rstWaiting = some r → m.fwdWaiting = false ∨ m.alternation = .fwd →
        d.mpc =
          { m with
            rstWaiting := none, alternation := .rst, intQueue := [⟨.phc, next⟩],
            cycle := some ⟨.rst, r, m.timeout⟩ }) ∧
      (k < 3696 → m.fwdWaiting = false → m.rstWaiting = none →
        d.mpc = { m with intQueue := [⟨.phc, next⟩], cycle := some ⟨.int, next, m.timeout⟩ }) ∧
      (k = 3696 → m.fwdWaiting = false → m.rstWaiting = none → ∀ r, m.mirWaiting = some r →
        d.mpc = { m with intQueue := [], mirWaiting := none, cycle := some ⟨.mir, r, m.timeout⟩ }) ∧
      (k = 3696 → m.fwdWaiting = false → m.rstWaiting = none → m.mirWaiting = none →
        d.mpc = { m with intQueue := [], cycle := none })) ∧
  ∀ m : Mpc,
    (m.fwdWaiting = true → m.rstWaiting ≠ none → m.alternation = .rst → m.choice = some .fwd) ∧
    (m.fwdWaiting = true → m.rstWaiting ≠ none → m.alternation = .fwd → m.choice = some .rst) ∧
    (m.fwdWaiting = true → m.rstWaiting = none → m.choice = some .fwd) ∧
    (m.fwdWaiting = false → m.rstWaiting ≠ none → m.choice = some .rst) ∧
    (m.fwdWaiting = false → m.rstWaiting = none → m.intQueue ≠ [] → m.choice = some .int) ∧
    (m.fwdWaiting = false → m.rstWaiting = none → m.intQueue = [] → m.mirWaiting ≠ none → m.choice = some .mir) ∧
    (m.fwdWaiting = false → m.rstWaiting = none → m.intQueue = [] → m.mirWaiting = none → m.choice = none) ∧
    ∀ d : Lc44, d.mpc = m → m.free = true →
      (m.choice = none → arbitrateOnce d = d) ∧
      (m.choice = some .fwd →
        arbitrateOnce d =
          presentStage { d with mpc := { m with fwdWaiting := false, hold := some m.timeout, alternation := .fwd } }) ∧
      (∀ r, m.rstWaiting = some r → m.choice = some .rst →
        arbitrateOnce d =
          { d with
            mpc := { m with rstWaiting := none, alternation := .rst, cycle := some ⟨.rst, r, m.timeout⟩ } }) ∧
      (∀ q rest, m.intQueue = q :: rest → m.choice = some .int →
        arbitrateOnce d = { d with mpc := { m with cycle := some ⟨.int, q.request, m.timeout⟩ } }) ∧
      (∀ r, m.mirWaiting = some r → m.choice = some .mir →
        arbitrateOnce d = { d with mpc := { m with mirWaiting := none, cycle := some ⟨.mir, r, m.timeout⟩ } })

/-- Every step keeps two laws: no request waits while the port is free; and the I-port, its hold and the fold stay in
step, CCL classifying by PHC's phase and SLI's mirror whenever no cycle is in progress. -/
def Obligations.PortAndIPortStayInStep : Prop :=
  (∀ s t : State, s.portLaw → step s = .next t → t.portLaw) ∧
  (∀ s t : State, s.stepLaw → step s = .next t → t.stepLaw)

/-- The laws of every moment hold at reset. -/
def Obligations.LawsHoldAtReset : Prop :=
  State.reset.portLaw ∧ State.reset.stepLaw ∧ State.reset.muteLaw ∧ State.reset.journalLaw ∧ State.reset.peakLaw ∧
    State.reset.mapLaw ∧ State.reset.logLaw ∧ State.reset.framesLaw

/-- A forwarded cycle on the port ends. On memory's OK the I-port is answered OK, with memory's data for a read; on
memory's FAULT or at the timeout, FAULT with cause MEMORY, and MPC counts the cycle and records it as the last
failure. The hold ends and the phase and mirror range reported meanwhile come into force; with nobody waiting nothing
else changes, but for what an accepted OBSERVE or MARK write reports (a statement of its own). An accepted write of a
MARK region raises its signal to TRU or ACU when every bit of the mask agrees and PHOP is not HANDING_OVER, and raises
nothing otherwise; an accepted write of an OBSERVE region is given to RCU. The I-port is answered OK all the same;
CCL, the I-port and the M-port apart, nothing else changes. -/
def Obligations.ForwardedCyclesAreAnswered : Prop :=
  (∀ (s : State) (c : ICycle) (p : MCycle), s.running → s.part.iport.cycle = some c → c.stage = .forward →
    s.part.mpc.cycle = some p → p.client = .fwd → s.part.mpc.fwdWaiting = false → s.part.mpc.noRival →
    s.part.ovu.work ≠ .awaitWrite →
    let synced : Ccl :=
      { s.part.ccl with
        phase := s.part.phc.phase
        mirror := if s.part.sli.mirrorEnabled then some s.part.sli.mirrorAddress else none }
    let freed : Mpc := { s.part.mpc with cycle := none, hold := none }
    let failed (f : MFailure) : Lc44 :=
      { s.part with
        iport := ⟨none, some (.fault (some .memory))⟩
        ccl := { synced with
          faults := { s.part.ccl.faults with memory := min 4294967295 (s.part.ccl.faults.memory + 1) } }
        mpc :=
          { freed with
            faults := if f = .fault then min 4294967295 (s.part.mpc.faults + 1) else s.part.mpc.faults
            timeouts := if f = .timeout then min 4294967295 (s.part.mpc.timeouts + 1) else s.part.mpc.timeouts
            lastFailure := some ⟨.fwd, none, p.request, f⟩ } }
    (∀ w, c.cycle.op = .read →
      exec (.memoryAnswer (.ok w)) s =
        .next ⟨{ s.part with iport := ⟨none, some (.okRead w)⟩, ccl := synced, mpc := freed }, s.pending⟩) ∧
    (∀ data w, c.cycle.op = .write data → (c.record.treatment = .pass ∨ c.record.treatment = .barred) →
      exec (.memoryAnswer (.ok w)) s =
        .next ⟨{ s.part with iport := ⟨none, some .okWrite⟩, ccl := synced, mpc := freed }, s.pending⟩) ∧
    exec (.memoryAnswer .fault) s = .next ⟨failed .fault, s.pending⟩ ∧
    exec .memoryTimeout s = .next ⟨failed .timeout, s.pending⟩) ∧
  (∀ (s : State) (c : ICycle) (p : MCycle) (data w : Word), s.running → s.part.iport.cycle = some c →
    c.stage = .forward → c.cycle.op = .write data → s.part.mpc.cycle = some p → p.client = .fwd →
    s.part.mpc.fwdWaiting = false → s.part.mpc.noRival → s.part.ovu.work ≠ .awaitWrite →
    let raised := s.part.raised
    let agrees (value mask : Word) : Prop :=
      (∀ i : Fin 16, mask.getLsbD i = true → data.getLsbD i = value.getLsbD i) ∧
        s.part.phc.phop.isHandingOver = false
    ∃ d, exec (.memoryAnswer (.ok w)) s = .next ⟨d, s.pending⟩ ∧
      s.part.keepsOutside [.iport, .mpc, .ccl, .raised] d ∧ d.iport = ⟨none, some .okWrite⟩ ∧
      d.mpc = { s.part.mpc with cycle := none, hold := none } ∧ d.ccl.faults = s.part.ccl.faults ∧
      d.ccl.table = s.part.ccl.table ∧
      (∀ value mask, c.record.treatment = .mark value mask .confirm → agrees value mask →
        d.raised = { raised with tru := raised.tru ++ [.confirm] }) ∧
      (∀ value mask, c.record.treatment = .mark value mask .abort → agrees value mask →
        d.raised = { raised with tru := raised.tru ++ [.abort] }) ∧
      (∀ value mask, c.record.treatment = .mark value mask .step → agrees value mask →
        d.raised = { raised with acu := raised.acu ++ [.step] }) ∧
      (∀ value mask signal, c.record.treatment = .mark value mask signal → ¬ agrees value mask →
        d.raised = raised) ∧
      (∀ first count stride, c.record.treatment = .observe first count stride →
        d.raised = { raised with rcu := raised.rcu ++ [⟨c.record.offset, first, count, stride, data⟩] }))

/-! ## The field guard (chapter 3) -/

/-- R37: a field is extracted as the bits from its offset up, unsigned or in two's complement; a value is inserted by
its lowest width bits at that place, the other bits kept; a value of the field's range comes back as it was put in. The
bounds and every correction of a loaded rule lie in the field's range; rules compare the extracted values. -/
def Obligations.FieldsAreExtractedAndInserted : Prop :=
  ∀ (f : Field) (w : Word), f.shapeOk = true →
    (f.signed = false → extract f w = (w.toNat / 2 ^ f.offset % 2 ^ f.width : Nat)) ∧
    (f.signed = true → w.getLsbD (f.offset + f.width - 1) = false →
      extract f w = (w.toNat / 2 ^ f.offset % 2 ^ f.width : Nat)) ∧
    (f.signed = true → w.getLsbD (f.offset + f.width - 1) = true →
      extract f w = (w.toNat / 2 ^ f.offset % 2 ^ f.width : Nat) - (2 ^ f.width : Nat)) ∧
    f.least ≤ extract f w ∧ extract f w ≤ f.greatest ∧
    (f.signed = false → f.least = 0 ∧ f.greatest = (2 ^ f.width : Nat) - 1) ∧
    (f.signed = true → f.least = -((2 ^ (f.width - 1) : Nat) : Int) ∧ f.greatest = (2 ^ (f.width - 1) : Nat) - 1) ∧
    (∀ (r : Rule) (m : Word) (muted : Bool), r.field = f → r.boundsOk = true →
      (∀ lo hi, r.kind = .range lo hi → f.least ≤ lo ∧ lo ≤ hi ∧ hi ≤ f.greatest ∧
        (r.violated (some m) muted w = true ↔ extract f w < lo ∨ hi < extract f w)) ∧
      (∀ lo hi step, r.kind = .step lo hi step → f.least ≤ lo ∧ lo ≤ hi ∧ hi ≤ f.greatest) ∧
      (r.kind = .frozen → (r.violated (some m) muted w = true ↔ extract f w ≠ extract f m)) ∧
      (r.violated (some m) muted w = true →
        f.least ≤ r.correction (some m) w ∧ r.correction (some m) w ≤ f.greatest)) ∧
    ∀ v : Int,
      (f.least ≤ v → v ≤ f.greatest → extract f (insertField f v w) = v) ∧
      (∀ i : Fin 16, (i.val < f.offset ∨ f.offset + f.width ≤ i.val) →
        (insertField f v w).getLsbD i = w.getLsbD i) ∧
      ∀ i : Nat, i < f.width → (insertField f v w).getLsbD (f.offset + i) = (BitVec.ofInt 16 v).getLsbD i

/-- R38: the violation each kind of rule finds in the value of its field. R39: on a violation the rule's index is
counted, saturating at 255, and its action applies: NOTE goes on with the working value, REFUSE ends and refuses, CLAMP
goes on with the correction inserted. The correction by kind; that of STEP is the largest allowed value not above the
value, or lo when there is none. -/
def Obligations.RulesFindAndCorrectViolations : Prop :=
  (∀ (r : Rule) (mem : Option Word) (muted : Bool) (w : Word),
    let v := extract r.field w
    (∀ lo hi, r.kind = .range lo hi → (r.violated mem muted w = true ↔ v < lo ∨ hi < v)) ∧
    (∀ lo hi step, r.kind = .step lo hi step →
      (r.violated mem muted w = true ↔ v < lo ∨ hi < v ∨ ¬ (step : Int) ∣ v - lo)) ∧
    (∀ m, r.kind = .frozen → mem = some m → (r.violated mem muted w = true ↔ v ≠ extract r.field m)) ∧
    (∀ lock, r.kind = .muteLock lock → (r.violated mem muted w = true ↔ muted = true ∧ v ≠ lock)) ∧
    (∀ lock, r.kind = .muteLock lock → muted = false → r.violated mem muted w = false)) ∧
  ((∀ (r : FixedRule) (rs : List FixedRule) (mem : Option Word) (muted : Bool) (w : Word),
    r.live = true → r.rule.violated mem muted w = true →
    let corrected := insertField r.rule.field (r.rule.correction mem w) w
    (r.rule.action = .note →
      applyRules mem muted (r :: rs) w =
        ⟨(applyRules mem muted rs w).working, r.index :: (applyRules mem muted rs w).hits,
          (applyRules mem muted rs w).refused⟩) ∧
    (r.rule.action = .refuse → applyRules mem muted (r :: rs) w = ⟨w, [r.index], true⟩) ∧
    (r.rule.action = .clamp →
      applyRules mem muted (r :: rs) w =
        ⟨(applyRules mem muted rs corrected).working, r.index :: (applyRules mem muted rs corrected).hits,
          (applyRules mem muted rs corrected).refused⟩)) ∧
  (∀ (hits : List (Fin 64)) (counts : Vector Nat 64) (i : Fin 64), hits.Nodup →
    (raiseCounts hits counts)[i] = if i ∈ hits then min 255 (counts[i] + 1) else counts[i]) ∧
  ∀ (r : Rule) (mem : Option Word) (w : Word),
    let v := extract r.field w
    let c := r.correction mem w
    (∀ lo hi, r.kind = .range lo hi → lo ≤ hi → (v < lo → c = lo) ∧ (hi < v → c = hi)) ∧
    (∀ lo hi step, r.kind = .step lo hi step → lo ≤ hi → 1 ≤ step →
      (v < lo → c = lo) ∧
      (lo ≤ v → c = lo + (min v hi - lo) / step * step ∧ lo ≤ c ∧ c ≤ hi ∧ c ≤ v ∧ (step : Int) ∣ c - lo ∧
        ∀ u, lo ≤ u → u ≤ hi → u ≤ v → (step : Int) ∣ u - lo → u ≤ c)) ∧
    (∀ m, r.kind = .frozen → mem = some m → c = extract r.field m) ∧
    (∀ lock, r.kind = .muteLock lock → c = lock))

/-- A guarded write taken with the trial IDLE and no FROZEN rule among those it fixes has its rules applied at once,
in ascending index order, to the data presented, under the TXMUTE of that moment. A REFUSE answers FAULT with cause
RULE; otherwise, the lock pass with the same TXMUTE done, the working value is presented to memory at the write's own
address. The violations found are counted either way; the port free and nobody waiting, nothing else changes. -/
def Obligations.GuardedWritesPassTheirRules : Prop :=
  ∀ (s : State) (x : BusCycle) (first count : Nat) (data : Word), s.takesCycle → s.part.mpc.cycle = none →
    s.part.mpc.noRival → s.part.tru.state = .idle → x.op = .write data → s.part.reservedCycle x = false →
    (classify x s.part).treatment = .guarded first count →
    let r := classify x s.part
    let rules := s.part.fgd.fixRules first count r.offset
    let result := applyRules none s.part.txmute rules data
    let counted := { s.part.fgd with counts := raiseCounts result.hits s.part.fgd.counts }
    (∀ q ∈ rules, q.rule.kind ≠ .frozen) →
    (∀ i : Fin 64, ∀ q, s.part.fgd.rules[i] = some q → first ≤ i.val → i.val < first + count → q.word = r.offset →
      ⟨i, q, true⟩ ∈ rules) ∧
    (∀ q ∈ rules, s.part.fgd.rules[q.index] = some q.rule ∧ first ≤ q.index.val ∧ q.index.val < first + count ∧
      q.rule.word = r.offset ∧ q.live = true) ∧
    (rules.map FixedRule.index).Pairwise (· < ·) ∧
    (result.refused = true →
      exec (.iPortCycle x) s =
        .next
          ⟨{ s.part with
              iport := ⟨none, some (.fault (some .rule))⟩
              fgd := counted
              ccl :=
                { s.part.ccl with
                  faults := { s.part.ccl.faults with rule := min 4294967295 (s.part.ccl.faults.rule + 1) } } },
            s.pending⟩) ∧
    (result.refused = false →
      let word := if s.part.txmute then reinsertLocks rules result.working else result.working
      exec (.iPortCycle x) s =
        .next
          ⟨{ s.part with
              iport :=
                { s.part.iport with
                  cycle := some ⟨x, r, .guardForward ⟨rules, false, false, none, word, s.part.txmute⟩⟩ }
              fgd := counted
              mpc :=
                { s.part.mpc with
                  cycle := some ⟨.fwd, ⟨x.addr, .write word⟩, s.part.mpc.timeout⟩
                  hold := some s.part.mpc.timeout
                  alternation := .fwd } },
            s.pending⟩)

/-- While TXMUTE is asserted, what the lock pass lets through carries the lock value in the field of every MUTE-LOCK
rule of the write, for rules as the table can hold them. -/
def Obligations.LockPassLeavesEveryLockValue : Prop :=
  ∀ (g : GuardSeq), (∀ r ∈ g.rules, r.rule.field.shapeOk = true ∧ r.rule.boundsOk = true) →
    (∀ r ∈ g.rules, ∀ q ∈ g.rules, r.rule.word = q.rule.word) →
    (∀ r ∈ g.rules, ∀ q ∈ g.rules, r.rule.lockConflict q.rule = false) →
    (lockPass true g).refused = false →
    ∀ r ∈ g.rules, ∀ lock, r.rule.kind = .muteLock lock → extract r.rule.field (lockPass true g).working = lock

/-- HELD_WRITE_RELEASE: a held guarded write resumes under the trial as it has settled, whatever the M-port carries. In
OPENING and CLOSING it stays held; in ROLLING_BACK a waiting address is answered FAULT with cause ROLLBACK, refused by
the trial. Otherwise its rules are fixed and its sequence goes on: journalled under OPEN, as a plain guarded write in
IDLE and, for an address that does not wait, in ROLLING_BACK. A new address of an open trial, or a FROZEN rule on the
word, requests the port for the pre-read; else the rules are applied at once, their violations counted, and the working
value requests the port for its forward, or a REFUSE answers FAULT with cause RULE. In IDLE with no rule and a port that
nobody uses, the write is presented as it came. -/
def Obligations.HeldWritesResumeWhenTheTrialSettles : Prop :=
  ∀ (s : State) (c : ICycle) (first count : Nat) (data : Word), s.running → s.part.iport.cycle = some c →
    c.stage = .held → c.record.treatment = .guarded first count → c.cycle.op = .write data →
    s.part.mpc.hold = none → s.part.mpc.fwdWaiting = false → s.part.mpc.settled →
    let tru := s.part.tru
    let waits := (waitingEntry tru.journal c.cycle.addr).isSome = true
    let faults := s.part.ccl.faults
    let goesOn (g : Stage) (fgd : Fgd) : Lc44 :=
      arbitrate
        { s.part with
          iport := { s.part.iport with cycle := some { c with stage := g } }
          mpc := { s.part.mpc with fwdWaiting := true }
          fgd := fgd }
    (tru.state = .opening ∨ tru.state = .closing → exec .heldWriteRelease s = .next s) ∧
    (tru.state = .rollingBack → waits → s.part.ovu.work ≠ .awaitWrite →
      ∃ d, exec .heldWriteRelease s = .next ⟨d, s.pending⟩ ∧ s.part.keepsOutside [.iport, .ccl, .tru] d ∧
        d.iport = ⟨none, some (.fault (some .rollback))⟩ ∧
        d.ccl.faults = { faults with rollback := min 4294967295 (faults.rollback + 1) } ∧
        d.tru =
          { tru with
            outcome := tru.outcome.map fun o => { o with refused := o.refused.map fun n => min 65535 (n + 1) } }) ∧
    (∀ journalled : Bool,
      (journalled = true ∧ tru.state = .open ∨
        journalled = false ∧ (tru.state = .idle ∨ tru.state = .rollingBack ∧ ¬ waits)) →
      let rules := s.part.fgd.fixRules first count c.record.offset
      let isNew := journalled && !(tru.journal.any fun e => decide (e.addr = c.cycle.addr))
      let result := applyRules none s.part.txmute rules data
      let counted : Fgd := { s.part.fgd with counts := raiseCounts result.hits s.part.fgd.counts }
      (isNew = true ∨ (∃ r ∈ rules, r.rule.kind = .frozen) →
        exec .heldWriteRelease s =
          .next ⟨goesOn (.preRead ⟨rules, journalled, isNew, none, data, false⟩) s.part.fgd, s.pending⟩) ∧
      (isNew = false → (∀ r ∈ rules, r.rule.kind ≠ .frozen) →
        (result.refused = false →
          exec .heldWriteRelease s =
            .next
              ⟨goesOn (.guardForward ⟨rules, journalled, false, none, result.working, s.part.txmute⟩) counted,
                s.pending⟩) ∧
        (result.refused = true → s.part.ovu.work ≠ .awaitWrite →
          ∃ d, exec .heldWriteRelease s = .next ⟨d, s.pending⟩ ∧ s.part.keepsOutside [.iport, .ccl, .fgd] d ∧
            d.iport = ⟨none, some (.fault (some .rule))⟩ ∧
            d.ccl.faults = { faults with rule := min 4294967295 (faults.rule + 1) } ∧ d.fgd = counted))) ∧
    (tru.state = .idle → s.part.fgd.fixRules first count c.record.offset = [] → s.part.mpc.cycle = none →
      s.part.mpc.noRival →
      exec .heldWriteRelease s =
        .next
          ⟨{ s.part with
              iport :=
                { s.part.iport with
                  cycle :=
                    some { c with stage := .guardForward ⟨[], false, false, none, data, s.part.txmute⟩ } }
              mpc :=
                { s.part.mpc with
                  cycle := some ⟨.fwd, ⟨c.cycle.addr, .write data⟩, s.part.mpc.timeout⟩
                  hold := some s.part.mpc.timeout
                  alternation := .fwd } },
            s.pending⟩)

/-! ## Trials (chapter 4) -/

/-- The journal holds at most 48 entries, no two with the same word address: every step keeps this. -/
def Obligations.JournalStaysWithin48DistinctAddresses : Prop :=
  ∀ s t : State, s.journalLaw → step s = .next t → t.journalLaw

/-- A pre-read of a new address ended OK with no rule on the word: with 48 entries the write is answered FAULT with
cause JOURNAL_FULL; with room its write-ahead begins. The write-ahead writes the three words of record slot n and the
count n + 1 in that order under the hold, each under the memory timeout of the hold's grant, each OK leading to the
next; after the count the entry is appended with the pre-image, and (TXMUTE clear) the working value is forwarded. A
memory FAULT answers FAULT with cause JOURNAL_WRITE, refused by the trial, and creates no entry. -/
def Obligations.NewAddressesAreWrittenAhead : Prop :=
  (∀ (s : State) (c : ICycle) (g : GuardSeq) (p : MCycle) (granted : Nat) (pre : Word), s.running →
    s.part.iport.cycle = some c → c.stage = .preRead g → g.isNew = true → g.rules = [] →
    s.part.mpc.cycle = some p → p.client = .fwd → s.part.mpc.hold = some granted →
    let n := s.part.tru.journal.length
    (48 ≤ n →
      ∃ d, exec (.memoryAnswer (.ok pre)) s = .next ⟨d, s.pending⟩ ∧
        d.iport = ⟨none, some (.fault (some .journalFull))⟩ ∧
        d.ccl.faults.journalFull = min 4294967295 (s.part.ccl.faults.journalFull + 1) ∧
        d.tru.journal.length = n) ∧
    (n < 48 →
      exec (.memoryAnswer (.ok pre)) s =
        .next
          ⟨{ s.part with
              iport :=
                { s.part.iport with
                  cycle :=
                    some
                      { c with
                        stage := .writeAhead { g with memWord := some pre, sample := s.part.txmute } 0 } }
              mpc :=
                { s.part.mpc with
                  cycle :=
                    some
                      ⟨.fwd,
                        ⟨BitVec.ofNat 20 (0xFF000 - 0x1000 * s.part.straps.psel.toNat + (0x012 + 3 * n)),
                          .write (BitVec.ofNat 16 c.cycle.addr.toNat)⟩,
                        granted⟩ } },
            s.pending⟩)) ∧
  ∀ (s : State) (c : ICycle) (g : GuardSeq) (k : Nat) (p : MCycle) (granted : Nat) (i : Fin 16) (pre w : Word),
    s.running →
    s.part.iport.cycle = some c → c.stage = .writeAhead g k → c.record.index = some i → g.memWord = some pre →
    s.part.mpc.cycle = some p → p.client = .fwd → s.part.mpc.hold = some granted →
    let n := s.part.tru.journal.length
    let base := 0xFF000 - 0x1000 * s.part.straps.psel.toNat
    let word (j : Nat) : MRequest :=
      match j with
      | 1 =>
        ⟨BitVec.ofNat 20 (base + (0x012 + 3 * n + 1)),
          .write (BitVec.ofNat 16 (c.cycle.addr.toNat / 65536 + i.val * 16))⟩
      | 2 => ⟨BitVec.ofNat 20 (base + (0x012 + 3 * n + 2)), .write pre⟩
      | _ => ⟨BitVec.ofNat 20 (base + 0x011), .write (BitVec.ofNat 16 (n + 1))⟩
    (k < 3 →
      exec (.memoryAnswer (.ok w)) s =
        .next
          ⟨{ s.part with
              iport := { s.part.iport with cycle := some { c with stage := .writeAhead g (k + 1) } }
              mpc := { s.part.mpc with cycle := some ⟨.fwd, word (k + 1), granted⟩ } },
            s.pending⟩) ∧
    (k = 3 → s.part.txmute = false →
      exec (.memoryAnswer (.ok w)) s =
        .next
          ⟨{ s.part with
              iport := { s.part.iport with cycle := some { c with stage := .guardForward g } }
              tru :=
                { s.part.tru with
                  journal := s.part.tru.journal ++ [⟨c.cycle.addr, pre, i, 0, pre, .none⟩] }
              mpc :=
                { s.part.mpc with
                  cycle := some ⟨.fwd, ⟨c.cycle.addr, .write g.working⟩, granted⟩ } },
            s.pending⟩) ∧
    (∃ d, exec (.memoryAnswer .fault) s = .next ⟨d, s.pending⟩ ∧
      d.iport = ⟨none, some (.fault (some .journalWrite))⟩ ∧
      d.ccl.faults.journalWrite = min 4294967295 (s.part.ccl.faults.journalWrite + 1) ∧
      d.tru.journal.map JournalEntry.addr = s.part.tru.journal.map JournalEntry.addr ∧
      (s.part.tru.due = none →
        d.tru.outcome.map TrialOutcome.refused =
          s.part.tru.outcome.map fun o => o.refused.map fun n => min 65535 (n + 1)))

/-- A TRIAL-OPEN that passes its checks puts the trial in OPENING. With the stale flag clear it raises the number (from
255 to 1), empties the journal and begins a new outcome record (at the take, also with a sequence in flight: the model's
reading, log 22), and the first word is the count word 0; with the flag set the first word is the state word CLOSED with
the number as it is. The first word is requested at once, or waits for a sequence in flight. Each header word OK leads
to the next: the stale rewrite's state word to its count word; that to the flag cleared, the new number and the count
word; the count word to the state word OPEN; and that opens the trial: the timer is loaded, the watch mask taken, the
opened counter raised, the request answered OK with the number, and the entry check made (R61): the lowest watched
carrier that is STALE or has a loss run of 3 or more rolls the trial back with cause LOSS. A word that fails is
requested once more; failed twice it returns the trial to IDLE, answered NOMEM, the result OPEN_FAILED for a word of the
open itself, and number, record and flag as they were for one of the stale rewrite. -/
def Obligations.TrialOpenWritesTheHeaderAndOpens : Prop :=
  let renewed (t : Tru) : Tru :=
    let number := if t.number < 255 then t.number + 1 else 1
    { t with number := number, journal := [], outcome := some (TrialOutcome.fresh number) }
  (∀ (s : State) (body : List Byte), s.takes .trialOpen body → s.part.tru.state = .idle →
    (u16At body 0 = 0 ∨ 10 ≤ u16At body 0 ∧ u16At body 0 ≤ 3600) → byteAt body 2 ≤ 15 →
    (∀ c : Carrier, (byteAt body 2).testBit c.val = true →
      (s.part.rcu.records.get c).settings.enabled = true ∧ (s.part.rcu.records.get c).state = .track ∧
        (s.part.rcu.records.get c).lossRun < 3) →
    let stale := s.part.tru.stale
    let waits := s.part.iport.inFlight
    let ticks := (if u16At body 0 = 0 then 300 else u16At body 0) * 1000
    let first : HeaderStep := if stale then .staleState else .openCount
    let word : MRequest :=
      if stale then s.part.profileWrite 0x010 (s.part.tru.number * 256) else s.part.profileWrite 0x011 0
    exec (.trialOpen body) s =
      .next
        ⟨arbitrate
            { s.part.takeInHand .trialOpen body with
              tru :=
                { (if stale then s.part.tru else renewed s.part.tru) with
                  state := .opening
                  openRequest := some ⟨ticks, maskCarriers (byteAt body 2)⟩
                  work := if waits then .awaitSequence first else .header first false false }
              mpc := if waits then s.part.mpc else s.part.mpc.queuesTru word },
          s.pending⟩) ∧
  ∀ (s : State) (p : MCycle) (retry timedOut : Bool) (w : Word),
    let tru := s.part.tru
    let count := s.part.profileWrite 0x011 0
    let asks (t : Tru) (step : HeaderStep) (word : MRequest) : Lc44 :=
      arbitrate
        { s.part with tru := { t with work := .header step false false }, mpc := s.part.mpc.intEnded.queuesTru word }
    (s.writesHeader .staleState retry timedOut p →
      exec (.memoryAnswer (.ok w)) s = .next ⟨asks tru .staleCount count, s.pending⟩) ∧
    (s.writesHeader .staleCount retry timedOut p →
      exec (.memoryAnswer (.ok w)) s =
        .next ⟨asks (renewed { tru with stale := false }) .openCount count, s.pending⟩) ∧
    (s.writesHeader .openCount retry timedOut p →
      exec (.memoryAnswer (.ok w)) s =
        .next ⟨asks tru .openState (s.part.profileWrite 0x010 (tru.number * 256 + 1)), s.pending⟩) ∧
    (∀ o : OpenRequest, s.writesHeader .openState retry timedOut p → tru.openRequest = some o →
      s.part.sli.inHand = some Req.trialOpen.code →
      let opened : Lc44 :=
        { s.part with
          tru :=
            { tru with
              state := .open
              timer := some o.ticks
              watch := o.watch
              opened := min 65535 (tru.opened + 1)
              work := .idle
              openRequest := none
              openTicks := 0 }
          sli := s.part.sli.sends [response .trialOpen .ok [BitVec.ofNat 8 tru.number]]
          mpc := s.part.mpc.intEnded }
      exec (.memoryAnswer (.ok w)) s = .next ⟨arbitrate opened.checkedAtEntry, s.pending⟩ ∧
      ((∀ c : Carrier, o.watch.get c = true → (s.part.rcu.records.get c).lost = false) →
        exec (.memoryAnswer (.ok w)) s = .next ⟨arbitrate opened, s.pending⟩)) ∧
    ∀ (f : MFailure) (step : HeaderStep) (word : MRequest),
      (step, word) ∈
        [(.staleState, s.part.profileWrite 0x010 (tru.number * 256)), (.staleCount, count), (.openCount, count),
          (.openState, s.part.profileWrite 0x010 (tru.number * 256 + 1))] →
      let failed := s.part.mpc.intEnded.failing p (some .tru) f
      (s.writesHeader step false timedOut p →
        exec f.command s =
          .next
            ⟨arbitrate
                { s.part with
                  tru := { tru with work := .header step true (timedOut || decide (f = .timeout)) }
                  mpc := failed.queuesTru word },
              s.pending⟩) ∧
      (s.writesHeader step true timedOut p → s.part.sli.inHand = some Req.trialOpen.code →
        exec f.command s =
          .next
            ⟨arbitrate
                { s.part with
                  tru :=
                    { tru with
                      state := .idle
                      work := .idle
                      openRequest := none
                      outcome :=
                        if step = .staleState ∨ step = .staleCount then tru.outcome
                        else tru.outcome.map fun o => { o with result := some .openFailed } }
                  sli := s.part.sli.sends [response .trialOpen .noMem []]
                  mpc := failed },
              s.pending⟩)

/-- A confirm taken while the trial is OPEN with no rollback due, by TRIAL-CONFIRM or a MARK: the trial is CLOSING,
the timer goes on, and the state word CLOSED with the trial number is requested, or waits for a sequence in flight. -/
def Obligations.ConfirmsBeginTheClose : Prop :=
  ∀ (s : State) (body : List Byte), s.running → s.part.tru.state = .open → s.part.tru.due = none →
    let closed : MRequest :=
      ⟨BitVec.ofNat 20 (0xFF000 - 0x1000 * s.part.straps.psel.toNat + 0x010),
        .write (BitVec.ofNat 16 (s.part.tru.number * 256))⟩
    let closing (from_ : CloseSource) : Tru :=
      { s.part.tru with
        state := .closing
        closeSource := some from_
        work := if s.part.iport.inFlight then .awaitSequence .closeState else .header .closeState false false }
    let queued : Mpc :=
      if s.part.iport.inFlight then s.part.mpc
      else { s.part.mpc with intQueue := s.part.mpc.intQueue ++ [⟨.tru, closed⟩] }
    (s.takes .trialConfirm body →
      exec (.trialConfirm body) s =
        .next
          ⟨arbitrate { s.part.takeInHand .trialConfirm body with tru := closing .service, mpc := queued },
            s.pending⟩) ∧
    exec .markConfirm s =
      .next
        ⟨arbitrate
            { s.part with
              tru := closing .mark
              mpc := queued
              raised := { s.part.raised with tru := s.part.raised.tru.erase .confirm } },
          s.pending⟩

/-- The five causes of a rollback taken with the trial OPEN, none due and no sequence in flight: a MARK abort,
TRIAL-ABORT, the timer's expiry, a capture of a watched carrier with a loss run of 3 or more, and its going stale. The
timer stops, cause, loss carrier and entries are recorded, every entry waits, the trial is ROLLING_BACK, ACU is told,
and the newest entry's pre-image is requested for its address, or with an empty journal the state word CLOSED. A
TRIAL-ABORT is answered OK. The same causes taken while a guarded-write sequence is in flight make the rollback due: the
cause, and for LOSS the carrier, are recorded, the timer stops, and the trial stays OPEN. An expiry is taken when the
timer has counted down to 0 (log 1), a notice when no other notice of its carrier waits in front of it; behind one it
changes nothing (R109; log 2). -/
def Obligations.RollbackCausesAreTakenInOpen : Prop :=
  (∀ s : State,
    (∀ n, inOrder TruEvent.about (.capture n) s.part.raised.tru = false → exec (.truCaptureNotice n) s = .next s) ∧
    ∀ c, inOrder TruEvent.about (.stale c) s.part.raised.tru = false → exec (.truStaleNotice c) s = .next s) ∧
  (∀ s : State, s.running → s.part.tru.state = .open → s.part.tru.due = none → s.part.iport.inFlight = false →
    let started (cause : EndCause) (carrier : Option Carrier) (d : Lc44) : Lc44 :=
      arbitrate (d.rollbackStarted cause carrier)
    let taken (x : TruEvent) : Lc44 :=
      { s.part with raised := { s.part.raised with tru := s.part.raised.tru.erase x } }
    (s.part.sli.inHand ≠ some Req.trialAbort.code →
      exec .markAbort s = .next ⟨started .abortedMark none (taken .abort), s.pending⟩ ∧
      (s.part.tru.timer = some 0 →
        exec .trialTimerExpiry s = .next ⟨started .expired none s.part, s.pending⟩) ∧
      (∀ n : CaptureNotice, inOrder TruEvent.about (.capture n) s.part.raised.tru →
        s.part.tru.watch.get n.carrier = true → 3 ≤ n.lossRun →
        exec (.truCaptureNotice n) s = .next ⟨started .loss (some n.carrier) (taken (.capture n)), s.pending⟩) ∧
      (∀ c : Carrier, inOrder TruEvent.about (.stale c) s.part.raised.tru → s.part.tru.watch.get c = true →
        exec (.truStaleNotice c) s = .next ⟨started .loss (some c) (taken (.stale c)), s.pending⟩)) ∧
    ∀ body, s.takes .trialAbort body →
      exec (.trialAbort body) s =
        .next ⟨started .abortedService none (s.part.reply .trialAbort body .ok []), s.pending⟩) ∧
  (∀ (s : State), s.running → s.part.tru.state = .open → s.part.tru.due = none → s.part.iport.inFlight = true →
    s.part.mpc.settled →
    let due (cause : EndCause) (carrier : Option Carrier) : Tru :=
      { s.part.tru with due := some ⟨cause, carrier⟩, timer := none }
    let taken (x : TruEvent) : Raised := { s.part.raised with tru := s.part.raised.tru.erase x }
    exec .markAbort s =
      .next ⟨{ s.part with tru := due .abortedMark none, raised := taken .abort }, s.pending⟩ ∧
    (s.part.tru.timer = some 0 →
      exec .trialTimerExpiry s = .next ⟨{ s.part with tru := due .expired none }, s.pending⟩) ∧
    (∀ n : CaptureNotice, inOrder TruEvent.about (.capture n) s.part.raised.tru →
      s.part.tru.watch.get n.carrier = true → 3 ≤ n.lossRun →
      exec (.truCaptureNotice n) s =
        .next ⟨{ s.part with tru := due .loss (some n.carrier), raised := taken (.capture n) }, s.pending⟩) ∧
    (∀ c : Carrier, inOrder TruEvent.about (.stale c) s.part.raised.tru → s.part.tru.watch.get c = true →
      exec (.truStaleNotice c) s =
        .next ⟨{ s.part with tru := due .loss (some c), raised := taken (.stale c) }, s.pending⟩) ∧
    ∀ body, s.takes .trialAbort body →
      exec (.trialAbort body) s =
        .next ⟨{ s.part.takeInHand .trialAbort body with tru := due .abortedService none }, s.pending⟩)

/-- Outside OPEN without a rollback due: a MARK confirm or abort is ignored and counted; TRIAL-CONFIRM is answered
BADSTATE in IDLE, BUSY in OPENING and CLOSING, TOOLATE with a rollback due or in ROLLING_BACK; TRIAL-ABORT BADSTATE in
IDLE and BUSY otherwise; a notice to TRU, taken in its order (log 2), changes nothing but that it is taken, and an
expiry in CLOSING, with the timer counted down to 0 (log 1), is held. -/
def Obligations.EventsOutsideAnOpenTrial : Prop :=
  ∀ (s : State) (body : List Byte), s.running → (s.part.tru.state ≠ .open ∨ s.part.tru.due ≠ none) →
    s.part.mpc.settled →
    let ignored := { s.part.tru with ignoredMarks := min 65535 (s.part.tru.ignoredMarks + 1) }
    let taken (x : TruEvent) : Raised := { s.part.raised with tru := s.part.raised.tru.erase x }
    let confirm : Status :=
      match s.part.tru.state with
      | .idle => .badState
      | .opening | .closing => .busy
      | .open | .rollingBack => .tooLate
    exec .markConfirm s = .next ⟨{ s.part with tru := ignored, raised := taken .confirm }, s.pending⟩ ∧
    exec .markAbort s = .next ⟨{ s.part with tru := ignored, raised := taken .abort }, s.pending⟩ ∧
    (s.takes .trialConfirm body →
      exec (.trialConfirm body) s = .next ⟨s.part.reply .trialConfirm body confirm [], s.pending⟩) ∧
    (s.takes .trialAbort body →
      exec (.trialAbort body) s =
        .next
          ⟨s.part.reply .trialAbort body (if s.part.tru.state = .idle then .badState else .busy) [], s.pending⟩) ∧
    (∀ n : CaptureNotice, inOrder TruEvent.about (.capture n) s.part.raised.tru →
      exec (.truCaptureNotice n) s = .next ⟨{ s.part with raised := taken (.capture n) }, s.pending⟩) ∧
    (∀ c : Carrier, inOrder TruEvent.about (.stale c) s.part.raised.tru →
      exec (.truStaleNotice c) s = .next ⟨{ s.part with raised := taken (.stale c) }, s.pending⟩) ∧
    (s.part.tru.state = .closing → s.part.tru.timer = some 0 →
      exec .trialTimerExpiry s = .next ⟨{ s.part with tru := { s.part.tru with expiryHeld := true } }, s.pending⟩)

/-- TRIAL-EXTEND: BADARG for a time of 0 to 9 or above 3,600 s in every state; with the trial OPEN and no rollback due
the timer is reloaded; TOOLATE with a rollback due or in ROLLING_BACK; BADSTATE in IDLE, OPENING and CLOSING. While the
timer has ticks left, as after an extend, or is stopped, an expiry does not happen (R62; log 1). -/
def Obligations.TrialExtendReloadsTheTimer : Prop :=
  (∀ s : State, s.part.tru.timer ≠ some 0 → exec .trialTimerExpiry s = .next s) ∧
  ∀ (s : State) (body : List Byte), s.takes .trialExtend body →
    let seconds := u16At body 0
    (seconds < 10 ∨ 3600 < seconds →
      exec (.trialExtend body) s = .next ⟨s.part.reply .trialExtend body .badArg [], s.pending⟩) ∧
    (10 ≤ seconds → seconds ≤ 3600 →
      (s.part.tru.state = .open → s.part.tru.due = none →
        exec (.trialExtend body) s =
          .next
            ⟨{ s.part.reply .trialExtend body .ok [] with
                tru := { s.part.tru with timer := some (seconds * 1000) } },
              s.pending⟩) ∧
      (s.part.tru.state = .rollingBack ∨ s.part.tru.state = .open ∧ s.part.tru.due ≠ none →
        exec (.trialExtend body) s = .next ⟨s.part.reply .trialExtend body .tooLate [], s.pending⟩) ∧
      (s.part.tru.state = .idle ∨ s.part.tru.state = .opening ∨ s.part.tru.state = .closing →
        exec (.trialExtend body) s = .next ⟨s.part.reply .trialExtend body .badState [], s.pending⟩))

/-- The restore engine at the end of the restore of the newest waiting entry: on OK the entry leaves the journal; at a
first memory FAULT the same write is requested once more; at the second the entry stays, UNRESTORED. Unless it is
retried, the newest entry still waiting is then requested, or the state word CLOSED when none is. -/
def Obligations.RestoresGoNewestFirstWithOneRetry : Prop :=
  ∀ (s : State) (p : MCycle) (older newer : List JournalEntry) (e : JournalEntry) (retry : Bool) (w : Word),
    s.running → s.part.mpc.cycle = some p → p.client = .rst → s.part.tru.work = .restore retry →
    s.part.tru.journal = older ++ e :: newer → e.mark = .waiting → (∀ x ∈ newer, x.mark ≠ .waiting) →
    (s.part.tru.journal.map JournalEntry.addr).Nodup →
    let next (j : List JournalEntry) (m : Mpc) : Lc44 :=
      match (older.reverse.find? fun x => decide (x.mark = .waiting)) with
      | some x =>
        { s.part with
          tru := { s.part.tru with journal := j, work := .restore false }
          mpc := { m with cycle := none, rstWaiting := some ⟨x.addr, .write x.preImage⟩ } }
      | none =>
        { s.part with
          tru := { s.part.tru with journal := j, work := .header .endState false false }
          mpc :=
            { m with
              cycle := none
              intQueue := m.intQueue ++
                [⟨.tru, ⟨BitVec.ofNat 20 (0xFF000 - 0x1000 * s.part.straps.psel.toNat + 0x010),
                  .write (BitVec.ofNat 16 (s.part.tru.number * 256))⟩⟩] } }
    let counted : Mpc :=
      { s.part.mpc with
        faults := min 4294967295 (s.part.mpc.faults + 1)
        lastFailure := some ⟨.rst, none, p.request, .fault⟩ }
    exec (.memoryAnswer (.ok w)) s = .next ⟨arbitrate (next (older ++ newer) s.part.mpc), s.pending⟩ ∧
    (retry = false →
      exec (.memoryAnswer .fault) s =
        .next
          ⟨arbitrate
              { s.part with
                tru := { s.part.tru with work := .restore true }
                mpc := { counted with cycle := none, rstWaiting := some ⟨e.addr, .write e.preImage⟩ } },
            s.pending⟩) ∧
    (retry = true →
      exec (.memoryAnswer .fault) s =
        .next ⟨arbitrate (next (older ++ { e with mark := .unrestored } :: newer) counted), s.pending⟩)

/-- How a trial ends. The state word of a close is written: the timer stops, the journal is emptied, the result is
CONFIRMED with its cause, the confirmed counter rises, a TRIAL-CONFIRM is answered OK, and the count word is requested;
the count word, OK or failed twice, ends the close in IDLE. The state word failed twice, an attempt of it TIMEOUT: the
close succeeds so without the count word, the stale flag is set (R80), IDLE. Failed twice, both FAULT (R65): the trial
is OPEN again, journal and timer as they stand, a TRIAL-CONFIRM answered NOMEM or the confirm failures of a MARK
counted; an expiry held is then taken with cause EXPIRED, else the entry check made (R61). At a rollback's end the state
word CLOSED, written, leads to the count word; that, OK or failed twice, ends the rollback, as does the state word
failed twice, which sets the stale flag: the unrestored addresses are recorded, oldest first, the journal is emptied,
the result is ROLLED_BACK or PARTIAL, the rolled-back counter rises, IDLE. Every word that fails is requested once more.
In IDLE the seconds open are recorded, counted as the model reads R82 (log 24). -/
def Obligations.HeaderWritesEndTheTrial : Prop :=
  ∀ (s : State) (p : MCycle) (retry timedOut : Bool) (w : Word),
    let tru := s.part.tru
    let closed := s.part.profileWrite 0x010 (tru.number * 256)
    let count := s.part.profileWrite 0x011 0
    let freed := s.part.mpc.intEnded
    let failed (f : MFailure) : Mpc := freed.failing p (some .tru) f
    let idle (t : Tru) : Tru :=
      { t with
        state := .idle
        timer := none
        due := none
        work := .idle
        closeSource := none
        openTicks := 0
        outcome := t.outcome.map fun o => { o with secondsOpen := some (min 65535 (t.openTicks / 1000)) } }
    let confirmed (source : CloseSource) : Tru :=
      { tru with
        timer := none
        expiryHeld := false
        journal := []
        confirmed := min 65535 (tru.confirmed + 1)
        outcome := tru.outcome.map fun o =>
          { o with
            entriesAtEnd := some tru.journal.length
            restored := some 0
            result := some .confirmed
            cause := some (if source = .service then .confirmedService else .confirmedMark) } }
    let answered (source : CloseSource) (status : Status) : Lc44 :=
      if source = .service then s.part.answerInHand .trialConfirm status [] else s.part
    let rolledBack (t : Tru) : Tru :=
      let lost := (t.journal.filter fun e => decide (e.mark = .unrestored)).map JournalEntry.addr
      idle
        { t with
          journal := []
          rolledBack := min 65535 (t.rolledBack + 1)
          outcome := t.outcome.map fun o =>
            { o with
              unrestored := lost
              restored := o.entriesAtEnd.map (· - lost.length)
              result := some (if lost = [] then .rolledBack else .partly) } }
    (∀ source : CloseSource, s.writesHeader .closeState retry timedOut p → tru.closeSource = some source →
      (source = .service → s.part.sli.inHand = some Req.trialConfirm.code) →
      (source = .mark → s.part.sli.inHand ≠ some Req.trialAbort.code) →
      exec (.memoryAnswer (.ok w)) s =
        .next
          ⟨arbitrate
              { answered source .ok with
                tru := { confirmed source with work := .header .closeCount false false }
                mpc := freed.queuesTru count },
            s.pending⟩ ∧
      ∀ f : MFailure, retry = true →
        (timedOut = true ∨ f = .timeout →
          exec f.command s =
            .next
              ⟨arbitrate
                  { answered source .ok with
                    tru := idle { confirmed source with stale := true }
                    mpc := failed f },
                s.pending⟩) ∧
        (timedOut = false → f = .fault →
          let reopened : Lc44 :=
            { answered source .noMem with
              tru :=
                { tru with
                  state := .open
                  work := .idle
                  closeSource := none
                  expiryHeld := false
                  outcome :=
                    if source = .service then tru.outcome
                    else tru.outcome.map fun o =>
                      { o with confirmFailures := o.confirmFailures.map fun n => min 255 (n + 1) } }
              mpc := failed f }
          exec f.command s =
            .next
              ⟨arbitrate
                  (if tru.expiryHeld then reopened.causeTaken .expired none else reopened.checkedAtEntry),
                s.pending⟩)) ∧
    (s.writesHeader .closeCount retry timedOut p →
      exec (.memoryAnswer (.ok w)) s = .next ⟨arbitrate { s.part with tru := idle tru, mpc := freed }, s.pending⟩ ∧
      ∀ f : MFailure, retry = true →
        exec f.command s = .next ⟨arbitrate { s.part with tru := idle tru, mpc := failed f }, s.pending⟩) ∧
    (s.writesHeader .endState retry timedOut p →
      exec (.memoryAnswer (.ok w)) s =
        .next
          ⟨arbitrate
              { s.part with
                tru := { tru with work := .header .endCount false false }
                mpc := freed.queuesTru count },
            s.pending⟩ ∧
      ∀ f : MFailure, retry = true →
        exec f.command s =
          .next
            ⟨arbitrate { s.part with tru := rolledBack { tru with stale := true }, mpc := failed f }, s.pending⟩) ∧
    (s.writesHeader .endCount retry timedOut p →
      exec (.memoryAnswer (.ok w)) s =
        .next ⟨arbitrate { s.part with tru := rolledBack tru, mpc := freed }, s.pending⟩ ∧
      ∀ f : MFailure, retry = true →
        exec f.command s = .next ⟨arbitrate { s.part with tru := rolledBack tru, mpc := failed f }, s.pending⟩) ∧
    ∀ (f : MFailure) (step : HeaderStep) (word : MRequest),
      (step, word) ∈ [(.closeState, closed), (.closeCount, count), (.endState, closed), (.endCount, count)] →
      s.writesHeader step false timedOut p →
      exec f.command s =
        .next
          ⟨arbitrate
              { s.part with
                tru := { tru with work := .header step true (timedOut || decide (f = .timeout)) }
                mpc := (failed f).queuesTru word },
            s.pending⟩

/-! ## Overlay and handover (chapters 5 and 9) -/

/-- OVERLAY-DISCARD (R92): refused BADPHASE in TRANSPARENT and SERVICE, BUSY while PHOP is SAVING or HANDING_OVER, and
BADARG for a selector above 2; otherwise the named maps are cleared, a redirected write in progress to one of them is
void, and the answer carries the set count of each named map before the clear. Nothing else changes. -/
def Obligations.OverlayDiscardClearsTheNamedMaps : Prop :=
  requestFilter .commissioning .none .overlayDiscard = none ∧
  requestFilter .transparent .none .overlayDiscard = some .badPhase ∧
  requestFilter .service .none .overlayDiscard = some .badPhase ∧
  (∀ phase, requestFilter phase .saving .overlayDiscard = some .busy) ∧
  (∀ phase step, requestFilter phase (.handingOver step) .overlayDiscard = some .busy) ∧
  (∀ (s : State) (body : List Byte), s.running → s.part.deaf = false → s.part.sli.inHand = none →
    ∀ status, requestFilter s.part.phc.phase s.part.phc.phop .overlayDiscard = some status →
      exec (.overlayDiscard body) s = .next ⟨s.part.reply .overlayDiscard body status [], s.pending⟩) ∧
  ∀ (s : State) (body : List Byte), s.takes .overlayDiscard body →
    let n0 := s.part.ovu.map0.length
    let n1 := s.part.ovu.map1.length
    let count (n : Nat) : List Byte := [BitVec.ofNat 8 (n / 256), BitVec.ofNat 8 n]
    let cleared (zero one : Bool) (data : List Byte) : Lc44 :=
      { s.part.reply .overlayDiscard body .ok data with
        ovu :=
          { s.part.ovu with
            map0 := if zero then [] else s.part.ovu.map0
            map1 := if one then [] else s.part.ovu.map1 }
        iport :=
          { s.part.iport with
            cycle := s.part.iport.cycle.map fun c =>
              match c.stage, c.cycle.op, c.record.treatment with
              | .redirected _, .write _, .redirect .map0 _ =>
                if zero then { c with stage := .redirected true } else c
              | .redirected _, .write _, .redirect .map1 _ =>
                if one then { c with stage := .redirected true } else c
              | _, _, _ => c } }
    (byteAt body 0 = 0 → exec (.overlayDiscard body) s = .next ⟨cleared true false (count n0), s.pending⟩) ∧
    (byteAt body 0 = 1 → exec (.overlayDiscard body) s = .next ⟨cleared false true (count n1), s.pending⟩) ∧
    (byteAt body 0 = 2 → exec (.overlayDiscard body) s = .next ⟨cleared true true (count n0 ++ count n1), s.pending⟩) ∧
    (2 < byteAt body 0 →
      exec (.overlayDiscard body) s = .next ⟨s.part.reply .overlayDiscard body .badArg [], s.pending⟩)

/-- A presence map lists its set offsets in strictly rising order; each is an offset of the one Region Table entry
that references the map: every step keeps this. -/
def Obligations.PresenceFlagsBelongToTheirEntry : Prop :=
  ∀ s t : State, s.mapLaw → step s = .next t → t.mapLaw

/-- HANDOVER: the readiness conditions that fail make the reason set, bit by bit; with one failing it is refused
NOTREADY with the reason set and the enabled carriers whose verdict is not MAIN, and nothing else changes. With none
failing it is ACCEPTED: PHOP is HANDING_OVER in FOLD, the operation record is begun, the fold record is RUNNING, and
the fold begins. -/
def Obligations.HandoverNeedsReadiness : Prop :=
  ∀ (s : State) (body : List Byte), s.takes .handover body → s.part.mpc.settled →
    let enabled (c : Carrier) : Prop := (s.part.rcu.records.get c).settings.enabled = true
    let reasons := s.part.notReady
    reasons < 128 ∧
    (reasons.testBit 0 = true ↔ s.part.tru.state ≠ .idle) ∧
    (reasons.testBit 1 = true ↔ s.part.tru.stale = true) ∧
    (reasons.testBit 2 = true ↔ s.part.acu.runState ≠ .idle) ∧
    (reasons.testBit 3 = true ↔
      s.part.acu.lastRun.outcome ≠ .pass ∨ s.part.acu.lastRun.firstStep ≠ some 0) ∧
    (reasons.testBit 4 = true ↔ ∀ c, ¬ enabled c) ∧
    (reasons.testBit 5 = true ↔ ∃ c, enabled c ∧ (s.part.rcu.records.get c).settings.expected = none) ∧
    (reasons.testBit 6 = true ↔ ∃ c, enabled c ∧ (s.part.rcu.records.get c).verdict ≠ .main) ∧
    (reasons ≠ 0 →
      ∃ carriers : Byte,
        (∀ c : Carrier, carriers.getLsbD c.val = true ↔
          enabled c ∧ (s.part.rcu.records.get c).verdict ≠ .main) ∧
        carriers.toNat < 16 ∧
        exec (.handover body) s =
          .next ⟨s.part.reply .handover body .notReady [BitVec.ofNat 8 reasons, carriers], s.pending⟩) ∧
    (reasons = 0 →
      exec (.handover body) s =
        .next
          ⟨arbitrate
              (answer .accepted []
                (startFold
                  { s.part.takeInHand .handover body with
                    phc :=
                      { s.part.phc with
                        phop := .handingOver .fold
                        operation := ⟨.handover, some .running, some .fold, none, 0, none, none⟩ } })),
            s.pending⟩ ∧
      ∃ d, exec (.handover body) s = .next ⟨d, s.pending⟩ ∧
        d.sli = (s.part.reply .handover body .accepted []).sli ∧
        s.part.keepsOutside [.mpc, .ovu, .phc, .sli] d ∧
        d.phc.phop.isHandingOver = true ∧ d.phc.operation.operation = .handover ∧
        d.phc.operation.result = some .running ∧ d.phc.operation.writes = 0)

/-- The fold takes the lowest set offset of map 0, then of map 1: the read of overlay base + offset ends OK, and the
word is written to base + offset unless that address is reserved, which stops the fold as BARRED and the handover with
cause FOLD; the write's OK clears the flag and counts the word; a memory FAULT stops the fold at that word. -/
def Obligations.FoldCopiesEachWordBack : Prop :=
  (∀ (s : State) (p : MCycle) (q : IntRequest) (rest : List IntRequest) (m : MapId) (k : Nat) (w : Word)
    (i : Fin 16) (r : Region) (base : Addr), s.running → s.part.mpc.cycle = some p → p.client = .int →
    s.part.mpc.intQueue = q :: rest → q.owner = .ovu → s.part.ccl.mapEntry m = some (i, r, base) →
    let freed : Mpc := { s.part.mpc with cycle := none, intQueue := rest }
    let failed (step : FoldStep) (outcome : FoldOutcome) (d : Lc44) : Lc44 :=
      { d with
        ovu :=
          { s.part.ovu with
            fold := { s.part.ovu.fold with state := .failed, failure := some ⟨m, k, step, outcome⟩ }
            work := .idle }
        phc :=
          { s.part.phc with
            phop := .none
            work := .idle
            operation := { s.part.phc.operation with result := some .failed, cause := some .fold } } }
    let counted : Mpc :=
      { freed with
        faults := min 4294967295 (s.part.mpc.faults + 1)
        lastFailure := some ⟨.int, some .ovu, p.request, .fault⟩ }
    (s.part.ovu.work = .reading m k →
      (s.part.reserved (r.base.toNat + k) = false →
        exec (.memoryAnswer (.ok w)) s =
          .next
            ⟨arbitrate
                { s.part with
                  ovu := { s.part.ovu with work := .writing m k }
                  mpc :=
                    { freed with
                      intQueue := rest ++ [⟨.ovu, ⟨r.base + BitVec.ofNat 20 k, .write w⟩⟩] } },
              s.pending⟩) ∧
      (s.part.reserved (r.base.toNat + k) = true →
        exec (.memoryAnswer (.ok w)) s =
          .next ⟨arbitrate (failed .write .barred { s.part with mpc := freed }), s.pending⟩) ∧
      exec (.memoryAnswer .fault) s =
        .next ⟨arbitrate (failed .read .fault { s.part with mpc := counted }), s.pending⟩) ∧
    (s.part.ovu.work = .writing m k →
      exec (.memoryAnswer (.ok w)) s =
        .next
          ⟨arbitrate
              (foldNext
                { s.part with
                  ovu :=
                    { s.part.ovu with
                      map0 := if m = .map0 then s.part.ovu.map0.filter (· ≠ k) else s.part.ovu.map0
                      map1 := if m = .map1 then s.part.ovu.map1.filter (· ≠ k) else s.part.ovu.map1
                      fold := { s.part.ovu.fold with count := s.part.ovu.fold.count.map (· + 1) } }
                  mpc := freed }),
            s.pending⟩ ∧
      exec (.memoryAnswer .fault) s =
        .next ⟨arbitrate (failed .write .fault { s.part with mpc := counted }), s.pending⟩)) ∧
  ∀ (d : Lc44) (k : Nat) (l : List Nat) (i : Fin 16) (r : Region) (base : Addr),
      (d.ovu.map0 = k :: l → d.ccl.mapEntry .map0 = some (i, r, base) →
        foldNext d =
          { d with
            ovu := { d.ovu with work := .reading .map0 k }
            mpc :=
              { d.mpc with
                intQueue := d.mpc.intQueue ++ [⟨.ovu, ⟨base + BitVec.ofNat 20 k, .read⟩⟩] } }) ∧
      (d.ovu.map0 = [] → d.ovu.map1 = k :: l → d.ccl.mapEntry .map1 = some (i, r, base) →
        foldNext d =
          { d with
            ovu := { d.ovu with work := .reading .map1 k }
            mpc :=
              { d.mpc with
                intQueue := d.mpc.intQueue ++ [⟨.ovu, ⟨base + BitVec.ofNat 20 k, .read⟩⟩] } }) ∧
      (d.ovu.map0 = [] → d.ovu.map1 = [] →
        (foldNext d).ovu.fold = { d.ovu.fold with state := .done } ∧
          (foldNext d).phc.phop = .handingOver .write ∧
          (foldNext d).phc.work = .writing (handoverImage d) 0)

/-! ## Captures (chapter 6) -/

/-- An OBSERVE word taken by RCU: a block at or beyond the carrier count is ignored, and so is every word without a
layout or with a layout that has no RSL slot. Otherwise a word that is not the closing word only fills its slots; the
closing word makes a capture when RSL is fresh, or an incomplete report, and clears the fresh marks. A capture replaces
the last values that are fresh, counts, raises the peak to a greater RSL, counts or ends the loss run by the floor, puts
the carrier in TRACK with its timer loaded, recomputes the verdict, and is told to TRU, ACU and TMU. That any waiting
hand-off may be taken, whichever stands before it, is the model's choice (log 37). -/
def Obligations.ObservedWordsAreCaptured : Prop :=
  ∀ (s : State) (h : Handoff), s.running →
    let taken := { s.part.raised with rcu := s.part.raised.rcu.erase h }
    (h.carrierCount ≤ h.offset / h.stride ∨ s.part.rcu.layout = none ∨
        (∃ l, s.part.rcu.layout = some l ∧ l.hasKind .rsl = false) →
      exec (.observeHandoff h) s = .next ⟨{ s.part with raised := taken }, s.pending⟩) ∧
    ∀ (c : Carrier) (l : Layout), h.offset / h.stride < h.carrierCount →
      c.val = h.firstCarrier + h.offset / h.stride → s.part.rcu.layout = some l → l.hasKind .rsl = true →
      let old := s.part.rcu.records.get c
      let index := h.offset % h.stride
      let b := assemble l index h.data (s.part.rcu.buffers.get c)
      let fresh (a : Assembled) : Option Int := if a.fresh then some a.value else none
      let used (a : Assembled) : Assembled := ⟨a.value, false⟩
      let rsl := b.rsl.value
      let loss := if rsl < s.part.rcu.lossFloor then min 255 (old.lossRun + 1) else 0
      let peak : Peak :=
        match old.peak with
        | none => ⟨rsl, s.part.rcu.tickCount⟩
        | some q => if q.rsl < rsl then ⟨rsl, s.part.rcu.tickCount⟩ else q
      let new : CaptureRecord :=
        { old with
          state := .track
          lastRsl := some rsl
          lastMse := fresh b.mse <|> old.lastMse
          lastXpd := fresh b.xpd <|> old.lastXpd
          lastModstep := (fresh b.modstep).map Int.toNat <|> old.lastModstep
          lastCorr := (fresh b.corr).map Int.toNat <|> old.lastCorr
          lastUncorr := (fresh b.uncorr).map Int.toNat <|> old.lastUncorr
          captures := min 4294967295 (old.captures + 1)
          lastTick := some s.part.rcu.tickCount
          peak := some peak
          lossRun := loss
          timer := some s.part.rcu.reportTimeout
          verdict := verdictOf old.settings (some peak) }
      let notice : CaptureNotice :=
        ⟨c, rsl, fresh b.mse, fresh b.xpd, (fresh b.corr).map Int.toNat, (fresh b.uncorr).map Int.toNat,
          (fresh b.modstep).map Int.toNat, loss⟩
      (index ≠ l.closing →
        exec (.observeHandoff h) s =
          .next
            ⟨{ s.part with
                rcu := { s.part.rcu with buffers := s.part.rcu.buffers.set c b }
                raised := taken },
              s.pending⟩) ∧
      (index = l.closing → b.rsl.fresh = false →
        exec (.observeHandoff h) s =
          .next
            ⟨{ s.part with
                rcu :=
                  { s.part.rcu with
                    buffers := s.part.rcu.buffers.set c Buffer.reset
                    records :=
                      s.part.rcu.records.set c { old with incomplete := min 65535 (old.incomplete + 1) } }
                raised := taken },
              s.pending⟩) ∧
      (index = l.closing → b.rsl.fresh = true →
        exec (.observeHandoff h) s =
          .next
            ⟨{ s.part with
                rcu :=
                  { s.part.rcu with
                    buffers :=
                      s.part.rcu.buffers.set c
                        ⟨used b.rsl, used b.mse, used b.xpd, used b.corr, used b.uncorr, used b.modstep⟩
                    records := s.part.rcu.records.set c new }
                raised :=
                  { taken with
                    tru := taken.tru ++ [.capture notice]
                    acu := taken.acu ++ [.capture notice]
                    tmu := taken.tmu ++ [.capture notice] } },
              s.pending⟩)

/-- REPORT_TIMER_EXPIRY: a carrier in TRACK becomes STALE, its timer stops, and TRU, ACU and TMU are told; its last
values, peak, loss run and verdict stay. In NONE and STALE nothing happens, nor while the timer has ticks left, as after
a capture (R110; log 1). SET-TIMES changes all four of its settings or none: the memory timeout 2 to 250 µs, the report
timeout 100 to 10,000 ms, the hold-off 0 to 600 s, the loss floor −1,500 to 0. A carrier in TRACK has its timer set to
the new timeout less the ticks since its last capture, or goes STALE, told to TRU, ACU and TMU, when nothing is left;
the order of these notices among carriers is the model's choice (log 31), and so is that the memory timeout holds for
grants before the end of the response (log 29). A stale notice never overtakes a capture notice of its carrier that
waits in front of it, at any of the three (R109). -/
def Obligations.StaleCarriersAreReported : Prop :=
  (∀ (s : State) (c : Carrier), s.running →
    let old := s.part.rcu.records.get c
    (old.state = .track → old.timer = some 0 →
      exec (.reportTimerExpiry c) s =
        .next
          ⟨{ s.part with
              rcu := { s.part.rcu with records := s.part.rcu.records.set c { old with state := .stale, timer := none } }
              raised :=
                { s.part.raised with
                  tru := s.part.raised.tru ++ [.stale c]
                  acu := s.part.raised.acu ++ [.stale c]
                  tmu := s.part.raised.tmu ++ [.stale c] } },
            s.pending⟩) ∧
    (old.state ≠ .track ∨ old.timer ≠ some 0 → exec (.reportTimerExpiry c) s = .next s)) ∧
  (∀ (s : State) (body : List Byte), s.takes .setTimes body →
    let d := s.part
    let memory := byteAt body 0
    let report := u16At body 1
    let holdoff := u16At body 3
    let floor := signed16 (u16At body 5)
    let ok := 2 ≤ memory ∧ memory ≤ 250 ∧ 100 ≤ report ∧ report ≤ 10000 ∧ holdoff ≤ 600 ∧ -1500 ≤ floor ∧ floor ≤ 0
    let elapsed (r : CaptureRecord) : Nat := (d.rcu.tickCount - r.lastTick.getD d.rcu.tickCount).toNat
    (¬ ok → exec (.setTimes body) s = .next ⟨d.reply .setTimes body .badArg [], s.pending⟩) ∧
    (ok →
      ∃ e, exec (.setTimes body) s = .next ⟨e, s.pending⟩ ∧ d.keepsOutside [.mpc, .tmu, .rcu, .raised, .sli] e ∧
        e.sli = (d.reply .setTimes body .ok []).sli ∧ e.mpc = { d.mpc with timeout := memory } ∧
        e.tmu = { d.tmu with holdoffSetting := holdoff } ∧
        e.rcu = { d.rcu with reportTimeout := report, lossFloor := floor, records := e.rcu.records } ∧
        (∀ c, let r := d.rcu.records.get c
          (r.state ≠ .track → e.rcu.records.get c = r) ∧
          (r.state = .track → elapsed r < report →
            e.rcu.records.get c = { r with timer := some (report - elapsed r) }) ∧
          (r.state = .track → report ≤ elapsed r →
            e.rcu.records.get c = { r with state := .stale, timer := none })) ∧
        let stale := carriers.filter fun c =>
          decide ((d.rcu.records.get c).state = .track) && decide (report ≤ elapsed (d.rcu.records.get c))
        e.raised =
          { d.raised with
            tru := d.raised.tru ++ stale.map .stale
            acu := d.raised.acu ++ stale.map .stale
            tmu := d.raised.tmu ++ stale.map .stale })) ∧
  ∀ (s : State) (n : CaptureNotice),
    (∀ before after, s.part.raised.tru = before ++ .capture n :: after → .stale n.carrier ∉ before →
      exec (.truStaleNotice n.carrier) s = .next s) ∧
    (∀ before after, s.part.raised.acu = before ++ .capture n :: after → .stale n.carrier ∉ before →
      exec (.acuStaleNotice n.carrier) s = .next s) ∧
    ∀ before after, s.part.raised.tmu = before ++ .capture n :: after → .stale n.carrier ∉ before →
      exec (.tmuStaleNotice n.carrier) s = .next s

/-- A carrier's peak holds at least its last RSL, and its verdict is the one its settings and peak give: every step
keeps this. The verdict's conditions, in order: NONE without expected RSL or peak; MAIN at or above expected less
tolerance; SIDE at or below expected less margin; LOW otherwise. -/
def Obligations.VerdictsComparePeaks : Prop :=
  (∀ s t : State, s.peakLaw → step s = .next t → t.peakLaw) ∧
  (∀ (x : CarrierSettings) (peak : Option Peak),
    (x.expected = none ∨ peak = none → verdictOf x peak = .none) ∧
    ∀ e p, x.expected = some e → peak = some p →
      (e - x.tolerance ≤ p.rsl → verdictOf x peak = .main) ∧
      (p.rsl < e - x.tolerance → p.rsl ≤ e - x.margin → verdictOf x peak = .side) ∧
      (p.rsl < e - x.tolerance → e - x.margin < p.rsl → verdictOf x peak = .low))

/-- The requests that set captures. SET-CARRIER replaces the four settings, recomputes the verdict and answers with it.
PEAK-RESET makes the peaks of its mask absent with verdict NONE and tells TMU. CLEAR-CAPTURE returns the records of its
mask to their reset values but for the settings, clears their buffers and tells TMU. SET-GROUPS replaces the flags,
tells TMU and answers with the groups and the flags. Each is refused BADARG outside its range; SET-CARRIER is refused
BUSY during a run and CLEAR-CAPTURE during a trial or a run, whatever the body (the model's choice where both BUSY and
BADARG apply, log 30). Nothing else changes. That SET-GROUPS answers one byte for each group, and the groups before the
flags, is the model's choice (log 10); that CLEAR-CAPTURE tells TMU that the carriers have left TRACK before it tells
the peak reset is the model's reading of chapter 7's example (log 26). -/
def Obligations.CaptureRequestsTakeEffect : Prop :=
  ∀ (s : State) (body : List Byte),
    let d := s.part
    let mask := byteAt body 0
    let named (c : Carrier) : Prop := mask.testBit c.val = true
    (s.takes .setCarrier body → d.acu.runState ≠ .idle →
      exec (.setCarrier body) s = .next ⟨d.reply .setCarrier body .busy [], s.pending⟩) ∧
    (s.takes .setCarrier body → d.acu.runState = .idle →
      let tolerance := u16At body 5
      let margin := u16At body 7
      let expected := signed16 (u16At body 3)
      let ok :=
        byteAt body 0 ≤ 3 ∧ byteAt body 1 ≤ 1 ∧ byteAt body 2 ≤ 1 ∧
          (byteAt body 2 = 1 → -1500 ≤ expected ∧ expected ≤ 0) ∧ tolerance ≤ 500 ∧ 1 ≤ margin ∧ margin ≤ 1000 ∧
          tolerance < margin
      (¬ ok → exec (.setCarrier body) s = .next ⟨d.reply .setCarrier body .badArg [], s.pending⟩) ∧
      (ok → ∀ c : Carrier, c.val = byteAt body 0 →
        let old := d.rcu.records.get c
        let new : CarrierSettings :=
          ⟨decide (byteAt body 1 = 1), if byteAt body 2 = 1 then some expected else none, tolerance, margin⟩
        let verdict := verdictOf new old.peak
        exec (.setCarrier body) s =
          .next
            ⟨{ d.reply .setCarrier body .ok
                  [match verdict with
                    | .none => 0
                    | .main => 1
                    | .low => 2
                    | .side => 3] with
                rcu := { d.rcu with
                  records := d.rcu.records.set c { old with settings := new, verdict := verdict } } },
              s.pending⟩)) ∧
    (s.takes .peakReset body →
      (mask = 0 ∨ 15 < mask → exec (.peakReset body) s = .next ⟨d.reply .peakReset body .badArg [], s.pending⟩) ∧
      (1 ≤ mask → mask ≤ 15 →
        ∃ records : PerCarrier CaptureRecord,
          (∀ c, (named c → records.get c = { d.rcu.records.get c with peak := none, verdict := .none }) ∧
            (¬ named c → records.get c = d.rcu.records.get c)) ∧
          exec (.peakReset body) s =
            .next
              ⟨{ d.reply .peakReset body .ok [] with
                  rcu := { d.rcu with records := records }
                  raised := { d.raised with tmu := d.raised.tmu ++ [.peakReset (maskCarriers mask)] } },
                s.pending⟩)) ∧
    (s.takes .clearCapture body →
      (d.tru.state ≠ .idle ∨ d.acu.runState ≠ .idle →
        exec (.clearCapture body) s = .next ⟨d.reply .clearCapture body .busy [], s.pending⟩) ∧
      (d.tru.state = .idle → d.acu.runState = .idle → (mask = 0 ∨ 15 < mask) →
        exec (.clearCapture body) s = .next ⟨d.reply .clearCapture body .badArg [], s.pending⟩) ∧
      (d.tru.state = .idle → d.acu.runState = .idle → 1 ≤ mask → mask ≤ 15 →
        ∃ (records : PerCarrier CaptureRecord) (buffers : PerCarrier Buffer),
          (∀ c, (named c →
              records.get c = { State.reset.part.rcu.records.get c with settings := (d.rcu.records.get c).settings } ∧
                buffers.get c = State.reset.part.rcu.buffers.get c) ∧
            (¬ named c → records.get c = d.rcu.records.get c ∧ buffers.get c = d.rcu.buffers.get c)) ∧
          exec (.clearCapture body) s =
            .next
              ⟨{ d.reply .clearCapture body .ok [] with
                  rcu := { d.rcu with records := records, buffers := buffers }
                  raised :=
                    { d.raised with
                      tmu := d.raised.tmu ++ [.leftTrack (maskCarriers mask), .peakReset (maskCarriers mask)] } },
                s.pending⟩)) ∧
    (s.takes .setGroups body →
      let a := byteAt body 0
      let b := byteAt body 1
      let x := byteAt body 2
      (1 < a ∨ 1 < b ∨ 1 < x → exec (.setGroups body) s = .next ⟨d.reply .setGroups body .badArg [], s.pending⟩) ∧
      (a ≤ 1 → b ≤ 1 → x ≤ 1 →
        exec (.setGroups body) s =
          .next
            ⟨{ d.reply .setGroups body .ok
                  (match a, b, x with
                    | 0, 0, 0 => [1, 2, 4, 8, 0, 0, 0]
                    | 1, 0, 0 => [3, 4, 8, 1, 0, 0]
                    | 0, 1, 0 => [1, 2, 12, 0, 1, 0]
                    | 1, 1, 0 => [3, 12, 1, 1, 0]
                    | 0, 0, _ => [1, 6, 8, 0, 0, 1]
                    | 1, 0, _ => [7, 8, 1, 0, 1]
                    | 0, 1, _ => [1, 14, 0, 1, 1]
                    | _, _, _ => [15, 1, 1, 1]) with
                rcu := { d.rcu with ga := decide (a = 1), gb := decide (b = 1), gx := decide (x = 1) }
                raised := { d.raised with tmu := d.raised.tmu ++ [.groups] } },
              s.pending⟩))

/-! ## Mute and tone (chapter 7) -/

/-- MAST_LEVEL_CHANGE: a raw level that comes to differ from the accepted one loads the debounce timer with 20 ms; a
return to it cancels the timer. The accepted level and the mute state stay. HOLD_OFF_EXPIRY in HOLDOFF, with the timer
counted down to 0 (log 1): the state is CLEAR, the timer stops, TXMUTE is released. In CLEAR and MUTED, and while ticks
are left, nothing happens. -/
def Obligations.MuteTimersAndLevels : Prop :=
  (∀ (s : State) (level : Bool), s.running →
    (level = s.part.tmu.mastRaw → exec (.mastLevelChange level) s = .next s) ∧
    (level ≠ s.part.tmu.mastRaw →
      exec (.mastLevelChange level) s =
        .next
          ⟨{ s.part with
              tmu :=
                { s.part.tmu with
                  mastRaw := level
                  debounce := if level = s.part.tmu.mastAccepted then none else some 20 } },
            s.pending⟩)) ∧
  (∀ (s : State), s.running →
    (s.part.tmu.mute = .holdoff → s.part.tmu.holdoff = some 0 →
      let d : Lc44 := { s.part with tmu := { s.part.tmu with mute := .clear, holdoff := none } }
      exec .holdOffExpiry s = .next ⟨d, s.pending⟩ ∧ d.txmute = false) ∧
    (s.part.tmu.mute ≠ .holdoff ∨ s.part.tmu.holdoff ≠ some 0 → exec .holdOffExpiry s = .next s))

/-- The debounce timer's expiry, with the timer counted down to 0 (log 1; before that nothing happens): the accepted
level takes the raw level. A MAST asserted event takes CLEAR and HOLDOFF to MUTED, the hold-off timer cancelled and
TXMUTE asserted, with a mute notice to ACU from CLEAR only (R125, R130); a MAST released event takes MUTED to HOLDOFF
with its timer loaded, or to CLEAR when the setting is 0 (R126). By the law of the mute machine the events do not occur
in the other states. -/
def Obligations.MastEventsMoveTheMuteState : Prop :=
  (∀ s : State, s.part.tmu.debounce ≠ some 0 → exec .debounceTimerExpiry s = .next s) ∧
  ∀ (s : State), s.running → s.part.tmu.debounce = some 0 →
    let t : Tmu := { s.part.tmu with mastAccepted := s.part.tmu.mastRaw, debounce := none }
    let muted : Lc44 := { s.part with tmu := { t with mute := .muted, holdoff := none } }
    (s.part.tmu.mastRaw = true → s.part.tmu.mute = .clear →
      exec .debounceTimerExpiry s =
        .next ⟨{ muted with raised := { s.part.raised with acu := s.part.raised.acu ++ [.mute] } }, s.pending⟩ ∧
        muted.txmute = true) ∧
    (s.part.tmu.mastRaw = true → s.part.tmu.mute = .holdoff →
      exec .debounceTimerExpiry s = .next ⟨muted, s.pending⟩ ∧ s.part.txmute = true ∧ muted.txmute = true) ∧
    (s.part.tmu.mastRaw = false → s.part.tmu.mute = .muted → s.part.tmu.holdoffSetting ≠ 0 →
      exec .debounceTimerExpiry s =
        .next
          ⟨{ s.part with
              tmu := { t with mute := .holdoff, holdoff := some (s.part.tmu.holdoffSetting * 1000) } },
            s.pending⟩ ∧
        ({ s.part with tmu := { t with mute := .holdoff } } : Lc44).txmute = true) ∧
    (s.part.tmu.mastRaw = false → s.part.tmu.mute = .muted → s.part.tmu.holdoffSetting = 0 →
      exec .debounceTimerExpiry s =
        .next ⟨{ s.part with tmu := { t with mute := .clear, holdoff := none } }, s.pending⟩ ∧
        ({ s.part with tmu := { t with mute := .clear } } : Lc44).txmute = false) ∧
    (s.muteLaw → (s.part.tmu.mastRaw = true → s.part.tmu.mute ≠ .muted) ∧
      (s.part.tmu.mastRaw = false → s.part.tmu.mute = .muted))

/-- MUTE-RELEASE (R128): taken in every phase with PHOP NONE, refused BUSY while PHOP is SAVING or HANDING_OVER, not
received during STARTING; HOLDOFF becomes CLEAR with the timer cancelled and TXMUTE released, answered OK; MUTED is
answered BADSTATE and CLEAR OK without change. Every answer carries the mute state after the request. A release and a
MAST assertion in HOLDOFF: either order ends in MUTED, and the release taken second is answered BADSTATE. -/
def Obligations.MuteReleaseEndsAHoldOff : Prop :=
  (∀ phase, requestFilter phase .none .muteRelease = none) ∧
  (∀ phase, requestFilter phase .saving .muteRelease = some .busy) ∧
  (∀ phase step, requestFilter phase (.handingOver step) .muteRelease = some .busy) ∧
  (∀ (s : State) (body : List Byte), s.running → s.part.phc.phop.isStarting = true →
    exec (.muteRelease body) s = .next s) ∧
  (∀ (s : State) (body : List Byte), s.running → s.part.deaf = false → s.part.sli.inHand = none →
    (s.part.phc.phop = .saving ∨ s.part.phc.phop.isHandingOver = true) →
    exec (.muteRelease body) s =
      .next ⟨s.part.reply .muteRelease body .busy
          [match s.part.tmu.mute with
            | .clear => 0
            | .muted => 1
            | .holdoff => 2], s.pending⟩) ∧
  ∀ (s : State) (body : List Byte), s.takes .muteRelease body →
    (s.part.tmu.mute = .holdoff →
      let d : Lc44 :=
        { s.part.reply .muteRelease body .ok [0] with
          tmu := { s.part.tmu with mute := .clear, holdoff := none } }
      exec (.muteRelease body) s = .next ⟨d, s.pending⟩ ∧ d.txmute = false ∧
      (s.part.tmu.debounce = some 0 → s.part.tmu.mastRaw = true →
        (∃ e, exec .debounceTimerExpiry ⟨d, s.pending⟩ = .next ⟨e, s.pending⟩ ∧ e.tmu.mute = .muted) ∧
        ∃ e, exec .debounceTimerExpiry s = .next ⟨e, s.pending⟩ ∧ e.tmu.mute = .muted ∧
          exec (.muteRelease body) ⟨e, s.pending⟩ =
            .next ⟨e.reply .muteRelease body .badState [1], s.pending⟩)) ∧
    (s.part.tmu.mute = .muted →
      exec (.muteRelease body) s = .next ⟨s.part.reply .muteRelease body .badState [1], s.pending⟩) ∧
    (s.part.tmu.mute = .clear →
      exec (.muteRelease body) s = .next ⟨s.part.reply .muteRelease body .ok [0], s.pending⟩)

/-- The mute machine is in step with the accepted MAST level: every step keeps this. -/
def Obligations.MuteMachineStaysCoherent : Prop :=
  ∀ s t : State, s.muteLaw → step s = .next t → t.muteLaw

/-- The notices RCU sends TMU. A capture sets the carrier's tracking flag and last RSL, a stale notice clears the flag
and leaves the RSL, carriers that left TRACK lose both; the tone is recomputed when a member is concerned. A peak reset
that names a member makes the tone peak absent before the recomputation, and one that names none leaves it. A change of
the group flags under a GROUP source takes the new group, with the tone peak absent when the members change, and under a
CARRIER source leaves all as it was. A notice is taken when no other notice about its carriers waits in front of it;
behind one it changes nothing (R109; log 2). -/
def Obligations.NoticesReachTheTone : Prop :=
  ∀ (s : State), s.running →
    let taken (x : TmuEvent) : Raised := { s.part.raised with tmu := s.part.raised.tmu.erase x }
    let heard (again : Bool) (t : Tmu) : Tmu := if again then t.recomputed s.part.phc.phase else t
    let member (m : CarrierSet) : Bool := decide (∃ c : Carrier, m.get c = true ∧ s.part.tmu.members.get c = true)
    (∀ n : CaptureNotice, inOrder TmuEvent.about (.capture n) s.part.raised.tmu →
      exec (.tmuCaptureNotice n) s =
        .next
          ⟨{ s.part with
              tmu := heard (s.part.tmu.members.get n.carrier)
                { s.part.tmu with view := s.part.tmu.view.set n.carrier ⟨true, some n.rsl⟩ }
              raised := taken (.capture n) },
            s.pending⟩) ∧
    (∀ c : Carrier, inOrder TmuEvent.about (.stale c) s.part.raised.tmu →
      exec (.tmuStaleNotice c) s =
        .next
          ⟨{ s.part with
              tmu := heard (s.part.tmu.members.get c)
                { s.part.tmu with view := s.part.tmu.view.set c ⟨false, (s.part.tmu.view.get c).lastRsl⟩ }
              raised := taken (.stale c) },
            s.pending⟩) ∧
    (∀ m : CarrierSet, inOrder TmuEvent.about (.leftTrack m) s.part.raised.tmu →
      ∃ view : PerCarrier CarrierView,
        (∀ c, view.get c = if m.get c then ⟨false, none⟩ else s.part.tmu.view.get c) ∧
        exec (.leftTrackReport m) s =
          .next
            ⟨{ s.part with
                tmu := heard (member m) { s.part.tmu with view := view }
                raised := taken (.leftTrack m) },
              s.pending⟩) ∧
    (∀ m : CarrierSet, inOrder TmuEvent.about (.peakReset m) s.part.raised.tmu →
      exec (.peakResetNotice m) s =
        .next
          ⟨{ s.part with
              tmu := if member m then heard true { s.part.tmu with peak := none } else s.part.tmu
              raised := taken (.peakReset m) },
            s.pending⟩) ∧
    (∀ n, inOrder TmuEvent.about (.capture n) s.part.raised.tmu = false → exec (.tmuCaptureNotice n) s = .next s) ∧
    (∀ c, inOrder TmuEvent.about (.stale c) s.part.raised.tmu = false → exec (.tmuStaleNotice c) s = .next s) ∧
    (∀ m, inOrder TmuEvent.about (.leftTrack m) s.part.raised.tmu = false → exec (.leftTrackReport m) s = .next s) ∧
    (∀ m, inOrder TmuEvent.about (.peakReset m) s.part.raised.tmu = false → exec (.peakResetNotice m) s = .next s) ∧
    (s.part.tmu.settings.kind = .carrier →
      exec .groupFlagsChange s = .next ⟨{ s.part with raised := taken .groups }, s.pending⟩) ∧
    (s.part.tmu.settings.kind = .group →
      let m := group s.part.rcu.ga s.part.rcu.gb s.part.rcu.gx s.part.tmu.settings.carrier
      exec .groupFlagsChange s =
        .next
          ⟨{ s.part with
              tmu := heard true
                { s.part.tmu with
                  members := m
                  peak := if m = s.part.tmu.members then s.part.tmu.peak else none }
              raised := taken .groups },
            s.pending⟩)

/-- A recomputation of the tone: the value is the least last RSL of the members that track; the peak rises to it; the
pitch is 400 + ((value − floor) × 3,200) div span within 400 to 3,600, kept without a value; the state follows its
conditions in order, and a change of state begins the cadence anew. Settings, members and view stay. SET-TONE: refused
BADARG with a setting outside its range; otherwise all five settings are replaced, the members are the carrier or its
group, the tone peak is absent when source kind or carrier differ, the tone is recomputed, and the answer carries the
tone's state, value, peak and pitch. That SET-TONE keeps the peak under the same GROUP source whose group has changed
without TMU being told is the model's choice (log 39); the bytes of the answer are its reading of R204 (log 9). -/
def Obligations.ToneFollowsTheWeakestMember : Prop :=
  (∀ (t : Tmu) (phase : Phase), (∀ c, (t.view.get c).tracking = true → (t.view.get c).lastRsl ≠ none) →
    let u := t.recomputed phase
    let heard (c : Carrier) : Prop := t.members.get c = true ∧ (t.view.get c).tracking = true
    (u.value = none ↔ ∀ c, ¬ heard c) ∧
    (∀ v, u.value = some v →
      (∃ c, heard c ∧ (t.view.get c).lastRsl = some v) ∧
      (∀ c x, heard c → (t.view.get c).lastRsl = some x → v ≤ x) ∧
      (∀ p, t.peak = some p → u.peak = some (max p v)) ∧ (t.peak = none → u.peak = some v) ∧
      (u.pitch : Int) = max 400 (min 3600 (400 + Int.tdiv ((v - t.settings.floor) * 3200) t.settings.span))) ∧
    (u.value = none → u.peak = t.peak ∧ u.pitch = t.pitch) ∧
    (t.settings.enabled = false ∨ phase = .transparent → u.tone = .silent) ∧
    (t.settings.enabled = true → phase ≠ .transparent →
      (u.value = none → u.tone = .noSignal) ∧
      ∀ v p, u.value = some v → u.peak = some p →
        (p - 5 ≤ v → u.tone = .steady) ∧ (v < p - 5 → u.tone = .pulsed)) ∧
    u.cadence = (if u.tone = t.tone then t.cadence else 0) ∧
    u = { t with value := u.value, peak := u.peak, pitch := u.pitch, tone := u.tone, cadence := u.cadence }) ∧
  (∀ (s : State) (body : List Byte), s.takes .setTone body →
    let floor := signed16 (u16At body 3)
    let span := u16At body 5
    let ok :=
      byteAt body 0 ≤ 1 ∧ byteAt body 1 ≤ 1 ∧ byteAt body 2 ≤ 3 ∧ -1500 ≤ floor ∧ floor ≤ 0 ∧ 100 ≤ span ∧
        span ≤ 1200
    (¬ ok → exec (.setTone body) s = .next ⟨s.part.reply .setTone body .badArg [], s.pending⟩) ∧
    (ok → ∀ c : Carrier, c.val = byteAt body 2 →
      let old := s.part.tmu
      let new : ToneSettings :=
        ⟨decide (byteAt body 0 = 1), if byteAt body 1 = 1 then .group else .carrier, c, floor, span⟩
      let members :=
        if new.kind = .group then group s.part.rcu.ga s.part.rcu.gb s.part.rcu.gx c
        else group false false false c
      let t :=
        Tmu.recomputed s.part.phc.phase
          { old with
            settings := new
            members := members
            peak := if new.kind = old.settings.kind ∧ c = old.settings.carrier then old.peak else none }
      exec (.setTone body) s =
        .next ⟨{ s.part.reply .setTone body .ok (toneData t) with tmu := t }, s.pending⟩))

/-! ## Acceptance (chapter 8) -/

/-- SETTLE_TIMER_EXPIRY and STEP_SIGNAL where they move a run on. A STEP mark in ARMED under a step that needs transmit,
with TXMUTE asserted, ends the step ABORTED with cause MUTE, and the run (R147). Otherwise, with every carrier of the
step in TRACK, it enters SETTLING with the settle time loaded, or MEASURING when it is 0; with a carrier not in TRACK
the step ends FAIL with cause STALE, each such carrier marked, and the run ends or goes on as R152 says (R146). The
settle timer's expiry, taken with the timer at 0 (log 1), enters MEASURING: the aggregates of the mask are cleared, the
measuring ticks start from 0, and the measure time is loaded. A STEP mark in another state, IDLE among them, is stray
and counted. An expiry taken elsewhere, or while the timer has ticks left, changes nothing. The model's choices: the
measuring ticks that stay in IDLE (log 33), a next sequence of 65,536 after 65,535 (log 32). -/
def Obligations.MarksAndSettleTimersMoveTheRun : Prop :=
  (∀ s : State, s.running → s.part.acu.runState ≠ .armed →
    exec .stepSignal s =
      .next
        ⟨{ s.part with
            acu :=
              { s.part.acu with
                lastRun := { s.part.acu.lastRun with stray := min 65535 (s.part.acu.lastRun.stray + 1) } }
            raised := { s.part.raised with acu := s.part.raised.acu.erase .step } },
          s.pending⟩) ∧
  (∀ s : State, s.part.acu.runState ≠ .settling ∨ s.part.acu.timer ≠ some 0 →
    exec .settleTimerExpiry s = .next s) ∧
  ∀ (s : State) (i : Nat) (p : PlanStep), s.running → s.part.acu.current = some i → s.part.acu.stepAt i = some p →
    let taken : Raised := { s.part.raised with acu := s.part.raised.acu.erase .step }
    let a := s.part.acu
    let muted := p.needsTransmit = true ∧ s.part.txmute = true
    let tracking := ∀ c, p.mask.get c = true → (s.part.rcu.records.get c).state = .track
    let measuring (x : PerCarrier (Option Aggregate)) : Acu :=
      { a with runState := .measuring, aggregates := x, measured := 0, timer := some (p.measure * 1000) }
    let cleared (x : PerCarrier (Option Aggregate)) : Prop :=
      ∀ c, x.get c =
        if p.mask.get c then some ⟨0, none, none, none, none, 0, false, 0, 0, false, false⟩ else none
    (a.runState = .armed →
      (muted →
        exec .stepSignal s =
          .next
            ⟨{ s.part with
                acu := (a.stepEnded i .aborted .mute a.aggregates).runEnded .aborted
                raised := taken },
              s.pending⟩) ∧
      (¬ muted → ¬ tracking →
        exec .stepSignal s =
          .next
            ⟨({ s.part with
                acu := a.stepEnded i .fail .stale (s.part.lossMarked p a.aggregates)
                raised := taken } : Lc44).afterFail 32 i,
              s.pending⟩) ∧
      (¬ muted → tracking →
        (p.settle ≠ 0 →
          exec .stepSignal s =
            .next
              ⟨{ s.part with
                  acu := { a with runState := .settling, timer := some (p.settle * 1000) }
                  raised := taken },
                s.pending⟩) ∧
        (p.settle = 0 →
          ∃ x, cleared x ∧
            exec .stepSignal s = .next ⟨{ s.part with acu := measuring x, raised := taken }, s.pending⟩))) ∧
    (a.runState = .settling → a.timer = some 0 →
      ∃ x, cleared x ∧ exec .settleTimerExpiry s = .next ⟨{ s.part with acu := measuring x }, s.pending⟩)

/-- Steps that end early. ARM_TIMEOUT_EXPIRY in ARMED, with the timer at 0 (log 1): FAIL, NO_MARK. A stale notice of a
carrier of the mask in SETTLING or MEASURING: FAIL, STALE, the carrier marked. A mute notice there under a step that
needs transmit: ABORTED, MUTE. A rollback notice in any run: ABORTED, ROLLBACK; in IDLE a PASS becomes VOID. RUN-ABORT:
ABORTED, OPERATOR, answered with the record's sequence; in IDLE, BADSTATE. Each end appends one record with the next
sequence; an ABORTED step ends the run ABORTED, a FAIL under stop-on-fail ends it FAIL, and another FAIL ends it at the
plan's end or begins the next step (R152). A step that begins (R145, R146) ends ABORTED with cause MUTE where TXMUTE is
in its way, is ARMED with its arm timeout ON_MARK, and otherwise settles, measures, or ends FAIL with cause STALE with a
carrier not in TRACK, whereupon the run ends or goes on in the same way. Outside those states the notices change nothing
but that they are taken; a stale notice behind another notice of its carrier changes nothing (R109; log 2). The model's
choices: the measuring ticks that stay in IDLE after the run's end (log 33), and a next sequence of 65,536 after record
65,535 (log 32). -/
def Obligations.StepsEndEarlyAndAreLogged : Prop :=
  ∀ (s : State), s.running →
    let a := s.part.acu
    let taken (x : AcuEvent) : Raised := { s.part.raised with acu := s.part.raised.acu.erase x }
    let settled := a.runState = .settling ∨ a.runState = .measuring
    (a.runState ≠ .armed ∨ a.timer ≠ some 0 → exec .armTimeoutExpiry s = .next s) ∧
    (∀ c, inOrder AcuEvent.about (.stale c) s.part.raised.acu = false → exec (.acuStaleNotice c) s = .next s) ∧
    (∀ c, inOrder AcuEvent.about (.stale c) s.part.raised.acu → ¬ settled ∨ a.aggregates.get c = none →
      exec (.acuStaleNotice c) s = .next ⟨{ s.part with raised := taken (.stale c) }, s.pending⟩) ∧
    (¬ settled → exec .muteNotice s = .next ⟨{ s.part with raised := taken .mute }, s.pending⟩) ∧
    (a.runState = .idle →
      exec .rollbackNotice s =
        .next
          ⟨{ s.part with
              acu := { a with
                lastRun := { a.lastRun with
                  outcome := if a.lastRun.outcome = .pass then .void else a.lastRun.outcome } }
              raised := taken .rollback },
            s.pending⟩) ∧
    (∀ body, s.takes .runAbort body → a.runState = .idle →
      exec (.runAbort body) s = .next ⟨s.part.reply .runAbort body .badState [], s.pending⟩) ∧
    (∀ (i : Nat) (p : PlanStep), a.current = some i → a.stepAt i = some p →
      let aborted (c : StepCause) : Acu := (a.stepEnded i .aborted c a.aggregates).runEnded .aborted
      (a.runState = .armed → a.timer = some 0 →
        exec .armTimeoutExpiry s =
          .next
            ⟨({ s.part with acu := a.stepEnded i .fail .noMark a.aggregates } : Lc44).afterFail 32 i,
              s.pending⟩) ∧
      (∀ c g, inOrder AcuEvent.about (.stale c) s.part.raised.acu → settled → a.aggregates.get c = some g →
        exec (.acuStaleNotice c) s =
          .next
            ⟨({ s.part with
                acu := a.stepEnded i .fail .stale (a.aggregates.set c (some { g with stale := true }))
                raised := taken (.stale c) } : Lc44).afterFail 32 i,
              s.pending⟩) ∧
      (p.needsTransmit = false →
        exec .muteNotice s = .next ⟨{ s.part with raised := taken .mute }, s.pending⟩) ∧
      (settled → p.needsTransmit = true →
        exec .muteNotice s = .next ⟨{ s.part with acu := aborted .mute, raised := taken .mute }, s.pending⟩) ∧
      (a.runState ≠ .idle →
        exec .rollbackNotice s =
          .next ⟨{ s.part with acu := aborted .rollback, raised := taken .rollback }, s.pending⟩) ∧
      ∀ body, s.takes .runAbort body → a.runState ≠ .idle →
        exec (.runAbort body) s =
          .next
            ⟨{ s.part.reply .runAbort body .ok
                  [BitVec.ofNat 8 (a.nextSequence / 256), BitVec.ofNat 8 a.nextSequence] with
                acu := aborted .operator },
              s.pending⟩) ∧
    ∀ (fuel j : Nat) (p : PlanStep), a.stepAt j = some p →
      let x : PerCarrier (Option Aggregate) :=
        p.mask.mapAll fun _ m => if m then some ⟨0, none, none, none, none, 0, false, 0, 0, false, false⟩ else none
      let begun : Acu := { a with current := some j, aggregates := x, measured := 0 }
      let muted := p.needsTransmit = true ∧ s.part.txmute = true
      let tracking := ∀ c, p.mask.get c = true → (s.part.rcu.records.get c).state = .track
      let enters (t : RunState) (ticks : Nat) : Lc44 :=
        { s.part with acu := { begun with runState := t, timer := some ticks } }
      (muted →
        beginStep (fuel + 1) j s.part =
          { s.part with acu := (begun.stepEnded j .aborted .mute x).runEnded .aborted }) ∧
      (¬ muted → p.start = .onMark → beginStep (fuel + 1) j s.part = enters .armed (p.arm * 1000)) ∧
      (¬ muted → p.start = .immediate → tracking →
        beginStep (fuel + 1) j s.part =
          if p.settle = 0 then enters .measuring (p.measure * 1000) else enters .settling (p.settle * 1000)) ∧
      (¬ muted → p.start = .immediate → ¬ tracking →
        beginStep (fuel + 1) j s.part =
          ({ s.part with acu := begun.stepEnded j .fail .stale (s.part.lossMarked p x) } : Lc44).afterFail fuel j)

/-- R151: when each criterion fails, and fails for lack of data; one that the step does not have cannot fail. At the
measure timer's expiry, taken with the timer at 0 (log 1; otherwise it changes nothing), the step is evaluated on the
aggregates as they stand, and is logged PASS with cause NONE when every failed set is empty, FAIL with cause CRITERIA
otherwise, with the sets of every carrier; the measuring ticks equal the measure time. At the plan's last step the run
then ends, PASS when every step from its first passed; before it a FAIL under stop-on-fail ends the run FAIL, and
otherwise the next step begins (R152; how a step begins is said with the steps that end early). The model's choices: the
measuring ticks that stay in IDLE after the run's end (log 33), and a next sequence of 65,536 after record 65,535 (log
32). -/
def Obligations.EvaluationDecidesTheStep : Prop :=
  ((∀ s : State, s.part.acu.runState ≠ .measuring ∨ s.part.acu.timer ≠ some 0 →
    exec .measureTimerExpiry s = .next s) ∧
  (∀ (s : State) (i : Nat) (p : PlanStep), s.running → s.part.acu.runState = .measuring →
    s.part.acu.timer = some 0 → s.part.acu.current = some i → s.part.acu.stepAt i = some p →
    let a := s.part.acu
    let results : List CarrierResult :=
      carriers.filterMap fun c => (a.aggregates.get c).map fun g => ⟨c, g, p.failedSet g, p.noDataSet g⟩
    ∃ (d : Lc44) (more : List LogRecord), exec .measureTimerExpiry s = .next ⟨d, s.pending⟩ ∧
      s.part.keepsOutside [.acu] d ∧
      ((∀ r ∈ results, r.failed = []) →
        d.acu.log = a.log ++ ⟨a.nextSequence, i, .pass, .none, p.measure * 1000, results⟩ :: more) ∧
      ((∃ r ∈ results, r.failed ≠ []) →
        d.acu.log = a.log ++ ⟨a.nextSequence, i, .fail, .criteria, p.measure * 1000, results⟩ :: more)) ∧
  ∀ (p : PlanStep) (g : Aggregate),
    let at_ := p.evaluate g
    (at_ .reportsMin = if g.reports < p.reportsMin then .fails else .passes) ∧
    (∀ b, p.rslMin = some b → (g.rslLeast = none → at_ .rslMin = .noData) ∧
      ∀ v, g.rslLeast = some v → at_ .rslMin = if v < b then .fails else .passes) ∧
    (∀ b, p.rslMax = some b → (g.rslGreatest = none → at_ .rslMax = .noData) ∧
      ∀ v, g.rslGreatest = some v → at_ .rslMax = if v > b then .fails else .passes) ∧
    (∀ b, p.mseMax = some b → (g.mseWorst = none → at_ .mseMax = .noData) ∧
      ∀ v, g.mseWorst = some v → at_ .mseMax = if v > b then .fails else .passes) ∧
    (∀ b, p.xpdMin = some b → (g.xpdLeast = none → at_ .xpdMin = .noData) ∧
      ∀ v, g.xpdLeast = some v → at_ .xpdMin = if v < b then .fails else .passes) ∧
    (∀ b, p.uncorrMax = some b → (g.uncorrSeen = false → at_ .uncorrMax = .noData) ∧
      (g.uncorrSeen = true → at_ .uncorrMax = if g.uncorrSum > b then .fails else .passes)) ∧
    (∀ b, p.modstepMin = some b → (g.modstepSeen = false → at_ .modstepMin = .noData) ∧
      (g.modstepSeen = true → at_ .modstepMin = if g.downshifts ≥ 1 then .fails else .passes)) ∧
    (p.rslMin = none → at_ .rslMin = .passes) ∧ (p.rslMax = none → at_ .rslMax = .passes) ∧
    (p.mseMax = none → at_ .mseMax = .passes) ∧ (p.xpdMin = none → at_ .xpdMin = .passes) ∧
    (p.uncorrMax = none → at_ .uncorrMax = .passes) ∧ (p.modstepMin = none → at_ .modstepMin = .passes) ∧
    ∀ k, (k ∈ p.failedSet g ↔ at_ k ≠ .passes) ∧ (k ∈ p.noDataSet g ↔ at_ k = .noData)) ∧
  (∀ (s : State) (i : Nat) (p : PlanStep), s.running → s.part.acu.runState = .measuring →
    s.part.acu.timer = some 0 → s.part.acu.current = some i → s.part.acu.stepAt i = some p →
    let a := s.part.acu
    let results : List CarrierResult :=
      carriers.filterMap fun c =>
        (a.aggregates.get c).map fun g =>
          ⟨c, g, allCriteria.filter fun k => decide (p.evaluate g k ≠ .passes),
            allCriteria.filter fun k => decide (p.evaluate g k = .noData)⟩
    let pass : Prop := ∀ r ∈ results, r.failed = []
    ∀ (o : StepOutcome) (c : StepCause) (passed : Nat),
      (pass → o = .pass ∧ c = .none ∧ passed = a.lastRun.passed + 1) →
      (¬ pass → o = .fail ∧ c = .criteria ∧ passed = a.lastRun.passed) →
      let logged : Acu :=
        { a with
          timer := none
          measured := p.measure * 1000
          log := a.log ++ [⟨a.nextSequence, i, o, c, p.measure * 1000, results⟩]
          nextSequence := a.nextSequence + 1
          lastRun :=
            { a.lastRun with
              passed := passed
              firstSequence := some (a.lastRun.firstSequence.getD a.nextSequence)
              lastSequence := some a.nextSequence } }
      (∀ run : RunOutcome, i + 1 = a.planLength → (run = .pass ∨ run = .fail) →
        (run = .pass ↔ passed = a.planLength - a.lastRun.firstStep.getD 0 ∧ (pass ∨ a.stopOnFail = false)) →
        exec .measureTimerExpiry s = .next ⟨{ s.part with acu := logged.runEnded run }, s.pending⟩) ∧
      (i + 1 < a.planLength → ¬ pass → a.stopOnFail = true →
        exec .measureTimerExpiry s = .next ⟨{ s.part with acu := logged.runEnded .fail }, s.pending⟩) ∧
      (i + 1 < a.planLength → (pass ∨ a.stopOnFail = false) →
        exec .measureTimerExpiry s = .next ⟨beginStep 32 (i + 1) { s.part with acu := logged }, s.pending⟩))

/-- A capture notice taken in MEASURING for a carrier of the mask updates its aggregates: reports, least and greatest
RSL, worst MSE, least XPD, the sums, and the downshifts below MODSTEP-min; a kind absent from the notice leaves its
aggregate. Otherwise, in IDLE too, it changes none. Behind another notice of its carrier it changes nothing (R109;
log 2). -/
def Obligations.CaptureNoticesFeedTheAggregates : Prop :=
  (∀ (s : State) (n : CaptureNotice), s.running →
    (inOrder AcuEvent.about (.capture n) s.part.raised.acu = false → exec (.acuCaptureNotice n) s = .next s) ∧
    (inOrder AcuEvent.about (.capture n) s.part.raised.acu →
      s.part.acu.runState ≠ .measuring ∨ s.part.acu.aggregates.get n.carrier = none →
      exec (.acuCaptureNotice n) s =
        .next
          ⟨{ s.part with raised := { s.part.raised with acu := s.part.raised.acu.erase (.capture n) } },
            s.pending⟩)) ∧
  ∀ (s : State) (n : CaptureNotice) (p : PlanStep), s.running → s.part.acu.currentStep = some p →
    inOrder AcuEvent.about (.capture n) s.part.raised.acu →
    let a := s.part.acu
    let taken : Raised := { s.part.raised with acu := s.part.raised.acu.erase (.capture n) }
    ∀ g : Aggregate, a.runState = .measuring → a.aggregates.get n.carrier = some g →
      ∃ h : Aggregate,
        exec (.acuCaptureNotice n) s =
          .next
            ⟨{ s.part with acu := { a with aggregates := a.aggregates.set n.carrier (some h) }, raised := taken },
              s.pending⟩ ∧
        h.reports = min 4294967295 (g.reports + 1) ∧
        h.rslLeast = some (match g.rslLeast with
          | none => n.rsl
          | some v => min v n.rsl) ∧
        h.rslGreatest = some (match g.rslGreatest with
          | none => n.rsl
          | some v => max v n.rsl) ∧
        (n.mse = none → h.mseWorst = g.mseWorst) ∧
        (∀ x, n.mse = some x → h.mseWorst = some (match g.mseWorst with
          | none => x
          | some v => max v x)) ∧
        (n.xpd = none → h.xpdLeast = g.xpdLeast) ∧
        (∀ x, n.xpd = some x → h.xpdLeast = some (match g.xpdLeast with
          | none => x
          | some v => min v x)) ∧
        (g.uncorrSum ≤ 4294967295 → n.uncorr = none → h.uncorrSum = g.uncorrSum ∧ h.uncorrSeen = g.uncorrSeen) ∧
        (∀ x, n.uncorr = some x → h.uncorrSum = min 4294967295 (g.uncorrSum + x) ∧ h.uncorrSeen = true) ∧
        (g.corrSum ≤ 4294967295 → n.corr = none → h.corrSum = g.corrSum) ∧
        (∀ x, n.corr = some x → h.corrSum = min 4294967295 (g.corrSum + x)) ∧
        (n.modstep = none → h.downshifts = g.downshifts ∧ h.modstepSeen = g.modstepSeen) ∧
        (∀ x, n.modstep = some x → h.modstepSeen = true ∧
          (∀ b, p.modstepMin = some b → x < b → h.downshifts = min 65535 (g.downshifts + 1)) ∧
          ((∀ b, p.modstepMin = some b → b ≤ x) → h.downshifts = g.downshifts)) ∧
        h.stale = g.stale

/-- The acceptance log holds at most 64 records with consecutive sequence numbers, the next sequence after the last, and
a run in progress has room and filled slots for every step it can still reach: every step keeps this. After record
65,535 the next sequence is 65,536, the model's choice (log 32). -/
def Obligations.LogStaysWithin64ConsecutiveRecords : Prop :=
  ∀ s t : State, s.logLaw → step s = .next t → t.logLaw

/-- LOAD-STEP replaces the slot, the plan length and the flag, and voids the last run; RUN-START from step f, its
checks passed and the step ON_MARK and free to begin, begins a new last-run record and enters ARMED with the arm
timeout loaded; LOG-CLEAR empties the log, keeps the next sequence, voids the last run, and is answered with the
number of records. During a run LOAD-STEP, RUN-START and LOG-CLEAR are refused BUSY. -/
def Obligations.PlanRequestsTakeEffect : Prop :=
  ∀ (s : State) (body : List Byte),
    let a := s.part.acu
    let voided : LastRun :=
      { a.lastRun with outcome := if a.lastRun.outcome = .none then .none else .void }
    (a.runState ≠ .idle →
      (s.takes .loadStep body →
        exec (.loadStep body) s = .next ⟨s.part.reply .loadStep body .busy [], s.pending⟩) ∧
      (s.takes .runStart body →
        exec (.runStart body) s = .next ⟨s.part.reply .runStart body .busy [], s.pending⟩) ∧
      (s.takes .logClear body →
        exec (.logClear body) s = .next ⟨s.part.reply .logClear body .busy [], s.pending⟩)) ∧
    (a.runState = .idle →
      (s.takes .loadStep body → ∀ (i : Fin 32) (slot : Option PlanStep), i.val = byteAt body 0 →
        1 ≤ byteAt body 1 → byteAt body 1 ≤ 32 → byteAt body 2 ≤ 1 →
        (byteAt body 3 = 1 ∧ slot = none ∨
          byteAt body 3 = 0 ∧ (RawStep.ofBody body).ok = true ∧ slot = some (RawStep.ofBody body).toStep) →
        exec (.loadStep body) s =
          .next
            ⟨{ s.part.reply .loadStep body .ok [BitVec.ofNat 8 (byteAt body 1), BitVec.ofNat 8 (byteAt body 2)] with
                acu :=
                  { a with
                    plan := a.plan.set i slot
                    planLength := byteAt body 1
                    stopOnFail := decide (byteAt body 2 = 1)
                    lastRun := voided } },
              s.pending⟩) ∧
      (s.takes .runStart body → ∀ p : PlanStep,
        let f := byteAt body 0
        f < a.planLength → a.planLength ≤ 32 →
        (∀ j, f ≤ j → j < a.planLength → ∃ q, a.stepAt j = some q ∧
          ∀ c, q.mask.get c = true → (s.part.rcu.records.get c).settings.enabled = true) →
        a.log.length + (a.planLength - f) ≤ 64 → a.nextSequence + (a.planLength - f) - 1 ≤ 65535 →
        a.stepAt f = some p → p.start = .onMark → (p.needsTransmit = true → s.part.txmute = false) →
        ∃ x, (∀ c, x.get c =
            if p.mask.get c then some ⟨0, none, none, none, none, 0, false, 0, 0, false, false⟩ else none) ∧
          exec (.runStart body) s =
            .next
              ⟨{ s.part.reply .runStart body .ok [1] with
                  acu :=
                    { a with
                      runState := .armed
                      current := some f
                      timer := some (p.arm * 1000)
                      measured := 0
                      aggregates := x
                      lastRun := ⟨.none, some f, none, none, 0, 0⟩ } },
                s.pending⟩) ∧
      (s.takes .logClear body →
        exec (.logClear body) s =
          .next
            ⟨{ s.part.reply .logClear body .ok [BitVec.ofNat 8 a.log.length] with
                acu := { a with log := [], lastRun := voided } },
              s.pending⟩))

/-- Start-up on the M-port. Each word of LOAD read OK leads to the next, in ascending order of the included offsets; a
failed read is status NOMEM, a wrong signature or format after the header ABSENT, a sum other than 0 BADSUM, and RECOVER
begins with the read of the header's state word; a sum of 0 puts the profile in force, SERVICE only when it is stored
and the COMMISSION strap is released. RECOVER goes by the header: CLOSED ends start-up with its record, the loaded
timeout in force and HOLD released; OPEN with a count of 1 to 48 reads the records, with 0 closes the header, otherwise
the journal is bad; it restores newest first with one retry; a state word that cannot be read twice ends start-up
NOREAD, stale. That start-up finds no cycle at the I-port is part of `State.mapLaw`, a statement of its own. That a
wrong signature or format is found when all 16 header words are read is the model's choice (log 40). -/
def Obligations.StartupLoadsThenRecovers : Prop :=
  ∀ (s : State) (p : MCycle) (q : IntRequest) (rest : List IntRequest) (w : Word), s.running →
    s.part.mpc.cycle = some p → p.client = .int → s.part.mpc.intQueue = q :: rest → q.owner = .phc →
    s.part.phc.phop.isStarting = true →
    let base := 0xFF000 - 0x1000 * s.part.straps.psel.toNat
    let read (offset : Nat) : MRequest := ⟨BitVec.ofNat 20 (base + offset), .read⟩
    let freed : Mpc := { s.part.mpc with cycle := none, intQueue := rest }
    let counted : Mpc :=
      { freed with
        faults := min 4294967295 (s.part.mpc.faults + 1)
        lastFailure := some ⟨.int, some .phc, p.request, .fault⟩ }
    let asks (t : Tru) (m : Mpc) (x : Phc) (r : MRequest) : Lc44 :=
      arbitrate { s.part with tru := t, phc := x, mpc := { m with intQueue := rest ++ [⟨.phc, r⟩] } }
    (∀ staged, s.part.phc.work = .loading staged → s.part.phc.phop = .starting .load →
      let words := staged ++ [w]
      let bad := words.getD 0 0 ≠ 0x5A4B ∨ words.getD 1 0 ≠ 1
      let recover (status : ProfileStatus) (m : Mpc) : Lc44 :=
        asks s.part.tru m
          { s.part.phc with phop := .starting .recover, work := .recovering status (.readState false) } (read 0x010)
      exec (.memoryAnswer .fault) s = .next ⟨recover .noMem counted, s.pending⟩ ∧
      (words.length < 16 ∨ 16 ≤ words.length ∧ words.length < 3696 ∧ ¬ bad →
        exec (.memoryAnswer (.ok w)) s =
          .next
            ⟨asks s.part.tru freed { s.part.phc with work := .loading words }
                (read (if words.length < 16 then words.length else 0x0A0 + words.length)),
              s.pending⟩) ∧
      (16 ≤ words.length → bad →
        exec (.memoryAnswer (.ok w)) s = .next ⟨recover .absent freed, s.pending⟩) ∧
      (words.length = 3696 → ¬ bad → wordSum words ≠ 0 →
        exec (.memoryAnswer (.ok w)) s = .next ⟨recover .badSum freed, s.pending⟩) ∧
      (words.length = 3696 → ¬ bad → wordSum words = 0 → s.part.iport.cycle = none →
        ∃ d, exec (.memoryAnswer (.ok w)) s = .next ⟨d, s.pending⟩ ∧
          d.phc =
            { s.part.phc with
              phop := .starting .recover
              work := .recovering .valid (.readState false)
              phase :=
                if (words.getD 2 0).toNat % 4 = 2 ∧ s.part.straps.commission = false then .service
                else .commissioning
              seconds := (words.getD 13 0).toNat + (words.getD 14 0).toNat * 65536
              accumulator := 0 } ∧
          d.mpc.timeout = s.part.mpc.timeout ∧ d.tru = s.part.tru ∧ d.ovu.map0 = [] ∧ d.ovu.map1 = [] ∧
          d.fgd.counts = s.part.fgd.counts ∧ d.tmu.mute = s.part.tmu.mute)) ∧
    (∀ (status : ProfileStatus) (retry : Bool), s.part.phc.work = .recovering status (.readState retry) →
      exec (.memoryAnswer (.ok w)) s =
        .next
          ⟨asks s.part.tru freed { s.part.phc with work := .recovering status (.readCount w false) } (read 0x011),
            s.pending⟩ ∧
      (retry = false →
        exec (.memoryAnswer .fault) s =
          .next
            ⟨asks s.part.tru counted { s.part.phc with work := .recovering status (.readState true) } (read 0x010),
              s.pending⟩) ∧
      (retry = true → s.part.sli.mirrorEnabled = false →
        exec (.memoryAnswer .fault) s =
          .next
            ⟨arbitrate
                { s.part with
                  tru := { s.part.tru with stale := true }
                  phc :=
                    { s.part.phc with
                      phop := .none
                      work := .idle
                      startup :=
                        some ⟨status, s.part.straps.commission, s.part.phc.phase, .noRead, 0, 0, .notWritten⟩ }
                  mpc := { counted with timeout := s.part.mpc.loadedTimeout.getD 20, loadedTimeout := none } },
              s.pending⟩)) ∧
    (∀ (status : ProfileStatus) (state : Word) (retry : Bool),
      s.part.phc.work = .recovering status (.readCount state retry) →
      let number := state.toNat / 256
      let low := state.toNat % 256
      let count := w.toNat
      let t : Tru := { s.part.tru with number := number }
      let closed : MRequest := ⟨BitVec.ofNat 20 (base + 0x010), .write (BitVec.ofNat 16 (number * 256))⟩
      let stage (g : RecoverStage) : Phc := { s.part.phc with work := .recovering status g }
      (low = 0 → s.part.sli.mirrorEnabled = false →
        let d : Lc44 :=
          { s.part with
            tru := t
            phc :=
              { s.part.phc with
                phop := .none
                work := .idle
                startup := some ⟨status, s.part.straps.commission, s.part.phc.phase, .closed, 0, 0, .notWritten⟩ }
            mpc := { freed with timeout := s.part.mpc.loadedTimeout.getD 20, loadedTimeout := none } }
        exec (.memoryAnswer (.ok w)) s = .next ⟨arbitrate d, s.pending⟩ ∧ d.holdLine = false) ∧
      (low = 1 → count = 0 →
        exec (.memoryAnswer (.ok w)) s =
          .next ⟨asks t freed (stage (.closeState number ⟨.empty, 0, 0⟩ false)) closed, s.pending⟩) ∧
      (low = 1 → 1 ≤ count → count ≤ 48 →
        exec (.memoryAnswer (.ok w)) s =
          .next ⟨asks t freed (stage (.readRecord number count [] [] false)) (read 0x012), s.pending⟩) ∧
      (1 < low ∨ low = 1 ∧ 48 < count →
        exec (.memoryAnswer (.ok w)) s =
          .next
            ⟨asks
                { t with
                  outcome :=
                    some
                      { number := number, result := some .badJournal, cause := some .resetRecovered,
                        entriesAtEnd := some 0, restored := some 0, unrestored := [], refused := none,
                        confirmFailures := none, lossCarrier := none, secondsOpen := none, recovered := true } }
                freed (stage (.closeState number ⟨.badJournal, 0, 0⟩ false)) closed,
              s.pending⟩)) ∧
    (∀ (status : ProfileStatus) (number count restored : Nat) (r x : JournalRecord) (older : List JournalRecord)
      (unrestored : List Addr) (retry : Bool),
      s.part.phc.work = .recovering status (.restore number count (r :: x :: older) restored unrestored retry) →
      let stage (g : RecoverStage) : Phc := { s.part.phc with work := .recovering status g }
      exec (.memoryAnswer (.ok w)) s =
        .next
          ⟨asks s.part.tru freed (stage (.restore number count (x :: older) (restored + 1) unrestored false))
              ⟨x.addr, .write x.preImage⟩,
            s.pending⟩ ∧
      exec (.memoryAnswer .fault) s =
        .next
          ⟨if retry = true then
              asks s.part.tru counted
                (stage (.restore number count (x :: older) restored (r.addr :: unrestored) false))
                ⟨x.addr, .write x.preImage⟩
            else
              asks s.part.tru counted (stage (.restore number count (r :: x :: older) restored unrestored true))
                ⟨r.addr, .write r.preImage⟩,
            s.pending⟩)

/-! ## Phases and the profile (chapter 9) -/

/-- BEGIN requests the read of the profile's first word; when it fails BEGIN is refused NOMEM and nothing else changes
but MPC's count and record; when it ends OK the phase is COMMISSIONING and every block takes its starting state, and
BEGIN is answered OK. The trial number, the stale flag, the outcome record, the start-up record and the mute state stay.
TMU hears no carrier afterwards, so it has no tone value or peak and the pitch is 400 Hz (log 26). WIPE: refused BUSY
with the trial or the run not IDLE; otherwise every block takes its starting state as by BEGIN, but ACU keeps its next
sequence and PHC its seconds and accumulator, the phase is TRANSPARENT, TMU is told that every carrier has left TRACK
and every peak is reset, and WIPE is answered OK. That the result of the operation record is absent while the
operation is NONE is the model's choice (log 36). -/
def Obligations.BeginAndWipeStartAfresh : Prop :=
  ((∀ (s : State) (body : List Byte), s.takes .begin body →
    exec (.beginReq body) s =
      .next
        ⟨arbitrate
            { s.part.takeInHand .begin body with
              phc := { s.part.phc with work := .probe }
              mpc :=
                { s.part.mpc with
                  intQueue := s.part.mpc.intQueue ++
                    [⟨.phc, ⟨BitVec.ofNat 20 (0xFF000 - 0x1000 * s.part.straps.psel.toNat), .read⟩⟩] } },
          s.pending⟩) ∧
  ∀ (s : State) (p : MCycle) (q : IntRequest) (w : Word), s.running → s.part.mpc.cycle = some p → p.client = .int →
    s.part.mpc.intQueue = [q] → q.owner = .phc → s.part.mpc.fwdWaiting = false → s.part.mpc.rstWaiting = none →
    s.part.mpc.mirWaiting = none → s.part.phc.work = .probe → s.part.sli.inHand = some Req.begin.code →
    exec (.memoryAnswer .fault) s =
      .next
        ⟨{ s.part.answerInHand .begin .noMem [] with
            phc := { s.part.phc with work := .idle }
            mpc :=
              { s.part.mpc with
                cycle := none
                intQueue := []
                faults := min 4294967295 (s.part.mpc.faults + 1)
                lastFailure := some ⟨.int, some .phc, p.request, .fault⟩ } },
          s.pending⟩ ∧
    ∃ d, exec (.memoryAnswer (.ok w)) s = .next ⟨d, s.pending⟩ ∧ d.resetAsserted = false ∧
      d.straps = s.part.straps ∧
      d.phc =
        { s.part.phc with
          phase := .commissioning, seconds := 0, accumulator := 0, work := .idle,
          operation := ⟨.none, none, none, none, 0, none, none⟩ } ∧
      d.mpc.timeout = 20 ∧ d.mpc.faults = 0 ∧ d.mpc.timeouts = 0 ∧ d.mpc.lastFailure = none ∧
      d.mpc.alternation = s.part.mpc.alternation ∧
      d.ccl.table = Vector.replicate 16 none ∧ d.ccl.faults = ⟨0, 0, 0, 0, 0, 0, 0⟩ ∧
      (s.part.iport.cycle = none → d.ccl.phase = .commissioning ∧ d.ccl.mirror = none) ∧
      (s.part.iport.cycle ≠ none → d.ccl.phase = s.part.ccl.phase) ∧
      d.fgd = ⟨Vector.replicate 64 none, Vector.replicate 64 0⟩ ∧
      d.tru = { s.part.tru with opened := 0, confirmed := 0, rolledBack := 0, ignoredMarks := 0 } ∧
      d.ovu = { s.part.ovu with map0 := [], map1 := [], fold := ⟨.none, none, none⟩ } ∧
      d.rcu = { State.reset.part.rcu with tickCount := s.part.rcu.tickCount } ∧
      d.acu = State.reset.part.acu ∧
      (d.tmu.mute = s.part.tmu.mute ∧ d.tmu.holdoff = s.part.tmu.holdoff ∧ d.tmu.mastRaw = s.part.tmu.mastRaw ∧
        d.tmu.mastAccepted = s.part.tmu.mastAccepted ∧ d.tmu.debounce = s.part.tmu.debounce) ∧
      d.tmu.settings = ⟨true, .carrier, 0, -900, 600⟩ ∧ d.tmu.holdoffSetting = 30 ∧
      (∀ c, d.tmu.view.get c = ⟨false, none⟩) ∧ d.tmu.value = none ∧ d.tmu.peak = none ∧ d.tmu.pitch = 400 ∧
      d.tmu.tone = .noSignal ∧
      d.sli =
        { s.part.sli.sends [response .begin .ok []] with
          mirrorEnabled := false, mirrorAddress := 0, refreshTimer := none, refresh := none, orphan := false,
          mirrorFaults := 0, mirrorAbandons := 0, refreshNumber := 0, lastCompleted := 0 }) ∧
  (∀ (s : State) (body : List Byte), s.takes .wipe body →
    (s.part.tru.state ≠ .idle ∨ s.part.acu.runState ≠ .idle →
      exec (.wipe body) s = .next ⟨s.part.reply .wipe body .busy [], s.pending⟩) ∧
    (s.part.tru.state = .idle → s.part.acu.runState = .idle →
      ∃ d, exec (.wipe body) s = .next ⟨d, s.pending⟩ ∧ d.resetAsserted = false ∧ d.straps = s.part.straps ∧
        d.phc =
          { s.part.phc with
            phase := .transparent, operation := ⟨.none, none, none, none, 0, none, none⟩ } ∧
        d.mpc =
          { s.part.mpc with
            timeout := 20, faults := 0, timeouts := 0, lastFailure := none, mirWaiting := none } ∧
        d.ccl.table = Vector.replicate 16 none ∧ d.ccl.faults = ⟨0, 0, 0, 0, 0, 0, 0⟩ ∧
        d.fgd = ⟨Vector.replicate 64 none, Vector.replicate 64 0⟩ ∧
        d.tru = { s.part.tru with opened := 0, confirmed := 0, rolledBack := 0, ignoredMarks := 0 } ∧
        d.ovu = { s.part.ovu with map0 := [], map1 := [], fold := ⟨.none, none, none⟩ } ∧
        d.rcu = { State.reset.part.rcu with tickCount := s.part.rcu.tickCount } ∧
        d.acu = { State.reset.part.acu with nextSequence := s.part.acu.nextSequence } ∧
        d.tmu.mute = s.part.tmu.mute ∧ d.tmu.holdoff = s.part.tmu.holdoff ∧
        d.tmu.settings = ⟨true, .carrier, 0, -900, 600⟩ ∧ d.tmu.holdoffSetting = 30 ∧ d.tmu.tone = .silent ∧
        (∀ c, d.tmu.view.get c = ⟨false, none⟩) ∧ d.tmu.value = none ∧ d.tmu.peak = none ∧ d.tmu.pitch = 400 ∧
        d.raised.tmu = s.part.raised.tmu ++ [.leftTrack allCarriers, .peakReset allCarriers] ∧
        d.sli.sending = some [response .wipe .ok []] ∧ d.sli.mirrorEnabled = false ∧ d.sli.mirrorAddress = 0 ∧
        d.sli.mirrorFaults = 0 ∧ d.sli.mirrorAbandons = 0 ∧ d.sli.refreshNumber = 0 ∧ d.sli.lastCompleted = 0 ∧
        (∀ (c : ICycle) (void : Bool) (data : Word) (m : MapId) (base : Addr), s.part.iport.cycle = some c →
          c.stage = .redirected void → c.cycle.op = .write data → c.record.treatment = .redirect m base →
          d.iport.cycle = some { c with stage := .redirected true })))

/-- SAVE with the trial IDLE, or OPEN with no rollback due: PHOP is SAVING, the operation record is begun, the image
is fixed, its first write (the signature word, 0000h) is requested, and SAVE is answered ACCEPTED; in another trial
state it is refused BUSY. A write that ends OK, of a save or of a handover in WRITE, is followed by the next of the
3,697; the last ends the operation DONE, PHOP NONE, and a handover then sets the phase SERVICE, which CCL takes when no
cycle is in progress and TMU recomputes under. A memory FAULT ends it FAILED with the offset and the outcome, for a
handover with cause WRITE, and the phase stays. The write that failed counts among the writes made (log 13, the model's
choice). The images of SAVE and of the handover: 3,696 words whose sum
modulo 65,536 is 0, signature, format and phase in their places; the writes go to offset 0 with 0000h, to 0B0h to
F0Fh, to 001h to 00Fh, and to offset 0 with the signature, each included offset but 0 once. -/
def Obligations.SavesWriteImagesThatSumToZero : Prop :=
  ((∀ (s : State) (body : List Byte), s.takes .save body →
    (s.part.tru.state = .idle ∨ s.part.tru.state = .open ∧ s.part.tru.due = none →
      exec (.save body) s =
        .next
          ⟨arbitrate
              { s.part.reply .save body .accepted [] with
                phc :=
                  { s.part.phc with
                    phop := .saving
                    operation := ⟨.save, some .running, none, none, 0, none, none⟩
                    work := .writing (saveImage s.part) 0 }
                mpc :=
                  { s.part.mpc with
                    intQueue := s.part.mpc.intQueue ++
                      [⟨.phc, ⟨BitVec.ofNat 20 (0xFF000 - 0x1000 * s.part.straps.psel.toNat), .write 0⟩⟩] } },
            s.pending⟩) ∧
    (s.part.mpc.settled → (s.part.tru.state = .opening ∨ s.part.tru.state = .closing ∨
        s.part.tru.state = .rollingBack ∨ s.part.tru.state = .open ∧ s.part.tru.due ≠ none) →
      exec (.save body) s = .next ⟨s.part.reply .save body .busy [], s.pending⟩)) ∧
  ∀ (s : State) (p : MCycle) (q : IntRequest) (rest : List IntRequest) (image : List Word) (k : Nat) (w : Word),
    s.running → s.part.mpc.cycle = some p → p.client = .int → s.part.mpc.intQueue = q :: rest → q.owner = .phc →
    s.part.phc.work = .writing image k →
    (s.part.phc.phop = .saving ∨ s.part.phc.phop = .handingOver .write) →
    let freed : Mpc := { s.part.mpc with cycle := none, intQueue := rest }
    let op := s.part.phc.operation
    let offset (j : Nat) : Nat := (imageWrite image j).1
    (k < 3696 →
      exec (.memoryAnswer (.ok w)) s =
        .next
          ⟨arbitrate
              { s.part with
                phc :=
                  { s.part.phc with
                    work := .writing image (k + 1), operation := { op with writes := op.writes + 1 } }
                mpc :=
                  { freed with
                    intQueue := rest ++
                      [⟨.phc,
                        ⟨BitVec.ofNat 20 (0xFF000 - 0x1000 * s.part.straps.psel.toNat + offset (k + 1)),
                          .write (imageWrite image (k + 1)).2⟩⟩] } },
            s.pending⟩) ∧
    let done : Phc :=
      { s.part.phc with
        phop := .none
        work := .idle
        operation := { op with writes := op.writes + 1, result := some .done } }
    (k = 3696 → s.part.phc.phop = .saving →
      exec (.memoryAnswer (.ok w)) s =
        .next ⟨arbitrate { s.part with phc := done, mpc := freed }, s.pending⟩) ∧
    (k = 3696 → s.part.phc.phop = .handingOver .write →
      exec (.memoryAnswer (.ok w)) s =
        .next
          ⟨arbitrate
              { s.part with
                phc := { done with phase := .service }
                tmu := s.part.tmu.recomputed .service
                ccl :=
                  if s.part.iport.cycle = none then
                    { s.part.ccl with
                      phase := .service
                      mirror := if s.part.sli.mirrorEnabled then some s.part.sli.mirrorAddress else none }
                  else s.part.ccl
                mpc := freed },
            s.pending⟩) ∧
    exec (.memoryAnswer .fault) s =
      .next
        ⟨arbitrate
            { s.part with
              phc :=
                { s.part.phc with
                  phop := .none
                  work := .idle
                  operation :=
                    { op with
                      writes := op.writes + 1
                      result := some .failed
                      cause := if s.part.phc.phop = .saving then none else some .write
                      failOffset := some (offset k)
                      failOutcome := some .fault } }
              mpc :=
                { freed with
                  faults := min 4294967295 (s.part.mpc.faults + 1)
                  lastFailure := some ⟨.int, some .phc, p.request, .fault⟩ } },
          s.pending⟩) ∧
  ((∀ d : Lc44, d.acu.log.length ≤ 64 → (∀ r ∈ d.acu.log, r.results.length ≤ 4) →
    ((saveImage d).length = 3696 ∧ wordSum (saveImage d) = 0 ∧ (saveImage d)[0]? = some 0x5A4B ∧
      (saveImage d)[1]? = some 1 ∧ ((saveImage d)[2]?.map fun w => w.toNat % 4) = some 1) ∧
    ((handoverImage d).length = 3696 ∧ wordSum (handoverImage d) = 0 ∧ (handoverImage d)[0]? = some 0x5A4B ∧
      (handoverImage d)[1]? = some 1 ∧ ((handoverImage d)[2]?.map fun w => w.toNat % 4) = some 2)) ∧
  ∀ image : List Word,
    imageWrite image 0 = (0, 0) ∧
    (∀ k, 1 ≤ k → k ≤ 3680 → imageWrite image k = (0x0AF + k, image.getD (15 + k) 0)) ∧
    (∀ k, 3681 ≤ k → k ≤ 3695 → imageWrite image k = (k - 3680, image.getD (k - 3680) 0)) ∧
    imageWrite image 3696 = (0, image.getD 0 0))

/-- What SAVE stores, start-up LOAD reads back: the field rules, the plan slots, the carrier settings and the report
layout of a state whose items are as their loads check them come back from its save image. -/
def Obligations.SavedDefinitionsLoadAsTheyWere : Prop :=
  ∀ d : Lc44, d.acu.log.length ≤ 64 → (∀ r ∈ d.acu.log, r.results.length ≤ 4) →
    let staged := saveImage d
    (∀ (i : Fin 64) (b : List Byte) (f : Fgd), (RawRule.ofBody b).argsOk = true →
      (RawRule.ofBody b).toRule.defOk (f.others i.val) = true → d.fgd.rules[i] = some (RawRule.ofBody b).toRule →
      loadRuleAt staged f i = { f with rules := f.rules.set i (some (RawRule.ofBody b).toRule) }) ∧
    (∀ (i : Fin 64) (f : Fgd), d.fgd.rules[i] = none → loadRuleAt staged f i = { f with rules := f.rules.set i none }) ∧
    (∀ (i : Fin 32) (b : List Byte) (p : PlanStep), (RawStep.ofBody b).check = some p → d.acu.plan[i] = some p →
      loadStepFrom staged i.val = some p) ∧
    (∀ i : Fin 32, d.acu.plan[i] = none → loadStepFrom staged i.val = none) ∧
    (∀ (c : Carrier) (b : List Byte), (RawCarrier.ofBody b).check = some (d.rcu.records.get c).settings →
      loadCarrierFrom staged c = (d.rcu.records.get c).settings) ∧
    (∀ b : List Byte, checkLayout (byteAt b 1) (rawSlotsOfBody b) = d.rcu.layout →
      loadLayoutFrom staged = d.rcu.layout)

/-! ## The service line (chapter 10) -/

/-- R187: the frame state of the receiver for each byte, with the gap timer of 20 ms reloaded outside HUNT; the gap
timer's expiry, taken with the timer at 0 (log 1; otherwise it changes nothing), and a line error discard a partial
frame, counted; in HUNT a line error is ignored; while PHOP is STARTING every byte is ignored. At reset the state is
HUNT and the timer stopped. After a bad length the one byte that follows is the code of a bad frame, and the receiver is
in HUNT, reading no body (R188); what the gap timer and a line error do there is said with the line's other events. -/
def Obligations.ReceiverMovesByteByByte : Prop :=
  (State.reset.part.sli.rx = .hunt ∧ State.reset.part.sli.gap = none ∧ State.reset.part.sli.completed = []) ∧
  ∀ (s : State) (b : Byte), s.running →
    let l := s.part.sli
    let next (r : RxState) : Host.Outcome State Fault Refusal :=
      .next ⟨{ s.part with sli := { l with rx := r, gap := some 20 } }, s.pending⟩
    let done (f : RxFrame) : Host.Outcome State Fault Refusal :=
      .next ⟨{ s.part with sli := { l with rx := .hunt, gap := none, completed := l.completed ++ [f] } }, s.pending⟩
    let dropped : Host.Outcome State Fault Refusal :=
      .next
        ⟨{ s.part with sli := { l with rx := .hunt, gap := none, discarded := min 65535 (l.discarded + 1) } },
          s.pending⟩
    (s.part.phc.phop.isStarting = true →
      exec (.byteReceived b) s = .next s ∧ exec .lineError s = .next s ∧ exec .gapTimerExpiry s = .next s) ∧
    (s.part.deaf = false →
      (l.rx = .hunt → b = 0xC3 → exec (.byteReceived b) s = next .length) ∧
      (l.rx = .hunt → b ≠ 0xC3 → exec (.byteReceived b) s = .next s) ∧
      (l.rx = .length → 1 ≤ b.toNat → b.toNat ≤ 65 → exec (.byteReceived b) s = next (.code b.toNat)) ∧
      (l.rx = .length → (b.toNat = 0 ∨ 65 < b.toNat) → exec (.byteReceived b) s = next .badLength) ∧
      (l.rx = .code 1 → exec (.byteReceived b) s = next (.check 1 b [])) ∧
      (∀ len, l.rx = .code len → 1 < len → exec (.byteReceived b) s = next (.body len b [])) ∧
      (∀ len code held, l.rx = .body len code held →
        (held.length + 2 < len → exec (.byteReceived b) s = next (.body len code (held ++ [b]))) ∧
        (len ≤ held.length + 2 → exec (.byteReceived b) s = next (.check len code (held ++ [b])))) ∧
      (∀ len code held, l.rx = .check len code held →
        (BitVec.ofNat 8 len + code + byteSum held + b = 0 → exec (.byteReceived b) s = done (.good code held)) ∧
        (BitVec.ofNat 8 len + code + byteSum held + b ≠ 0 →
          exec (.byteReceived b) s = done (.bad (some code)))) ∧
      (l.rx = .badLength → exec (.byteReceived b) s = done (.bad (some b))) ∧
      (l.rx = .hunt → exec .lineError s = .next s ∧ exec .gapTimerExpiry s = .next s) ∧
      (l.rx ≠ .hunt → l.rx ≠ .badLength →
        exec .lineError s = dropped ∧ (l.gap = some 0 → exec .gapTimerExpiry s = dropped)) ∧
      (l.gap ≠ some 0 → exec .gapTimerExpiry s = .next s))

/-- R186: every frame the LC44 builds from a body of at most 64 bytes is good: its bytes from the length on sum to 0,
and a receiver in HUNT completes it as a good frame with that code and body; a frame that completes is good exactly when
the sum of its length, code, body and checksum is 0. Every frame that the LC44 sends is built so: its body has at most
64 bytes and its code is a response code above 80h, which every step keeps. Request codes lie in 01h to 7Fh and a
response carries the code plus 80h, or FFh for a code outside that range. -/
def Obligations.FramesSentAreGood : Prop :=
  (∀ (code : Byte) (body : List Byte), body.length ≤ 64 →
    ((frame code body).headD 0 = 0xC3) ∧ byteSum (frame code body).tail = 0 ∧
    (frame code body)[1]? = some (BitVec.ofNat 8 (body.length + 1)) ∧
    ∀ l : Sli, l.rx = .hunt →
      (frame code body).foldl (fun l b => l.receive b) l =
        { l with rx := .hunt, gap := none, completed := l.completed ++ [.good code body] }) ∧
  (∀ (l : Sli) (len : Nat) (code b : Byte) (body : List Byte), l.rx = .check len code body →
    ((l.receive b).completed = l.completed ++ [.good code body] ↔
      BitVec.ofNat 8 len + code + byteSum body + b = 0) ∧
    (BitVec.ofNat 8 len + code + byteSum body + b ≠ 0 →
      (l.receive b).completed = l.completed ++ [.bad (some code)])) ∧
  (∀ (l : Sli) (b : Byte), l.rx = .length →
    ((l.receive b).rx = .code b.toNat ↔ 1 ≤ b.toNat ∧ b.toNat ≤ 65)) ∧
  (∀ r : Req, 1 ≤ r.code.toNat ∧ r.code.toNat ≤ 0x7F ∧ responseCode r.code = r.code + 0x80) ∧
  (∀ code : Byte, code.toNat = 0 ∨ 0x7F < code.toNat → responseCode code = 0xFF) ∧
  ∀ s t : State, s.framesLaw → step s = .next t → t.framesLaw

/-- The line's other events. BAD_FRAME with no request in hand is answered BADFRAME with the code plus 80h, or FFh, and
counted; with one in hand it is discarded and counted. A byte received after a bad length completes a bad frame with
that byte as its code, and the BADFRAME answer carries it plus 80h, or FFh (R188). A bad length that no byte followed is
answered with FFh at the gap timer's expiry, taken with the timer at 0 (log 1), or with a request in hand discarded and
counted; that the expiry is not counted as a discard too, and that a line error there discards without an answer, are
the model's choices (log 16). When a response begins, the frames still held are discarded and counted (R189; log 8).
FRAME_DISCARDED counts a frame completed while a request is in hand. RESPONSE_SENT ends the response and the request,
the receiver in HUNT with nothing held. UNKNOWN_REQUEST is answered UNKNOWN. -/
def Obligations.LineEventsAreAnsweredOrCounted : Prop :=
  ∀ (s : State), s.running →
    let l := s.part.sli
    (s.part.deaf = false → l.inHand = none →
      (∀ code : Option Byte,
        exec (.badFrame code) s =
          .next
            ⟨{ s.part with
                sli := { l with
                  completed := l.completed.erase (.bad code)
                  badFrames := min 65535 (l.badFrames + 1) }.sends
                    [frame (match code with
                      | none => 0xFF
                      | some c => if 1 ≤ c.toNat ∧ c.toNat ≤ 0x7F then c + 0x80 else 0xFF) [0x0B]] },
              s.pending⟩) ∧
      (∀ b : Byte, l.rx = .badLength →
        ∃ t : State, exec (.byteReceived b) s = .next t ∧
          exec (.badFrame (some b)) t =
            .next
              ⟨{ s.part with
                  sli := { l with
                    rx := .hunt
                    gap := none
                    completed := []
                    badFrames := min 65535 (l.badFrames + 1)
                    discarded := min 65535 (l.discarded + l.completed.length)
                    sending := some [frame (if 1 ≤ b.toNat ∧ b.toNat ≤ 0x7F then b + 0x80 else 0xFF) [0x0B]] } },
                s.pending⟩) ∧
      (l.rx = .badLength → l.gap = some 0 →
        exec .gapTimerExpiry s =
          .next
            ⟨{ s.part with
                sli := { l with
                  rx := .hunt
                  gap := none
                  completed := []
                  discarded := min 65535 (l.discarded + l.completed.length)
                  badFrames := min 65535 (l.badFrames + 1)
                  sending := some [frame 0xFF [0x0B]] } },
              s.pending⟩) ∧
      ∀ (code : Byte) (body : List Byte), (∀ r : Req, r.code ≠ code) →
        exec (.unknownRequest code body) s =
          .next
            ⟨{ s.part with
                sli := { l with
                  completed := l.completed.erase (.good code body)
                  inHand := some code
                  taken := min 65535 (l.taken + 1) }.sends
                    [frame (if 1 ≤ code.toNat ∧ code.toNat ≤ 0x7F then code + 0x80 else 0xFF) [0x0C]] },
              s.pending⟩) ∧
    (s.part.deaf = false → l.rx = .badLength →
      let dropped : Sli := { l with rx := .hunt, gap := none, discarded := min 65535 (l.discarded + 1) }
      exec .lineError s = .next ⟨{ s.part with sli := dropped }, s.pending⟩ ∧
      (l.inHand ≠ none → l.gap = some 0 →
        exec .gapTimerExpiry s = .next ⟨{ s.part with sli := dropped }, s.pending⟩)) ∧
    (s.part.deaf = false → l.inHand ≠ none →
      (∀ code : Option Byte,
        exec (.badFrame code) s =
          .next
            ⟨{ s.part with
                sli := { l with
                  completed := l.completed.erase (.bad code)
                  discarded := min 65535 (l.discarded + 1) } },
              s.pending⟩) ∧
      exec .frameDiscarded s =
        .next
          ⟨{ s.part with
              sli := { l with completed := l.completed.tail, discarded := min 65535 (l.discarded + 1) } },
            s.pending⟩) ∧
    (l.sending ≠ none →
      exec .responseSent s =
        .next
          ⟨{ s.part with sli := { l with sending := none, inHand := none, rx := .hunt, gap := none, completed := [] } },
            s.pending⟩)

/-- R193: the requests the filter takes in each phase and operation state, the status of the others, and the order of
the checks: the filter, then the body length, then the owner; a code that names no request is answered UNKNOWN. No
frame is taken while PHOP is STARTING. -/
def Obligations.RequestsPassTheChecksInOrder : Prop :=
  let reads : List Req :=
    [.ident, .status, .readRegion, .readRule, .readLayout, .readCarrier, .readTrial, .readOverlay, .readStep, .readLog]
  (∀ r : Req,
    requestFilter .transparent .none r =
      (if r ∈ [Req.ident, .status, .begin, .muteRelease] then none else some .badPhase) ∧
    requestFilter .commissioning .none r = (if r = .begin then some .badPhase else none) ∧
    requestFilter .commissioning .saving r = (if r ∈ reads then none else some .busy) ∧
    (∀ h, requestFilter .commissioning (.handingOver h) r = if r ∈ reads then none else some .busy) ∧
    requestFilter .service .none r =
      (if r ∈ reads ++ [.peakReset, .setTone, .muteRelease] then none else some .badPhase)) ∧
  (∀ (r : Req) (body : List Byte) (owner : List Byte → Lc44 → Lc44) (d : Lc44), d.deaf = false →
    d.sli.inHand = none →
    (∀ status, requestFilter d.phc.phase d.phc.phop r = some status →
      request r owner body d = d.reply r body status (refusalData r d)) ∧
    (requestFilter d.phc.phase d.phc.phop r = none → body.length ≠ r.bodyLength →
      request r owner body d = d.reply r body .badArg (refusalData r d)) ∧
    (requestFilter d.phc.phase d.phc.phop r = none → body.length = r.bodyLength →
      request r owner body d = owner body (d.takeInHand r body))) ∧
  (∀ (r : Req) (body : List Byte) (owner : List Byte → Lc44 → Lc44) (d : Lc44),
    d.phc.phop.isStarting = true → request r owner body d = d) ∧
  (∀ code : Byte, namesRequest code = true ↔ ∃ r : Req, r.code = code) ∧
  ∀ (s : State) (code : Byte) (body : List Byte), s.running → s.part.deaf = false → s.part.sli.inHand = none →
    namesRequest code = false →
    exec (.unknownRequest code body) s =
      .next ⟨answer .unknown [] (takeFrame code body s.part), s.pending⟩ ∧
    (code.toNat = 0 ∨ 0x7F < code.toNat → responseCode code = 0xFF)

/-- IDENT, STATUS and the eight READ requests are answered OK with their report and change nothing but the service line;
an index outside its table, a carrier above 3, a map, part or page beyond its range is answered BADARG. READ-TRIAL names
the trial state itself, OPEN while a rollback is due, where STATUS shows ROLLING_BACK (R83, R85). The bytes of the
reports are the model's reading and choices (logs 9, 10, 11, 32, 33, 36). -/
def Obligations.ReportsChangeNothing : Prop :=
  ∀ (s : State) (body : List Byte),
    let d := s.part
    let n := byteAt body 0
    (s.takes .ident body →
      exec (.ident body) s =
        .next
          ⟨d.reply .ident body .ok
              ([0x4C, 0x43, 0x34, 0x34, 0x01] ++ bytesBE 3 (0xFF000 - 0x1000 * d.straps.psel.toNat) ++
                [if d.straps.commission then 1 else 0, if d.straps.depol then 1 else 0,
                  BitVec.ofNat 8 d.phc.phase.code, BitVec.ofNat 8 d.phc.phop.code]),
            s.pending⟩) ∧
    (s.takes .status body →
      exec (.status body) s =
        .next ⟨d.replyChain .status body (statusData (d.takeInHand .status body)), s.pending⟩) ∧
    (s.takes .readRegion body →
      (∀ i : Fin 16, i.val = n →
        exec (.readRegion body) s = .next ⟨d.reply .readRegion body .ok (regionData n d.ccl.table[i]), s.pending⟩) ∧
      (16 ≤ n → exec (.readRegion body) s = .next ⟨d.reply .readRegion body .badArg [], s.pending⟩)) ∧
    (s.takes .readRule body →
      (∀ i : Fin 64, i.val = n →
        exec (.readRule body) s =
          .next ⟨d.reply .readRule body .ok (ruleData n d.fgd.rules[i] d.fgd.counts[i]), s.pending⟩) ∧
      (64 ≤ n → exec (.readRule body) s = .next ⟨d.reply .readRule body .badArg [], s.pending⟩)) ∧
    (s.takes .readLayout body →
      exec (.readLayout body) s =
        .next ⟨d.reply .readLayout body .ok (layoutData d.rcu.layout), s.pending⟩) ∧
    (s.takes .readCarrier body →
      (∀ c : Carrier, c.val = n →
        exec (.readCarrier body) s =
          .next
            ⟨d.reply .readCarrier body .ok (recordData (d.rcu.records.get c) d.rcu.tickCount), s.pending⟩) ∧
      (4 ≤ n → exec (.readCarrier body) s = .next ⟨d.reply .readCarrier body .badArg [], s.pending⟩)) ∧
    (s.takes .readTrial body →
      let data := if n = 0 then journalData (byteAt body 1) d.tru else outcomeData (byteAt body 1) d.tru.outcome
      (∀ page, (journalData page d.tru)[0]? = some (BitVec.ofNat 8 d.tru.state.code)) ∧
      (∀ due, d.tru.due = some due → (trialGroup d.tru)[0]? = some (BitVec.ofNat 8 TrialState.rollingBack.code)) ∧
      (n ≤ 1 → byteAt body 1 ≤ 5 → data.length ≤ 63 →
        exec (.readTrial body) s = .next ⟨d.reply .readTrial body .ok data, s.pending⟩) ∧
      (n ≤ 1 → byteAt body 1 ≤ 5 → 63 < data.length →
        exec (.readTrial body) s = .next ⟨d.replyChain .readTrial body data, s.pending⟩) ∧
      (1 < n ∨ 5 < byteAt body 1 →
        exec (.readTrial body) s = .next ⟨d.reply .readTrial body .badArg [], s.pending⟩)) ∧
    (s.takes .readOverlay body →
      (∀ m : MapId, m.code = n → byteAt body 1 ≤ 1 →
        exec (.readOverlay body) s =
          .next ⟨d.reply .readOverlay body .ok (overlayData m (byteAt body 1) d), s.pending⟩) ∧
      (1 < n ∨ 1 < byteAt body 1 →
        exec (.readOverlay body) s = .next ⟨d.reply .readOverlay body .badArg [], s.pending⟩)) ∧
    (s.takes .readStep body →
      (∀ i : Fin 32, i.val = n →
        exec (.readStep body) s = .next ⟨d.reply .readStep body .ok (stepData n d.acu d.acu.plan[i]), s.pending⟩) ∧
      (32 ≤ n → exec (.readStep body) s = .next ⟨d.reply .readStep body .badArg [], s.pending⟩)) ∧
    (s.takes .readLog body →
      (n ≤ 63 →
        exec (.readLog body) s = .next ⟨d.replyChain .readLog body (logData n d.acu), s.pending⟩) ∧
      (63 < n → exec (.readLog body) s = .next ⟨d.reply .readLog body .badArg [], s.pending⟩))

/-- A round trip between reports and loads. The reports of READ-REGION, READ-RULE, READ-LAYOUT and READ-STEP are bodies
of the load request that would reload the item: a definition that a load accepted is accepted again from its report, as
the same definition. The sizes and order of the reports' fields, and the 0 in the fields that a treatment, kind or step
does not use, are the model's reading and choice (logs 9 and 11). -/
def Obligations.ReportsReloadTheirItems : Prop :=
  (∀ (psel : BitVec 2) (closing : Option Nat) (taken : MapId → Bool) (b : List Byte) (r : Region) (i : Fin 16),
    (RawRegion.ofBody b).check psel closing taken = some r →
    (regionData i.val (some r)).length = 24 ∧ byteAt (regionData i.val (some r)) 0 = i.val ∧
      byteAt (regionData i.val (some r)) 1 = 0 ∧
      (RawRegion.ofBody (regionData i.val (some r))).check psel closing taken = some r) ∧
  (∀ (others : List Rule) (b : List Byte) (i : Fin 64) (count : Nat), count ≤ 255 →
    (RawRule.ofBody b).argsOk = true → (RawRule.ofBody b).toRule.defOk others = true →
    let r := (RawRule.ofBody b).toRule
    let data := ruleData i.val (some r) count
    data.length = 16 ∧ byteAt data 0 = i.val ∧ byteAt data 1 = 0 ∧ byteAt data 15 = count ∧
      (RawRule.ofBody data).argsOk = true ∧ (RawRule.ofBody data).toRule = r) ∧
  (∀ (b : List Byte) (l : Layout), checkLayout (byteAt b 1) (rawSlotsOfBody b) = some l →
    (layoutData (some l)).length = 42 ∧ byteAt (layoutData (some l)) 0 = 0 ∧
      checkLayout (byteAt (layoutData (some l)) 1) (rawSlotsOfBody (layoutData (some l))) = some l) ∧
  ∀ (b : List Byte) (p : PlanStep) (a : Acu) (i : Fin 32), (RawStep.ofBody b).check = some p →
    1 ≤ a.planLength → a.planLength ≤ 32 →
    (stepData i.val a (some p)).length = 36 ∧ byteAt (stepData i.val a (some p)) 0 = i.val ∧
      checkStepBody (stepData i.val a (some p)) = some (some p)

/-- The loads of tables: refused BUSY with the trial or the run not IDLE, with the tables as they were. LOAD-REGION
replaces its entry, clearing the maps of the old and the new one and voiding a redirected write to them; LOAD-RULE its
rule, its violation count 0 and no longer moved by a sequence in progress; LOAD-LAYOUT the layout, all buffers cleared.
Each is answered OK, and BADARG when a check fails, be it of an index, a flag or the definition (BADRULE for a
LOAD-RULE's definition), with the tables as they were. That initiators bits above bit 1 refuse a LOAD-REGION (log
38), and that the signed byte of a layout slot of kind NONE is not checked (log 42), are the model's choices. -/
def Obligations.TableLoadsReplaceOneItem : Prop :=
  ∀ (s : State) (body : List Byte),
    let d := s.part
    let free := d.tru.state = .idle ∧ d.acu.runState = .idle
    (¬ free →
      (s.takes .loadRegion body →
        exec (.loadRegion body) s = .next ⟨d.reply .loadRegion body .busy [], s.pending⟩) ∧
      (s.takes .loadRule body → exec (.loadRule body) s = .next ⟨d.reply .loadRule body .busy [], s.pending⟩) ∧
      (s.takes .loadLayout body →
        exec (.loadLayout body) s = .next ⟨d.reply .loadLayout body .busy [], s.pending⟩)) ∧
    (free → s.takes .loadRegion body →
      (∀ (i : Fin 16) (new : Option Region) (taken : MapId → Bool), i.val = byteAt body 0 →
        (∀ m, taken m = true ↔
          ∃ (j : Fin 16) (q : Region), j ≠ i ∧ d.ccl.table[j] = some q ∧ q.map = some m) →
        (byteAt body 1 = 1 ∧ new = none ∨
          byteAt body 1 = 0 ∧ new ≠ none ∧
            (RawRegion.ofBody body).check d.straps.psel (d.rcu.layout.map Layout.closing)
              taken = new) →
        let cleared (m : MapId) : Prop :=
          d.ccl.table[i].bind Region.map = some m ∨ new.bind Region.map = some m
        ∃ e, exec (.loadRegion body) s = .next ⟨e, s.pending⟩ ∧ d.keepsOutside [.iport, .ccl, .ovu, .sli] e ∧
          e.sli = (d.reply .loadRegion body .ok []).sli ∧ e.ccl = { d.ccl with table := d.ccl.table.set i new } ∧
          e.ovu = { d.ovu with map0 := e.ovu.map0, map1 := e.ovu.map1 } ∧
          (∀ m, (cleared m → e.ovu.map m = []) ∧ (¬ cleared m → e.ovu.map m = d.ovu.map m)) ∧
          e.iport.answer = d.iport.answer ∧
          (d.iport.cycle = none → e.iport.cycle = none) ∧
          ∀ c, d.iport.cycle = some c →
            (∀ void data m base, c.stage = .redirected void → c.cycle.op = .write data →
              c.record.treatment = .redirect m base → cleared m →
              e.iport.cycle = some { c with stage := .redirected true }) ∧
            ((∀ m base, c.record.treatment = .redirect m base → ¬ cleared m) → e.iport.cycle = some c)) ∧
      (∀ (i : Fin 16) (taken : MapId → Bool), i.val = byteAt body 0 →
        (∀ m, taken m = true ↔
          ∃ (j : Fin 16) (q : Region), j ≠ i ∧ d.ccl.table[j] = some q ∧ q.map = some m) →
        byteAt body 1 = 0 →
        (RawRegion.ofBody body).check d.straps.psel (d.rcu.layout.map Layout.closing) taken = none →
        exec (.loadRegion body) s = .next ⟨d.reply .loadRegion body .badArg [], s.pending⟩) ∧
      (16 ≤ byteAt body 0 ∨ 1 < byteAt body 1 →
        exec (.loadRegion body) s = .next ⟨d.reply .loadRegion body .badArg [], s.pending⟩)) ∧
    (free → s.takes .loadRule body →
      (∀ (i : Fin 64) (new : Option Rule), i.val = byteAt body 0 →
        (byteAt body 1 = 1 ∧ new = none ∨
          byteAt body 1 = 0 ∧ (RawRule.ofBody body).argsOk = true ∧
            new = some (RawRule.ofBody body).toRule ∧
            (RawRule.ofBody body).toRule.field.shapeOk = true ∧ (RawRule.ofBody body).toRule.boundsOk = true ∧
            ∀ (j : Fin 64) (q : Rule), j ≠ i → d.fgd.rules[j] = some q →
              (RawRule.ofBody body).toRule.lockConflict q = false) →
        exec (.loadRule body) s =
          .next
            ⟨{ d.reply .loadRule body .ok [] with
                fgd := { d.fgd with rules := d.fgd.rules.set i new, counts := d.fgd.counts.set i 0 }
                iport := { d.iport with
                  cycle := d.iport.cycle.map fun c =>
                    { c with stage := c.stage.unlive fun k => decide (k = i) } } },
              s.pending⟩) ∧
      (∀ i : Fin 64, i.val = byteAt body 0 → byteAt body 1 = 0 → (RawRule.ofBody body).argsOk = true →
        ((RawRule.ofBody body).toRule.field.shapeOk = false ∨ (RawRule.ofBody body).toRule.boundsOk = false ∨
          ∃ (j : Fin 64) (q : Rule), j ≠ i ∧ d.fgd.rules[j] = some q ∧
            (RawRule.ofBody body).toRule.lockConflict q = true) →
        exec (.loadRule body) s = .next ⟨d.reply .loadRule body .badRule [], s.pending⟩) ∧
      (64 ≤ byteAt body 0 ∨ 1 < byteAt body 1 ∨ byteAt body 1 = 0 ∧ (RawRule.ofBody body).argsOk = false →
        exec (.loadRule body) s = .next ⟨d.reply .loadRule body .badArg [], s.pending⟩)) ∧
    (free → s.takes .loadLayout body →
      (∀ new : Option Layout,
        (byteAt body 0 = 1 ∧ new = none ∨
          byteAt body 0 = 0 ∧ new ≠ none ∧ checkLayout (byteAt body 1) (rawSlotsOfBody body) = new ∧
            ∀ (j : Fin 16) (q : Region) (first count stride : Nat), d.ccl.table[j] = some q →
              q.treatment = .observe first count stride → byteAt body 1 < stride) →
        exec (.loadLayout body) s =
          .next
            ⟨{ d.reply .loadLayout body .ok [] with
                rcu := { d.rcu with layout := new, buffers := State.reset.part.rcu.buffers } },
              s.pending⟩) ∧
      (byteAt body 0 = 0 →
        (checkLayout (byteAt body 1) (rawSlotsOfBody body) = none ∨
          ∃ (j : Fin 16) (q : Region) (first count stride : Nat), d.ccl.table[j] = some q ∧
            q.treatment = .observe first count stride ∧ stride ≤ byteAt body 1) →
        exec (.loadLayout body) s = .next ⟨d.reply .loadLayout body .badArg [], s.pending⟩) ∧
      (1 < byteAt body 0 →
        exec (.loadLayout body) s = .next ⟨d.reply .loadLayout body .badArg [], s.pending⟩))

/-- The status mirror. SET-MIRROR that is good abandons a refresh uncounted, reports the new range to CCL and, enabled,
begins a refresh with the timer at 250 ms; one that is bad is refused BADARG. REFRESH_TIMER_EXPIRY of a timer that has
counted down to 0 (log 1; otherwise nothing happens) begins the next refresh: the number rises (from 65,535 to 1), the
16 values are fixed, the first word is requested, and the timer is reloaded; an unfinished refresh is abandoned and
counted. A word that ends OK requests the next, at the mirror address plus its index; after word 15 the refresh is
complete and its number the last completed one; a word that fails ends the refresh and raises the mirror-fault count;
the outcome of a word of an abandoned refresh is discarded. A failure moves MPC's counters and record in each case. The
16 values are those of R199 in the forms of R203: phase and PHOP, trial state with the seconds remaining, run state with
the current step, mute state, last RSL and peak RSL of each carrier, 0 when absent, the verdicts and present bits, the
log count, the M-port faults, saturated, and the refresh number. -/
def Obligations.MirrorRefreshes : Prop :=
  (∀ (s : State) (body : List Byte), s.takes .setMirror body → s.part.mpc.settled →
    let address := u24At body 1
    let base := 0xFF000 - 0x1000 * s.part.straps.psel.toNat
    (byteAt body 0 = 0 →
      ∃ d, exec (.setMirror body) s = .next ⟨d, s.pending⟩ ∧ s.part.keepsOutside [.mpc, .ccl, .sli] d ∧
        d.sli.mirrorEnabled = false ∧ d.sli.mirrorAddress = 0 ∧ d.sli.refreshTimer = none ∧
        d.sli.refresh = none ∧ d.sli.mirrorAbandons = s.part.sli.mirrorAbandons ∧
        d.sli.sending = some [response .setMirror .ok []] ∧ d.mpc.mirWaiting = none ∧
        (s.part.iport.cycle = none → d.ccl.mirror = none) ∧ (s.part.iport.cycle ≠ none → d.ccl = s.part.ccl)) ∧
    (byteAt body 0 = 1 → address + 16 ≤ 0x100000 → (address + 16 ≤ base ∨ base + 4096 ≤ address) →
      ∃ d, exec (.setMirror body) s = .next ⟨d, s.pending⟩ ∧ s.part.keepsOutside [.mpc, .ccl, .sli] d ∧
        d.sli.mirrorEnabled = true ∧ d.sli.mirrorAddress = BitVec.ofNat 20 address ∧
        d.sli.refreshTimer = some 250 ∧ d.sli.refreshNumber = nextRefreshNumber s.part.sli.refreshNumber ∧
        d.sli.mirrorAbandons = s.part.sli.mirrorAbandons ∧ d.sli.sending = some [response .setMirror .ok []] ∧
        (s.part.iport.cycle = none → d.ccl.mirror = some (BitVec.ofNat 20 address)) ∧
        (s.part.iport.cycle ≠ none → d.ccl = s.part.ccl)) ∧
    (1 < byteAt body 0 ∨
        byteAt body 0 = 1 ∧ (0x100000 < address + 16 ∨ base < address + 16 ∧ address < base + 4096) →
      exec (.setMirror body) s = .next ⟨s.part.reply .setMirror body .badArg [], s.pending⟩)) ∧
  (∀ s : State, s.running → s.part.mpc.settled →
    (s.part.sli.refreshTimer ≠ some 0 → exec .refreshTimerExpiry s = .next s) ∧
    (s.part.sli.refreshTimer = some 0 →
      let l := s.part.sli
      let number := if l.refreshNumber < 65535 then l.refreshNumber + 1 else 1
      let values := mirrorValues number s.part
      values.length = 16 ∧
      exec .refreshTimerExpiry s =
        .next
          ⟨arbitrate
              { s.part with
                sli :=
                  { l with
                    refreshNumber := number
                    refresh := some ⟨number, values, 0⟩
                    refreshTimer := some 250
                    mirrorAbandons :=
                      if l.refresh = none then l.mirrorAbandons else min 65535 (l.mirrorAbandons + 1)
                    orphan :=
                      if l.refresh = none then l.orphan
                      else decide (∃ p, s.part.mpc.cycle = some p ∧ p.client = .mir) }
                mpc :=
                  { s.part.mpc with
                    mirWaiting := some ⟨l.mirrorAddress, .write (values.getD 0 0)⟩ } },
            s.pending⟩)) ∧
  (∀ (s : State) (p : MCycle) (w : Word), s.running → s.part.mpc.cycle = some p → p.client = .mir →
    let l := s.part.sli
    let freed : Mpc := { s.part.mpc with cycle := none }
    let ends (sli : Sli) (mpc : Mpc) : Host.Outcome State Fault Refusal :=
      .next ⟨arbitrate { s.part with sli := sli, mpc := mpc }, s.pending⟩
    (l.orphan = true →
      exec (.memoryAnswer (.ok w)) s = ends { l with orphan := false } freed ∧
      ∀ f : MFailure, exec f.command s = ends { l with orphan := false } (freed.failing p none f)) ∧
    ∀ r : Refresh, l.orphan = false → l.refresh = some r →
      (r.index < 15 →
        exec (.memoryAnswer (.ok w)) s =
          ends { l with refresh := some { r with index := r.index + 1 } }
            { freed with
              mirWaiting :=
                some
                  ⟨l.mirrorAddress + BitVec.ofNat 20 (r.index + 1), .write (r.values.getD (r.index + 1) 0)⟩ }) ∧
      (15 ≤ r.index →
        exec (.memoryAnswer (.ok w)) s = ends { l with refresh := none, lastCompleted := r.number } freed) ∧
      ∀ f : MFailure,
        exec f.command s =
          ends { l with refresh := none, mirrorFaults := min 65535 (l.mirrorFaults + 1) } (freed.failing p none f)) ∧
  ∀ (d : Lc44) (number : Nat),
    let r (c : Carrier) := d.rcu.records.get c
    let phase : Nat :=
      match d.phc.phase with
      | .transparent => 0
      | .commissioning => 1
      | .service => 2
    let phop : Nat :=
      match d.phc.phop with
      | .none => 0
      | .saving => 1
      | .handingOver _ => 2
      | .starting _ => 3
    let trial : Nat :=
      if d.tru.due ≠ none then 4
      else
        match d.tru.state with
        | .idle => 0
        | .opening => 1
        | .open => 2
        | .closing => 3
        | .rollingBack => 4
    let run : Nat :=
      match d.acu.runState with
      | .idle => 0
      | .armed => 1
      | .settling => 2
      | .measuring => 3
    let mute : Nat :=
      match d.tmu.mute with
      | .clear => 0
      | .muted => 1
      | .holdoff => 2
    let verdict (c : Carrier) : Nat :=
      (match (r c).verdict with
        | .none => 0
        | .main => 1
        | .low => 2
        | .side => 3) * 4 ^ c.val +
      (if (r c).lastRsl = none then 0 else 2 ^ (8 + c.val)) + (if (r c).peak = none then 0 else 2 ^ (12 + c.val))
    let last (c : Carrier) : Word :=
      match (r c).lastRsl with
      | none => 0
      | some v => BitVec.ofInt 16 v
    let peak (c : Carrier) : Word :=
      match (r c).peak with
      | none => 0
      | some v => BitVec.ofInt 16 v.rsl
    mirrorValues number d =
      [BitVec.ofNat 16 (phase + 4 * phop), BitVec.ofNat 16 (trial + 16 * ((d.tru.timer.getD 0 + 999) / 1000)),
        BitVec.ofNat 16 (run + 256 * d.acu.current.getD 0), BitVec.ofNat 16 mute, last 0, last 1, last 2, last 3,
        peak 0, peak 1, peak 2, peak 3, BitVec.ofNat 16 (verdict 0 + verdict 1 + verdict 2 + verdict 3),
        BitVec.ofNat 16 d.acu.log.length, BitVec.ofNat 16 (min 65535 (d.mpc.faults + d.mpc.timeouts)),
        BitVec.ofNat 16 number]
end

