-- ==== Sys2Proof/Laws/Effect.lean ====
section
/-! SUPPORT. What every command's effect does to the state, and what taking and answering a request does (R189, R193):
lemmas the proofs cite instead of unfolding `State.effect`, `request` and `answer`. -/

namespace Sys2Proof.Machine

/-! ## Effects -/

/-- Running, a command's effect is that of its function, and the queue stays. -/
theorem State.effect_running {s : State} (f : Lc44 → Lc44) (h : s.running = true) :
    s.effect f = .next ⟨f s.part, s.pending⟩ := by
  have h' : s.part.resetAsserted = false := by simpa [State.running] using h
  simp [State.effect, h']

/-- While RESET is asserted a command's effect is nothing. -/
theorem State.effect_inReset {s : State} (f : Lc44 → Lc44) (h : s.part.resetAsserted = true) :
    s.effect f = .next s := by
  simp [State.effect, h]

/-- An effect whose function changes nothing leaves the state as it is. -/
theorem State.effect_same {s : State} {f : Lc44 → Lc44} (h : f s.part = s.part) : s.effect f = .next s := by
  simp [State.effect, h]

/-- A command's effect always has a next state, with the queue as it was. -/
theorem State.effect_completes (s : State) (f : Lc44 → Lc44) : ∃ d, s.effect f = .next ⟨d, s.pending⟩ :=
  ⟨_, rfl⟩

/-- What a next state of an effect is. -/
theorem State.effect_next {s t : State} {f : Lc44 → Lc44} (h : s.effect f = .next t) :
    t.pending = s.pending ∧
      (s.part.resetAsserted = false → t.part = f s.part) ∧ (s.part.resetAsserted = true → t.part = s.part) := by
  simp only [State.effect, Host.Outcome.next.injEq] at h
  subst h
  refine ⟨rfl, fun h => ?_, fun h => ?_⟩ <;> simp [h]

/-! ## Timers and notices -/

/-- A timer is due exactly when it runs and has counted down to 0. -/
@[simp] theorem timerDue_iff (t : Option Nat) : timerDue t = true ↔ t = some 0 := by simp [timerDue]

/-- With nothing about its carriers waiting, an event is in order (R109). -/
theorem inOrder_of_none {ε : Type} [DecidableEq ε] (about : ε → CarrierSet) (e : ε) (l : List ε)
    (h : ∀ x ∈ l, (membersOf (about e)).any (about x).get = false) : inOrder about e l = true := by
  unfold inOrder
  rw [List.find?_eq_none.mpr fun x hx => by simp [h x hx]]

/-- A notice in its order leaves the list and has its effect. -/
theorem deliverTru_inOrder {e : TruEvent} {f : Lc44 → Lc44} {d : Lc44}
    (h : inOrder TruEvent.about e d.raised.tru = true) : deliverTru e f d = f (takenTru e d) := by
  simp [deliverTru, h]

/-- A notice in its order leaves the list and has its effect. -/
theorem deliverAcu_inOrder {e : AcuEvent} {f : Lc44 → Lc44} {d : Lc44}
    (h : inOrder AcuEvent.about e d.raised.acu = true) : deliverAcu e f d = f (takenAcu e d) := by
  simp [deliverAcu, h]

/-- A notice in its order leaves the list and has its effect. -/
theorem deliverTmu_inOrder {e : TmuEvent} {f : Lc44 → Lc44} {d : Lc44}
    (h : inOrder TmuEvent.about e d.raised.tmu = true) : deliverTmu e f d = f (takenTmu e d) := by
  simp [deliverTmu, h]

/-- A notice behind another about its carrier changes nothing (R109). -/
theorem deliverTru_behind {e : TruEvent} {f : Lc44 → Lc44} {d : Lc44}
    (h : inOrder TruEvent.about e d.raised.tru = false) : deliverTru e f d = d := by
  simp [deliverTru, h]

/-- A notice behind another about its carrier changes nothing (R109). -/
theorem deliverAcu_behind {e : AcuEvent} {f : Lc44 → Lc44} {d : Lc44}
    (h : inOrder AcuEvent.about e d.raised.acu = false) : deliverAcu e f d = d := by
  simp [deliverAcu, h]

/-- A notice behind another about one of its carriers changes nothing (R109). -/
theorem deliverTmu_behind {e : TmuEvent} {f : Lc44 → Lc44} {d : Lc44}
    (h : inOrder TmuEvent.about e d.raised.tmu = false) : deliverTmu e f d = d := by
  simp [deliverTmu, h]

/-! ## Requests -/

/-- The parts of `State.takes`. -/
theorem State.takes_iff {r : Req} {body : List Byte} {s : State} :
    s.takes r body = true ↔
      s.running = true ∧ s.part.deaf = false ∧ s.part.sli.inHand = none ∧
        requestFilter s.part.phc.phase s.part.phc.phop r = none ∧ body.length = r.bodyLength := by
  simp [State.takes, and_assoc]

/-- Every request's code lies in 01h to 7Fh, so its response carries the code plus 80h (R186). -/
theorem responseCode_code (r : Req) : responseCode r.code = r.code + 0x80 := by
  cases r <;> rfl

/-- Starting to send is `Sli.sends` on the service line, and touches nothing else. -/
theorem startSending_eq (frames : List (List Byte)) (d : Lc44) :
    startSending frames d = { d with sli := d.sli.sends frames } := rfl

/-- A frame taken is `Sli.holding` on the service line, and touches nothing else. -/
theorem takeFrame_eq (r : Req) (body : List Byte) (d : Lc44) : takeFrame r.code body d = d.takeInHand r body := rfl

/-- Answering the request in hand. -/
theorem answer_inHand {d : Lc44} {r : Req} (status : Status) (data : List Byte) (h : d.sli.inHand = some r.code) :
    answer status data d = { d with sli := d.sli.sends [response r status data] } := by
  simp [answer, h, startSending_eq, response, responseCode_code]

/-- Answering the request in hand by a chain. -/
theorem answerChain_inHand {d : Lc44} {r : Req} (status : Status) (data : List Byte)
    (h : d.sli.inHand = some r.code) :
    answerChain status data d = { d with sli := d.sli.sends (chain (r.code + 0x80) status data) } := by
  simp [answerChain, h, startSending_eq, responseCode_code]

/-- With no request in hand there is nothing to answer. -/
theorem answer_none {d : Lc44} (status : Status) (data : List Byte) (h : d.sli.inHand = none) :
    answer status data d = d := by
  simp [answer, h]

/-- A request taken and answered at once, whatever else its owner changed beside the service line. -/
theorem answer_taken (r : Req) (body : List Byte) (status : Status) (data : List Byte) (d e : Lc44)
    (h : e.sli = d.sli.holding r body) :
    answer status data e = { e with sli := (d.reply r body status data).sli } := by
  rw [answer_inHand (r := r) status data (by rw [h]; rfl), h]
  rfl

/-- A request taken and refused, or answered with its status and data alone. -/
theorem answer_takeInHand (r : Req) (body : List Byte) (status : Status) (data : List Byte) (d : Lc44) :
    answer status data (d.takeInHand r body) = d.reply r body status data :=
  answer_taken r body status data d _ rfl

/-- A request taken and answered at once by a chain. -/
theorem answerChain_takeInHand (r : Req) (body : List Byte) (data : List Byte) (d : Lc44) :
    answerChain .ok data (d.takeInHand r body) = d.replyChain r body data := by
  rw [answerChain_inHand (r := r) .ok data rfl]
  rfl

/-- A frame that completes while the line is deaf is not received. -/
theorem request_deaf {r : Req} {body : List Byte} {owner : List Byte → Lc44 → Lc44} {d : Lc44}
    (h : d.deaf = true) : request r owner body d = d := by
  simp [request, onFrame, h]

/-- A frame that completes with no request in hand is taken and checked. -/
theorem request_free {r : Req} {body : List Byte} {owner : List Byte → Lc44 → Lc44} {d : Lc44}
    (h : d.deaf = false) (h' : d.sli.inHand = none) :
    request r owner body d = dispatchRequest r body owner (d.takeInHand r body) := by
  simp [request, onFrame, h, h', takeFrame_eq]

/-- A request that passes the filter and the length check goes to its owner, taken in hand. -/
theorem request_takes {r : Req} {body : List Byte} {s : State} (owner : List Byte → Lc44 → Lc44)
    (h : s.takes r body = true) : request r owner body s.part = owner body (s.part.takeInHand r body) := by
  obtain ⟨-, h1, h2, h3, h4⟩ := State.takes_iff.mp h
  rw [request_free h1 h2]
  have : requestFilter (s.part.takeInHand r body).phc.phase (s.part.takeInHand r body).phc.phop r = none := h3
  simp [dispatchRequest, this, h4]

/-- A request that the filter refuses is answered with the filter's status. -/
theorem request_refused {r : Req} {body : List Byte} {owner : List Byte → Lc44 → Lc44} {d : Lc44} {status : Status}
    (h : d.deaf = false) (h' : d.sli.inHand = none) (hf : requestFilter d.phc.phase d.phc.phop r = some status) :
    request r owner body d = d.reply r body status (refusalData r d) := by
  rw [request_free h h']
  have : requestFilter (d.takeInHand r body).phc.phase (d.takeInHand r body).phc.phop r = some status := hf
  simp only [dispatchRequest, this, refuse]
  rw [answer_takeInHand]
  rfl

end Sys2Proof.Machine
end

