-- ==== Sys2Proof/Laws/Dispatch.lean ====
section
/-! SUPPORT. Each command as its effect on the LC44: what `exec` of it is, true by definition, so that no proof unfolds
the dispatch. -/

namespace Sys2Proof.Machine

theorem exec_iPortCycle (c : BusCycle) (s : State) :
    exec (.iPortCycle c) s =
      s.effect fun d => if d.iport.cycle.isSome then d else arbitrate (takeCycle c d) := rfl

theorem exec_memoryAnswer (a : MemAnswer) (s : State) :
    exec (.memoryAnswer a) s =
      s.effect fun d =>
        match a with
        | .ok data => memoryEnd (.ok data) d
        | .fault => memoryEnd (.error .fault) d := rfl

theorem exec_memoryTimeout (s : State) :
    exec .memoryTimeout s =
      s.effect fun d => memoryEnd (.error .timeout) d := rfl

theorem exec_heldWriteRelease (s : State) :
    exec .heldWriteRelease s =
      s.effect fun d => arbitrate (releaseHeld d) := rfl

theorem exec_markConfirm (s : State) :
    exec .markConfirm s =
      s.effect fun d =>
        let d := takenTru .confirm d
        if d.tru.openUndue then arbitrate (beginClosing .mark d) else ignoreMark d := rfl

theorem exec_markAbort (s : State) :
    exec .markAbort s =
      s.effect fun d =>
        let d := takenTru .abort d
        if d.tru.openUndue then arbitrate (takeRollbackCause .abortedMark none d) else ignoreMark d := rfl

theorem exec_stepSignal (s : State) :
    exec .stepSignal s =
      s.effect fun d => takeStep (takenAcu .step d) := rfl

theorem exec_trialTimerExpiry (s : State) :
    exec .trialTimerExpiry s =
      s.effect fun d =>
        if !timerDue d.tru.timer then d
        else if d.tru.openUndue then arbitrate (takeRollbackCause .expired none d)
        else if d.tru.state = .closing then d.onTru fun t => { t with expiryHeld := true }
        else d := rfl

theorem exec_truCaptureNotice (n : CaptureNotice) (s : State) :
    exec (.truCaptureNotice n) s =
      s.effect (deliverTru (.capture n) fun d => if 3 ≤ n.lossRun then lossReport n.carrier d else d) := rfl

theorem exec_truStaleNotice (c : Carrier) (s : State) :
    exec (.truStaleNotice c) s =
      s.effect (deliverTru (.stale c) (lossReport c)) := rfl

theorem exec_observeHandoff (h : Handoff) (s : State) :
    exec (.observeHandoff h) s =
      s.effect fun d => takeHandoff h (takenRcu h d) := rfl

theorem exec_reportTimerExpiry (c : Carrier) (s : State) :
    exec (.reportTimerExpiry c) s =
      s.effect fun d => if timerDue (d.rcu.records.get c).timer then becomeStale c d else d := rfl

theorem exec_debounceTimerExpiry (s : State) :
    exec .debounceTimerExpiry s =
      s.effect fun d => if timerDue d.tmu.debounce then acceptLevel d else d := rfl

theorem exec_holdOffExpiry (s : State) :
    exec .holdOffExpiry s =
      s.effect fun d =>
        d.onTmu fun t =>
          if t.mute = .holdoff ∧ timerDue t.holdoff then { t with mute := .clear, holdoff := none } else t := rfl

theorem exec_tmuCaptureNotice (n : CaptureNotice) (s : State) :
    exec (.tmuCaptureNotice n) s =
      s.effect (deliverTmu (.capture n) (changeView n.carrier ⟨true, some n.rsl⟩)) := rfl

theorem exec_tmuStaleNotice (c : Carrier) (s : State) :
    exec (.tmuStaleNotice c) s =
      s.effect (deliverTmu (.stale c) fun d => changeView c ⟨false, (d.tmu.view.get c).lastRsl⟩ d) := rfl

theorem exec_leftTrackReport (m : CarrierSet) (s : State) :
    exec (.leftTrackReport m) s =
      s.effect (deliverTmu (.leftTrack m) (leftTrack m)) := rfl

theorem exec_peakResetNotice (m : CarrierSet) (s : State) :
    exec (.peakResetNotice m) s =
      s.effect (deliverTmu (.peakReset m) (tonePeakReset m)) := rfl

theorem exec_groupFlagsChange (s : State) :
    exec .groupFlagsChange s =
      s.effect fun d => changeGroups (takenTmu .groups d) := rfl

theorem exec_acuCaptureNotice (n : CaptureNotice) (s : State) :
    exec (.acuCaptureNotice n) s =
      s.effect (deliverAcu (.capture n) (takeAcuCapture n)) := rfl

theorem exec_acuStaleNotice (c : Carrier) (s : State) :
    exec (.acuStaleNotice c) s =
      s.effect (deliverAcu (.stale c) (takeAcuStale c)) := rfl

theorem exec_muteNotice (s : State) :
    exec .muteNotice s =
      s.effect fun d => takeMute (takenAcu .mute d) := rfl

theorem exec_rollbackNotice (s : State) :
    exec .rollbackNotice s =
      s.effect fun d => takeRollback (takenAcu .rollback d) := rfl

theorem exec_armTimeoutExpiry (s : State) :
    exec .armTimeoutExpiry s =
      s.effect armExpired := rfl

theorem exec_settleTimerExpiry (s : State) :
    exec .settleTimerExpiry s =
      s.effect settleExpired := rfl

theorem exec_measureTimerExpiry (s : State) :
    exec .measureTimerExpiry s =
      s.effect measureExpired := rfl

theorem exec_tick (s : State) :
    exec .tick s =
      s.effect tickAll := rfl

theorem exec_commissioningSecond (s : State) :
    exec .commissioningSecond s =
      s.effect fun d => if d.phc.secondEnds then tickAll d else d := rfl

theorem exec_refreshTimerExpiry (s : State) :
    exec .refreshTimerExpiry s =
      s.effect fun d => arbitrate (refreshExpired d) := rfl

theorem exec_badFrame (code : Option Byte) (s : State) :
    exec (.badFrame code) s =
      s.effect (takeBadFrame code) := rfl

theorem exec_frameDiscarded (s : State) :
    exec .frameDiscarded s =
      s.effect discardFrame := rfl

theorem exec_lineError (s : State) :
    exec .lineError s =
      s.effect lineFailed := rfl

theorem exec_gapTimerExpiry (s : State) :
    exec .gapTimerExpiry s =
      s.effect gapExpired := rfl

theorem exec_responseSent (s : State) :
    exec .responseSent s =
      s.effect responseEnded := rfl

theorem exec_unknownRequest (code : Byte) (body : List Byte) (s : State) :
    exec (.unknownRequest code body) s =
      s.effect (unknownTaken code body) := rfl

theorem exec_ident (body : List Byte) (s : State) :
    exec (.ident body) s =
      s.effect (request .ident ownIdent body) := rfl

theorem exec_status (body : List Byte) (s : State) :
    exec (.status body) s =
      s.effect (request .status ownStatus body) := rfl

theorem exec_beginReq (body : List Byte) (s : State) :
    exec (.beginReq body) s =
      s.effect fun d => arbitrate (request .begin ownBegin body d) := rfl

theorem exec_wipe (body : List Byte) (s : State) :
    exec (.wipe body) s =
      s.effect (request .wipe ownWipe body) := rfl

theorem exec_save (body : List Byte) (s : State) :
    exec (.save body) s =
      s.effect fun d => arbitrate (request .save ownSave body d) := rfl

theorem exec_handover (body : List Byte) (s : State) :
    exec (.handover body) s =
      s.effect fun d => arbitrate (request .handover ownHandover body d) := rfl

theorem exec_loadRegion (body : List Byte) (s : State) :
    exec (.loadRegion body) s =
      s.effect (request .loadRegion ownLoadRegion body) := rfl

theorem exec_readRegion (body : List Byte) (s : State) :
    exec (.readRegion body) s =
      s.effect (request .readRegion ownReadRegion body) := rfl

theorem exec_loadRule (body : List Byte) (s : State) :
    exec (.loadRule body) s =
      s.effect (request .loadRule ownLoadRule body) := rfl

theorem exec_readRule (body : List Byte) (s : State) :
    exec (.readRule body) s =
      s.effect (request .readRule ownReadRule body) := rfl

theorem exec_loadLayout (body : List Byte) (s : State) :
    exec (.loadLayout body) s =
      s.effect (request .loadLayout ownLoadLayout body) := rfl

theorem exec_readLayout (body : List Byte) (s : State) :
    exec (.readLayout body) s =
      s.effect (request .readLayout ownReadLayout body) := rfl

theorem exec_setCarrier (body : List Byte) (s : State) :
    exec (.setCarrier body) s =
      s.effect (request .setCarrier ownSetCarrier body) := rfl

theorem exec_readCarrier (body : List Byte) (s : State) :
    exec (.readCarrier body) s =
      s.effect (request .readCarrier ownReadCarrier body) := rfl

theorem exec_peakReset (body : List Byte) (s : State) :
    exec (.peakReset body) s =
      s.effect (request .peakReset ownPeakReset body) := rfl

theorem exec_clearCapture (body : List Byte) (s : State) :
    exec (.clearCapture body) s =
      s.effect (request .clearCapture ownClearCapture body) := rfl

theorem exec_setGroups (body : List Byte) (s : State) :
    exec (.setGroups body) s =
      s.effect (request .setGroups ownSetGroups body) := rfl

theorem exec_setTone (body : List Byte) (s : State) :
    exec (.setTone body) s =
      s.effect (request .setTone ownSetTone body) := rfl

theorem exec_setTimes (body : List Byte) (s : State) :
    exec (.setTimes body) s =
      s.effect (request .setTimes ownSetTimes body) := rfl

theorem exec_setMirror (body : List Byte) (s : State) :
    exec (.setMirror body) s =
      s.effect fun d => arbitrate (request .setMirror ownSetMirror body d) := rfl

theorem exec_muteRelease (body : List Byte) (s : State) :
    exec (.muteRelease body) s =
      s.effect (request .muteRelease ownMuteRelease body) := rfl

theorem exec_trialOpen (body : List Byte) (s : State) :
    exec (.trialOpen body) s =
      s.effect fun d => arbitrate (request .trialOpen ownTrialOpen body d) := rfl

theorem exec_trialConfirm (body : List Byte) (s : State) :
    exec (.trialConfirm body) s =
      s.effect fun d => arbitrate (request .trialConfirm ownTrialConfirm body d) := rfl

theorem exec_trialExtend (body : List Byte) (s : State) :
    exec (.trialExtend body) s =
      s.effect (request .trialExtend ownTrialExtend body) := rfl

theorem exec_trialAbort (body : List Byte) (s : State) :
    exec (.trialAbort body) s =
      s.effect fun d => arbitrate (request .trialAbort ownTrialAbort body d) := rfl

theorem exec_readTrial (body : List Byte) (s : State) :
    exec (.readTrial body) s =
      s.effect (request .readTrial ownReadTrial body) := rfl

theorem exec_overlayDiscard (body : List Byte) (s : State) :
    exec (.overlayDiscard body) s =
      s.effect (request .overlayDiscard ownOverlayDiscard body) := rfl

theorem exec_readOverlay (body : List Byte) (s : State) :
    exec (.readOverlay body) s =
      s.effect (request .readOverlay ownReadOverlay body) := rfl

theorem exec_loadStep (body : List Byte) (s : State) :
    exec (.loadStep body) s =
      s.effect (request .loadStep ownLoadStep body) := rfl

theorem exec_readStep (body : List Byte) (s : State) :
    exec (.readStep body) s =
      s.effect (request .readStep ownReadStep body) := rfl

theorem exec_runStart (body : List Byte) (s : State) :
    exec (.runStart body) s =
      s.effect (request .runStart ownRunStart body) := rfl

theorem exec_runAbort (body : List Byte) (s : State) :
    exec (.runAbort body) s =
      s.effect (request .runAbort ownRunAbort body) := rfl

theorem exec_readLog (body : List Byte) (s : State) :
    exec (.readLog body) s =
      s.effect (request .readLog ownReadLog body) := rfl

theorem exec_logClear (body : List Byte) (s : State) :
    exec (.logClear body) s =
      s.effect (request .logClear ownLogClear body) := rfl

theorem exec_byteReceived (b : Byte) (s : State) :
    exec (.byteReceived b) s =
      s.effect (receiveByte b) := rfl

/-- While RESET is asserted every command but the two of RESET and the level of the MAST pin changes nothing. -/
theorem exec_inReset (c : Instr) (s : State) (h : s.part.resetAsserted = true) (h1 : c ≠ .resetAsserted)
    (h2 : ∀ psel commission depol, c ≠ .resetRelease psel commission depol)
    (h3 : ∀ level, c ≠ .mastLevelChange level) : exec c s = .next s := by
  cases c
  case resetAsserted => exact absurd rfl h1
  case resetRelease => exact absurd rfl (h2 _ _ _)
  case mastLevelChange => exact absurd rfl (h3 _)
  all_goals (simp only [exec]; exact State.effect_inReset _ h)

end Sys2Proof.Machine
end

