-- ==== Sys2Proof/Laws/State.lean ====
section
/-! SUPPORT. The update of one block read at each field of the LC44, true by definition: no later proof unfolds a record
update. -/

namespace Sys2Proof.Machine.Lc44

variable (d : Lc44)

/-! ### onIport -/

@[simp] theorem onIport_resetAsserted (f : IPort → IPort) : (d.onIport f).resetAsserted = d.resetAsserted := rfl
@[simp] theorem onIport_straps (f : IPort → IPort) : (d.onIport f).straps = d.straps := rfl
@[simp] theorem onIport_iport (f : IPort → IPort) : (d.onIport f).iport = f d.iport := rfl
@[simp] theorem onIport_mpc (f : IPort → IPort) : (d.onIport f).mpc = d.mpc := rfl
@[simp] theorem onIport_ccl (f : IPort → IPort) : (d.onIport f).ccl = d.ccl := rfl
@[simp] theorem onIport_fgd (f : IPort → IPort) : (d.onIport f).fgd = d.fgd := rfl
@[simp] theorem onIport_tru (f : IPort → IPort) : (d.onIport f).tru = d.tru := rfl
@[simp] theorem onIport_ovu (f : IPort → IPort) : (d.onIport f).ovu = d.ovu := rfl
@[simp] theorem onIport_rcu (f : IPort → IPort) : (d.onIport f).rcu = d.rcu := rfl
@[simp] theorem onIport_tmu (f : IPort → IPort) : (d.onIport f).tmu = d.tmu := rfl
@[simp] theorem onIport_acu (f : IPort → IPort) : (d.onIport f).acu = d.acu := rfl
@[simp] theorem onIport_phc (f : IPort → IPort) : (d.onIport f).phc = d.phc := rfl
@[simp] theorem onIport_sli (f : IPort → IPort) : (d.onIport f).sli = d.sli := rfl
@[simp] theorem onIport_raised (f : IPort → IPort) : (d.onIport f).raised = d.raised := rfl

/-! ### onMpc -/

@[simp] theorem onMpc_resetAsserted (f : Mpc → Mpc) : (d.onMpc f).resetAsserted = d.resetAsserted := rfl
@[simp] theorem onMpc_straps (f : Mpc → Mpc) : (d.onMpc f).straps = d.straps := rfl
@[simp] theorem onMpc_iport (f : Mpc → Mpc) : (d.onMpc f).iport = d.iport := rfl
@[simp] theorem onMpc_mpc (f : Mpc → Mpc) : (d.onMpc f).mpc = f d.mpc := rfl
@[simp] theorem onMpc_ccl (f : Mpc → Mpc) : (d.onMpc f).ccl = d.ccl := rfl
@[simp] theorem onMpc_fgd (f : Mpc → Mpc) : (d.onMpc f).fgd = d.fgd := rfl
@[simp] theorem onMpc_tru (f : Mpc → Mpc) : (d.onMpc f).tru = d.tru := rfl
@[simp] theorem onMpc_ovu (f : Mpc → Mpc) : (d.onMpc f).ovu = d.ovu := rfl
@[simp] theorem onMpc_rcu (f : Mpc → Mpc) : (d.onMpc f).rcu = d.rcu := rfl
@[simp] theorem onMpc_tmu (f : Mpc → Mpc) : (d.onMpc f).tmu = d.tmu := rfl
@[simp] theorem onMpc_acu (f : Mpc → Mpc) : (d.onMpc f).acu = d.acu := rfl
@[simp] theorem onMpc_phc (f : Mpc → Mpc) : (d.onMpc f).phc = d.phc := rfl
@[simp] theorem onMpc_sli (f : Mpc → Mpc) : (d.onMpc f).sli = d.sli := rfl
@[simp] theorem onMpc_raised (f : Mpc → Mpc) : (d.onMpc f).raised = d.raised := rfl

/-! ### onCcl -/

@[simp] theorem onCcl_resetAsserted (f : Ccl → Ccl) : (d.onCcl f).resetAsserted = d.resetAsserted := rfl
@[simp] theorem onCcl_straps (f : Ccl → Ccl) : (d.onCcl f).straps = d.straps := rfl
@[simp] theorem onCcl_iport (f : Ccl → Ccl) : (d.onCcl f).iport = d.iport := rfl
@[simp] theorem onCcl_mpc (f : Ccl → Ccl) : (d.onCcl f).mpc = d.mpc := rfl
@[simp] theorem onCcl_ccl (f : Ccl → Ccl) : (d.onCcl f).ccl = f d.ccl := rfl
@[simp] theorem onCcl_fgd (f : Ccl → Ccl) : (d.onCcl f).fgd = d.fgd := rfl
@[simp] theorem onCcl_tru (f : Ccl → Ccl) : (d.onCcl f).tru = d.tru := rfl
@[simp] theorem onCcl_ovu (f : Ccl → Ccl) : (d.onCcl f).ovu = d.ovu := rfl
@[simp] theorem onCcl_rcu (f : Ccl → Ccl) : (d.onCcl f).rcu = d.rcu := rfl
@[simp] theorem onCcl_tmu (f : Ccl → Ccl) : (d.onCcl f).tmu = d.tmu := rfl
@[simp] theorem onCcl_acu (f : Ccl → Ccl) : (d.onCcl f).acu = d.acu := rfl
@[simp] theorem onCcl_phc (f : Ccl → Ccl) : (d.onCcl f).phc = d.phc := rfl
@[simp] theorem onCcl_sli (f : Ccl → Ccl) : (d.onCcl f).sli = d.sli := rfl
@[simp] theorem onCcl_raised (f : Ccl → Ccl) : (d.onCcl f).raised = d.raised := rfl

/-! ### onFgd -/

@[simp] theorem onFgd_resetAsserted (f : Fgd → Fgd) : (d.onFgd f).resetAsserted = d.resetAsserted := rfl
@[simp] theorem onFgd_straps (f : Fgd → Fgd) : (d.onFgd f).straps = d.straps := rfl
@[simp] theorem onFgd_iport (f : Fgd → Fgd) : (d.onFgd f).iport = d.iport := rfl
@[simp] theorem onFgd_mpc (f : Fgd → Fgd) : (d.onFgd f).mpc = d.mpc := rfl
@[simp] theorem onFgd_ccl (f : Fgd → Fgd) : (d.onFgd f).ccl = d.ccl := rfl
@[simp] theorem onFgd_fgd (f : Fgd → Fgd) : (d.onFgd f).fgd = f d.fgd := rfl
@[simp] theorem onFgd_tru (f : Fgd → Fgd) : (d.onFgd f).tru = d.tru := rfl
@[simp] theorem onFgd_ovu (f : Fgd → Fgd) : (d.onFgd f).ovu = d.ovu := rfl
@[simp] theorem onFgd_rcu (f : Fgd → Fgd) : (d.onFgd f).rcu = d.rcu := rfl
@[simp] theorem onFgd_tmu (f : Fgd → Fgd) : (d.onFgd f).tmu = d.tmu := rfl
@[simp] theorem onFgd_acu (f : Fgd → Fgd) : (d.onFgd f).acu = d.acu := rfl
@[simp] theorem onFgd_phc (f : Fgd → Fgd) : (d.onFgd f).phc = d.phc := rfl
@[simp] theorem onFgd_sli (f : Fgd → Fgd) : (d.onFgd f).sli = d.sli := rfl
@[simp] theorem onFgd_raised (f : Fgd → Fgd) : (d.onFgd f).raised = d.raised := rfl

/-! ### onTru -/

@[simp] theorem onTru_resetAsserted (f : Tru → Tru) : (d.onTru f).resetAsserted = d.resetAsserted := rfl
@[simp] theorem onTru_straps (f : Tru → Tru) : (d.onTru f).straps = d.straps := rfl
@[simp] theorem onTru_iport (f : Tru → Tru) : (d.onTru f).iport = d.iport := rfl
@[simp] theorem onTru_mpc (f : Tru → Tru) : (d.onTru f).mpc = d.mpc := rfl
@[simp] theorem onTru_ccl (f : Tru → Tru) : (d.onTru f).ccl = d.ccl := rfl
@[simp] theorem onTru_fgd (f : Tru → Tru) : (d.onTru f).fgd = d.fgd := rfl
@[simp] theorem onTru_tru (f : Tru → Tru) : (d.onTru f).tru = f d.tru := rfl
@[simp] theorem onTru_ovu (f : Tru → Tru) : (d.onTru f).ovu = d.ovu := rfl
@[simp] theorem onTru_rcu (f : Tru → Tru) : (d.onTru f).rcu = d.rcu := rfl
@[simp] theorem onTru_tmu (f : Tru → Tru) : (d.onTru f).tmu = d.tmu := rfl
@[simp] theorem onTru_acu (f : Tru → Tru) : (d.onTru f).acu = d.acu := rfl
@[simp] theorem onTru_phc (f : Tru → Tru) : (d.onTru f).phc = d.phc := rfl
@[simp] theorem onTru_sli (f : Tru → Tru) : (d.onTru f).sli = d.sli := rfl
@[simp] theorem onTru_raised (f : Tru → Tru) : (d.onTru f).raised = d.raised := rfl

/-! ### onOvu -/

@[simp] theorem onOvu_resetAsserted (f : Ovu → Ovu) : (d.onOvu f).resetAsserted = d.resetAsserted := rfl
@[simp] theorem onOvu_straps (f : Ovu → Ovu) : (d.onOvu f).straps = d.straps := rfl
@[simp] theorem onOvu_iport (f : Ovu → Ovu) : (d.onOvu f).iport = d.iport := rfl
@[simp] theorem onOvu_mpc (f : Ovu → Ovu) : (d.onOvu f).mpc = d.mpc := rfl
@[simp] theorem onOvu_ccl (f : Ovu → Ovu) : (d.onOvu f).ccl = d.ccl := rfl
@[simp] theorem onOvu_fgd (f : Ovu → Ovu) : (d.onOvu f).fgd = d.fgd := rfl
@[simp] theorem onOvu_tru (f : Ovu → Ovu) : (d.onOvu f).tru = d.tru := rfl
@[simp] theorem onOvu_ovu (f : Ovu → Ovu) : (d.onOvu f).ovu = f d.ovu := rfl
@[simp] theorem onOvu_rcu (f : Ovu → Ovu) : (d.onOvu f).rcu = d.rcu := rfl
@[simp] theorem onOvu_tmu (f : Ovu → Ovu) : (d.onOvu f).tmu = d.tmu := rfl
@[simp] theorem onOvu_acu (f : Ovu → Ovu) : (d.onOvu f).acu = d.acu := rfl
@[simp] theorem onOvu_phc (f : Ovu → Ovu) : (d.onOvu f).phc = d.phc := rfl
@[simp] theorem onOvu_sli (f : Ovu → Ovu) : (d.onOvu f).sli = d.sli := rfl
@[simp] theorem onOvu_raised (f : Ovu → Ovu) : (d.onOvu f).raised = d.raised := rfl

/-! ### onRcu -/

@[simp] theorem onRcu_resetAsserted (f : Rcu → Rcu) : (d.onRcu f).resetAsserted = d.resetAsserted := rfl
@[simp] theorem onRcu_straps (f : Rcu → Rcu) : (d.onRcu f).straps = d.straps := rfl
@[simp] theorem onRcu_iport (f : Rcu → Rcu) : (d.onRcu f).iport = d.iport := rfl
@[simp] theorem onRcu_mpc (f : Rcu → Rcu) : (d.onRcu f).mpc = d.mpc := rfl
@[simp] theorem onRcu_ccl (f : Rcu → Rcu) : (d.onRcu f).ccl = d.ccl := rfl
@[simp] theorem onRcu_fgd (f : Rcu → Rcu) : (d.onRcu f).fgd = d.fgd := rfl
@[simp] theorem onRcu_tru (f : Rcu → Rcu) : (d.onRcu f).tru = d.tru := rfl
@[simp] theorem onRcu_ovu (f : Rcu → Rcu) : (d.onRcu f).ovu = d.ovu := rfl
@[simp] theorem onRcu_rcu (f : Rcu → Rcu) : (d.onRcu f).rcu = f d.rcu := rfl
@[simp] theorem onRcu_tmu (f : Rcu → Rcu) : (d.onRcu f).tmu = d.tmu := rfl
@[simp] theorem onRcu_acu (f : Rcu → Rcu) : (d.onRcu f).acu = d.acu := rfl
@[simp] theorem onRcu_phc (f : Rcu → Rcu) : (d.onRcu f).phc = d.phc := rfl
@[simp] theorem onRcu_sli (f : Rcu → Rcu) : (d.onRcu f).sli = d.sli := rfl
@[simp] theorem onRcu_raised (f : Rcu → Rcu) : (d.onRcu f).raised = d.raised := rfl

/-! ### onTmu -/

@[simp] theorem onTmu_resetAsserted (f : Tmu → Tmu) : (d.onTmu f).resetAsserted = d.resetAsserted := rfl
@[simp] theorem onTmu_straps (f : Tmu → Tmu) : (d.onTmu f).straps = d.straps := rfl
@[simp] theorem onTmu_iport (f : Tmu → Tmu) : (d.onTmu f).iport = d.iport := rfl
@[simp] theorem onTmu_mpc (f : Tmu → Tmu) : (d.onTmu f).mpc = d.mpc := rfl
@[simp] theorem onTmu_ccl (f : Tmu → Tmu) : (d.onTmu f).ccl = d.ccl := rfl
@[simp] theorem onTmu_fgd (f : Tmu → Tmu) : (d.onTmu f).fgd = d.fgd := rfl
@[simp] theorem onTmu_tru (f : Tmu → Tmu) : (d.onTmu f).tru = d.tru := rfl
@[simp] theorem onTmu_ovu (f : Tmu → Tmu) : (d.onTmu f).ovu = d.ovu := rfl
@[simp] theorem onTmu_rcu (f : Tmu → Tmu) : (d.onTmu f).rcu = d.rcu := rfl
@[simp] theorem onTmu_tmu (f : Tmu → Tmu) : (d.onTmu f).tmu = f d.tmu := rfl
@[simp] theorem onTmu_acu (f : Tmu → Tmu) : (d.onTmu f).acu = d.acu := rfl
@[simp] theorem onTmu_phc (f : Tmu → Tmu) : (d.onTmu f).phc = d.phc := rfl
@[simp] theorem onTmu_sli (f : Tmu → Tmu) : (d.onTmu f).sli = d.sli := rfl
@[simp] theorem onTmu_raised (f : Tmu → Tmu) : (d.onTmu f).raised = d.raised := rfl

/-! ### onAcu -/

@[simp] theorem onAcu_resetAsserted (f : Acu → Acu) : (d.onAcu f).resetAsserted = d.resetAsserted := rfl
@[simp] theorem onAcu_straps (f : Acu → Acu) : (d.onAcu f).straps = d.straps := rfl
@[simp] theorem onAcu_iport (f : Acu → Acu) : (d.onAcu f).iport = d.iport := rfl
@[simp] theorem onAcu_mpc (f : Acu → Acu) : (d.onAcu f).mpc = d.mpc := rfl
@[simp] theorem onAcu_ccl (f : Acu → Acu) : (d.onAcu f).ccl = d.ccl := rfl
@[simp] theorem onAcu_fgd (f : Acu → Acu) : (d.onAcu f).fgd = d.fgd := rfl
@[simp] theorem onAcu_tru (f : Acu → Acu) : (d.onAcu f).tru = d.tru := rfl
@[simp] theorem onAcu_ovu (f : Acu → Acu) : (d.onAcu f).ovu = d.ovu := rfl
@[simp] theorem onAcu_rcu (f : Acu → Acu) : (d.onAcu f).rcu = d.rcu := rfl
@[simp] theorem onAcu_tmu (f : Acu → Acu) : (d.onAcu f).tmu = d.tmu := rfl
@[simp] theorem onAcu_acu (f : Acu → Acu) : (d.onAcu f).acu = f d.acu := rfl
@[simp] theorem onAcu_phc (f : Acu → Acu) : (d.onAcu f).phc = d.phc := rfl
@[simp] theorem onAcu_sli (f : Acu → Acu) : (d.onAcu f).sli = d.sli := rfl
@[simp] theorem onAcu_raised (f : Acu → Acu) : (d.onAcu f).raised = d.raised := rfl

/-! ### onPhc -/

@[simp] theorem onPhc_resetAsserted (f : Phc → Phc) : (d.onPhc f).resetAsserted = d.resetAsserted := rfl
@[simp] theorem onPhc_straps (f : Phc → Phc) : (d.onPhc f).straps = d.straps := rfl
@[simp] theorem onPhc_iport (f : Phc → Phc) : (d.onPhc f).iport = d.iport := rfl
@[simp] theorem onPhc_mpc (f : Phc → Phc) : (d.onPhc f).mpc = d.mpc := rfl
@[simp] theorem onPhc_ccl (f : Phc → Phc) : (d.onPhc f).ccl = d.ccl := rfl
@[simp] theorem onPhc_fgd (f : Phc → Phc) : (d.onPhc f).fgd = d.fgd := rfl
@[simp] theorem onPhc_tru (f : Phc → Phc) : (d.onPhc f).tru = d.tru := rfl
@[simp] theorem onPhc_ovu (f : Phc → Phc) : (d.onPhc f).ovu = d.ovu := rfl
@[simp] theorem onPhc_rcu (f : Phc → Phc) : (d.onPhc f).rcu = d.rcu := rfl
@[simp] theorem onPhc_tmu (f : Phc → Phc) : (d.onPhc f).tmu = d.tmu := rfl
@[simp] theorem onPhc_acu (f : Phc → Phc) : (d.onPhc f).acu = d.acu := rfl
@[simp] theorem onPhc_phc (f : Phc → Phc) : (d.onPhc f).phc = f d.phc := rfl
@[simp] theorem onPhc_sli (f : Phc → Phc) : (d.onPhc f).sli = d.sli := rfl
@[simp] theorem onPhc_raised (f : Phc → Phc) : (d.onPhc f).raised = d.raised := rfl

/-! ### onSli -/

@[simp] theorem onSli_resetAsserted (f : Sli → Sli) : (d.onSli f).resetAsserted = d.resetAsserted := rfl
@[simp] theorem onSli_straps (f : Sli → Sli) : (d.onSli f).straps = d.straps := rfl
@[simp] theorem onSli_iport (f : Sli → Sli) : (d.onSli f).iport = d.iport := rfl
@[simp] theorem onSli_mpc (f : Sli → Sli) : (d.onSli f).mpc = d.mpc := rfl
@[simp] theorem onSli_ccl (f : Sli → Sli) : (d.onSli f).ccl = d.ccl := rfl
@[simp] theorem onSli_fgd (f : Sli → Sli) : (d.onSli f).fgd = d.fgd := rfl
@[simp] theorem onSli_tru (f : Sli → Sli) : (d.onSli f).tru = d.tru := rfl
@[simp] theorem onSli_ovu (f : Sli → Sli) : (d.onSli f).ovu = d.ovu := rfl
@[simp] theorem onSli_rcu (f : Sli → Sli) : (d.onSli f).rcu = d.rcu := rfl
@[simp] theorem onSli_tmu (f : Sli → Sli) : (d.onSli f).tmu = d.tmu := rfl
@[simp] theorem onSli_acu (f : Sli → Sli) : (d.onSli f).acu = d.acu := rfl
@[simp] theorem onSli_phc (f : Sli → Sli) : (d.onSli f).phc = d.phc := rfl
@[simp] theorem onSli_sli (f : Sli → Sli) : (d.onSli f).sli = f d.sli := rfl
@[simp] theorem onSli_raised (f : Sli → Sli) : (d.onSli f).raised = d.raised := rfl

/-! ### onRaised -/

@[simp] theorem onRaised_resetAsserted (f : Raised → Raised) : (d.onRaised f).resetAsserted = d.resetAsserted := rfl
@[simp] theorem onRaised_straps (f : Raised → Raised) : (d.onRaised f).straps = d.straps := rfl
@[simp] theorem onRaised_iport (f : Raised → Raised) : (d.onRaised f).iport = d.iport := rfl
@[simp] theorem onRaised_mpc (f : Raised → Raised) : (d.onRaised f).mpc = d.mpc := rfl
@[simp] theorem onRaised_ccl (f : Raised → Raised) : (d.onRaised f).ccl = d.ccl := rfl
@[simp] theorem onRaised_fgd (f : Raised → Raised) : (d.onRaised f).fgd = d.fgd := rfl
@[simp] theorem onRaised_tru (f : Raised → Raised) : (d.onRaised f).tru = d.tru := rfl
@[simp] theorem onRaised_ovu (f : Raised → Raised) : (d.onRaised f).ovu = d.ovu := rfl
@[simp] theorem onRaised_rcu (f : Raised → Raised) : (d.onRaised f).rcu = d.rcu := rfl
@[simp] theorem onRaised_tmu (f : Raised → Raised) : (d.onRaised f).tmu = d.tmu := rfl
@[simp] theorem onRaised_acu (f : Raised → Raised) : (d.onRaised f).acu = d.acu := rfl
@[simp] theorem onRaised_phc (f : Raised → Raised) : (d.onRaised f).phc = d.phc := rfl
@[simp] theorem onRaised_sli (f : Raised → Raised) : (d.onRaised f).sli = d.sli := rfl
@[simp] theorem onRaised_raised (f : Raised → Raised) : (d.onRaised f).raised = f d.raised := rfl

end Sys2Proof.Machine.Lc44
end

