-- ==== Sys2Proof/Laws/Port.lean ====
section
/-! SUPPORT. What the arbiter can do (R28 to R30): nothing at a busy port or when nobody waits; and after its decision
nobody waits at a free port. -/

namespace Sys2Proof.Machine

/-- Under a FWD hold a cycle is presented with the memory timeout of the hold's grant (R23, R24, R28). -/
theorem grantTimeout_held {m : Mpc} {t : Nat} (h : m.hold = some t) : m.grantTimeout = t := by
  simp [Mpc.grantTimeout, h]

/-- Without a hold a cycle is presented with the memory timeout in force (R23, R24). -/
theorem grantTimeout_free {m : Mpc} (h : m.hold = none) : m.grantTimeout = m.timeout := by
  simp [Mpc.grantTimeout, h]

/-- A decision of the arbiter changes nothing when the port is busy or nobody waits. -/
theorem arbitrateOnce_of_settled (d : Lc44) (h : d.mpc.settled = true) : arbitrateOnce d = d := by
  unfold arbitrateOnce
  unfold Mpc.settled at h
  cases hf : d.mpc.free
  · simp
  · cases hc : d.mpc.choice
    · simp
    · simp [hf, hc] at h

/-- The arbiter changes nothing when the port is busy or nobody waits. -/
theorem arbitrate_of_settled (d : Lc44) (h : d.mpc.settled = true) : arbitrate d = d := by
  unfold arbitrate
  rw [arbitrateOnce_of_settled d h, arbitrateOnce_of_settled d h]

/-- A busy port is settled. -/
theorem settled_of_busy (m : Mpc) (h : m.free = false) : m.settled = true := by simp [Mpc.settled, h]

/-- Nobody waits when the arbiter has no choice. -/
theorem choice_eq_none_iff (m : Mpc) :
    m.choice = none ↔
      m.fwdWaiting = false ∧ m.rstWaiting = none ∧ m.intQueue = [] ∧ m.mirWaiting = none := by
  unfold Mpc.choice
  cases m.fwdWaiting <;> cases m.rstWaiting <;> cases m.intQueue <;> cases m.mirWaiting <;>
    cases m.alternation <;> simp

end Sys2Proof.Machine
end

