-- ==== Sys2Proof/Laws/Cycle.lean ====
section
/-! SUPPORT. The I-port: the lookup of the Region Table (R5), when a cycle can be taken, what an answer does to a cycle
that leaves nothing behind, and how FWD is granted a free port (R28, R29). -/

namespace Sys2Proof.Machine

/-! ## Classification -/

@[simp] theorem reserved_onIport (d : Lc44) (f : IPort → IPort) (a : Nat) : (d.onIport f).reserved a = d.reserved a :=
  rfl
@[simp] theorem reserved_onMpc (d : Lc44) (f : Mpc → Mpc) (a : Nat) : (d.onMpc f).reserved a = d.reserved a := rfl
@[simp] theorem txmute_onIport (d : Lc44) (f : IPort → IPort) : (d.onIport f).txmute = d.txmute := rfl
@[simp] theorem txmute_onMpc (d : Lc44) (f : Mpc → Mpc) : (d.onMpc f).txmute = d.txmute := rfl
@[simp] theorem txmute_onFgd (d : Lc44) (f : Fgd → Fgd) : (d.onFgd f).txmute = d.txmute := rfl
@[simp] theorem txmute_onTru (d : Lc44) (f : Tru → Tru) : (d.onTru f).txmute = d.txmute := rfl

/-- An address is reserved exactly when it lies in the profile block or in the mirror range in force (R4). -/
theorem reserved_iff (d : Lc44) (a : Nat) :
    d.reserved a = true ↔
      (0xFF000 - 0x1000 * d.straps.psel.toNat ≤ a ∧ a < 0xFF000 - 0x1000 * d.straps.psel.toNat + 4096) ∨
        ∃ m, d.ccl.mirror = some m ∧ m.toNat ≤ a ∧ a < m.toNat + 16 := by
  unfold Lc44.reserved inProfile
  cases d.ccl.mirror with
  | none => simp only [Bool.or_false, Bool.and_eq_true, decide_eq_true_eq]; simp [profileBase, Config.profileWords]
  | some m =>
    simp only [Bool.or_eq_true, Bool.and_eq_true, decide_eq_true_eq]
    simp [profileBase, Config.profileWords, Config.mirrorWords]

/-- The first matching entry is the one the lookup finds (R5). -/
theorem lookup_eq_some (c : Ccl) (x : BusCycle) (i : Fin 16) (r : Region) (h : c.table[i] = some r)
    (hm : r.matches x = true)
    (hf : ∀ (j : Fin 16) (q : Region), j < i → c.table[j] = some q → q.matches x = false) :
    c.lookup x = some (i, r) := by
  have key : ∀ l : List (Fin 16), l.Pairwise (· < ·) → i ∈ l →
      (l.filterMap fun i => c.table[i].map fun r => (i, r)).find? (fun e => e.2.matches x) = some (i, r) := by
    intro l
    induction l with
    | nil => simp
    | cons a l ih =>
      intro hp hi
      rcases List.mem_cons.mp hi with e | e
      · subst e
        simp only [List.filterMap_cons, h, Option.map]
        simp [hm]
      · have hlt : a < i := (List.pairwise_cons.mp hp).1 i e
        cases ht : c.table[a] with
        | none =>
          simp only [List.filterMap_cons, ht, Option.map]
          exact ih (List.pairwise_cons.mp hp).2 e
        | some q =>
          simp only [List.filterMap_cons, ht, Option.map]
          rw [List.find?_cons_of_neg (by simp [hf a q hlt ht])]
          exact ih (List.pairwise_cons.mp hp).2 e
  exact key _ (List.pairwise_lt_finRange 16) (List.mem_finRange i)

/-- With no matching entry the lookup finds none (R5). -/
theorem lookup_eq_none (c : Ccl) (x : BusCycle)
    (hf : ∀ (j : Fin 16) (q : Region), c.table[j] = some q → q.matches x = false) : c.lookup x = none := by
  have : (c.entries).find? (fun e => e.2.matches x) = none := by
    rw [List.find?_eq_none]
    intro e he
    simp only [Ccl.entries, List.mem_filterMap] at he
    obtain ⟨j, -, hj⟩ := he
    cases ht : c.table[j] with
    | none => simp [ht] at hj
    | some q =>
      simp [ht] at hj
      subst hj
      simp [hf j q ht]
  exact this

/-- A cycle that is no reserved write is classified and handled (R3, R4). -/
theorem takeCycle_eq (x : BusCycle) (d : Lc44) (h : d.phc.phop.isStarting = false)
    (hr : ¬(x.op ≠ .read ∧ d.reservedCycle x = true)) : takeCycle x d = handleCycle x (classify x d) d := by
  unfold takeCycle
  simp only [h]
  cases hx : x.op with
  | read => rfl
  | write w =>
    simp [hx] at hr
    simp [hr]

/-! ## Taking and answering -/

/-- The parts of `State.takesCycle`. -/
theorem takesCycle_iff (s : State) :
    s.takesCycle = true ↔
      s.running = true ∧ s.part.phc.phop.isStarting = false ∧ s.part.iport.cycle = none ∧
        s.part.mpc.hold = none ∧ s.part.mpc.fwdWaiting = false ∧ s.part.ovu.work ≠ .awaitWrite ∧
        s.part.inStep = true := by
  simp [State.takesCycle, Lc44.openToCycle, and_assoc]

/-- CCL has nothing to put in force when it is in step. -/
theorem syncCcl_of_inStep (d : Lc44) (h : d.inStep = true) : syncCcl d = d := by
  unfold syncCcl
  split
  · rfl
  · simp only [Lc44.inStep, Bool.and_eq_true, decide_eq_true_eq] at h
    rw [← h.1, ← h.2]
    rfl

/-- With no cycle in progress, CCL puts PHC's phase and SLI's mirror in force. -/
theorem syncCcl_free (d : Lc44) (h : d.iport.cycle = none) :
    syncCcl d =
      { d with
        ccl :=
          { d.ccl with
            phase := d.phc.phase
            mirror := if d.sli.mirrorEnabled then some d.sli.mirrorAddress else none } } := by
  simp [syncCcl, h, Lc44.onCcl]

/-- During a cycle CCL keeps the phase and mirror in force. -/
theorem syncCcl_busy (d : Lc44) (h : d.iport.cycle ≠ none) : syncCcl d = d := by
  cases hc : d.iport.cycle
  · exact absurd hc h
  · simp [syncCcl, hc]

/-- The answer of a cycle that was no guarded-write sequence in flight, with no fold waiting for it. -/
theorem answerCycle_plain (a : IAnswer) (d : Lc44) (hf : d.iport.inFlight = false) (hw : d.ovu.work ≠ .awaitWrite) :
    answerCycle a d =
      { d with
        iport := ⟨none, some a⟩
        mpc := { d.mpc with hold := none }
        ccl :=
          { d.ccl with
            phase := d.phc.phase
            mirror := if d.sli.mirrorEnabled then some d.sli.mirrorAddress else none } } := by
  unfold answerCycle afterAnswer
  simp only [hf]
  rw [syncCcl_free _ rfl]
  simp only [foldReleased, Lc44.onMpc, Lc44.onIport, Bool.false_eq_true, if_false, hw]
  rfl

/-- The answer of a cycle that has used neither the port nor the journal, in step: only the I-port changes. -/
theorem answerCycle_atOnce (a : IAnswer) (d : Lc44) (hf : d.iport.inFlight = false) (hs : d.inStep = true)
    (hw : d.ovu.work ≠ .awaitWrite) (hh : d.mpc.hold = none) :
    answerCycle a d = { d with iport := ⟨none, some a⟩ } := by
  simp only [Lc44.inStep, Bool.and_eq_true, decide_eq_true_eq] at hs
  rw [answerCycle_plain a d hf hw, ← hh, ← hs.1, ← hs.2]

/-! ## FWD at the port -/

/-- Without the hold a stage that needs an M-port cycle requests the port (R26). -/
theorem goOn_free (g : Stage) (d : Lc44) (h : d.mpc.hold = none) : goOn g d = requestFwd (enterStage g d) := by
  simp [goOn, h]

/-- Under the hold a stage that needs an M-port cycle is presented (R28). -/
theorem goOn_held (g : Stage) (d : Lc44) (h : d.mpc.hold.isSome = true) : goOn g d = presentStage (enterStage g d) := by
  simp [goOn, h]

/-- FWD alone at a free port is granted it (R28, R29). -/
theorem arbitrateOnce_fwd (d : Lc44) (h : d.mpc.cycle = none) (hh : d.mpc.hold = none) (hn : d.mpc.noRival = true)
    (hf : d.mpc.fwdWaiting = true) :
    arbitrateOnce d =
      presentStage { d with mpc := { d.mpc with fwdWaiting := false, hold := some d.mpc.timeout, alternation := .fwd } } := by
  simp [Mpc.noRival] at hn
  have hc : d.mpc.choice = some .fwd := by simp [Mpc.choice, hf, hn]
  have hfr : d.mpc.free = true := by simp [Mpc.free, h, hh]
  simp only [arbitrateOnce, hfr, hc, if_true, grantTo]
  rfl

/-- A cycle of FWD ends: its outcome goes to the cycle in progress, and the arbiter decides. -/
theorem memoryEnd_fwd (e : MEnd) (d : Lc44) (p : MCycle) (h : d.mpc.cycle = some p) (hc : p.client = .fwd) :
    memoryEnd e d = arbitrate (fwdEnded e (d.onMpc (Mpc.ended p e))) := by
  simp [memoryEnd, h, dispatchEnd, hc]

/-- A cycle of RST ends: its outcome goes to the restore engine, and the arbiter decides. -/
theorem memoryEnd_rst (e : MEnd) (d : Lc44) (p : MCycle) (h : d.mpc.cycle = some p) (hc : p.client = .rst) :
    memoryEnd e d = arbitrate (restoreEnded (failureOf e) (d.onMpc (Mpc.ended p e))) := by
  simp [memoryEnd, h, dispatchEnd, hc]

/-- A cycle of INT ends: its request leaves the queue, its outcome goes to its owner, and the arbiter decides. -/
theorem memoryEnd_int (e : MEnd) (d : Lc44) (p : MCycle) (q : IntRequest) (rest : List IntRequest)
    (h : d.mpc.cycle = some p) (hc : p.client = .int) (hq : d.mpc.intQueue = q :: rest) :
    memoryEnd e d =
      arbitrate (intEnded q.owner e (d.onMpc fun m => { Mpc.ended p e m with intQueue := rest })) := by
  have hq' : (Mpc.ended p e d.mpc).intQueue = q :: rest := by cases e <;> simpa [Mpc.ended, Mpc.failed] using hq
  simp only [memoryEnd, h, dispatchEnd, hc, Lc44.onMpc_mpc, hq']
  rfl

/-- Without a cycle on the port nothing ends (R23). -/
theorem memoryEnd_none (e : MEnd) (d : Lc44) (h : d.mpc.cycle = none) : memoryEnd e d = d := by
  simp [memoryEnd, h]

/-- Nobody waits: the arbiter changes nothing. -/
theorem arbitrate_idle (d : Lc44) (hf : d.mpc.fwdWaiting = false) (hn : d.mpc.noRival = true) : arbitrate d = d := by
  apply arbitrate_of_settled
  simp [Mpc.noRival] at hn
  simp [Mpc.settled, Mpc.choice, hf, hn]

/-- A busy port: the arbiter changes nothing. -/
theorem arbitrate_busy (d : Lc44) (h : d.mpc.cycle ≠ none) : arbitrate d = d := by
  apply arbitrate_of_settled
  cases hc : d.mpc.cycle
  · exact absurd hc h
  · simp [Mpc.settled, Mpc.free, hc]

/-- FWD alone at a free port with a cycle to present: it is granted and presents it. -/
theorem arbitrate_fwd (d : Lc44) (h : d.mpc.cycle = none) (hh : d.mpc.hold = none) (hn : d.mpc.noRival = true)
    (hf : d.mpc.fwdWaiting = true)
    (hp : (presentStage { d with mpc := { d.mpc with fwdWaiting := false, hold := some d.mpc.timeout, alternation := .fwd } }).mpc.cycle
      ≠ none) :
    arbitrate d =
      presentStage { d with mpc := { d.mpc with fwdWaiting := false, hold := some d.mpc.timeout, alternation := .fwd } } := by
  unfold arbitrate
  rw [arbitrateOnce_fwd d h hh hn hf, arbitrateOnce_of_settled]
  cases hc : (presentStage { d with mpc := { d.mpc with fwdWaiting := false, hold := some d.mpc.timeout, alternation := .fwd } }).mpc.cycle
  · exact absurd hc hp
  · simp [Mpc.settled, Mpc.free, hc]

end Sys2Proof.Machine
end

