-- ==== Sys2Proof/Laws/Frames.lean ====
section
/-! SUPPORT. What each shared operation leaves alone: one lemma for each, naming the blocks it may change. A proof about
another block cites the lemma and does not unfold the operation. -/

namespace Sys2Proof.Machine

set_option Elab.async false

/-! ## Frames -/

/-- Nothing changed. -/
theorem keeps_refl (l : List Block) (d : Lc44) : d.keepsOutside l d :=
  ⟨rfl, rfl, by intro b _; cases b <;> rfl⟩

/-- Two changes one after the other. -/
theorem keeps_trans {l l₁ l₂ : List Block} {d e f : Lc44} (h₁ : d.keepsOutside l₁ e) (h₂ : e.keepsOutside l₂ f)
    (s₁ : l₁ ⊆ l := by decide) (s₂ : l₂ ⊆ l := by decide) : d.keepsOutside l f := by
  refine ⟨h₂.1.trans h₁.1, h₂.2.1.trans h₁.2.1, fun b hb => ?_⟩
  have a := h₁.2.2 b fun h => hb (s₁ h)
  have c := h₂.2.2 b fun h => hb (s₂ h)
  cases b <;> exact Eq.trans c a

/-- Fewer changes than allowed. -/
theorem keeps_mono {l l₁ : List Block} {d e : Lc44} (h : d.keepsOutside l₁ e) (s : l₁ ⊆ l := by decide) :
    d.keepsOutside l e :=
  ⟨h.1, h.2.1, fun b hb => h.2.2 b fun x => hb (s x)⟩

theorem keeps_onIport (f : IPort → IPort) (d : Lc44) : d.keepsOutside [.iport] (d.onIport f) :=
  ⟨rfl, rfl, by intro b hb; cases b <;> first | rfl | exact absurd (by simp) hb⟩
theorem keeps_onMpc (f : Mpc → Mpc) (d : Lc44) : d.keepsOutside [.mpc] (d.onMpc f) :=
  ⟨rfl, rfl, by intro b hb; cases b <;> first | rfl | exact absurd (by simp) hb⟩
theorem keeps_onCcl (f : Ccl → Ccl) (d : Lc44) : d.keepsOutside [.ccl] (d.onCcl f) :=
  ⟨rfl, rfl, by intro b hb; cases b <;> first | rfl | exact absurd (by simp) hb⟩
theorem keeps_onFgd (f : Fgd → Fgd) (d : Lc44) : d.keepsOutside [.fgd] (d.onFgd f) :=
  ⟨rfl, rfl, by intro b hb; cases b <;> first | rfl | exact absurd (by simp) hb⟩
theorem keeps_onTru (f : Tru → Tru) (d : Lc44) : d.keepsOutside [.tru] (d.onTru f) :=
  ⟨rfl, rfl, by intro b hb; cases b <;> first | rfl | exact absurd (by simp) hb⟩
theorem keeps_onOvu (f : Ovu → Ovu) (d : Lc44) : d.keepsOutside [.ovu] (d.onOvu f) :=
  ⟨rfl, rfl, by intro b hb; cases b <;> first | rfl | exact absurd (by simp) hb⟩
theorem keeps_onRcu (f : Rcu → Rcu) (d : Lc44) : d.keepsOutside [.rcu] (d.onRcu f) :=
  ⟨rfl, rfl, by intro b hb; cases b <;> first | rfl | exact absurd (by simp) hb⟩
theorem keeps_onTmu (f : Tmu → Tmu) (d : Lc44) : d.keepsOutside [.tmu] (d.onTmu f) :=
  ⟨rfl, rfl, by intro b hb; cases b <;> first | rfl | exact absurd (by simp) hb⟩
theorem keeps_onAcu (f : Acu → Acu) (d : Lc44) : d.keepsOutside [.acu] (d.onAcu f) :=
  ⟨rfl, rfl, by intro b hb; cases b <;> first | rfl | exact absurd (by simp) hb⟩
theorem keeps_onPhc (f : Phc → Phc) (d : Lc44) : d.keepsOutside [.phc] (d.onPhc f) :=
  ⟨rfl, rfl, by intro b hb; cases b <;> first | rfl | exact absurd (by simp) hb⟩
theorem keeps_onSli (f : Sli → Sli) (d : Lc44) : d.keepsOutside [.sli] (d.onSli f) :=
  ⟨rfl, rfl, by intro b hb; cases b <;> first | rfl | exact absurd (by simp) hb⟩
theorem keeps_onRaised (f : Raised → Raised) (d : Lc44) : d.keepsOutside [.raised] (d.onRaised f) :=
  ⟨rfl, rfl, by intro b hb; cases b <;> first | rfl | exact absurd (by simp) hb⟩


/-! ## Events and requests for the port -/

theorem keeps_raiseRcu (e : Handoff) (d : Lc44) : d.keepsOutside [.raised] (raiseRcu e d) := keeps_onRaised _ _
theorem keeps_raiseTru (e : TruEvent) (d : Lc44) : d.keepsOutside [.raised] (raiseTru e d) := keeps_onRaised _ _
theorem keeps_raiseAcu (e : AcuEvent) (d : Lc44) : d.keepsOutside [.raised] (raiseAcu e d) := keeps_onRaised _ _
theorem keeps_raiseTmu (e : TmuEvent) (d : Lc44) : d.keepsOutside [.raised] (raiseTmu e d) := keeps_onRaised _ _
theorem keeps_takenRcu (e : Handoff) (d : Lc44) : d.keepsOutside [.raised] (takenRcu e d) := keeps_onRaised _ _
theorem keeps_takenTru (e : TruEvent) (d : Lc44) : d.keepsOutside [.raised] (takenTru e d) := keeps_onRaised _ _
theorem keeps_takenAcu (e : AcuEvent) (d : Lc44) : d.keepsOutside [.raised] (takenAcu e d) := keeps_onRaised _ _
theorem keeps_takenTmu (e : TmuEvent) (d : Lc44) : d.keepsOutside [.raised] (takenTmu e d) := keeps_onRaised _ _
theorem keeps_deliverTru {l : List Block} {f : Lc44 → Lc44} (e : TruEvent) (d : Lc44)
    (h : ∀ x : Lc44, x.keepsOutside l (f x)) (s : [Block.raised] ⊆ l := by decide) :
    d.keepsOutside l (deliverTru e f d) := by
  unfold deliverTru
  split
  · exact keeps_trans (keeps_takenTru e d) (h _) s (List.Subset.refl l)
  · exact keeps_refl _ _
theorem keeps_deliverAcu {l : List Block} {f : Lc44 → Lc44} (e : AcuEvent) (d : Lc44)
    (h : ∀ x : Lc44, x.keepsOutside l (f x)) (s : [Block.raised] ⊆ l := by decide) :
    d.keepsOutside l (deliverAcu e f d) := by
  unfold deliverAcu
  split
  · exact keeps_trans (keeps_takenAcu e d) (h _) s (List.Subset.refl l)
  · exact keeps_refl _ _
theorem keeps_deliverTmu {l : List Block} {f : Lc44 → Lc44} (e : TmuEvent) (d : Lc44)
    (h : ∀ x : Lc44, x.keepsOutside l (f x)) (s : [Block.raised] ⊆ l := by decide) :
    d.keepsOutside l (deliverTmu e f d) := by
  unfold deliverTmu
  split
  · exact keeps_trans (keeps_takenTmu e d) (h _) s (List.Subset.refl l)
  · exact keeps_refl _ _
theorem keeps_sendCapture (n : CaptureNotice) (d : Lc44) : d.keepsOutside [.raised] (sendCapture n d) :=
  keeps_trans (keeps_trans (l := [.raised]) (keeps_raiseTru _ d) (keeps_raiseAcu _ _)) (keeps_raiseTmu _ _)
theorem keeps_sendStale (c : Carrier) (d : Lc44) : d.keepsOutside [.raised] (sendStale c d) :=
  keeps_trans (keeps_trans (l := [.raised]) (keeps_raiseTru _ d) (keeps_raiseAcu _ _)) (keeps_raiseTmu _ _)
theorem keeps_requestFwd (d : Lc44) : d.keepsOutside [.mpc] (requestFwd d) := keeps_onMpc _ _
theorem keeps_requestRst (r : MRequest) (d : Lc44) : d.keepsOutside [.mpc] (requestRst r d) := keeps_onMpc _ _
theorem keeps_requestInt (o : IntOwner) (r : MRequest) (d : Lc44) : d.keepsOutside [.mpc] (requestInt o r d) := keeps_onMpc _ _
theorem keeps_requestMir (r : MRequest) (d : Lc44) : d.keepsOutside [.mpc] (requestMir r d) := keeps_onMpc _ _
theorem keeps_present (c : Client) (r : MRequest) (d : Lc44) : d.keepsOutside [.mpc] (present c r d) := keeps_onMpc _ _
theorem keeps_syncCcl (d : Lc44) : d.keepsOutside [.ccl] (syncCcl d) := by
  unfold syncCcl
  split
  · exact keeps_refl _ _
  · exact keeps_onCcl _ _

/-! ## The service line -/

theorem keeps_startSending (l : List (List Byte)) (d : Lc44) : d.keepsOutside [.sli] (startSending l d) := keeps_onSli _ _
theorem keeps_answer (s : Status) (data : List Byte) (d : Lc44) : d.keepsOutside [.sli] (answer s data d) := by
  unfold answer
  split
  · exact keeps_refl _ _
  · exact keeps_startSending _ _
theorem keeps_answerChain (s : Status) (data : List Byte) (d : Lc44) : d.keepsOutside [.sli] (answerChain s data d) := by
  unfold answerChain
  split
  · exact keeps_refl _ _
  · exact keeps_startSending _ _
theorem keeps_takeFrame (c : Byte) (b : List Byte) (d : Lc44) : d.keepsOutside [.sli] (takeFrame c b d) := keeps_onSli _ _

/-! ## Trials -/

theorem keeps_requestHeader (g : HeaderStep) (r t : Bool) (d : Lc44) : d.keepsOutside [.mpc, .tru] (requestHeader g r t d) :=
  keeps_trans (keeps_onTru _ _) (keeps_requestInt _ _ _)
theorem keeps_startHeader (g : HeaderStep) (d : Lc44) : d.keepsOutside [.mpc, .tru] (startHeader g d) := by
  unfold startHeader
  split
  · exact keeps_mono (keeps_onTru _ _)
  · exact keeps_requestHeader _ _ _ _
theorem keeps_countRefused (d : Lc44) : d.keepsOutside [.tru] (countRefused d) := keeps_onTru _ _
theorem keeps_restoreNext (d : Lc44) : d.keepsOutside [.mpc, .tru] (restoreNext d) := by
  unfold restoreNext
  split
  · exact keeps_trans (keeps_onTru _ _) (keeps_requestRst _ _)
  · exact keeps_requestHeader _ _ _ _
theorem keeps_startRollback (x : EndCause) (c : Option Carrier) (d : Lc44) : d.keepsOutside [.mpc, .tru, .raised, .sli] (startRollback x c d) := by
  unfold startRollback
  dsimp only
  split
  · exact keeps_trans (keeps_trans (l := [.tru, .raised, .sli]) (keeps_trans (l := [.tru, .raised])
      (keeps_onTru _ _) (keeps_raiseAcu _ _)) (keeps_answer _ _ _)) (keeps_restoreNext _)
  · exact keeps_trans (keeps_trans (l := [.tru, .raised]) (keeps_onTru _ _) (keeps_raiseAcu _ _)) (keeps_restoreNext _)
theorem keeps_takeRollbackCause (x : EndCause) (c : Option Carrier) (d : Lc44) : d.keepsOutside [.mpc, .tru, .raised, .sli] (takeRollbackCause x c d) := by
  unfold takeRollbackCause
  split
  · exact keeps_mono (keeps_onTru _ _)
  · exact keeps_startRollback _ _ _
theorem keeps_endRollback (d : Lc44) : d.keepsOutside [.tru] (endRollback d) := keeps_onTru _ _
theorem keeps_restoreEnded (f : Option MFailure) (d : Lc44) : d.keepsOutside [.mpc, .tru] (restoreEnded f d) := by
  unfold restoreEnded
  split
  · split
    · exact keeps_trans (keeps_onTru _ _) (keeps_restoreNext _)
    · exact keeps_trans (keeps_onTru _ _) (keeps_requestRst _ _)
    · exact keeps_trans (keeps_onTru _ _) (keeps_restoreNext _)
  · exact keeps_refl _ _
theorem keeps_entryCheck (d : Lc44) : d.keepsOutside [.mpc, .tru, .raised, .sli] (entryCheck d) := by
  unfold entryCheck
  split
  · exact keeps_takeRollbackCause _ _ _
  · exact keeps_refl _ _
theorem keeps_renumber (d : Lc44) : d.keepsOutside [.tru] (renumber d) := keeps_onTru _ _
theorem keeps_beginOpening (r : OpenRequest) (d : Lc44) : d.keepsOutside [.mpc, .tru] (beginOpening r d) := by
  unfold beginOpening
  dsimp only
  split
  · exact keeps_trans (keeps_onTru _ _) (keeps_startHeader _ _)
  · exact keeps_trans (keeps_trans (l := [.tru]) (keeps_onTru _ _) (keeps_renumber _)) (keeps_startHeader _ _)
theorem keeps_enterOpen (d : Lc44) : d.keepsOutside [.mpc, .tru, .raised, .sli] (enterOpen d) :=
  keeps_trans (keeps_trans (l := [.tru, .sli]) (keeps_onTru _ _) (keeps_answer _ _ _)) (keeps_entryCheck _)
theorem keeps_failOpen (f : Tru → Tru) (d : Lc44) : d.keepsOutside [.tru, .sli] (failOpen f d) :=
  keeps_trans (keeps_onTru _ _) (keeps_answer _ _ _)
theorem keeps_beginClosing (c : CloseSource) (d : Lc44) : d.keepsOutside [.mpc, .tru] (beginClosing c d) :=
  keeps_trans (keeps_onTru _ _) (keeps_startHeader _ _)
theorem keeps_closeSucceeds (d : Lc44) : d.keepsOutside [.tru, .sli] (closeSucceeds d) := by
  unfold closeSucceeds
  dsimp only
  split
  · exact keeps_trans (keeps_onTru _ _) (keeps_answer _ _ _)
  · exact keeps_mono (keeps_onTru _ _)
theorem keeps_closeFails (d : Lc44) : d.keepsOutside [.mpc, .tru, .raised, .sli] (closeFails d) := by
  unfold closeFails
  dsimp only
  have h : ∀ e : Lc44, d.keepsOutside [.tru, .sli] e → ∀ x c,
      d.keepsOutside [.mpc, .tru, .raised, .sli] (takeRollbackCause x c e) ∧
        d.keepsOutside [.mpc, .tru, .raised, .sli] (entryCheck e) :=
    fun e he x c => ⟨keeps_trans he (keeps_takeRollbackCause _ _ _), keeps_trans he (keeps_entryCheck _)⟩
  split
  · split
    · exact (h _ (keeps_trans (keeps_onTru _ _) (keeps_answer _ _ _)) _ _).1
    · exact (h _ (keeps_trans (keeps_onTru _ _) (keeps_onTru _ _)) _ _).1
  · split
    · exact (h _ (keeps_trans (keeps_onTru _ _) (keeps_answer _ _ _)) .expired none).2
    · exact (h _ (keeps_trans (keeps_onTru _ _) (keeps_onTru _ _)) .expired none).2
theorem keeps_headerWritten (g : HeaderStep) (d : Lc44) : d.keepsOutside [.mpc, .tru, .raised, .sli] (headerWritten g d) := by
  unfold headerWritten
  cases g <;> dsimp only
  · exact keeps_mono (keeps_requestHeader _ _ _ _)
  · exact keeps_trans (keeps_trans (l := [.tru]) (keeps_onTru _ _) (keeps_renumber _)) (keeps_requestHeader _ _ _ _)
  · exact keeps_mono (keeps_requestHeader _ _ _ _)
  · exact keeps_enterOpen _
  · exact keeps_trans (keeps_closeSucceeds _) (keeps_requestHeader _ _ _ _)
  · exact keeps_mono (keeps_onTru _ _)
  · exact keeps_mono (keeps_requestHeader _ _ _ _)
  · exact keeps_mono (keeps_endRollback _)
theorem keeps_headerFailed (g : HeaderStep) (t : Bool) (d : Lc44) : d.keepsOutside [.mpc, .tru, .raised, .sli] (headerFailed g t d) := by
  unfold headerFailed
  cases g <;> dsimp only
  · exact keeps_mono (keeps_failOpen _ _)
  · exact keeps_mono (keeps_failOpen _ _)
  · exact keeps_mono (keeps_failOpen _ _)
  · exact keeps_mono (keeps_failOpen _ _)
  · split
    · exact keeps_trans (keeps_closeSucceeds _) (keeps_onTru _ _)
    · exact keeps_closeFails _
  · exact keeps_mono (keeps_onTru _ _)
  · exact keeps_trans (keeps_onTru _ _) (keeps_endRollback _)
  · exact keeps_mono (keeps_endRollback _)
theorem keeps_headerEnded (f : Option MFailure) (d : Lc44) : d.keepsOutside [.mpc, .tru, .raised, .sli] (headerEnded f d) := by
  unfold headerEnded
  split
  · split
    · exact keeps_headerWritten _ _
    · dsimp only
      split
      · exact keeps_headerFailed _ _ _
      · exact keeps_mono (keeps_requestHeader _ _ _ _)
  · exact keeps_refl _ _
theorem keeps_sequenceAnswered (d : Lc44) : d.keepsOutside [.mpc, .tru, .raised, .sli] (sequenceAnswered d) := by
  unfold sequenceAnswered
  split
  · exact keeps_startRollback _ _ _
  · split
    · exact keeps_mono (keeps_requestHeader _ _ _ _)
    · exact keeps_refl _ _

/-! ## Tone, mute and phase -/

theorem keeps_recomputeTone (d : Lc44) : d.keepsOutside [.tmu] (recomputeTone d) := keeps_onTmu _ _
theorem keeps_changeView (c : Carrier) (v : CarrierView) (d : Lc44) : d.keepsOutside [.tmu] (changeView c v d) := by
  unfold changeView
  dsimp only
  split
  · exact keeps_trans (keeps_onTmu _ _) (keeps_recomputeTone _)
  · exact keeps_onTmu _ _
theorem keeps_mastAsserted (d : Lc44) : d.keepsOutside [.tmu, .raised] (mastAsserted d) := by
  unfold mastAsserted
  dsimp only
  split
  · exact keeps_trans (keeps_onTmu _ _) (keeps_raiseAcu _ _)
  · exact keeps_mono (keeps_onTmu _ _)
theorem keeps_mastReleased (d : Lc44) : d.keepsOutside [.tmu] (mastReleased d) := keeps_onTmu _ _
theorem keeps_setPhase (p : Phase) (d : Lc44) : d.keepsOutside [.phc, .ccl, .tmu] (setPhase p d) :=
  keeps_trans (keeps_trans (l := [.phc, .ccl]) (keeps_onPhc _ _) (keeps_syncCcl _)) (keeps_recomputeTone _)

/-! ## Writing a profile, and the fold -/

theorem keeps_requestImageWrite (d : Lc44) : d.keepsOutside [.mpc] (requestImageWrite d) := by
  unfold requestImageWrite
  split
  · exact keeps_requestInt _ _ _
  · exact keeps_refl _ _
theorem keeps_beginWriting (i : List Word) (d : Lc44) : d.keepsOutside [.mpc, .phc] (beginWriting i d) :=
  keeps_trans (keeps_onPhc _ _) (keeps_requestImageWrite _)
theorem keeps_beginSave (d : Lc44) : d.keepsOutside [.mpc, .phc] (beginSave d) :=
  keeps_trans (keeps_onPhc _ _) (keeps_beginWriting _ _)
theorem keeps_writingDone (d : Lc44) : d.keepsOutside [.phc, .ccl, .tmu] (writingDone d) := by
  unfold writingDone
  dsimp only
  split
  · exact keeps_trans (keeps_onPhc _ _) (keeps_setPhase _ _)
  · exact keeps_mono (keeps_onPhc _ _)
theorem keeps_writingFailed (o : Nat) (f : MFailure) (d : Lc44) : d.keepsOutside [.phc] (writingFailed o f d) := keeps_onPhc _ _
theorem keeps_imageWriteEnded (f : Option MFailure) (d : Lc44) : d.keepsOutside [.mpc, .phc, .ccl, .tmu] (imageWriteEnded f d) := by
  unfold imageWriteEnded
  split
  · dsimp only
    split
    · exact keeps_trans (keeps_onPhc _ _) (keeps_writingFailed _ _ _)
    · split
      · exact keeps_trans (keeps_trans (l := [.phc]) (keeps_onPhc _ _) (keeps_onPhc _ _)) (keeps_requestImageWrite _)
      · exact keeps_trans (keeps_onPhc _ _) (keeps_writingDone _)
  · exact keeps_refl _ _
theorem keeps_foldDone (d : Lc44) : d.keepsOutside [.mpc, .ovu, .phc] (foldDone d) :=
  keeps_trans (keeps_trans (l := [.ovu, .phc]) (keeps_onOvu _ _) (keeps_onPhc _ _)) (keeps_beginWriting _ _)
theorem keeps_foldNext (d : Lc44) : d.keepsOutside [.mpc, .ovu, .phc] (foldNext d) := by
  unfold foldNext
  split
  · exact keeps_foldDone _
  · exact keeps_trans (keeps_onOvu _ _) (keeps_requestInt _ _ _)
theorem keeps_startFold (d : Lc44) : d.keepsOutside [.mpc, .ovu, .phc] (startFold d) := by
  unfold startFold
  dsimp only
  split
  · exact keeps_trans (keeps_onOvu _ _) (keeps_onOvu _ _)
  · exact keeps_trans (keeps_onOvu _ _) (keeps_foldNext _)
theorem keeps_foldReleased (d : Lc44) : d.keepsOutside [.mpc, .ovu, .phc] (foldReleased d) := by
  unfold foldReleased
  split
  · exact keeps_foldNext _
  · exact keeps_refl _ _
theorem keeps_foldFailed (w : FoldFailure) (d : Lc44) : d.keepsOutside [.ovu, .phc] (foldFailed w d) :=
  keeps_trans (keeps_onOvu _ _) (keeps_onPhc _ _)
theorem keeps_foldEnded (e : MEnd) (d : Lc44) : d.keepsOutside [.mpc, .ovu, .phc] (foldEnded e d) := by
  unfold foldEnded
  split
  · unfold foldWrite
    split
    · exact keeps_foldNext _
    · split
      · exact keeps_mono (keeps_foldFailed _ _)
      · exact keeps_trans (keeps_onOvu _ _) (keeps_requestInt _ _ _)
  · exact keeps_mono (keeps_foldFailed _ _)
  · exact keeps_trans (keeps_onOvu _ _) (keeps_foldNext _)
  · exact keeps_mono (keeps_foldFailed _ _)
  · exact keeps_refl _ _
theorem keeps_beginHandover (d : Lc44) : d.keepsOutside [.mpc, .ovu, .phc] (beginHandover d) :=
  keeps_trans (keeps_onPhc _ _) (keeps_startFold _)

/-! ## The mirror -/

theorem keeps_requestMirrorWord (r : Refresh) (d : Lc44) : d.keepsOutside [.mpc, .sli] (requestMirrorWord r d) :=
  keeps_trans (keeps_onSli _ _) (keeps_requestMir _ _)
theorem keeps_startRefresh (d : Lc44) : d.keepsOutside [.mpc, .sli] (startRefresh d) :=
  keeps_trans (keeps_onSli _ _) (keeps_requestMirrorWord _ _)
theorem keeps_startMirror (d : Lc44) : d.keepsOutside [.mpc, .sli] (startMirror d) :=
  keeps_trans (keeps_startRefresh _) (keeps_onSli _ _)
theorem keeps_abandonRefresh (d : Lc44) : d.keepsOutside [.mpc, .sli] (abandonRefresh d) :=
  keeps_trans (keeps_onMpc _ _) (keeps_onSli _ _)
theorem keeps_mirrorEnded (f : Option MFailure) (d : Lc44) : d.keepsOutside [.mpc, .sli] (mirrorEnded f d) := by
  unfold mirrorEnded
  split
  · exact keeps_mono (keeps_onSli _ _)
  · split
    · exact keeps_refl _ _
    · exact keeps_mono (keeps_onSli _ _)
    · split
      · exact keeps_requestMirrorWord _ _
      · exact keeps_mono (keeps_onSli _ _)
theorem keeps_refreshExpired (d : Lc44) : d.keepsOutside [.mpc, .sli] (refreshExpired d) := by
  unfold refreshExpired
  split
  · exact keeps_refl _ _
  · split
    · exact keeps_trans (keeps_trans (l := [.mpc, .sli]) (keeps_abandonRefresh _) (keeps_onSli _ _))
        (keeps_startMirror _)
    · exact keeps_startMirror _
theorem keeps_setMirror (on : Bool) (a : Addr) (d : Lc44) : d.keepsOutside [.mpc, .sli, .ccl] (setMirror on a d) := by
  unfold setMirror
  dsimp only
  split
  · exact keeps_trans (keeps_trans (l := [.mpc, .sli, .ccl]) (keeps_trans (l := [.mpc, .sli])
      (keeps_abandonRefresh _) (keeps_onSli _ _)) (keeps_syncCcl _)) (keeps_startMirror _)
  · exact keeps_trans (keeps_trans (l := [.mpc, .sli]) (keeps_abandonRefresh _) (keeps_onSli _ _)) (keeps_syncCcl _)

/-! ## Acceptance -/

theorem keeps_openStep (i : Nat) (s : PlanStep) (d : Lc44) : d.keepsOutside [.acu] ((openStep i s d).1) := by
  unfold openStep
  dsimp only
  split
  · exact keeps_onAcu _ _
  · split
    · exact keeps_trans (keeps_onAcu _ _) (keeps_onAcu _ _)
    · unfold enterSettling
      dsimp only
      split <;> exact keeps_trans (keeps_onAcu _ _) (keeps_onAcu _ _)
theorem keeps_beginStep (k i : Nat) (d : Lc44) : d.keepsOutside [.acu] (beginStep k i d) := by
  induction k generalizing i d with
  | zero => exact keeps_refl _ _
  | succ k ih =>
    unfold beginStep
    split
    · exact keeps_refl _ _
    · next s _ =>
      have h := keeps_openStep i s d
      split
      · next e => rw [e] at h; exact h
      · next e =>
        rw [e] at h
        dsimp only
        split
        · exact keeps_trans (keeps_trans (l := [.acu]) h (keeps_onAcu _ _)) (keeps_onAcu _ _)
        · exact keeps_trans (keeps_trans (l := [.acu]) h (keeps_onAcu _ _)) (ih _ _)
theorem keeps_endStep (e : StepEnd) (p : Option PlanStep) (d : Lc44) : d.keepsOutside [.acu] (endStep e p d) := by
  unfold endStep
  dsimp only
  split
  · exact keeps_trans (keeps_onAcu _ _) (keeps_onAcu _ _)
  · exact keeps_trans (keeps_onAcu _ _) (keeps_beginStep _ _ _)
theorem keeps_takeStep (d : Lc44) : d.keepsOutside [.acu] (takeStep d) := by
  unfold takeStep
  split
  · split
    · exact keeps_endStep _ _ _
    · next s _ _ _ =>
      have h : (d.onAcu fun a => { a with timer := none }).keepsOutside [.acu]
          (enterSettling s (d.onAcu fun a => { a with timer := none })).1 := by
        unfold enterSettling
        dsimp only
        split <;> exact keeps_onAcu _ _
      split
      · next e => rw [e] at h; exact keeps_trans (keeps_onAcu _ _) h
      · next e =>
        rw [e] at h
        exact keeps_trans (keeps_trans (l := [.acu]) (keeps_onAcu _ _) h) (keeps_endStep _ _ _)
  · exact keeps_onAcu _ _
theorem keeps_takeAcuCapture (n : CaptureNotice) (d : Lc44) : d.keepsOutside [.acu] (takeAcuCapture n d) := by
  unfold takeAcuCapture
  split
  · exact keeps_onAcu _ _
  · exact keeps_refl _ _
theorem keeps_takeAcuStale (c : Carrier) (d : Lc44) : d.keepsOutside [.acu] (takeAcuStale c d) := by
  unfold takeAcuStale
  split
  · exact keeps_trans (keeps_onAcu _ _) (keeps_endStep _ _ _)
  · exact keeps_refl _ _
theorem keeps_takeMute (d : Lc44) : d.keepsOutside [.acu] (takeMute d) := by
  unfold takeMute
  split
  · exact keeps_refl _ _
  · split
    · exact keeps_endStep _ _ _
    · exact keeps_refl _ _
theorem keeps_takeRollback (d : Lc44) : d.keepsOutside [.acu] (takeRollback d) := by
  unfold takeRollback
  dsimp only
  split
  · exact keeps_onAcu _ _
  · exact keeps_trans (keeps_endStep _ _ _) (keeps_onAcu _ _)
theorem keeps_armExpired (d : Lc44) : d.keepsOutside [.acu] (armExpired d) := by
  unfold armExpired
  split
  · exact keeps_endStep _ _ _
  · exact keeps_refl _ _
theorem keeps_settleExpired (d : Lc44) : d.keepsOutside [.acu] (settleExpired d) := by
  unfold settleExpired
  split
  · split
    · exact keeps_onAcu _ _
    · exact keeps_refl _ _
  · exact keeps_refl _ _
theorem keeps_measurementEnded (p : PlanStep) (d : Lc44) : d.keepsOutside [.acu] (measurementEnded p d) :=
  keeps_trans (keeps_onAcu _ _) (keeps_endStep _ _ _)
theorem keeps_measureExpired (d : Lc44) : d.keepsOutside [.acu] (measureExpired d) := by
  unfold measureExpired
  split
  · split
    · exact keeps_measurementEnded _ _
    · exact keeps_refl _ _
  · exact keeps_refl _ _

/-! ## Captures -/

theorem keeps_setBuffer (c : Carrier) (b : Buffer) (d : Lc44) : d.keepsOutside [.rcu] (setBuffer c b d) := keeps_onRcu _ _
theorem keeps_setRecord (c : Carrier) (x : CaptureRecord) (d : Lc44) : d.keepsOutside [.rcu] (setRecord c x d) := keeps_onRcu _ _
theorem keeps_captureAttempt (c : Carrier) (b : Buffer) (d : Lc44) : d.keepsOutside [.rcu, .raised] (captureAttempt c b d) := by
  unfold captureAttempt
  dsimp only
  split
  · exact keeps_trans (keeps_trans (l := [.rcu]) (keeps_setBuffer _ _ _) (keeps_setRecord _ _ _)) (keeps_sendCapture _ _)
  · exact keeps_trans (keeps_setBuffer _ _ _) (keeps_setRecord _ _ _)
theorem keeps_takeHandoff (h : Handoff) (d : Lc44) : d.keepsOutside [.rcu, .raised] (takeHandoff h d) := by
  unfold takeHandoff
  split
  · split
    · unfold observeWord
      dsimp only
      split
      · exact keeps_captureAttempt _ _ _
      · exact keeps_mono (keeps_setBuffer _ _ _)
    · exact keeps_refl _ _
  · exact keeps_refl _ _
theorem keeps_becomeStale (c : Carrier) (d : Lc44) : d.keepsOutside [.rcu, .raised] (becomeStale c d) := by
  unfold becomeStale
  dsimp only
  split
  · exact keeps_trans (keeps_setRecord _ _ _) (keeps_sendStale _ _)
  · exact keeps_refl _ _
theorem keeps_retimeCarrier (n : Nat) (c : Carrier) (d : Lc44) : d.keepsOutside [.rcu, .raised] (retimeCarrier n c d) := by
  unfold retimeCarrier
  dsimp only
  split
  · split
    · exact keeps_becomeStale _ _
    · exact keeps_mono (keeps_setRecord _ _ _)
  · exact keeps_refl _ _
theorem keeps_setReportTimes (n : Nat) (f : Int) (d : Lc44) : d.keepsOutside [.rcu, .raised] (setReportTimes n f d) :=
  keeps_trans (l₁ := [.rcu, .raised]) (keeps_trans (l := [.rcu, .raised]) (keeps_trans (l := [.rcu, .raised])
    (keeps_trans (l := [.rcu, .raised]) (keeps_onRcu _ _) (keeps_retimeCarrier _ _ _)) (keeps_retimeCarrier _ _ _))
    (keeps_retimeCarrier _ _ _)) (keeps_retimeCarrier _ _ _)
theorem keeps_resetPeaks (m : CarrierSet) (d : Lc44) : d.keepsOutside [.rcu, .raised] (resetPeaks m d) :=
  keeps_trans (keeps_onRcu _ _) (keeps_raiseTmu _ _)
theorem keeps_clearCaptures (m : CarrierSet) (d : Lc44) : d.keepsOutside [.rcu, .raised] (clearCaptures m d) :=
  keeps_trans (keeps_trans (l := [.rcu, .raised]) (keeps_onRcu _ _) (keeps_raiseTmu _ _)) (keeps_raiseTmu _ _)

/-! ## Tables, and the guard -/

theorem keeps_countHits (l : List (Fin 64)) (d : Lc44) : d.keepsOutside [.fgd] (countHits l d) := keeps_onFgd _ _
theorem keeps_countFault (c : FaultCause) (d : Lc44) : d.keepsOutside [.ccl] (countFault c d) := keeps_onCcl _ _
theorem keeps_enterStage (g : Stage) (d : Lc44) : d.keepsOutside [.iport] (enterStage g d) := keeps_onIport _ _
theorem keeps_appendEntry (c : ICycle) (g : GuardSeq) (d : Lc44) : d.keepsOutside [.tru] (appendEntry c g d) := keeps_onTru _ _
theorem keeps_unliveRules (t : Fin 64 → Bool) (d : Lc44) : d.keepsOutside [.iport] (unliveRules t d) := keeps_onIport _ _
theorem keeps_clearMaps (f : MapId → Bool) (d : Lc44) : d.keepsOutside [.iport, .ovu] (clearMaps f d) :=
  keeps_trans (keeps_onOvu _ _) (keeps_onIport _ _)
theorem keeps_storeRegion (i : Fin 16) (r : Option Region) (d : Lc44) : d.keepsOutside [.iport, .ovu, .ccl] (storeRegion i r d) :=
  keeps_trans (keeps_clearMaps _ _) (keeps_onCcl _ _)
theorem keeps_storeRule (i : Fin 64) (r : Option Rule) (d : Lc44) : d.keepsOutside [.iport, .fgd] (storeRule i r d) :=
  keeps_trans (keeps_onFgd _ _) (keeps_unliveRules _ _)

/-! ## Cycles of the I-port -/

theorem keeps_answerCycle (a : IAnswer) (d : Lc44) : d.keepsOutside [.iport, .mpc, .ccl, .tru, .raised, .sli, .ovu, .phc] (answerCycle a d) := by
  unfold answerCycle afterAnswer
  dsimp only
  refine keeps_trans (l₁ := [.iport, .mpc, .ccl, .tru, .raised, .sli]) ?_ (keeps_foldReleased _)
  split
  · exact keeps_trans (keeps_trans (l := [.iport, .mpc, .ccl]) (keeps_trans (l := [.iport, .mpc])
      (keeps_onIport _ _) (keeps_onMpc _ _)) (keeps_syncCcl _)) (keeps_sequenceAnswered _)
  · exact keeps_trans (keeps_trans (l := [.iport, .mpc]) (keeps_onIport _ _) (keeps_onMpc _ _)) (keeps_syncCcl _)
theorem keeps_faultCycle (c : FaultCause) (d : Lc44) : d.keepsOutside [.iport, .mpc, .ccl, .tru, .raised, .sli, .ovu, .phc] (faultCycle c d) :=
  keeps_trans (keeps_countFault _ _) (keeps_answerCycle _ _)
theorem keeps_presentGuarded (c : ICycle) (g : GuardSeq) (d : Lc44) : d.keepsOutside [.iport, .mpc, .ccl, .fgd, .tru, .raised, .sli, .ovu, .phc] (presentGuarded c g d) := by
  unfold presentGuarded
  dsimp only
  split
  · exact keeps_trans (keeps_countHits _ _) (keeps_faultCycle _ _)
  · exact keeps_trans (keeps_trans (l := [.fgd, .iport]) (keeps_countHits _ _) (keeps_enterStage _ _)) (keeps_present _ _ _)
theorem keeps_presentStage (d : Lc44) : d.keepsOutside [.iport, .mpc, .ccl, .fgd, .tru, .raised, .sli, .ovu, .phc] (presentStage d) := by
  unfold presentStage
  split
  · exact keeps_refl _ _
  · split
    · exact keeps_mono (keeps_present _ _ _)
    · exact keeps_mono (keeps_present _ _ _)
    · exact keeps_refl _ _
    · exact keeps_mono (keeps_present _ _ _)
    · exact keeps_mono (keeps_present _ _ _)
    · exact keeps_presentGuarded _ _ _
theorem keeps_goOn (g : Stage) (d : Lc44) : d.keepsOutside [.iport, .mpc, .ccl, .fgd, .tru, .raised, .sli, .ovu, .phc] (goOn g d) := by
  unfold goOn
  split
  · exact keeps_trans (keeps_enterStage _ _) (keeps_presentStage _)
  · exact keeps_trans (keeps_enterStage _ _) (keeps_requestFwd _)
theorem keeps_guardRules (w : Word) (g : GuardSeq) (d : Lc44) : d.keepsOutside [.iport, .mpc, .ccl, .fgd, .tru, .raised, .sli, .ovu, .phc] (guardRules w g d) := by
  unfold guardRules
  dsimp only
  split
  · exact keeps_trans (keeps_countHits _ _) (keeps_faultCycle _ _)
  · exact keeps_trans (keeps_countHits _ _) (keeps_goOn _ _)
theorem keeps_guardGo (j : Bool) (a b : Nat) (c : BusCycle) (o : Nat) (w : Word) (d : Lc44) : d.keepsOutside [.iport, .mpc, .ccl, .fgd, .tru, .raised, .sli, .ovu, .phc] (guardGo j a b c o w d) := by
  unfold guardGo
  dsimp only
  split
  · exact keeps_goOn _ _
  · exact keeps_guardRules _ _ _
theorem keeps_settle (a b : Nat) (c : BusCycle) (o : Nat) (w : Word) (d : Lc44) : d.keepsOutside [.iport, .mpc, .ccl, .fgd, .tru, .raised, .sli, .ovu, .phc] (settle a b c o w d) := by
  unfold settle
  split
  · exact keeps_mono (keeps_enterStage _ _)
  · exact keeps_mono (keeps_enterStage _ _)
  · exact keeps_guardGo _ _ _ _ _ _ _
  · exact keeps_guardGo _ _ _ _ _ _ _
  · split
    · exact keeps_trans (keeps_countRefused _) (keeps_faultCycle _ _)
    · exact keeps_guardGo _ _ _ _ _ _ _
theorem keeps_handleCycle (x : BusCycle) (r : ClassRecord) (d : Lc44) : d.keepsOutside [.iport, .mpc, .ccl, .fgd, .tru, .raised, .sli, .ovu, .phc] (handleCycle x r d) := by
  have h : ∀ e : Lc44, Lc44.keepsOutside [.iport, .mpc, .ccl, .fgd, .tru, .raised, .sli, .ovu, .phc]
      (d.onIport fun p => { p with cycle := some ⟨x, r, .forward⟩ }) e →
      d.keepsOutside [.iport, .mpc, .ccl, .fgd, .tru, .raised, .sli, .ovu, .phc] e :=
    fun e he => keeps_trans (keeps_onIport _ _) he
  unfold handleCycle
  dsimp only
  split
  · exact h _ (keeps_mono (keeps_faultCycle _ _))
  · exact h _ (keeps_settle _ _ _ _ _ _)
  · unfold takeGuardedRead
    split
    · split
      · exact h _ (keeps_mono (keeps_answerCycle _ _))
      · exact h _ (keeps_goOn _ _)
    · exact h _ (keeps_goOn _ _)
  · unfold takeRedirectedWrite
    split
    · exact h _ (keeps_mono (keeps_faultCycle _ _))
    · split
      · exact h _ (keeps_mono (keeps_faultCycle _ _))
      · exact h _ (keeps_goOn _ _)
  · exact h _ (keeps_goOn _ _)
  · exact h _ (keeps_goOn _ _)
theorem keeps_takeCycle (x : BusCycle) (d : Lc44) : d.keepsOutside [.iport, .mpc, .ccl, .fgd, .tru, .raised, .sli, .ovu, .phc] (takeCycle x d) := by
  unfold takeCycle
  split
  · exact keeps_mono (keeps_onIport _ _)
  · split
    · split
      · exact keeps_mono (keeps_faultCycle _ _)
      · exact keeps_handleCycle _ _ _
    · exact keeps_handleCycle _ _ _
theorem keeps_acceptedWrite (r : ClassRecord) (w : Word) (d : Lc44) : d.keepsOutside [.raised] (acceptedWrite r w d) := by
  unfold acceptedWrite
  split
  · split
    · unfold raiseSignal
      split
      · exact keeps_raiseTru _ _
      · exact keeps_raiseTru _ _
      · exact keeps_raiseAcu _ _
    · exact keeps_refl _ _
  · exact keeps_raiseRcu _ _
  · exact keeps_refl _ _
theorem keeps_fwdOk (c : ICycle) (w : Word) (d : Lc44) : d.keepsOutside [.iport, .mpc, .ccl, .fgd, .tru, .raised, .sli, .ovu, .phc] (fwdOk c w d) := by
  unfold fwdOk
  split
  · unfold forwardOk
    split
    · exact keeps_mono (keeps_answerCycle _ _)
    · exact keeps_trans (keeps_acceptedWrite _ _ _) (keeps_answerCycle _ _)
  · unfold redirectedOk
    split
    · refine keeps_trans (l₁ := [.ovu]) ?_ (keeps_answerCycle _ _)
      split
      · exact keeps_refl _ _
      · exact keeps_onOvu _ _
    · exact keeps_mono (keeps_answerCycle _ _)
    · exact keeps_mono (keeps_answerCycle _ _)
  · exact keeps_refl _ _
  · unfold preReadOk
    split
    · exact keeps_trans (keeps_countRefused _) (keeps_faultCycle _ _)
    · exact keeps_guardRules _ _ _
  · unfold writeAheadOk
    split
    · exact keeps_goOn _ _
    · exact keeps_trans (keeps_appendEntry _ _ _) (keeps_goOn _ _)
  · unfold guardForwardOk
    refine keeps_trans (l₁ := [.tru]) ?_ (keeps_answerCycle _ _)
    split
    · exact keeps_onTru _ _
    · exact keeps_refl _ _
theorem keeps_fwdEnded (e : MEnd) (d : Lc44) : d.keepsOutside [.iport, .mpc, .ccl, .fgd, .tru, .raised, .sli, .ovu, .phc] (fwdEnded e d) := by
  unfold fwdEnded
  split
  · exact keeps_refl _ _
  · exact keeps_fwdOk _ _ _
  · unfold fwdFailed
    refine keeps_trans (l₁ := [.tru]) ?_ (keeps_faultCycle _ _)
    split
    · exact keeps_countRefused _
    · exact keeps_refl _ _
theorem keeps_grantTo (c : Client) (d : Lc44) : d.keepsOutside [.iport, .mpc, .ccl, .fgd, .tru, .raised, .sli, .ovu, .phc] (grantTo c d) := by
  unfold grantTo
  split
  · exact keeps_trans (keeps_onMpc _ _) (keeps_presentStage _)
  all_goals
    split
    · exact keeps_refl _ _
    · first
      | exact keeps_mono (keeps_present _ _ _)
      | exact keeps_trans (keeps_onMpc _ _) (keeps_present _ _ _)
theorem keeps_arbitrateOnce (d : Lc44) : d.keepsOutside [.iport, .mpc, .ccl, .fgd, .tru, .raised, .sli, .ovu, .phc] (arbitrateOnce d) := by
  unfold arbitrateOnce
  split
  · split
    · exact keeps_refl _ _
    · exact keeps_grantTo _ _
  · exact keeps_refl _ _
theorem keeps_arbitrate (d : Lc44) : d.keepsOutside [.iport, .mpc, .ccl, .fgd, .tru, .raised, .sli, .ovu, .phc] (arbitrate d) :=
  keeps_trans (keeps_arbitrateOnce _) (keeps_arbitrateOnce _)
theorem keeps_releaseHeld (d : Lc44) : d.keepsOutside [.iport, .mpc, .ccl, .fgd, .tru, .raised, .sli, .ovu, .phc] (releaseHeld d) := by
  unfold releaseHeld
  split
  · exact keeps_refl _ _
  · split
    · exact keeps_settle _ _ _ _ _ _
    · exact keeps_refl _ _

end Sys2Proof.Machine
end

