-- ==== Sys2Proof/Laws/Owners.lean ====
section
/-! SUPPORT. What each request's owner leaves alone (R193), and that a request touches no more than its owner and the
service line. -/

namespace Sys2Proof.Machine

set_option Elab.async false

/-- A request changes at most what its owner changes, and the service line. -/
theorem keeps_request {l : List Block} {r : Req} {owner : List Byte → Lc44 → Lc44} {body : List Byte} {d : Lc44}
    (h : ∀ b e, Lc44.keepsOutside l e (owner b e)) (s : [.sli] ⊆ l := by decide) :
    d.keepsOutside l (request r owner body d) := by
  unfold request onFrame
  split
  · exact keeps_refl _ _
  · split
    · exact keeps_mono (keeps_onSli _ _) s
    · refine keeps_trans (keeps_takeFrame r.code body d) (l₂ := l) ?_ s (fun _ h => h)
      unfold dispatchRequest
      split
      · exact keeps_mono (keeps_answer _ _ _) s
      · split
        · exact h _ _
        · exact keeps_mono (keeps_answer _ _ _) s

theorem keeps_deny (s : Status) (d : Lc44) : d.keepsOutside [.sli] (deny s d) := keeps_answer _ _ _

theorem keeps_ownIdent (b : List Byte) (d : Lc44) : d.keepsOutside [.sli] (ownIdent b d) := keeps_answer _ _ _
theorem keeps_ownStatus (b : List Byte) (d : Lc44) : d.keepsOutside [.sli] (ownStatus b d) := keeps_answerChain _ _ _

/-- What BEGIN and WIPE have in common touches every block but RESET, the straps and the events raised. -/
theorem keeps_commonReset (n : Nat) (d : Lc44) :
    d.keepsOutside [.iport, .mpc, .ccl, .fgd, .tru, .ovu, .rcu, .tmu, .acu, .phc, .sli] (commonReset n d) := by
  unfold commonReset
  dsimp only
  refine keeps_trans (l₁ := [.iport, .mpc, .ccl, .fgd, .tru, .ovu, .rcu, .tmu, .acu, .phc, .sli]) ?_ (keeps_onPhc _ _)
  unfold mirrorToDefaults
  refine keeps_trans (l₁ := [.iport, .mpc, .ccl, .fgd, .tru, .ovu, .rcu, .tmu, .acu, .sli]) ?_ (keeps_onSli _ _)
  refine keeps_trans (l₁ := [.iport, .mpc, .ccl, .fgd, .tru, .ovu, .rcu, .tmu, .acu]) ?_ (keeps_setMirror _ _ _)
  refine keeps_trans (l₁ := [.iport, .mpc, .ccl, .fgd, .tru, .ovu, .rcu, .tmu]) ?_ (keeps_onAcu _ _)
  refine keeps_trans (l₁ := [.iport, .mpc, .ccl, .fgd, .tru, .ovu, .rcu]) ?_ (keeps_onTmu _ _)
  refine keeps_trans (l₁ := [.iport, .mpc, .ccl, .fgd, .tru, .ovu]) ?_ (keeps_onRcu _ _)
  refine keeps_trans (l₁ := [.iport, .mpc, .ccl, .fgd, .tru, .ovu]) ?_ (keeps_clearMaps _ _)
  refine keeps_trans (l₁ := [.iport, .mpc, .ccl, .fgd, .tru]) ?_ (keeps_onOvu _ _)
  refine keeps_trans (l₁ := [.iport, .mpc, .ccl, .fgd]) ?_ (keeps_onTru _ _)
  refine keeps_trans (l₁ := [.mpc, .ccl, .fgd]) ?_ (keeps_unliveRules _ _)
  exact keeps_trans (keeps_trans (l := [.mpc, .ccl]) (keeps_onMpc _ _) (keeps_onCcl _ _)) (keeps_onFgd _ _)

theorem keeps_beginEffect (d : Lc44) :
    d.keepsOutside [.iport, .mpc, .ccl, .fgd, .tru, .ovu, .rcu, .tmu, .acu, .phc, .sli] (beginEffect d) :=
  keeps_trans (keeps_trans (l := [.iport, .mpc, .ccl, .fgd, .tru, .ovu, .rcu, .tmu, .acu, .phc, .sli])
    (keeps_commonReset _ _) (keeps_onPhc _ _)) (keeps_setPhase _ _)

theorem keeps_wipeEffect (d : Lc44) :
    d.keepsOutside [.iport, .mpc, .ccl, .fgd, .tru, .ovu, .rcu, .tmu, .acu, .phc, .sli, .raised] (wipeEffect d) :=
  keeps_trans (keeps_trans (l := [.iport, .mpc, .ccl, .fgd, .tru, .ovu, .rcu, .tmu, .acu, .phc, .sli, .raised])
    (keeps_trans (l := [.iport, .mpc, .ccl, .fgd, .tru, .ovu, .rcu, .tmu, .acu, .phc, .sli])
      (keeps_commonReset _ _) (keeps_setPhase _ _)) (keeps_raiseTmu _ _)) (keeps_raiseTmu _ _)

theorem keeps_probeEnded (f : Option MFailure) (d : Lc44) :
    d.keepsOutside [.iport, .mpc, .ccl, .fgd, .tru, .ovu, .rcu, .tmu, .acu, .phc, .sli] (probeEnded f d) := by
  unfold probeEnded
  dsimp only
  split
  · exact keeps_trans (keeps_onPhc _ _) (keeps_answer _ _ _)
  · exact keeps_trans (keeps_trans (l := [.iport, .mpc, .ccl, .fgd, .tru, .ovu, .rcu, .tmu, .acu, .phc, .sli])
      (keeps_onPhc _ _) (keeps_beginEffect _)) (keeps_answer _ _ _)

theorem keeps_ownBegin (b : List Byte) (d : Lc44) : d.keepsOutside [.mpc, .phc] (ownBegin b d) :=
  keeps_trans (keeps_onPhc _ _) (keeps_requestInt _ _ _)
theorem keeps_ownWipe (b : List Byte) (d : Lc44) : d.keepsOutside [.iport, .mpc, .ccl, .fgd, .tru, .ovu, .rcu, .tmu, .acu, .phc, .sli, .raised] (ownWipe b d) := by
  unfold ownWipe
  split
  · exact keeps_trans (keeps_wipeEffect _) (keeps_answer _ _ _)
  · exact keeps_mono (keeps_deny _ _)
theorem keeps_ownSave (b : List Byte) (d : Lc44) : d.keepsOutside [.mpc, .phc, .sli] (ownSave b d) := by
  unfold ownSave
  split
  · exact keeps_trans (keeps_beginSave _) (keeps_answer _ _ _)
  · exact keeps_mono (keeps_deny _ _)
theorem keeps_ownHandover (b : List Byte) (d : Lc44) : d.keepsOutside [.mpc, .ovu, .phc, .sli] (ownHandover b d) := by
  unfold ownHandover
  split
  · exact keeps_trans (keeps_beginHandover _) (keeps_answer _ _ _)
  · exact keeps_mono (keeps_answer _ _ _)
theorem keeps_ownLoadRegion (b : List Byte) (d : Lc44) : d.keepsOutside [.iport, .ovu, .ccl, .sli] (ownLoadRegion b d) := by
  unfold ownLoadRegion
  split
  · exact keeps_mono (keeps_deny _ _)
  · split
    · split
      · exact keeps_mono (keeps_deny _ _)
      · exact keeps_trans (keeps_storeRegion _ _ _) (keeps_answer _ _ _)
    · exact keeps_mono (keeps_deny _ _)
theorem keeps_ownReadRegion (b : List Byte) (d : Lc44) : d.keepsOutside [.sli] (ownReadRegion b d) := by
  unfold ownReadRegion
  split
  · exact keeps_answer _ _ _
  · exact keeps_answer _ _ _
theorem keeps_ownLoadRule (b : List Byte) (d : Lc44) : d.keepsOutside [.iport, .fgd, .sli] (ownLoadRule b d) := by
  unfold ownLoadRule
  dsimp only
  split
  · exact keeps_mono (keeps_deny _ _)
  · split
    · split
      · exact keeps_trans (keeps_storeRule _ _ _) (keeps_answer _ _ _)
      · split
        · exact keeps_mono (keeps_deny _ _)
        · split
          · exact keeps_trans (keeps_storeRule _ _ _) (keeps_answer _ _ _)
          · exact keeps_mono (keeps_deny _ _)
    · exact keeps_mono (keeps_deny _ _)
theorem keeps_ownReadRule (b : List Byte) (d : Lc44) : d.keepsOutside [.sli] (ownReadRule b d) := by
  unfold ownReadRule
  split
  · exact keeps_answer _ _ _
  · exact keeps_answer _ _ _
theorem keeps_ownLoadLayout (b : List Byte) (d : Lc44) : d.keepsOutside [.rcu, .sli] (ownLoadLayout b d) := by
  unfold ownLoadLayout
  split
  · exact keeps_mono (keeps_deny _ _)
  · split
    · exact keeps_mono (keeps_deny _ _)
    · exact keeps_trans (keeps_onRcu _ _) (keeps_answer _ _ _)
theorem keeps_ownReadLayout (b : List Byte) (d : Lc44) : d.keepsOutside [.sli] (ownReadLayout b d) := keeps_answer _ _ _
theorem keeps_ownSetCarrier (b : List Byte) (d : Lc44) : d.keepsOutside [.rcu, .sli] (ownSetCarrier b d) := by
  unfold ownSetCarrier
  split
  · exact keeps_mono (keeps_deny _ _)
  · split
    · exact keeps_trans (keeps_setRecord _ _ _) (keeps_answer _ _ _)
    · exact keeps_mono (keeps_deny _ _)
theorem keeps_ownReadCarrier (b : List Byte) (d : Lc44) : d.keepsOutside [.sli] (ownReadCarrier b d) := by
  unfold ownReadCarrier
  split
  · exact keeps_answer _ _ _
  · exact keeps_answer _ _ _
theorem keeps_ownPeakReset (b : List Byte) (d : Lc44) : d.keepsOutside [.rcu, .raised, .sli] (ownPeakReset b d) := by
  unfold ownPeakReset
  split
  · exact keeps_trans (keeps_resetPeaks _ _) (keeps_answer _ _ _)
  · exact keeps_mono (keeps_deny _ _)
theorem keeps_ownClearCapture (b : List Byte) (d : Lc44) : d.keepsOutside [.rcu, .raised, .sli] (ownClearCapture b d) := by
  unfold ownClearCapture
  split
  · exact keeps_mono (keeps_deny _ _)
  · split
    · exact keeps_trans (keeps_clearCaptures _ _) (keeps_answer _ _ _)
    · exact keeps_mono (keeps_deny _ _)
theorem keeps_ownSetGroups (b : List Byte) (d : Lc44) : d.keepsOutside [.rcu, .raised, .sli] (ownSetGroups b d) := by
  unfold ownSetGroups
  split
  · exact keeps_trans (keeps_trans (l := [.rcu, .raised]) (keeps_onRcu _ _) (keeps_raiseTmu _ _)) (keeps_answer _ _ _)
  · exact keeps_mono (keeps_deny _ _)
theorem keeps_ownSetTone (b : List Byte) (d : Lc44) : d.keepsOutside [.tmu, .sli] (ownSetTone b d) := by
  unfold ownSetTone
  split
  · exact keeps_mono (keeps_deny _ _)
  · exact keeps_trans (keeps_trans (l := [.tmu]) (keeps_onTmu _ _) (keeps_recomputeTone _)) (keeps_answer _ _ _)
theorem keeps_ownSetTimes (b : List Byte) (d : Lc44) : d.keepsOutside [.mpc, .tmu, .rcu, .raised, .sli] (ownSetTimes b d) := by
  unfold ownSetTimes
  dsimp only
  split
  · exact keeps_trans (keeps_trans (l := [.mpc, .tmu, .rcu, .raised]) (keeps_trans (l := [.mpc, .tmu])
      (keeps_onMpc _ _) (keeps_onTmu _ _)) (keeps_setReportTimes _ _ _)) (keeps_answer _ _ _)
  · exact keeps_mono (keeps_deny _ _)
theorem keeps_ownSetMirror (b : List Byte) (d : Lc44) : d.keepsOutside [.mpc, .sli, .ccl] (ownSetMirror b d) := by
  unfold ownSetMirror
  split
  · exact keeps_trans (keeps_setMirror _ _ _) (keeps_answer _ _ _)
  · exact keeps_mono (keeps_deny _ _)
theorem keeps_ownMuteRelease (b : List Byte) (d : Lc44) : d.keepsOutside [.tmu, .sli] (ownMuteRelease b d) := by
  unfold ownMuteRelease
  split
  · exact keeps_mono (keeps_answer _ _ _)
  · exact keeps_mono (keeps_answer _ _ _)
  · exact keeps_trans (keeps_onTmu _ _) (keeps_answer _ _ _)
theorem keeps_ownTrialOpen (b : List Byte) (d : Lc44) : d.keepsOutside [.mpc, .tru, .sli] (ownTrialOpen b d) := by
  unfold ownTrialOpen
  split
  · exact keeps_mono (keeps_deny _ _)
  · split
    · exact keeps_mono (keeps_beginOpening _ _)
    · exact keeps_mono (keeps_deny _ _)
theorem keeps_ownTrialConfirm (b : List Byte) (d : Lc44) : d.keepsOutside [.mpc, .tru, .sli] (ownTrialConfirm b d) := by
  unfold ownTrialConfirm
  split
  · exact keeps_mono (keeps_beginClosing _ _)
  · split <;> exact keeps_mono (keeps_deny _ _)
theorem keeps_ownTrialExtend (b : List Byte) (d : Lc44) : d.keepsOutside [.tru, .sli] (ownTrialExtend b d) := by
  unfold ownTrialExtend
  split
  · exact keeps_mono (keeps_deny _ _)
  · split
    · exact keeps_trans (keeps_onTru _ _) (keeps_answer _ _ _)
    · split <;> exact keeps_mono (keeps_deny _ _)
theorem keeps_ownTrialAbort (b : List Byte) (d : Lc44) : d.keepsOutside [.mpc, .tru, .raised, .sli] (ownTrialAbort b d) := by
  unfold ownTrialAbort
  split
  · exact keeps_takeRollbackCause _ _ _
  · split <;> exact keeps_mono (keeps_deny _ _)
theorem keeps_ownReadTrial (b : List Byte) (d : Lc44) : d.keepsOutside [.sli] (ownReadTrial b d) := by
  have h : ∀ l, d.keepsOutside [.sli] (answerTrial l d) := fun l => by
    unfold answerTrial
    split
    · exact keeps_answer _ _ _
    · exact keeps_answerChain _ _ _
  unfold ownReadTrial
  split
  · split
    · exact h _
    · exact h _
    · exact keeps_deny _ _
  · exact keeps_deny _ _
theorem keeps_ownOverlayDiscard (b : List Byte) (d : Lc44) : d.keepsOutside [.iport, .ovu, .sli] (ownOverlayDiscard b d) := by
  unfold ownOverlayDiscard
  split
  · exact keeps_trans (keeps_clearMaps _ _) (keeps_answer _ _ _)
  · exact keeps_trans (keeps_clearMaps _ _) (keeps_answer _ _ _)
  · exact keeps_trans (keeps_clearMaps _ _) (keeps_answer _ _ _)
  · exact keeps_mono (keeps_deny _ _)
theorem keeps_ownReadOverlay (b : List Byte) (d : Lc44) : d.keepsOutside [.sli] (ownReadOverlay b d) := by
  unfold ownReadOverlay
  split
  · exact keeps_deny _ _
  · split
    · exact keeps_answer _ _ _
    · exact keeps_deny _ _
theorem keeps_ownLoadStep (b : List Byte) (d : Lc44) : d.keepsOutside [.acu, .sli] (ownLoadStep b d) := by
  unfold ownLoadStep
  split
  · exact keeps_mono (keeps_deny _ _)
  · split
    · split
      · exact keeps_mono (keeps_deny _ _)
      · exact keeps_trans (keeps_onAcu _ _) (keeps_answer _ _ _)
    · exact keeps_mono (keeps_deny _ _)
theorem keeps_ownReadStep (b : List Byte) (d : Lc44) : d.keepsOutside [.sli] (ownReadStep b d) := by
  unfold ownReadStep
  split
  · exact keeps_answer _ _ _
  · exact keeps_answer _ _ _
theorem keeps_ownRunStart (b : List Byte) (d : Lc44) : d.keepsOutside [.acu, .sli] (ownRunStart b d) := by
  unfold ownRunStart
  dsimp only
  split
  · exact keeps_mono (keeps_deny _ _)
  · split
    · exact keeps_mono (keeps_deny _ _)
    · split
      · exact keeps_mono (keeps_deny _ _)
      · exact keeps_trans (keeps_trans (l := [.acu]) (keeps_onAcu _ _) (keeps_beginStep _ _ _)) (keeps_answer _ _ _)
theorem keeps_ownRunAbort (b : List Byte) (d : Lc44) : d.keepsOutside [.acu, .sli] (ownRunAbort b d) := by
  unfold ownRunAbort
  split
  · exact keeps_mono (keeps_deny _ _)
  · exact keeps_trans (keeps_endStep _ _ _) (keeps_answer _ _ _)
theorem keeps_ownReadLog (b : List Byte) (d : Lc44) : d.keepsOutside [.sli] (ownReadLog b d) := by
  unfold ownReadLog
  split
  · exact keeps_answerChain _ _ _
  · exact keeps_deny _ _
theorem keeps_ownLogClear (b : List Byte) (d : Lc44) : d.keepsOutside [.acu, .sli] (ownLogClear b d) := by
  unfold ownLogClear
  split
  · exact keeps_mono (keeps_deny _ _)
  · exact keeps_trans (keeps_onAcu _ _) (keeps_answer _ _ _)

end Sys2Proof.Machine
end

