-- ==== Sys2Proof/Laws/Stable.lean ====
section
/-! SUPPORT. Properties of RCU, TMU, ACU and the like that nothing on the way of a bus cycle can break: each operation of
the I-port cycle, the trial, the fold and the arbiter keeps them. An invariant that rests on few blocks is proved
through these (R21, R28, R46, R73, R95). -/

namespace Sys2Proof.Machine

set_option Elab.async false

/-- A property of the LC44 that a change of the I-port, MPC, CCL, FGD, TRU, OVU or the raised events cannot break, nor
the answer of the request in hand by one frame, nor the report of a completed fold to PHC. -/
structure Stable (P : Lc44 → Prop) : Prop where
  iport : ∀ f d, P d → P (d.onIport f)
  mpc : ∀ f d, P d → P (d.onMpc f)
  ccl : ∀ f d, P d → P (d.onCcl f)
  fgd : ∀ f d, P d → P (d.onFgd f)
  tru : ∀ f d, P d → P (d.onTru f)
  ovu : ∀ f d, P d → P (d.onOvu f)
  answer : ∀ s l d, l.length ≤ 63 → P d → P (answer s l d)
  raised : ∀ f d, P d → P (d.onRaised f)
  foldDone : ∀ d, P d → P (foldDone d)

variable {P : Lc44 → Prop} (S : Stable P)
include S
/-- `syncCcl` keeps a stable property. -/
theorem Stable.syncCcl {d} (h : P d) : P (syncCcl d) := by
  unfold Machine.syncCcl; split; exact h; exact S.ccl _ _ h
/-- `requestHeader` keeps a stable property. -/
theorem Stable.requestHeader {d} (a b c) (h : P d) : P (requestHeader a b c d) := by
  unfold Machine.requestHeader Machine.requestInt; exact S.mpc _ _ (S.tru _ _ h)
/-- `startHeader` keeps a stable property. -/
theorem Stable.startHeader {d} (a) (h : P d) : P (startHeader a d) := by
  unfold Machine.startHeader; split; exact S.tru _ _ h; exact S.requestHeader _ _ _ h
/-- `restoreNext` keeps a stable property. -/
theorem Stable.restoreNext {d} (h : P d) : P (restoreNext d) := by
  unfold Machine.restoreNext; split; exact S.mpc _ _ (S.tru _ _ h); exact S.requestHeader _ _ _ h
/-- `startRollback` keeps a stable property. -/
theorem Stable.startRollback {d} (a b) (h : P d) : P (startRollback a b d) := by
  unfold Machine.startRollback; dsimp only; apply S.restoreNext; split
  · exact S.answer _ _ _ (Nat.zero_le _) (S.raised _ _ (S.tru _ _ h))
  · exact (S.raised _ _ (S.tru _ _ h))
/-- `takeRollbackCause` keeps a stable property. -/
theorem Stable.takeRollbackCause {d} (a b) (h : P d) : P (takeRollbackCause a b d) := by
  unfold Machine.takeRollbackCause; split; exact S.tru _ _ h; exact S.startRollback _ _ h
/-- `sequenceAnswered` keeps a stable property. -/
theorem Stable.sequenceAnswered {d} (h : P d) : P (sequenceAnswered d) := by
  unfold Machine.sequenceAnswered; split
  · exact S.startRollback _ _ h
  · split; exact S.requestHeader _ _ _ h; exact h
/-- `foldNext` keeps a stable property. -/
theorem Stable.foldNext {d} (h : P d) : P (foldNext d) := by
  unfold Machine.foldNext; split
  · exact S.foldDone _ h
  · exact S.mpc _ _ (S.ovu _ _ h)
/-- `foldReleased` keeps a stable property. -/
theorem Stable.foldReleased {d} (h : P d) : P (foldReleased d) := by
  unfold Machine.foldReleased; split; exact S.foldNext h; exact h
/-- `answerCycle` keeps a stable property. -/
theorem Stable.answerCycle {d} (a) (h : P d) : P (answerCycle a d) := by
  unfold Machine.answerCycle Machine.afterAnswer; dsimp only; apply S.foldReleased; split
  · exact S.sequenceAnswered (S.syncCcl (S.mpc _ _ (S.iport _ _ h)))
  · exact (S.syncCcl (S.mpc _ _ (S.iport _ _ h)))
/-- `faultCycle` keeps a stable property. -/
theorem Stable.faultCycle {d} (a) (h : P d) : P (faultCycle a d) := S.answerCycle _ (S.ccl _ _ h)
/-- `present` keeps a stable property. -/
theorem Stable.present {d} (a b) (h : P d) : P (present a b d) := S.mpc _ _ h
/-- `enterStage` keeps a stable property. -/
theorem Stable.enterStage {d} (a) (h : P d) : P (enterStage a d) := S.iport _ _ h
/-- `presentStage` keeps a stable property. -/
theorem Stable.presentStage {d} (h : P d) : P (presentStage d) := by
  unfold Machine.presentStage; split
  · exact h
  · split
    · exact S.present _ _ h
    · exact S.present _ _ h
    · exact h
    · exact S.present _ _ h
    · exact S.present _ _ h
    · unfold Machine.presentGuarded; dsimp only; split
      · exact S.faultCycle _ (S.fgd _ _ h)
      · exact S.present _ _ (S.enterStage _ (S.fgd _ _ h))
/-- `goOn` keeps a stable property. -/
theorem Stable.goOn {d} (a) (h : P d) : P (goOn a d) := by
  unfold Machine.goOn; split
  · exact S.presentStage (S.enterStage _ h)
  · exact S.mpc _ _ (S.enterStage _ h)
/-- `guardRules` keeps a stable property. -/
theorem Stable.guardRules {d} (a b) (h : P d) : P (guardRules a b d) := by
  unfold Machine.guardRules; dsimp only; split
  · exact S.faultCycle _ (S.fgd _ _ h)
  · exact S.goOn _ (S.fgd _ _ h)
/-- `guardGo` keeps a stable property. -/
theorem Stable.guardGo {d} (j a b c o w) (h : P d) : P (guardGo j a b c o w d) := by
  unfold Machine.guardGo; dsimp only; split
  · exact S.goOn _ h
  · exact S.guardRules _ _ h
/-- `settle` keeps a stable property. -/
theorem Stable.settle {d} (a b c o w) (h : P d) : P (settle a b c o w d) := by
  unfold Machine.settle; split
  · exact S.enterStage _ h
  · exact S.enterStage _ h
  · exact S.guardGo _ _ _ _ _ _ h
  · exact S.guardGo _ _ _ _ _ _ h
  · split
    · exact S.faultCycle _ (S.tru _ _ h)
    · exact S.guardGo _ _ _ _ _ _ h
/-- `handleCycle` keeps a stable property. -/
theorem Stable.handleCycle {d} (x r) (h : P d) : P (handleCycle x r d) := by
  unfold Machine.handleCycle; dsimp only
  have h' : P (d.onIport fun p => { p with cycle := some ⟨x, r, .forward⟩ }) := S.iport _ _ h
  split
  · exact S.faultCycle _ h'
  · exact S.settle _ _ _ _ _ h'
  · unfold Machine.takeGuardedRead; split
    · split
      · exact S.answerCycle _ h'
      · exact S.goOn _ h'
    · exact S.goOn _ h'
  · unfold Machine.takeRedirectedWrite; split
    · exact S.faultCycle _ h'
    · split
      · exact S.faultCycle _ h'
      · exact S.goOn _ h'
  · exact S.goOn _ h'
  · exact S.goOn _ h'
/-- `takeCycle` keeps a stable property. -/
theorem Stable.takeCycle {d} (x) (h : P d) : P (takeCycle x d) := by
  unfold Machine.takeCycle; split
  · exact S.iport _ _ h
  · split
    · split
      · exact S.faultCycle _ h
      · exact S.handleCycle _ _ h
    · exact S.handleCycle _ _ h
/-- `fwdEnded` keeps a stable property. -/
theorem Stable.fwdEnded {d} (e) (h : P d) : P (fwdEnded e d) := by
  unfold Machine.fwdEnded; split
  · exact h
  · unfold Machine.fwdOk; split
    · unfold Machine.forwardOk; split
      · exact S.answerCycle _ h
      · apply S.answerCycle
        unfold Machine.acceptedWrite; split
        · split
          · unfold Machine.raiseSignal; split <;> exact S.raised _ _ h
          · exact h
        · exact S.raised _ _ h
        · exact h
    · unfold Machine.redirectedOk; split
      · apply S.answerCycle; split
        · exact h
        · exact S.ovu _ _ h
      · exact S.answerCycle _ h
      · exact S.answerCycle _ h
    · exact h
    · unfold Machine.preReadOk; split
      · exact S.faultCycle _ (S.tru _ _ h)
      · exact S.guardRules _ _ h
    · unfold Machine.writeAheadOk; split
      · exact S.goOn _ h
      · apply S.goOn; unfold Machine.appendEntry; exact S.tru _ _ h
    · unfold Machine.guardForwardOk; apply S.answerCycle; split
      · exact S.tru _ _ h
      · exact h
  · unfold Machine.fwdFailed; apply S.faultCycle; split
    · exact S.tru _ _ h
    · exact h
/-- `arbitrateOnce` keeps a stable property. -/
theorem Stable.arbitrateOnce {d} (h : P d) : P (arbitrateOnce d) := by
  unfold Machine.arbitrateOnce; split
  · split
    · exact h
    · unfold Machine.grantTo; split
      · exact S.presentStage (S.mpc _ _ h)
      · split
        · exact h
        · exact S.mpc _ _ (S.mpc _ _ h)
      · split
        · exact h
        · exact S.mpc _ _ h
      · split
        · exact h
        · exact S.mpc _ _ (S.mpc _ _ h)
  · exact h
/-- `arbitrate` keeps a stable property. -/
theorem Stable.arbitrate {d} (h : P d) : P (arbitrate d) := S.arbitrateOnce (S.arbitrateOnce h)
/-- `releaseHeld` keeps a stable property. -/
theorem Stable.releaseHeld {d} (h : P d) : P (releaseHeld d) := by
  unfold Machine.releaseHeld; split
  · exact h
  · split
    · exact S.settle _ _ _ _ _ h
    · exact h
/-- `foldEnded` keeps a stable property. -/
theorem Stable.foldEnded {d} (e) (h : P d) (hf : ∀ w, P (foldFailed w d)) : P (foldEnded e d) := by
  unfold Machine.foldEnded; split
  · unfold Machine.foldWrite; split
    · exact S.foldNext h
    · split
      · exact hf _
      · exact S.mpc _ _ (S.ovu _ _ h)
  · exact hf _
  · exact S.foldNext (S.ovu _ _ h)
  · exact hf _
  · exact h
end Sys2Proof.Machine
end

