-- ==== Sys2Proof/Laws/Sending.lean ====
section
/-! SUPPORT. The frames that the service line sends (R186, R190): an answer whose data fits one frame, and every chain,
send good frames; nothing else on the way of a cycle, a trial, a fold, a refresh or start-up changes what is sent. -/

namespace Sys2Proof.Machine

set_option Elab.async false

/-! ## Frames and chains -/

/-- A response code is FFh, or a request code plus 80h. -/
theorem responseCode_high (code : Byte) : 0x80 < (responseCode code).toNat := by
  revert code; decide +kernel

/-- The pieces of a chain have at most 62 bytes each, given the fuel for them (R190). -/
theorem length_of_mem_cut62 (fuel : Nat) (data : List Byte) (h : data.length ≤ 62 * (fuel + 1)) :
    ∀ p ∈ cut62 fuel data, p.length ≤ 62 := by
  induction fuel generalizing data with
  | zero => intro p hp; simp only [cut62, List.mem_singleton] at hp; subst hp; omega
  | succ k ih =>
    intro p hp
    unfold cut62 at hp
    split at hp
    · simp only [List.mem_singleton] at hp; subst hp; assumption
    · rcases List.mem_cons.mp hp with rfl | hp
      · simp
      · exact ih _ (by simp only [List.length_drop]; omega) p hp

/-- The frames of a chain whose pieces have at most 62 bytes are good. -/
theorem goodFrame_of_mem_chainFrom {code : Byte} (hc : 0x80 < code.toNat) (s : Status) (n : Nat)
    (pieces : List (List Byte)) (h : ∀ p ∈ pieces, p.length ≤ 62) :
    ∀ f ∈ chainFrom code s n pieces, goodFrame f := by
  induction pieces generalizing n with
  | nil => intro f hf; simp [chainFrom] at hf
  | cons p rest ih =>
    have hp : p.length ≤ 62 := h p (List.mem_cons_self ..)
    intro f hf
    cases rest with
    | nil =>
      simp only [chainFrom, List.mem_singleton] at hf
      exact ⟨code, _, hc, by simp only [List.length_cons]; omega, hf⟩
    | cons q rest =>
      simp only [chainFrom] at hf
      rcases List.mem_cons.mp hf with rfl | hf
      · exact ⟨code, _, hc, by simp only [List.length_cons]; omega, rfl⟩
      · exact ih (n + 1) (fun p hp => h p (List.mem_cons_of_mem _ hp)) f hf

/-! ## Answers -/

/-- What is being sent has not changed. -/
theorem sendsGood_of_eq {d e : Lc44} (g : d.sendsGood) (h : e.sli.sending = d.sli.sending) : e.sendsGood :=
  fun frames hf => g frames (h ▸ hf)

/-- An operation that leaves the service line alone. -/
theorem sendsGood_of_keeps {l : List Block} {d e : Lc44} (g : d.sendsGood) (h : d.keepsOutside l e)
    (hl : Block.sli ∉ l := by decide) : e.sendsGood :=
  sendsGood_of_eq g (congrArg Sli.sending (h.2.2 .sli hl))

/-- Beginning to send good frames. -/
theorem sendsGood_startSending {frames : List (List Byte)} (d : Lc44) (h : ∀ f ∈ frames, goodFrame f) :
    (startSending frames d).sendsGood := by
  intro l hl
  obtain rfl : frames = l := Option.some.inj hl
  exact h

/-- An answer in one frame: a status and at most 63 bytes of data. -/
theorem sendsGood_answer {d : Lc44} (s : Status) (data : List Byte) (h : data.length ≤ 63) (g : d.sendsGood) :
    (answer s data d).sendsGood := by
  unfold answer
  split
  · exact g
  · exact sendsGood_startSending _ fun f hf => by
      rw [List.mem_singleton.mp hf]
      exact ⟨_, _, responseCode_high _, by simp only [List.length_cons]; omega, rfl⟩

/-- An answer by a chain, however long its data. -/
theorem sendsGood_answerChain {d : Lc44} (s : Status) (data : List Byte) (g : d.sendsGood) :
    (answerChain s data d).sendsGood := by
  unfold answerChain
  split
  · exact g
  · exact sendsGood_startSending _
      (goodFrame_of_mem_chainFrom (responseCode_high _) _ _ _ (length_of_mem_cut62 _ _ (by omega)))

/-- The answer to a bad frame (R188). -/
theorem sendsGood_answerBadFrame (code : Option Byte) (d : Lc44) : (answerBadFrame code d).sendsGood :=
  sendsGood_startSending _ fun f hf => by
    rw [List.mem_singleton.mp hf]
    refine ⟨_, _, ?_, by simp, rfl⟩
    cases code
    · decide
    · exact responseCode_high _

/-- What is being sent is a stable property: bus cycles, trials and folds change it by single-frame answers alone. -/
theorem stable_sendsGood : Stable Lc44.sendsGood where
  iport _ _ g := g
  mpc _ _ g := g
  ccl _ _ g := g
  fgd _ _ g := g
  tru _ _ g := g
  ovu _ _ g := g
  answer s l _ h g := sendsGood_answer s l h g
  raised _ _ g := g
  foldDone _ g := sendsGood_of_keeps g (keeps_foldDone _)

/-- A request: its owner, or the status of a check that it does not pass. -/
theorem sendsGood_request {r : Req} {owner : List Byte → Lc44 → Lc44} {body : List Byte} {d : Lc44}
    (h : ∀ e : Lc44, e.sendsGood → (owner body e).sendsGood) (g : d.sendsGood) :
    (request r owner body d).sendsGood := by
  have refused (s : Status) (e : Lc44) (ge : e.sendsGood) : (refuse r s e).sendsGood :=
    sendsGood_answer s _ (by unfold refusalData; split <;> simp [bytesBE]) ge
  unfold request onFrame
  split
  · exact g
  · split
    · exact g
    · have gt : (takeFrame r.code body d).sendsGood := g
      unfold dispatchRequest
      split
      · exact refused _ _ gt
      · split
        · exact h _ gt
        · exact refused _ _ gt

/-- A change of the service line beside what is being sent. -/
theorem sendsGood_onSli {d : Lc44} (f : Sli → Sli) (h : ∀ s, (f s).sending = s.sending) (g : d.sendsGood) :
    (d.onSli f).sendsGood :=
  sendsGood_of_eq g (h _)

/-! ## The mirror, the phase and the defaults of BEGIN and WIPE -/

theorem sendsGood_startMirror {d : Lc44} (g : d.sendsGood) : (startMirror d).sendsGood := g
theorem sendsGood_mirrorEnded {d : Lc44} (f) (g : d.sendsGood) : (mirrorEnded f d).sendsGood := by
  unfold mirrorEnded; split; exact g; split; exact g; exact g; split; exact g; exact g
theorem sendsGood_refreshExpired {d : Lc44} (g : d.sendsGood) : (refreshExpired d).sendsGood := by
  unfold refreshExpired
  split
  exact g
  apply sendsGood_startMirror
  split
  exact (sendsGood_of_keeps (l := [.mpc]) g (keeps_onMpc _ _) : (d.onMpc _).sendsGood)
  exact g
theorem sendsGood_syncCcl {d : Lc44} (g : d.sendsGood) : (syncCcl d).sendsGood := stable_sendsGood.syncCcl g
theorem sendsGood_setMirror {d : Lc44} (a b) (g : d.sendsGood) : (setMirror a b d).sendsGood := by
  unfold setMirror; dsimp only
  split
  · apply sendsGood_startMirror; apply sendsGood_syncCcl; exact g
  · apply sendsGood_syncCcl; exact g
theorem sendsGood_setPhase {d : Lc44} (p) (g : d.sendsGood) : (setPhase p d).sendsGood :=
  sendsGood_of_keeps g (keeps_setPhase _ _)
theorem sendsGood_commonReset {d : Lc44} (n) (g : d.sendsGood) : (commonReset n d).sendsGood := by
  unfold commonReset mirrorToDefaults; dsimp only
  refine sendsGood_of_keeps ?_ (keeps_onPhc _ _)
  refine sendsGood_onSli _ (fun _ => rfl) ?_
  apply sendsGood_setMirror
  refine sendsGood_of_keeps ?_ (keeps_onAcu _ _)
  refine sendsGood_of_keeps ?_ (keeps_onTmu _ _)
  refine sendsGood_of_keeps ?_ (keeps_onRcu _ _)
  refine sendsGood_of_keeps ?_ (keeps_clearMaps _ _)
  refine sendsGood_of_keeps ?_ (keeps_onOvu _ _)
  refine sendsGood_of_keeps ?_ (keeps_onTru _ _)
  refine sendsGood_of_keeps ?_ (keeps_unliveRules _ _)
  refine sendsGood_of_keeps ?_ (keeps_onFgd _ _)
  refine sendsGood_of_keeps ?_ (keeps_onCcl _ _)
  exact sendsGood_of_keeps g (keeps_onMpc _ _)
theorem sendsGood_beginEffect {d : Lc44} (g : d.sendsGood) : (beginEffect d).sendsGood := by
  unfold beginEffect; apply sendsGood_setPhase; exact sendsGood_commonReset _ g
theorem sendsGood_wipeEffect {d : Lc44} (g : d.sendsGood) : (wipeEffect d).sendsGood := by
  unfold wipeEffect; show (setPhase _ _).sendsGood; apply sendsGood_setPhase; exact sendsGood_commonReset _ g
theorem sendsGood_probeEnded {d : Lc44} (f) (g : d.sendsGood) : (probeEnded f d).sendsGood := by
  unfold probeEnded; dsimp only; split
  · exact sendsGood_answer _ _ (by simp) g
  · exact sendsGood_answer _ _ (by simp) (sendsGood_beginEffect g)

/-! ## Trials -/

theorem sendsGood_entryCheck {d : Lc44} (g : d.sendsGood) : (entryCheck d).sendsGood := by
  unfold entryCheck; split; exact stable_sendsGood.takeRollbackCause _ _ g; exact g
theorem sendsGood_closeSucceeds {d : Lc44} (g : d.sendsGood) : (closeSucceeds d).sendsGood := by
  unfold closeSucceeds; dsimp only; split; exact sendsGood_answer _ _ (by simp) g; exact g
theorem sendsGood_closeFails {d : Lc44} (g : d.sendsGood) : (closeFails d).sendsGood := by
  unfold closeFails; dsimp only
  split <;> split
  all_goals first | apply stable_sendsGood.takeRollbackCause | apply sendsGood_entryCheck
  all_goals first | exact sendsGood_answer _ _ (by simp) g | exact g
theorem sendsGood_failOpen {d : Lc44} (f) (g : d.sendsGood) : (failOpen f d).sendsGood :=
  sendsGood_answer _ _ (by simp) g
theorem sendsGood_headerEnded {d : Lc44} (f) (g : d.sendsGood) : (headerEnded f d).sendsGood := by
  unfold headerEnded; split
  · split
    · unfold headerWritten; split
      all_goals first
        | exact g
        | exact sendsGood_entryCheck (sendsGood_answer _ _ (by simp [bytesBE]) g)
        | exact stable_sendsGood.requestHeader _ _ _ (sendsGood_closeSucceeds g)
    · dsimp only; split
      · unfold headerFailed; split
        all_goals first
          | exact g
          | exact sendsGood_failOpen _ g
          | skip
        split
        · exact sendsGood_closeSucceeds g
        · exact sendsGood_closeFails g
      · exact g
  · exact g

/-! ## Start-up and the ends of M-port cycles -/

theorem sendsGood_foldEnded {d : Lc44} (e) (g : d.sendsGood) : (foldEnded e d).sendsGood :=
  sendsGood_of_keeps g (keeps_foldEnded _ _)
theorem sendsGood_imageWriteEnded {d : Lc44} (e) (g : d.sendsGood) : (imageWriteEnded e d).sendsGood :=
  sendsGood_of_keeps g (keeps_imageWriteEnded _ _)
theorem sendsGood_putInForce {d : Lc44} (e) (g : d.sendsGood) : (putInForce e d).sendsGood := by
  unfold putInForce; dsimp only
  apply sendsGood_setPhase
  unfold loadSeconds
  refine sendsGood_of_keeps ?_ (keeps_onPhc _ _)
  unfold loadSli; dsimp only
  apply sendsGood_syncCcl
  refine sendsGood_of_eq (d := loadMpc _ _) ?_ rfl
  unfold loadMpc; dsimp only
  refine sendsGood_of_keeps ?_ (keeps_onMpc _ _)
  unfold loadTmu; dsimp only
  refine sendsGood_of_keeps ?_ (keeps_recomputeTone _)
  refine sendsGood_of_keeps ?_ (keeps_onTmu _ _)
  unfold loadAcu; dsimp only
  refine sendsGood_of_keeps ?_ (keeps_onAcu _ _)
  unfold loadFgd
  refine sendsGood_of_keeps ?_ (keeps_onFgd _ _)
  unfold loadCcl; dsimp only
  refine sendsGood_of_keeps ?_ (keeps_onOvu _ _)
  refine sendsGood_of_keeps ?_ (keeps_onCcl _ _)
  unfold loadRcu
  exact sendsGood_of_keeps g (keeps_onRcu _ _)
theorem sendsGood_recoverRequest {d : Lc44} (gg) (g : d.sendsGood) : (recoverRequest gg d).sendsGood := by
  unfold recoverRequest; split
  all_goals first | exact g | (split <;> exact g)
theorem sendsGood_enterRecover {d : Lc44} (s gg) (g : d.sendsGood) : (enterRecover s gg d).sendsGood :=
  sendsGood_recoverRequest _ g
theorem sendsGood_endStartup {d : Lc44} (a b c) (g : d.sendsGood) : (endStartup a b c d).sendsGood := by
  unfold endStartup; dsimp only; split; exact g; exact g
theorem sendsGood_recoverClose {d : Lc44} (a b c) (g : d.sendsGood) : (recoverClose a b c d).sendsGood :=
  sendsGood_enterRecover _ _ g
theorem sendsGood_recoverRestore {d : Lc44} (a b c x y z) (g : d.sendsGood) :
    (recoverRestore a b c x y z d).sendsGood := by
  unfold recoverRestore; split; exact sendsGood_recoverClose _ _ _ g; exact sendsGood_enterRecover _ _ g
theorem sendsGood_recoverOk {d : Lc44} (a b c) (g : d.sendsGood) : (recoverOk a b c d).sendsGood := by
  unfold recoverOk; split
  · exact sendsGood_enterRecover _ _ g
  · unfold recoverBy; dsimp only; split
    · exact sendsGood_endStartup _ _ _ g
    · split
      · exact sendsGood_enterRecover _ _ g
      · split; exact sendsGood_enterRecover _ _ g; exact sendsGood_recoverClose _ _ _ g
    · exact sendsGood_recoverClose _ _ _ g
  · unfold recordWordRead; split
    · dsimp only; split
      · exact sendsGood_recoverClose _ _ _ g
      · split; exact sendsGood_enterRecover _ _ g; exact sendsGood_recoverRestore _ _ _ _ _ _ g
    · exact sendsGood_enterRecover _ _ g
  · exact sendsGood_recoverRestore _ _ _ _ _ _ g
  · exact sendsGood_enterRecover _ _ g
  · exact sendsGood_endStartup _ _ _ g
theorem sendsGood_recoverFailed {d : Lc44} (a b) (g : d.sendsGood) : (recoverFailed a b d).sendsGood := by
  unfold recoverFailed; split
  all_goals first
    | exact sendsGood_enterRecover _ _ g
    | exact sendsGood_endStartup _ _ _ g
    | exact sendsGood_recoverClose _ _ _ g
    | exact sendsGood_recoverRestore _ _ _ _ _ _ g
theorem sendsGood_loadNext {d : Lc44} (a) (g : d.sendsGood) : (loadNext a d).sendsGood := g
theorem sendsGood_phcEnded {d : Lc44} (e) (g : d.sendsGood) : (phcEnded e d).sendsGood := by
  unfold phcEnded; split
  · exact g
  · exact sendsGood_probeEnded _ g
  · exact sendsGood_imageWriteEnded _ g
  · split
    · exact sendsGood_enterRecover _ _ g
    · unfold loadWordRead; split
      · exact g
      · split
        · exact sendsGood_enterRecover _ _ g
        · split
          · exact g
          · split
            · exact sendsGood_enterRecover _ _ (sendsGood_putInForce _ g)
            · exact sendsGood_enterRecover _ _ g
  · split
    · exact sendsGood_recoverFailed _ _ g
    · exact sendsGood_recoverOk _ _ _ g
/-- The end of an M-port cycle, whoever it was made for (R21). -/
theorem sendsGood_memoryEnd {d : Lc44} (e) (g : d.sendsGood) : (memoryEnd e d).sendsGood := by
  unfold memoryEnd; split
  · exact g
  · apply stable_sendsGood.arbitrate
    unfold dispatchEnd; split
    · exact stable_sendsGood.fwdEnded _ g
    · exact sendsGood_of_keeps (d := d.onMpc _) g (keeps_restoreEnded _ _)
    · split
      · exact g
      · unfold intEnded; split
        · exact sendsGood_headerEnded _ g
        · exact sendsGood_foldEnded _ g
        · exact sendsGood_phcEnded _ g
    · exact sendsGood_mirrorEnded _ g

end Sys2Proof.Machine
end

