-- ==== Sys2Proof/Laws/Steps.lean ====
section
/-! SUPPORT. The Acceptance Unit: how a step ends without an evaluation and what follows (R152), how it enters SETTLING or
ends there (R146), and how it begins (R145), in the words of the claims. -/

namespace Sys2Proof.Machine

/-- A value computed for each carrier, read at a carrier. -/
@[simp] theorem PerCarrier_get_mapAll {α β : Type} (p : PerCarrier α) (f : Carrier → α → β) (c : Carrier) :
    (p.mapAll f).get c = f c (p.get c) := by
  match c with
  | 0 | 1 | 2 | 3 => rfl

/-- Two values per carrier that agree at every carrier are equal. -/
theorem PerCarrier_ext {α : Type} {p q : PerCarrier α} (h : ∀ c, p.get c = q.get c) : p = q := by
  obtain ⟨a, b, c, d⟩ := p
  obtain ⟨a', b', c', d'⟩ := q
  have h0 := h 0
  have h1 := h 1
  have h2 := h 2
  have h3 := h 3
  simp only [PerCarrier.get] at h0 h1 h2 h3
  simp [h0, h1, h2, h3]

/-- The log record of a step that ended FAIL or ABORTED without an evaluation (R152, R158). -/
theorem logStep_ended (a : Acu) (i : Nat) (o : StepOutcome) (c : StepCause) (h : a.current = some i) (ho : o ≠ .pass) :
    a.logStep ⟨o, c⟩ none = a.stepEnded i o c a.aggregates := by
  simp only [Acu.logStep, Acu.recordOf, Acu.results, Acu.stepEnded, h, ho, if_false]
  cases a.lastRun.firstSequence <;> rfl

/-- What follows a FAIL, as a step's end and a step's beginning both have it (R152). -/
theorem afterFail_eq (fuel i : Nat) (d : Lc44) (h : d.acu.current = some i) :
    (match d.acu.runNext .fail with
      | .ends o => d.onAcu (Acu.endRun o)
      | .goesOn j => beginStep fuel j d) = d.afterFail fuel i := by
  unfold Acu.runNext Lc44.afterFail
  cases d.acu.stopOnFail
  · by_cases hl : d.acu.planLength ≤ i + 1
    · simp [h, hl]
      rfl
    · simp [h, hl]
  · simp
    rfl

/-- A step that ends FAIL without an evaluation (R152). -/
theorem endStep_fail (c : StepCause) (d : Lc44) (i : Nat) (h : d.acu.current = some i) :
    endStep ⟨.fail, c⟩ none d =
      ({ d with acu := d.acu.stepEnded i .fail c d.acu.aggregates } : Lc44).afterFail 32 i := by
  unfold endStep
  rw [show d.onAcu (Acu.logStep ⟨.fail, c⟩ none) = { d with acu := d.acu.stepEnded i .fail c d.acu.aggregates } by
    rw [← logStep_ended d.acu i .fail c h (by decide)]; rfl]
  exact afterFail_eq 32 i _ h

/-- A step that ends ABORTED ends the run (R152). -/
theorem endStep_aborted (c : StepCause) (d : Lc44) (i : Nat) (h : d.acu.current = some i) :
    endStep ⟨.aborted, c⟩ none d =
      { d with acu := (d.acu.stepEnded i .aborted c d.acu.aggregates).runEnded .aborted } := by
  unfold endStep
  rw [show d.onAcu (Acu.logStep ⟨.aborted, c⟩ none) = { d with acu := d.acu.stepEnded i .aborted c d.acu.aggregates } by
    rw [← logStep_ended d.acu i .aborted c h (by decide)]; rfl]
  rfl

/-- The carriers of a mask that are not in TRACK. -/
theorem mem_notTracking (r : Rcu) (mask : CarrierSet) (c : Carrier) :
    c ∈ r.notTracking mask ↔ mask.get c = true ∧ (r.records.get c).state ≠ .track := by
  have hc : c ∈ carriers := by
    match c with
    | 0 | 1 | 2 | 3 => decide
  simp [Rcu.notTracking, membersOf, hc, and_comm]

/-- Marks given one after another are those of the carriers in the list. -/
theorem foldl_markStale (l : List Carrier) (a : Acu) :
    l.foldl (fun a c => a.markStale c) a =
      { a with
        aggregates := a.aggregates.mapAll fun c g => if c ∈ l then g.map fun x => { x with stale := true } else g } := by
  induction l generalizing a with
  | nil =>
    have : (a.aggregates.mapAll fun _ g => g) = a.aggregates := PerCarrier_ext fun c => by simp
    simp [this]
  | cons k l ih =>
    rw [List.foldl_cons, ih]
    simp only [Acu.markStale, Acu.onAggregate]
    congr 1
    apply PerCarrier_ext
    intro c
    have hset : (a.aggregates.set k ((a.aggregates.get k).map fun g => { g with stale := true })).get c =
        if c = k then (a.aggregates.get k).map fun g => { g with stale := true } else a.aggregates.get c := by
      revert c k
      intro k c
      match k, c with
      | 0, 0 | 0, 1 | 0, 2 | 0, 3 | 1, 0 | 1, 1 | 1, 2 | 1, 3 | 2, 0 | 2, 1 | 2, 2 | 2, 3 | 3, 0 | 3, 1 | 3, 2
      | 3, 3 => rfl
    simp only [PerCarrier_get_mapAll, hset, List.mem_cons]
    by_cases hk : c = k
    · subst hk
      by_cases hl : c ∈ l <;> simp [hl, Function.comp_def]
    · by_cases hl : c ∈ l <;> simp [hl, hk]

/-- The entry to SETTLING with every carrier of the step in TRACK (R146, R149). -/
theorem enterSettling_tracking (p : PlanStep) (d : Lc44)
    (h : ∀ c, p.mask.get c = true → (d.rcu.records.get c).state = .track) :
    enterSettling p d =
      (d.onAcu fun a =>
        if p.settle = 0 then a.enterMeasuring p
        else { a with runState := .settling, timer := some (p.settle * 1000) }, none) := by
  have hl : d.rcu.notTracking p.mask = [] := by
    rw [List.eq_nil_iff_forall_not_mem]
    intro c hc
    rw [mem_notTracking] at hc
    exact hc.2 (h c hc.1)
  simp [enterSettling, hl]

/-- The entry to SETTLING with a carrier of the step not in TRACK: FAIL with cause STALE (R146). -/
theorem enterSettling_lost (p : PlanStep) (d : Lc44)
    (h : ¬ ∀ c, p.mask.get c = true → (d.rcu.records.get c).state = .track) :
    enterSettling p d =
      ({ d with acu := { d.acu with aggregates := d.lossMarked p d.acu.aggregates } }, some ⟨.fail, .stale⟩) := by
  have hl : (d.rcu.notTracking p.mask).isEmpty = false := by
    rw [List.isEmpty_eq_false_iff, List.ne_nil_iff_exists_cons]
    cases hn : d.rcu.notTracking p.mask with
    | nil =>
      refine absurd (fun c hc => ?_) h
      by_contra ht
      have := (mem_notTracking d.rcu p.mask c).mpr ⟨hc, ht⟩
      simp [hn] at this
    | cons x l => exact ⟨x, l, rfl⟩
  simp only [enterSettling, hl, foldl_markStale, mem_notTracking, Lc44.onAcu, Lc44.lossMarked, Bool.and_eq_true,
    decide_eq_true_eq]
  rfl

/-- A step that begins under TXMUTE and needs transmit: ABORTED with cause MUTE, and the run ends (R145, R152). -/
theorem beginStep_muted (fuel j : Nat) (p : PlanStep) (d : Lc44) (h : d.acu.stepAt j = some p)
    (hm : mutedFor p d = true) :
    beginStep (fuel + 1) j d =
      { d with
        acu :=
          (({ d.acu with current := some j, aggregates := clearedFor p.mask, measured := 0 } : Acu).stepEnded j .aborted
            .mute (clearedFor p.mask)).runEnded .aborted } := by
  have hm' (f : Acu → Acu) : mutedFor p (d.onAcu f) = true := hm
  simp only [beginStep, h, openStep, hm', if_true]
  simp only [Lc44.onAcu, Acu.runNext]
  rw [logStep_ended _ j .aborted .mute rfl (by decide)]
  rfl

/-- A step that begins ON_MARK is ARMED (R145). -/
theorem beginStep_armed (fuel j : Nat) (p : PlanStep) (d : Lc44) (h : d.acu.stepAt j = some p)
    (hm : mutedFor p d = false) (hs : p.start = .onMark) :
    beginStep (fuel + 1) j d =
      { d with
        acu :=
          { d.acu with
            current := some j
            aggregates := clearedFor p.mask
            measured := 0
            runState := .armed
            timer := some (p.arm * 1000) } } := by
  have hm' (f : Acu → Acu) : mutedFor p (d.onAcu f) = false := hm
  simp only [beginStep, h, openStep, hm', hs, Bool.false_eq_true, if_false]
  rfl

/-- A step that begins IMMEDIATE with its carriers in TRACK settles, or measures at once (R145, R146). -/
theorem beginStep_tracking (fuel j : Nat) (p : PlanStep) (d : Lc44) (h : d.acu.stepAt j = some p)
    (hm : mutedFor p d = false) (hs : p.start = .immediate)
    (ht : ∀ c, p.mask.get c = true → (d.rcu.records.get c).state = .track) :
    beginStep (fuel + 1) j d =
      { d with
        acu :=
          { d.acu with
            current := some j
            aggregates := clearedFor p.mask
            measured := 0
            runState := if p.settle = 0 then .measuring else .settling
            timer := some ((if p.settle = 0 then p.measure else p.settle) * 1000) } } := by
  have hm' (f : Acu → Acu) : mutedFor p (d.onAcu f) = false := hm
  simp only [beginStep, h, openStep, hm', hs, Bool.false_eq_true, if_false]
  rw [enterSettling_tracking p (d.onAcu _) ht]
  by_cases h0 : p.settle = 0 <;> simp [h0, Lc44.onAcu, Acu.enterMeasuring]

/-- A step that begins IMMEDIATE with a carrier not in TRACK ends FAIL with cause STALE (R145, R146, R152). -/
theorem beginStep_lost (fuel j : Nat) (p : PlanStep) (d : Lc44) (h : d.acu.stepAt j = some p)
    (hm : mutedFor p d = false) (hs : p.start = .immediate)
    (ht : ¬ ∀ c, p.mask.get c = true → (d.rcu.records.get c).state = .track) :
    beginStep (fuel + 1) j d =
      ({ d with
        acu :=
          ({ d.acu with current := some j, aggregates := clearedFor p.mask, measured := 0 } : Acu).stepEnded j .fail
            .stale (d.lossMarked p (clearedFor p.mask)) } : Lc44).afterFail fuel j := by
  have hm' (f : Acu → Acu) : mutedFor p (d.onAcu f) = false := hm
  simp only [beginStep, h, openStep, hm', hs, Bool.false_eq_true, if_false]
  rw [enterSettling_lost p (d.onAcu _) ht]
  simp only [Lc44.onAcu]
  rw [logStep_ended _ j .fail .stale rfl (by decide)]
  exact
    afterFail_eq fuel j
      { d with
        acu :=
          ({ d.acu with current := some j, aggregates := clearedFor p.mask, measured := 0 } : Acu).stepEnded j .fail
            .stale (d.lossMarked p (clearedFor p.mask)) }
      rfl

end Sys2Proof.Machine
end

