-- ==== Sys2Proof/Laws/Trial.lean ====
section
/-! SUPPORT. The Trial Unit: what the start of a rollback, the taking of a rollback cause and the entry check do, in the
words of the claims (R61, R68, R73, R74); and what the end of a header word does (R59, R64, R78). -/

namespace Sys2Proof.Machine

/-- When every entry waits, the newest waiting entry is the last of the journal (R74). -/
theorem newestWaiting_all (j : List JournalEntry) :
    newestWaiting (j.map fun e => { e with mark := .waiting }) =
      j.getLast?.map fun e => { e with mark := .waiting } := by
  unfold newestWaiting
  rw [← List.getLast?_map, ← List.head?_reverse]
  cases h : (j.map fun e => ({ e with mark := .waiting } : JournalEntry)).reverse with
  | nil => rfl
  | cons x l =>
    have hx : x ∈ (j.map fun e => ({ e with mark := .waiting } : JournalEntry)) := by
      rw [← List.mem_reverse, h]; simp
    obtain ⟨e, -, rfl⟩ := List.mem_map.mp hx
    simp

/-- A rollback that no TRIAL-ABORT waits for starts as R73 says. -/
theorem startRollback_eq (cause : EndCause) (carrier : Option Carrier) (d : Lc44)
    (h : d.sli.awaits .trialAbort = false) : startRollback cause carrier d = d.rollbackStarted cause carrier := by
  have hn := newestWaiting_all d.tru.journal
  unfold startRollback Lc44.rollbackStarted
  cases hj : d.tru.journal.getLast? <;> rw [hj] at hn <;>
    simp [raiseAcu, Lc44.onTru, Lc44.onRaised, h, restoreNext, hn, requestRst, requestHeader, requestInt, headerRequest,
      headerStateWord, Lc44.onMpc, Mpc.queuesTru, Lc44.profileWrite, Lc44.profileAddr, profileBase, Config.journalState]

/-- A rollback cause that no TRIAL-ABORT waits for is taken as R68 says. -/
theorem takeRollbackCause_eq (cause : EndCause) (carrier : Option Carrier) (d : Lc44)
    (h : d.sli.awaits .trialAbort = false) : takeRollbackCause cause carrier d = d.causeTaken cause carrier := by
  unfold takeRollbackCause Lc44.causeTaken
  rw [startRollback_eq _ _ _ h]
  rfl

/-- The entry check finds the lowest watched carrier that is lost (R61). -/
theorem entryCheck_eq (d : Lc44) (h : d.sli.awaits .trialAbort = false) : entryCheck d = d.checkedAtEntry := by
  have key (f : Carrier → Bool) (g : Carrier → Lc44) :
      (match carriers.find? f with
        | some c => g c
        | none => d) =
      if f 0 then g 0 else if f 1 then g 1 else if f 2 then g 2 else if f 3 then g 3 else d := by
    simp only [carriers, List.find?]
    cases f 0 <;> cases f 1 <;> cases f 2 <;> cases f 3 <;> rfl
  unfold entryCheck lostCarrier
  simp only [takeRollbackCause_eq _ _ _ h]
  exact key _ _

/-! ## Header words -/

/-- The commands by which an M-port cycle fails end it with that failure. -/
theorem exec_failure (f : MFailure) (s : State) (h : s.running = true) :
    exec f.command s = .next ⟨memoryEnd (.error f) s.part, s.pending⟩ := by
  cases f
  · exact (exec_memoryAnswer _ s).trans (State.effect_running _ h)
  · exact (exec_memoryTimeout s).trans (State.effect_running _ h)

/-- Memory's OK ends the M-port cycle in progress. -/
theorem exec_ok (w : Word) (s : State) (h : s.running = true) :
    exec (.memoryAnswer (.ok w)) s = .next ⟨memoryEnd (.ok w) s.part, s.pending⟩ :=
  (exec_memoryAnswer _ s).trans (State.effect_running _ h)

/-- A header word written OK goes on to what it leads to. -/
theorem exec_headerWritten {s : State} {step : HeaderStep} {retry timedOut : Bool} {p : MCycle} (w : Word)
    (h : s.writesHeader step retry timedOut p) :
    exec (.memoryAnswer (.ok w)) s =
      .next ⟨arbitrate (headerWritten step { s.part with mpc := s.part.mpc.intEnded }), s.pending⟩ := by
  obtain ⟨hr, hp, hc, hq, hw⟩ := h
  cases hi : s.part.mpc.intQueue with
  | nil => simp [hi] at hq
  | cons q rest =>
    simp [hi] at hq
    rw [exec_ok w s hr, memoryEnd_int _ _ _ q rest hp hc hi, hq]
    simp [intEnded, truEnded, headerEnded, failureOf, hw, Lc44.onMpc, Mpc.ended, Mpc.intEnded, hi]

/-- A header word that failed is requested once more, or has failed twice. -/
theorem exec_headerFailed {s : State} {step : HeaderStep} {retry timedOut : Bool} {p : MCycle} (f : MFailure)
    (h : s.writesHeader step retry timedOut p) :
    exec f.command s =
      .next
        ⟨arbitrate
            (let d := { s.part with mpc := s.part.mpc.intEnded.failing p (some .tru) f }
             let timedOut := timedOut || decide (f = .timeout)
             if retry then headerFailed step timedOut d else requestHeader step true timedOut d),
          s.pending⟩ := by
  obtain ⟨hr, hp, hc, hq, hw⟩ := h
  cases hi : s.part.mpc.intQueue with
  | nil => simp [hi] at hq
  | cons q rest =>
    simp [hi] at hq
    rw [exec_failure f s hr, memoryEnd_int _ _ _ q rest hp hc hi, hq]
    simp [intEnded, truEnded, headerEnded, failureOf, hw, Lc44.onMpc, Mpc.ended, Mpc.failed, Mpc.headOwner,
      Mpc.intEnded, Mpc.failing, hi, hc, hq, satInc, satAdd, Config.max32]

end Sys2Proof.Machine
end

