-- ==== Sys2Proof/WellFormed.lean ====
section
/-! DEFINITION. Well-formed commands: what the spec lets a sender send. A frame's body has at most 64 bytes (R186); a
notice and a hand-off carry values of the ranges of R106 and section 1.4; an unknown request's code names no request. -/

namespace Sys2Proof

/-- A signed 16-bit value (R106). -/
def signed16Ok (v : Int) : Bool := decide (-32768 ≤ v) && decide (v ≤ 32767)

/-- An unsigned value up to a limit. -/
def upTo (limit n : Nat) : Bool := decide (n ≤ limit)

/-- A capture notice carries values of the ranges of R106. -/
def CaptureNotice.ok (n : CaptureNotice) : Bool :=
  signed16Ok n.rsl && n.mse.all signed16Ok && n.xpd.all signed16Ok && n.corr.all (upTo 65535) &&
    n.uncorr.all (upTo 65535) && n.modstep.all (upTo 15) && upTo 255 n.lossRun

/-- A hand-off carries the parameters of an OBSERVE entry and an offset within an entry (section 1.4, R11). -/
def Handoff.ok (h : Handoff) : Bool :=
  upTo 65535 h.offset && upTo 3 h.firstCarrier && decide (1 ≤ h.carrierCount) && upTo 4 (h.firstCarrier + h.carrierCount) &&
    decide (2 ≤ h.stride) && upTo 64 h.stride

/-- A set of carriers that is not empty. -/
def someCarrier (m : CarrierSet) : Bool := m.c0 || m.c1 || m.c2 || m.c3

/-- A frame's body (R186). -/
def bodyOk (body : List Byte) : Bool := upTo 64 body.length

/-- A command that the spec lets a sender send. -/
def Instr.wellFormed (i : Instr) : Bool :=
  match i with
  | .truCaptureNotice n | .tmuCaptureNotice n | .acuCaptureNotice n => n.ok
  | .observeHandoff h => h.ok
  | .leftTrackReport m | .peakResetNotice m => someCarrier m
  | .unknownRequest code body => !Machine.namesRequest code && bodyOk body
  | .ident b | .status b | .beginReq b | .wipe b | .save b | .handover b | .loadRegion b | .readRegion b | .loadRule b
  | .readRule b | .loadLayout b | .readLayout b | .setCarrier b | .readCarrier b | .peakReset b | .clearCapture b
  | .setGroups b | .setTone b | .setTimes b | .setMirror b | .muteRelease b | .trialOpen b | .trialConfirm b
  | .trialExtend b | .trialAbort b | .readTrial b | .overlayDiscard b | .readOverlay b | .loadStep b | .readStep b
  | .runStart b | .runAbort b | .readLog b | .logClear b => bodyOk b
  | _ => true

end Sys2Proof
end

