-- ==== Sys2Proof/Tests/Slice0.lean ====
section
/-! SUPPORT. Tests: the well-formedness smoke, spec examples of one step each, and for every obligation with hypotheses a
concrete state and operands that meet them together. -/

namespace Sys2Proof.Tests

open Sys2Proof Sys2Proof.Machine

set_option Elab.async false

/-! ## Small states -/

/-- A state with no command waiting. -/
def st (d : Lc44) : State := ⟨d, []⟩

/-- A phase and an operation in force, everything else at its reset values. -/
def phased (p : Phase) (o : Phop) : Lc44 :=
  let d := Lc44.inReset false
  { d with
    resetAsserted := false
    phc := { d.phc with phase := p, phop := o }
    ccl := { d.ccl with phase := p } }

/-- COMMISSIONING with nothing going on. -/
def comm : Lc44 := phased .commissioning .none

/-- Start-up under way. -/
def starting : Lc44 := phased .transparent (.starting .load)

/-- An entry that takes both initiators. -/
def entry (base : Addr) (length : Nat) (t : Treatment) : Option Region := some ⟨base, length, true, true, t⟩

/-- One entry of each treatment; map 0 is referenced. -/
def table : Vector (Option Region) 16 :=
  #v[entry 0x1000 16 (.guarded 0 2), entry 0x2000 4 (.redirect .map0 0x8000), entry 0x3000 1 (.mark 1 1 .confirm),
    entry 0x4000 16 (.observe 0 2 8), entry 0x5000 16 .barred, entry 0x6000 1 (.mark 1 1 .abort),
    entry 0x7000 1 (.mark 1 1 .step), none, none, none, none, none, none, none, none, none]

/-- COMMISSIONING with the table above. -/
def tabled : Lc44 := { comm with ccl := { comm.ccl with table := table } }

/-- A read on the I-port. -/
def rd (a : Addr) : BusCycle := ⟨.ctl, a, .read⟩

/-- A write on the I-port. -/
def wr (a : Addr) (w : Word) : BusCycle := ⟨.rpt, a, .write w⟩

/-- A cycle in progress, classified by the state it is put into. -/
def during (x : BusCycle) (g : Stage) (d : Lc44) : Lc44 := { d with iport := ⟨some ⟨x, classify x d, g⟩, none⟩ }

/-- A client's cycle on the M-port; FWD's holds it. -/
def onPort (c : Client) (r : MRequest) (d : Lc44) : Lc44 :=
  { d with mpc := { d.mpc with cycle := some ⟨c, r, 20⟩, hold := if c = .fwd then some 20 else none } }

/-- An owner's INT cycle on the M-port. -/
def onInt (o : IntOwner) (r : MRequest) (d : Lc44) : Lc44 :=
  onPort .int r { d with mpc := { d.mpc with intQueue := [⟨o, r⟩] } }

/-- A trial in a state. -/
def trial (t : TrialState) (d : Lc44) : Lc44 := { d with tru := { d.tru with state := t } }

/-- A journal entry. -/
def jentry (a : Addr) (m : RestoreMark) : JournalEntry := ⟨a, 7, 0, 1, 9, m⟩

/-- A journal in force. -/
def journalled (j : List JournalEntry) (d : Lc44) : Lc44 := { d with tru := { d.tru with journal := j } }

/-- A guarded-write sequence without rules. -/
def seq (isNew : Bool) (pre : Option Word) : GuardSeq := ⟨[], true, isNew, pre, 5, false⟩

/-- A request in hand. -/
def inHand (r : Req) (d : Lc44) : Lc44 := { d with sli := { d.sli with inHand := some r.code } }

/-- A body of zeros. -/
def zeros (n : Nat) : List Byte := List.replicate n 0

/-- A plan step over carrier 0: start, settle time, transmit needed. -/
def planStep (start : StepStart) (settle : Nat) (needs : Bool) : PlanStep :=
  ⟨⟨true, false, false, false⟩, start, 10, settle, 5, needs, 1, some (-900), some (-100), some 40, some 10, some 5, some 2⟩

/-- Cleared aggregates. -/
def fresh : Aggregate := ⟨0, none, none, none, none, 0, false, 0, 0, false, false⟩

/-- A run in a state, at the only step of its plan, its timer due. -/
def running (r : RunState) (p : PlanStep) (d : Lc44) : Lc44 :=
  { d with
    acu :=
      { d.acu with
        planLength := 1
        plan := d.acu.plan.set 0 (some p)
        runState := r
        current := some 0
        timer := some 0
        aggregates := ⟨some fresh, none, none, none⟩
        lastRun := ⟨.none, some 0, none, none, 0, 0⟩ } }

/-- Carrier 0 enabled, expecting −500, in TRACK with its peak there, its timer due. -/
def tracked : CaptureRecord :=
  { CaptureRecord.cleared ⟨true, some (-500), 30, 150⟩ with
    state := .track, lastRsl := some (-500), peak := some ⟨-500, 0⟩, timer := some 0, lastTick := some 0, verdict := .main }

/-- A capture record for carrier 0. -/
def carrier0 (r : CaptureRecord) (d : Lc44) : Lc44 :=
  { d with rcu := { d.rcu with records := { d.rcu.records with c0 := r } } }

/-- RSL in word 0 and MSE in the closing word 1. -/
def rslLayout : Layout :=
  ⟨1, #v[some ⟨0, .rsl, ⟨16, 0, true⟩⟩, some ⟨1, .mse, ⟨8, 0, true⟩⟩, none, none, none, none, none, none]⟩

/-- A capture notice of carrier 0. -/
def notice (lossRun : Nat) : CaptureNotice := ⟨0, -400, some 30, none, some 1, some 2, some 3, lossRun⟩

/-- A mute state with its timers due. -/
def mute (m : MuteState) (raw : Bool) (accepted : Bool) (d : Lc44) : Lc44 :=
  { d with
    tmu :=
      { d.tmu with
        mute := m
        mastRaw := raw
        mastAccepted := accepted
        debounce := if raw = accepted then none else some 0
        holdoff := if m = .holdoff then some 0 else none } }

/-- The state a command leads to, without the queue. -/
def after (c : Instr) (d : Lc44) : Option Lc44 :=
  match exec c (st d) with
  | .next s => some s.part
  | _ => none

/-! ## Well-formed commands -/

theorem test_wellFormed_accepts :
    (Instr.truCaptureNotice (notice 255)).wellFormed = true ∧ (Instr.observeHandoff ⟨65535, 3, 1, 64, 0⟩).wellFormed = true ∧
      (Instr.leftTrackReport ⟨false, false, false, true⟩).wellFormed = true ∧
      (Instr.unknownRequest 0x7F (zeros 64)).wellFormed = true ∧ (Instr.ident (zeros 64)).wellFormed = true ∧
      Instr.tick.wellFormed = true := by decide +kernel

theorem test_wellFormed_refuses_a_notice_out_of_range :
    (Instr.truCaptureNotice { notice 0 with rsl := 32768 }).wellFormed = false ∧
      (Instr.acuCaptureNotice { notice 0 with mse := some (-32769) }).wellFormed = false ∧
      (Instr.tmuCaptureNotice { notice 0 with xpd := some 32768 }).wellFormed = false ∧
      (Instr.truCaptureNotice { notice 0 with corr := some 65536 }).wellFormed = false ∧
      (Instr.truCaptureNotice { notice 0 with uncorr := some 65536 }).wellFormed = false ∧
      (Instr.truCaptureNotice { notice 0 with modstep := some 16 }).wellFormed = false ∧
      (Instr.truCaptureNotice (notice 256)).wellFormed = false := by decide +kernel

theorem test_wellFormed_refuses_a_handoff_out_of_range :
    (Instr.observeHandoff ⟨65536, 0, 1, 2, 0⟩).wellFormed = false ∧ (Instr.observeHandoff ⟨0, 4, 1, 2, 0⟩).wellFormed = false ∧
      (Instr.observeHandoff ⟨0, 0, 0, 2, 0⟩).wellFormed = false ∧ (Instr.observeHandoff ⟨0, 3, 2, 2, 0⟩).wellFormed = false ∧
      (Instr.observeHandoff ⟨0, 0, 1, 1, 0⟩).wellFormed = false ∧
      (Instr.observeHandoff ⟨0, 0, 1, 65, 0⟩).wellFormed = false := by decide +kernel

theorem test_wellFormed_refuses_no_carrier :
    (Instr.leftTrackReport noCarriers).wellFormed = false ∧ (Instr.peakResetNotice noCarriers).wellFormed = false := by
  decide +kernel

theorem test_wellFormed_refuses_a_long_body_and_a_known_code :
    (Instr.ident (zeros 65)).wellFormed = false ∧ (Instr.logClear (zeros 65)).wellFormed = false ∧
      (Instr.unknownRequest 0x7F (zeros 65)).wellFormed = false ∧
      (Instr.unknownRequest Req.ident.code []).wellFormed = false := by decide +kernel

/-- The table gives its rows no bits. -/
theorem test_no_word_spells_a_command : decodeTableWord 8 0 = none ∧ decodeTableWord 32 0xFFFFFFFF = none := by
  decide +kernel

/-! ## The queue, reset and time -/

theorem test_witness_StepRunsTheFrontCommand : State.reset.pending = [] := rfl

theorem test_witness_EveryCommandCompletes :
    State.reset.part.resetAsserted = true ∧ Instr.tick ≠ .resetAsserted := by decide +kernel

theorem test_witness_ResetReleaseStartsLoad :
    State.reset.part = Lc44.inReset false ∧ (st (Lc44.inReset true)).part = Lc44.inReset true := ⟨rfl, rfl⟩

/-- One tick short of a commissioning second. -/
def lastTick (d : Lc44) : Lc44 := { d with phc := { d.phc with accumulator := 999 } }

theorem test_witness_TicksAndSecondsCountTime :
    let s := st (running .measuring (planStep .immediate 0 false) comm)
    s.running = true ∧ s.part.acu.runState = .measuring ∧
      s.part.acu.currentStep = some (planStep .immediate 0 false) ∧
      (s.part.phc.phase = .commissioning ∧ s.part.phc.phop.isStarting = false ∧ s.part.phc.accumulator < 999) ∧
      (st (lastTick comm)).running = true ∧ (lastTick comm).phc.accumulator = 999 ∧
      (st comm).part.acu.runState ≠ .measuring ∧ (st (phased .service .none)).part.phc.phase ≠ .commissioning ∧
      (st starting).part.phc.phop.isStarting = true := by decide +kernel

/-! ## Cycles of the I-port and the M-port -/

theorem test_witness_StartingAnswersEveryCycleFault :
    ((st starting).running = true ∧ starting.iport.cycle = none ∧ starting.mpc.settled = true ∧
      starting.phc.phop.isStarting = true) ∧
    (st tabled).running = true ∧ tabled.iport.cycle = none ∧ tabled.mpc.settled = true ∧
      tabled.phc.phop.isStarting = false := by decide +kernel

/-- Each clause at the bounds of its range: the profile block, the mirror range, the first entry and none. -/
theorem test_witness_FirstMatchingEntryClassifies :
    (phased .transparent .none).ccl.phase = .transparent ∧ tabled.ccl.phase ≠ .transparent ∧
      tabled.reserved 0xFEFFF = false ∧ tabled.reserved 0xFF000 = true ∧ tabled.reserved 0xFFFFF = true ∧
      { tabled with ccl := { tabled.ccl with mirror := some 0x9000 } }.reserved 0x9000 = true ∧
      { tabled with ccl := { tabled.ccl with mirror := some 0x9000 } }.reserved 0x900F = true ∧
      { tabled with ccl := { tabled.ccl with mirror := some 0x9000 } }.reserved 0x9010 = false ∧
      (tabled.ccl.table[1].any fun r => r.matches (rd 0x2000) && r.matches (wr 0x2003 0)) = true ∧
      (tabled.ccl.table[0].any fun r => r.matches (rd 0x2000) || r.matches (wr 0x2003 0)) = false ∧
      (tabled.ccl.table.toList.all fun e => e.all fun r => !r.matches (rd 0x2004)) = true := by decide +kernel

theorem test_witness_ForwardedCyclesRequestThePort :
    (st tabled).takesCycle = true ∧ (classify (wr 0 0) tabled).treatment = .pass ∧
      ((rd 0x5000).op = .read ∧ (classify (rd 0x5000) tabled).treatment = .barred) ∧
      (classify (wr 0x400F 0) tabled).treatment = .observe 0 2 8 ∧
      (classify (wr 0x3000 0) tabled).treatment = .mark 1 1 .confirm ∧
      ((classify (rd 0x100F) tabled).treatment = .guarded 0 2 ∧ (rd 0x100F).op = .read) ∧
      tabled.reservedCycle (wr 0x400F 0) = false ∧ tabled.mpc.cycle = none ∧ tabled.mpc.noRival = true ∧
      (st (onInt .tru ⟨0, .read⟩ tabled)).takesCycle = true ∧ (onInt .tru ⟨0, .read⟩ tabled).mpc.cycle ≠ none := by
  decide +kernel

/-- The REDIRECT entry's overlay lies under a mirror, so its write is barred. -/
def underMirror : Lc44 :=
  { tabled with
    ccl := { tabled.ccl with mirror := some 0x8000 }
    sli := { tabled.sli with mirrorEnabled := true, mirrorAddress := 0x8000 } }

theorem test_witness_CyclesAnsweredWithoutMemory :
    ((st tabled).takesCycle = true ∧ tabled.mpc.settled = true ∧ tabled.reservedCycle (wr 0xFF000 0) = true ∧
      (classify (wr 0x5000 0) tabled).treatment = .barred) ∧
    ((st underMirror).takesCycle = true ∧ underMirror.mpc.settled = true ∧
      (classify (wr 0x2000 0) underMirror).treatment = .redirect .map0 0x8000 ∧ underMirror.reserved 0x8000 = true) ∧
    (let d := { tabled with phc := { tabled.phc with phop := .handingOver .fold } };
      (st d).takesCycle = true ∧ d.reservedCycle (wr 0x2000 0) = false ∧
        (classify (wr 0x2000 0) d).treatment = .redirect .map0 0x8000 ∧ d.reserved 0x8000 = false) ∧
    (let d := trial .rollingBack (journalled [jentry 0x1000 .waiting] tabled);
      (st d).takesCycle = true ∧ d.mpc.settled = true ∧ (classify (wr 0x1000 0) d).treatment = .guarded 0 2 ∧
        d.tru.state = .rollingBack ∧ waitingEntry d.tru.journal 0x1000 = some (jentry 0x1000 .waiting) ∧
        d.reservedCycle (wr 0x1000 0) = false) := by decide +kernel

theorem test_witness_RedirectedCyclesUseTheOverlay :
    ((st tabled).takesCycle = true ∧ tabled.mpc.cycle = none ∧ tabled.mpc.noRival = true ∧
      (classify (wr 0x2003 1) tabled).treatment = .redirect .map0 0x8000 ∧
      tabled.reservedCycle (wr 0x2003 1) = false ∧ tabled.reserved 0x8003 = false ∧
      tabled.phc.phop.isHandingOver = false) ∧
    ∀ void : Bool,
      let d := onPort .fwd ⟨0x8000, .write 1⟩ (during (wr 0x2000 1) (.redirected void) tabled)
      (st d).running = true ∧ d.iport.cycle = some ⟨wr 0x2000 1, classify (wr 0x2000 1) tabled, .redirected void⟩ ∧
        (classify (wr 0x2000 1) tabled).treatment = .redirect .map0 0x8000 ∧
        d.mpc.cycle = some ⟨.fwd, ⟨0x8000, .write 1⟩, 20⟩ ∧ d.mpc.fwdWaiting = false ∧ d.mpc.noRival = true ∧
        d.ovu.work ≠ .awaitWrite := by decide +kernel

/-- Every row of the arbiter's table, the alternation record both ways. -/
theorem test_witness_ArbiterGrantsInTurn :
    let m := Mpc.reset
    let q : MRequest := ⟨0, .read⟩
    let both : Mpc := { m with fwdWaiting := true, rstWaiting := some q }
    (both.fwdWaiting = true ∧ both.rstWaiting ≠ none ∧ both.alternation = .rst ∧ both.choice = some .fwd) ∧
      { both with alternation := .fwd }.choice = some .rst ∧ { m with fwdWaiting := true }.choice = some .fwd ∧
      { m with rstWaiting := some q }.choice = some .rst ∧ { m with intQueue := [⟨.tru, q⟩] }.choice = some .int ∧
      { m with mirWaiting := some q }.choice = some .mir ∧ m.choice = none ∧ m.free = true ∧ both.free = true := by
  decide +kernel

/-- A save's write on the port while FWD and RST wait, each alternation record; at the last write MIR waits. -/
theorem test_witness_ArbiterGrantsInTurn_save :
    ∀ k ∈ [0, 3695, 3696], ∀ a ∈ [Alternation.fwd, .rst],
      let b := during (rd 0) .forward { comm with phc := { comm.phc with phop := .saving, work := .writing [] k } }
      let d := onInt .phc ⟨0xFF000, .write 0⟩
        { b with mpc := { b.mpc with fwdWaiting := decide (k < 3696), alternation := a, mirWaiting := some ⟨1, .write 1⟩ } }
      (st d).running = true ∧ d.mpc.cycle = some ⟨.int, ⟨0xFF000, .write 0⟩, 20⟩ ∧ d.mpc.hold = none ∧
        d.mpc.intQueue = [⟨.phc, ⟨0xFF000, .write 0⟩⟩] ∧ d.phc.work = .writing [] k ∧ d.phc.phop = .saving ∧
        d.iport.cycle = some ⟨rd 0, classify (rd 0) comm, .forward⟩ ∧ d.mpc.alternation = a ∧
        (d.mpc.fwdWaiting = true ↔ k < 3696) ∧ d.mpc.mirWaiting = some ⟨1, .write 1⟩ := by decide +kernel

/-- Reset meets the laws every step keeps, and commands wait for none of them there. -/
theorem test_witness_portLaw_journalLaw_muteLaw :
    State.reset.portLaw ∧ State.reset.journalLaw ∧ State.reset.muteLaw := by
  refine ⟨rfl, ⟨by decide, by decide, ?_⟩, ?_⟩
  · intro c h; cases h
  · intro h; cases h

theorem test_witness_stepLaw : State.reset.stepLaw := by
  refine ⟨fun _ => ⟨by decide +kernel, rfl, rfl, by decide⟩, ?_, ?_, ?_, ?_⟩
  · intro c h; cases h
  · intro h; exact absurd rfl h
  · intro p h; cases h
  · intro h; cases h

theorem test_witness_peakLaw : State.reset.peakLaw := by
  intro c
  fin_cases c <;> exact ⟨(fun p h => by cases h), rfl⟩

theorem test_witness_mapLaw : State.reset.mapLaw := by
  refine ⟨?_, ?_, ?_, fun _ => rfl, ?_⟩
  · intro m; cases m <;> exact ⟨List.Pairwise.nil, (fun k h => by cases h)⟩
  · intro i j r q m h
    have e : State.reset.part.ccl.table[i] = none := by fin_cases i <;> rfl
    rw [e] at h; cases h
  · intro c m base h; cases h
  · intro staged h; cases h

theorem test_witness_logLaw : State.reset.logLaw := by
  refine ⟨by decide, by decide, rfl, rfl, fun h => absurd rfl h, fun _ => rfl, ?_⟩
  intro staged h; cases h

/-- The law of a part that runs, under which a MAST event is met. -/
theorem test_witness_muteLaw_running : (st (mute .clear true false comm)).muteLaw := fun _ => by decide +kernel

/-- A plain read and write under way. -/
def forwarding (x : BusCycle) : Lc44 := onPort .fwd ⟨x.addr, x.op⟩ (during x .forward tabled)

theorem test_witness_ForwardedCyclesAreAnswered :
    ∀ x ∈ [rd 0, wr 0 0, wr 0x5000 0, wr 0x3000 0, wr 0x3000 1, wr 0x6000 1, wr 0x7000 1, wr 0x4000 1],
      (st (forwarding x)).running = true ∧ (forwarding x).iport.cycle = some ⟨x, classify x tabled, .forward⟩ ∧
        (forwarding x).mpc.cycle = some ⟨.fwd, ⟨x.addr, x.op⟩, 20⟩ ∧ (forwarding x).mpc.fwdWaiting = false ∧
        (forwarding x).mpc.noRival = true ∧ (forwarding x).ovu.work ≠ .awaitWrite := by decide +kernel

theorem test_witness_ForwardedCyclesAreAnswered_treatments :
    (classify (wr 0 0) tabled).treatment = .pass ∧ (classify (wr 0x3000 1) tabled).treatment = .mark 1 1 .confirm ∧
      (classify (wr 0x6000 1) tabled).treatment = .mark 1 1 .abort ∧
      (classify (wr 0x7000 1) tabled).treatment = .mark 1 1 .step ∧
      (classify (wr 0x4000 1) tabled).treatment = .observe 0 2 8 ∧ tabled.phc.phop.isHandingOver = false := by
  decide +kernel

/-- Under the mask 1 the data 1 agrees with the value 1, and 0 does not. -/
theorem test_witness_ForwardedCyclesAreAnswered_masks :
    (∀ i : Fin 16, (1 : Word).getLsbD i = true → (1 : Word).getLsbD i = (1 : Word).getLsbD i) ∧
      ¬ ∀ i : Fin 16, (1 : Word).getLsbD i = true → (0 : Word).getLsbD i = (1 : Word).getLsbD i := by decide

/-! ## The field guard -/

/-- An unsigned field at the top of the word, and the widest signed one. -/
theorem test_witness_FieldsAreExtractedAndInserted :
    let f : Field := ⟨4, 12, false⟩
    let g : Field := ⟨16, 0, true⟩
    f.shapeOk = true ∧ g.shapeOk = true ∧ (0x8000 : Word).getLsbD (g.offset + g.width - 1) = true ∧
      (0x7FFF : Word).getLsbD (g.offset + g.width - 1) = false ∧
      (f.least ≤ 0 ∧ 15 ≤ f.greatest) ∧ (g.least ≤ -32768 ∧ 32767 ≤ g.greatest) ∧
      (⟨0, f, .range 0 15, .clamp⟩ : Rule).boundsOk = true ∧ (⟨0, f, .step 0 15 3, .clamp⟩ : Rule).boundsOk = true ∧
      (⟨0, f, .frozen, .refuse⟩ : Rule).boundsOk = true ∧
      (⟨0, f, .frozen, .refuse⟩ : Rule).violated (some 0) false 0xF000 = true := by decide +kernel

/-- Every kind violated under every action, at the value beside its bound. -/
theorem test_witness_RulesFindAndCorrectViolations :
    let f : Field := ⟨4, 0, false⟩
    (∀ a ∈ [RuleAction.clamp, .refuse, .note],
      (⟨0, f, .range 2 9, a⟩ : Rule).violated none false 1 = true ∧
        (⟨0, f, .range 2 9, a⟩ : Rule).violated none false 10 = true ∧
        (⟨0, f, .range 2 9, a⟩ : Rule).violated none false 2 = false ∧
        (⟨0, f, .step 2 9 3, a⟩ : Rule).violated none false 9 = true ∧
        (⟨0, f, .step 2 9 3, a⟩ : Rule).violated none false 8 = false ∧
        (⟨0, f, .frozen, a⟩ : Rule).violated (some 3) false 4 = true ∧
        (⟨0, f, .muteLock 3, a⟩ : Rule).violated none true 4 = true ∧
        (⟨0, f, .muteLock 3, a⟩ : Rule).violated none false 4 = false) ∧
      (⟨5, ⟨0, f, .range 2 9, .clamp⟩, true⟩ : FixedRule).live = true ∧ [(5 : Fin 64)].Nodup := by decide +kernel

/-- R39: a STEP rule with lo 2, hi 9 and step 3 corrects 9 to 8, 15 to 8 and 1 to 2. -/
theorem test_step_correction :
    let r : Rule := ⟨0, ⟨4, 0, false⟩, .step 2 9 3, .clamp⟩
    r.correction none 9 = 8 ∧ r.correction none 15 = 8 ∧ r.correction none 1 = 2 := by decide +kernel

/-- Rule 0 clamps word 0, rule 1 refuses word 1. -/
def ruled : Lc44 :=
  { tabled with
    fgd :=
      { tabled.fgd with
        rules :=
          (tabled.fgd.rules.set 0 (some ⟨0, ⟨4, 0, false⟩, .range 2 9, .clamp⟩)).set 1
            (some ⟨1, ⟨4, 0, false⟩, .range 2 9, .refuse⟩) } }

theorem test_witness_GuardedWritesPassTheirRules :
    ∀ x ∈ [wr 0x1000 1, wr 0x1001 1],
      (st ruled).takesCycle = true ∧ ruled.mpc.cycle = none ∧ ruled.mpc.noRival = true ∧ ruled.tru.state = .idle ∧
        x.op = .write 1 ∧ ruled.reservedCycle x = false ∧ (classify x ruled).treatment = .guarded 0 2 ∧
        (∀ q ∈ ruled.fgd.fixRules 0 2 (classify x ruled).offset, q.rule.kind ≠ .frozen) ∧
        ((applyRules none ruled.txmute (ruled.fgd.fixRules 0 2 (classify x ruled).offset) 1).refused = true ↔
          x = wr 0x1001 1) := by decide +kernel

theorem test_witness_LockPassLeavesEveryLockValue :
    let g : GuardSeq :=
      ⟨[⟨0, ⟨0, ⟨4, 0, false⟩, .muteLock 3, .clamp⟩, true⟩, ⟨1, ⟨0, ⟨4, 4, false⟩, .muteLock 15, .clamp⟩, true⟩], false,
        false, none, 0xFFFF, false⟩
    (∀ r ∈ g.rules, r.rule.field.shapeOk = true ∧ r.rule.boundsOk = true) ∧
      (∀ r ∈ g.rules, ∀ q ∈ g.rules, r.rule.word = q.rule.word) ∧
      (∀ r ∈ g.rules, ∀ q ∈ g.rules, r.rule.lockConflict q.rule = false) ∧ (lockPass true g).refused = false := by
  decide +kernel

/-- A write held under a trial, with a journal, while the M-port is as it is. -/
def heldWrite (x : BusCycle) (t : TrialState) (j : List JournalEntry) (d : Lc44) : Lc44 :=
  during x .held (trial t (journalled j d))

/-- As `ruled`, with rule 1 freezing word 2. -/
def frozen : Lc44 :=
  { ruled with
    fgd := { ruled.fgd with rules := ruled.fgd.rules.set 1 (some ⟨2, ⟨4, 0, false⟩, .frozen, .clamp⟩) } }

/-- Every settling of the trial, with a header word or a restore on the port: no rule on the word, a clamping rule, a
refusing one and a frozen word; an address that waits and one that does not. -/
theorem test_witness_HeldWritesResumeWhenTheTrialSettles :
    ∀ b ∈ [tabled, onInt .tru ⟨0xFF011, .write 0⟩ ruled, onPort .rst ⟨0x1003, .write 7⟩ frozen],
      ∀ t ∈ [TrialState.opening, .open, .closing, .rollingBack, .idle],
        ∀ x ∈ [wr 0x1000 1, wr 0x1001 1, wr 0x1002 1, wr 0x1003 1],
          let d := heldWrite x t [jentry 0x1000 .waiting] b
          (st d).running = true ∧ d.iport.cycle = some ⟨x, classify x b, .held⟩ ∧
            (classify x b).treatment = .guarded 0 2 ∧ x.op = .write 1 ∧ d.mpc.hold = none ∧ d.mpc.fwdWaiting = false ∧
            d.mpc.settled = true ∧ d.tru.state = t ∧ d.ovu.work ≠ .awaitWrite ∧
            ((waitingEntry d.tru.journal x.addr).isSome = true ↔ x = wr 0x1000 1) := by decide +kernel

theorem test_witness_HeldWritesResumeWhenTheTrialSettles_rules :
    let d := heldWrite (wr 0x1000 1) .idle [jentry 0x1000 .waiting] tabled
    (d.mpc.cycle = none ∧ d.mpc.noRival = true ∧ d.fgd.fixRules 0 2 (classify (wr 0x1000 1) tabled).offset = []) ∧
      (d.tru.journal.any fun e => decide (e.addr = 0x1000)) = true ∧
      (d.tru.journal.any fun e => decide (e.addr = 0x1001)) = false ∧
      (∃ r ∈ frozen.fgd.fixRules 0 2 2, r.rule.kind = .frozen) ∧
      (∀ k ∈ [0, 1], (∀ r ∈ ruled.fgd.fixRules 0 2 k, r.rule.kind ≠ .frozen) ∧
        ((applyRules none ruled.txmute (ruled.fgd.fixRules 0 2 k) 1).refused = true ↔ k = 1)) := by decide +kernel

/-! ## Trials -/

/-- Room for one more at 47 entries, none at 48. -/
theorem test_witness_NewAddressesAreWrittenAhead :
    (∀ n ∈ [0, 47, 48],
      let g := seq true none
      let d := onPort .fwd ⟨0x1000, .read⟩
        (during (wr 0x1000 5) (.preRead g) (trial .open (journalled (List.replicate n (jentry 9 .none)) tabled)))
      (st d).running = true ∧ d.iport.cycle = some ⟨wr 0x1000 5, classify (wr 0x1000 5) tabled, .preRead g⟩ ∧
        g.isNew = true ∧ g.rules = [] ∧ d.mpc.cycle = some ⟨.fwd, ⟨0x1000, .read⟩, 20⟩ ∧ d.mpc.hold = some 20 ∧
        d.tru.journal.length = n) ∧
    ∀ k ∈ [0, 2, 3],
      let g := seq true (some 7)
      let d := onPort .fwd ⟨0xFF012, .write 0⟩ (during (wr 0x1000 5) (.writeAhead g k) (trial .open tabled))
      (st d).running = true ∧ d.iport.cycle = some ⟨wr 0x1000 5, classify (wr 0x1000 5) tabled, .writeAhead g k⟩ ∧
        (classify (wr 0x1000 5) tabled).index = some 0 ∧ g.memWord = some 7 ∧
        d.mpc.cycle = some ⟨.fwd, ⟨0xFF012, .write 0⟩, 20⟩ ∧ d.mpc.hold = some 20 ∧ d.txmute = false ∧ d.tru.due = none := by
  decide +kernel

/-- A header word of an open on the port, carrier 0 to be watched. -/
def opening (step : HeaderStep) (retry timedOut : Bool) (r : CaptureRecord) : Lc44 :=
  inHand .trialOpen (onInt .tru ⟨0xFF010, .write 1⟩
    { trial .opening (carrier0 r comm) with
      tru := { (trial .opening comm).tru with
        work := .header step retry timedOut, openRequest := some ⟨10000, ⟨true, false, false, false⟩⟩ } })

/-- The durations at the bounds, and the stand-in 0; every header word of an open at each attempt. -/
theorem test_witness_TrialOpenWritesTheHeaderAndOpens :
    (∀ body ∈ [[0, 0, 1], [0, 10, 0], [0x0E, 0x10, 15]],
      let d := { comm with rcu := { comm.rcu with records := PerCarrier.all tracked } }
      (st d).takes .trialOpen body = true ∧ d.tru.state = .idle ∧
        (u16At body 0 = 0 ∨ 10 ≤ u16At body 0 ∧ u16At body 0 ≤ 3600) ∧ byteAt body 2 ≤ 15 ∧
        (∀ c : Carrier, (byteAt body 2).testBit c.val = true →
          (d.rcu.records.get c).settings.enabled = true ∧ (d.rcu.records.get c).state = .track ∧
            (d.rcu.records.get c).lossRun < 3) ∧
        d.tru.stale = false ∧ { d.tru with stale := true }.stale = true ∧ d.iport.inFlight = false) ∧
    (∀ step ∈ [HeaderStep.staleState, .staleCount, .openCount, .openState], ∀ retry : Bool, ∀ timedOut : Bool,
      let d := opening step retry timedOut tracked
      (st d).writesHeader step retry timedOut ⟨.int, ⟨0xFF010, .write 1⟩, 20⟩ ∧
        d.tru.openRequest = some ⟨10000, ⟨true, false, false, false⟩⟩ ∧ d.sli.inHand = some Req.trialOpen.code) ∧
    (∀ c : Carrier, (⟨true, false, false, false⟩ : CarrierSet).get c = true →
      ((opening .openState false false tracked).rcu.records.get c).lost = false) ∧
    ((opening .openState false false { tracked with lossRun := 3 }).rcu.records.get 0).lost = true := by
  unfold State.writesHeader; decide +kernel

theorem test_witness_ConfirmsBeginTheClose :
    let d := trial .open tabled
    (st d).running = true ∧ d.tru.state = .open ∧ d.tru.due = none ∧ (st d).takes .trialConfirm [] = true ∧
      d.iport.inFlight = false ∧ (during (wr 0x1000 5) (.guardForward (seq false none)) d).iport.inFlight = true := by
  decide +kernel

/-- An open trial with two entries, its timer due, carrier 0 watched. -/
def openTrial : Lc44 :=
  let d := trial .open (journalled [jentry 0x1001 .none, jentry 0x1000 .none] tabled)
  { d with tru := { d.tru with timer := some 0, watch := ⟨true, false, false, false⟩ } }

theorem test_witness_RollbackCausesAreTakenInOpen :
    let d := openTrial
    let busy := onPort .fwd ⟨0x1000, .write 5⟩ (during (wr 0x1000 5) (.guardForward (seq false none)) d)
    ((st d).running = true ∧ d.tru.state = .open ∧ d.tru.due = none ∧ d.iport.inFlight = false ∧
      d.tru.journal = [jentry 0x1001 .none] ++ [jentry 0x1000 .none] ∧ (trial .open comm).tru.journal = [] ∧ d.sli.inHand ≠ some Req.trialAbort.code ∧
      d.tru.timer = some 0 ∧ inOrder TruEvent.about (.capture (notice 3)) d.raised.tru = true ∧
      inOrder TruEvent.about (.stale 0) d.raised.tru = true ∧ d.tru.watch.get (notice 3).carrier = true ∧ 3 ≤ (notice 3).lossRun ∧
      (st d).takes .trialAbort [] = true) ∧
    (st busy).running = true ∧ busy.tru.state = .open ∧ busy.tru.due = none ∧ busy.iport.inFlight = true ∧
      busy.mpc.settled = true ∧ busy.tru.timer = some 0 ∧ busy.raised.tru = [] ∧ (st busy).takes .trialAbort [] = true := by decide +kernel

theorem test_witness_EventsOutsideAnOpenTrial :
    (∀ t ∈ [TrialState.idle, .opening, .closing, .rollingBack],
      let d := { trial t comm with tru := { (trial t comm).tru with timer := some 0 } }
      (st d).running = true ∧ d.tru.state ≠ .open ∧ d.mpc.settled = true ∧ (st d).takes .trialConfirm [] = true ∧
        (st d).takes .trialAbort [] = true ∧ d.tru.timer = some 0 ∧
        inOrder TruEvent.about (.stale 0) d.raised.tru = true ∧
        inOrder TruEvent.about (.capture (notice 0)) d.raised.tru = true) ∧
    let d := { openTrial with tru := { openTrial.tru with due := some ⟨.expired, none⟩ } }
    (st d).running = true ∧ d.tru.due ≠ none ∧ d.mpc.settled = true := by decide +kernel

/-- The bounds of the time, in each group of states. -/
theorem test_witness_TrialExtendReloadsTheTimer :
    (∀ body ∈ [[0, 9], [0, 10], [0x0E, 0x10], [0x0E, 0x11]],
      ∀ t ∈ [TrialState.idle, .opening, .open, .closing, .rollingBack], (st (trial t comm)).takes .trialExtend body = true) ∧
      u16At [0, 9] 0 < 10 ∧ 10 ≤ u16At [0, 10] 0 ∧ u16At [0x0E, 0x10] 0 ≤ 3600 ∧ 3600 < u16At [0x0E, 0x11] 0 ∧
      (trial .open comm).tru.due = none ∧ (trial .open comm).tru.timer ≠ some 0 := by decide +kernel

theorem test_witness_RestoresGoNewestFirstWithOneRetry :
    ∀ retry : Bool,
      let j := [jentry 0x1002 .waiting] ++ jentry 0x1001 .waiting :: [jentry 0x1000 .unrestored]
      let d := onPort .rst ⟨0x1001, .write 7⟩
        { trial .rollingBack (journalled j tabled) with
          tru := { (trial .rollingBack (journalled j tabled)).tru with work := .restore retry } }
      (st d).running = true ∧ d.mpc.cycle = some ⟨.rst, ⟨0x1001, .write 7⟩, 20⟩ ∧ d.tru.work = .restore retry ∧
        d.tru.journal = j ∧ (jentry 0x1001 .waiting).mark = .waiting ∧
        (∀ x ∈ [jentry 0x1000 .unrestored], x.mark ≠ .waiting) ∧ (d.tru.journal.map JournalEntry.addr).Nodup := by
  decide +kernel

/-- Every header word of a close and of a rollback's end, at each attempt, for each source. -/
theorem test_witness_HeaderWritesEndTheTrial :
    ∀ step ∈ [HeaderStep.closeState, .closeCount, .endState, .endCount], ∀ retry : Bool, ∀ timedOut : Bool,
      ∀ x ∈ [(CloseSource.service, some Req.trialConfirm.code), (.mark, none)],
        let d := onInt .tru ⟨0xFF010, .write 0⟩
          { comm with
            tru := { comm.tru with work := .header step retry timedOut, closeSource := some x.1 }
            sli := { comm.sli with inHand := x.2 } }
        (st d).writesHeader step retry timedOut ⟨.int, ⟨0xFF010, .write 0⟩, 20⟩ ∧ d.tru.closeSource = some x.1 ∧
          (x.1 = .service → d.sli.inHand = some Req.trialConfirm.code) ∧
          (x.1 = .mark → d.sli.inHand ≠ some Req.trialAbort.code) := by
  unfold State.writesHeader; decide +kernel

/-! ## Overlay and handover -/

theorem test_witness_OverlayDiscardClearsTheNamedMaps :
    (∀ n ∈ [(0 : Byte), 1, 2, 3], (st tabled).takes .overlayDiscard [n] = true) ∧
      (∀ d ∈ [phased .transparent .none, phased .service .none, phased .commissioning .saving,
          phased .commissioning (.handingOver .write)],
        (st d).running = true ∧ d.deaf = false ∧ d.sli.inHand = none ∧
          requestFilter d.phc.phase d.phc.phop .overlayDiscard ≠ none) := by decide +kernel

/-- Ready for handover: a passed run from step 0, carrier 0 on its main lobe. -/
def ready : Lc44 :=
  let d := carrier0 tracked tabled
  { d with acu := { d.acu with lastRun := ⟨.pass, some 0, some 1, some 1, 1, 0⟩ } }

theorem test_witness_HandoverNeedsReadiness :
    ((st ready).takes .handover [] = true ∧ ready.mpc.settled = true ∧ ready.notReady = 0) ∧
      (st comm).takes .handover [] = true ∧ comm.mpc.settled = true ∧ comm.notReady ≠ 0 := by decide +kernel

theorem test_witness_FoldCopiesEachWordBack :
    ∀ x ∈ [FoldWork.reading .map0 3, .writing .map0 3],
      let d := onInt .ovu ⟨0x8003, .read⟩
        { tabled with
          ovu := ⟨[3], [], ⟨.running, some 0, none⟩, x⟩
          phc := { tabled.phc with phop := .handingOver .fold } }
      (st d).running = true ∧ d.mpc.cycle = some ⟨.int, ⟨0x8003, .read⟩, 20⟩ ∧
        d.mpc.intQueue = [⟨.ovu, ⟨0x8003, .read⟩⟩] ∧
        (d.ccl.mapEntry .map0).map (fun e => (e.1, e.2.2)) = some (1, 0x8000) ∧ d.ovu.work = x ∧
        d.reserved (0x2000 + 3) = false ∧ underMirror.reserved (0x8000 + 3) = true ∧ d.ovu.map0 = 3 :: [] := by
  decide +kernel

/-! ## Captures -/

/-- A report's first word, its closing word, a block beyond the carriers, and each way not to be heard. -/
theorem test_witness_ObservedWordsAreCaptured :
    let d := { comm with rcu := { comm.rcu with layout := some rslLayout } }
    let h (offset : Nat) : Handoff := ⟨offset, 0, 2, 8, 0xFE0C⟩
    (st d).running = true ∧ (h 16).carrierCount ≤ (h 16).offset / (h 16).stride ∧ comm.rcu.layout = none ∧
      (h 15).offset / (h 15).stride < (h 15).carrierCount ∧
      (1 : Carrier).val = (h 15).firstCarrier + (h 15).offset / (h 15).stride ∧ rslLayout.hasKind .rsl = true ∧
      (⟨1, Vector.replicate 8 none⟩ : Layout).hasKind .rsl = false ∧ (h 8).offset % (h 8).stride ≠ rslLayout.closing ∧
      (h 9).offset % (h 9).stride = rslLayout.closing ∧
      (assemble rslLayout 1 0 (d.rcu.buffers.get 1)).rsl.fresh = false ∧
      (assemble rslLayout 1 0 (assemble rslLayout 0 0 (d.rcu.buffers.get 1))).rsl.fresh = true := by decide +kernel

/-- SET-TIMES bodies at the bounds, with carrier 0 in TRACK just within and just beyond the new report timeout. -/
theorem test_witness_StaleCarriersAreReported :
    let d := carrier0 tracked comm
    (st d).running = true ∧ (d.rcu.records.get 0).state = .track ∧ (d.rcu.records.get 0).timer = some 0 ∧
      { tracked with timer := some 1 }.timer ≠ some 0 ∧ (d.rcu.records.get 1).state ≠ .track ∧
      (∀ body ∈ [[2, 0, 100, 0, 0, 0, 0], [250, 0x27, 0x10, 0x02, 0x58, 0xFA, 0x24], [1, 0, 100, 0, 0, 0, 0],
          [2, 0, 99, 0, 0, 0, 0], [2, 0, 100, 0x02, 0x59, 0, 0], [2, 0, 100, 0, 0, 0, 1], [2, 0, 100, 0, 0, 0xFA, 0x23]],
        (st d).takes .setTimes body = true) ∧
      signed16 0xFA24 = -1500 ∧ signed16 0xFA23 = -1501 := by decide +kernel

/-- With 99 ticks since the last capture a timeout of 100 is not over, with 100 it is. -/
theorem test_witness_StaleCarriersAreReported_elapsed :
    ((99 : BitVec 32) - tracked.lastTick.getD 99).toNat < 100 ∧
      100 ≤ ((100 : BitVec 32) - tracked.lastTick.getD 100).toNat := by decide

/-- A capture notice in front of the stale notice of its carrier, at each receiver. -/
theorem test_witness_StaleCarriersAreReported_order :
    let n : CaptureNotice := ⟨0, -400, none, none, none, none, none, 0⟩
    let d := sendStale 0 (sendCapture n comm)
    d.raised.tru = [] ++ .capture n :: [.stale 0] ∧ d.raised.acu = [] ++ .capture n :: [.stale 0] ∧
      d.raised.tmu = [] ++ .capture n :: [.stale 0] ∧ inOrder TruEvent.about (.stale 0) d.raised.tru = false ∧
      inOrder TruEvent.about (.capture { n with lossRun := 1 }) d.raised.tru = false := by decide +kernel

theorem test_witness_VerdictsComparePeaks :
    let x : CarrierSettings := ⟨true, some (-500), 30, 150⟩
    x.expected = some (-500) ∧
      (∀ p ∈ [(⟨-530, 0⟩, Verdict.main), (⟨-531, 0⟩, .low), (⟨-649, 0⟩, .low), ((⟨-650, 0⟩ : Peak), .side)],
        verdictOf x (some p.1) = p.2) ∧ verdictOf x none = .none := by decide +kernel

theorem test_witness_CaptureRequestsTakeEffect :
    let run := running .armed (planStep .onMark 0 false) comm
    ((st run).takes .setCarrier (zeros 9) = true ∧ run.acu.runState ≠ .idle) ∧
      (∀ body ∈ [[3, 1, 1, 0xFA, 0x24, 0x01, 0xF4, 0x03, 0xE8], [4, 0, 0, 0, 0, 0, 0, 0, 1]],
        (st comm).takes .setCarrier body = true) ∧ comm.acu.runState = .idle ∧
      (∀ m ∈ [(0 : Byte), 1, 15, 16], (st comm).takes .peakReset [m] = true ∧ (st comm).takes .clearCapture [m] = true) ∧
      comm.tru.state = .idle ∧ (st run).takes .clearCapture [1] = true ∧
      (∀ body ∈ [[0, 0, 0], [1, 1, 1], [2, 0, 0]], (st comm).takes .setGroups body = true) := by decide +kernel

/-! ## Mute and tone -/

theorem test_witness_MuteTimersAndLevels :
    let d := mute .holdoff false false comm
    (st d).running = true ∧ true ≠ d.tmu.mastRaw ∧ false = d.tmu.mastRaw ∧ d.tmu.mute = .holdoff ∧
      d.tmu.holdoff = some 0 ∧ comm.tmu.mute ≠ .holdoff ∧ { d.tmu with holdoff := some 1 }.holdoff ≠ some 0 := by decide +kernel

theorem test_witness_MastEventsMoveTheMuteState :
    (∀ m ∈ [MuteState.clear, .holdoff],
      let d := mute m true false comm
      (st d).running = true ∧ d.tmu.debounce = some 0 ∧ d.tmu.mastRaw = true ∧ d.tmu.mute = m) ∧
    (let d := mute .muted false true comm;
      (st d).running = true ∧ d.tmu.debounce = some 0 ∧ comm.tmu.debounce ≠ some 0 ∧ d.tmu.mastRaw = false ∧ d.tmu.mute = .muted ∧
        d.tmu.holdoffSetting ≠ 0 ∧ { d.tmu with holdoffSetting := 0 }.holdoffSetting = 0) := by decide +kernel

theorem test_witness_MuteReleaseEndsAHoldOff :
    (∀ m ∈ [MuteState.holdoff, .muted, .clear], (st (mute m true false comm)).takes .muteRelease [] = true) ∧
      (mute .holdoff true false comm).tmu.debounce = some 0 ∧ (mute .holdoff true false comm).tmu.mastRaw = true ∧
      (st starting).running = true ∧ starting.phc.phop.isStarting = true ∧
      ∀ d ∈ [phased .commissioning .saving, phased .commissioning (.handingOver .fold)],
        (st d).running = true ∧ d.deaf = false ∧ d.sli.inHand = none ∧
          (d.phc.phop = .saving ∨ d.phc.phop.isHandingOver = true) := by decide +kernel

/-- A capture notice of carrier 0 waits at every receiver. -/
def waiting : Lc44 := sendCapture (notice 3) comm

theorem test_witness_NoticesReachTheTone :
    (st comm).running = true ∧ inOrder TmuEvent.about (.capture (notice 3)) waiting.raised.tmu = true ∧
      inOrder TmuEvent.about (.stale 1) waiting.raised.tmu = true ∧
      inOrder TmuEvent.about (.leftTrack ⟨false, true, true, true⟩) waiting.raised.tmu = true ∧
      inOrder TmuEvent.about (.peakReset ⟨false, true, true, true⟩) waiting.raised.tmu = true ∧
      inOrder TmuEvent.about (.capture (notice 4)) waiting.raised.tmu = false ∧
      inOrder TmuEvent.about (.stale 0) waiting.raised.tmu = false ∧
      inOrder TmuEvent.about (.leftTrack allCarriers) waiting.raised.tmu = false ∧
      inOrder TmuEvent.about (.peakReset allCarriers) waiting.raised.tmu = false ∧
      comm.tmu.settings.kind = .carrier ∧
      { comm.tmu with settings := ⟨true, .group, 0, -900, 600⟩ }.settings.kind = .group := by decide +kernel

/-- SET-TONE at the bounds of its settings; a tone that is heard and one that is not. -/
theorem test_witness_ToneFollowsTheWeakestMember :
    let t := { comm.tmu with view := { comm.tmu.view with c0 := ⟨true, some (-500)⟩ } }
    (∀ c : Carrier, (t.view.get c).tracking = true → (t.view.get c).lastRsl ≠ none) ∧
      (t.members.get 0 = true ∧ (t.view.get 0).tracking = true) ∧
      (∀ body ∈ [[1, 1, 3, 0xFA, 0x24, 0x00, 0x64], [0, 0, 0, 0, 0, 0x04, 0xB0], [0, 0, 4, 0, 0, 0, 100],
          [0, 0, 0, 0, 1, 0, 100], [0, 0, 0, 0, 0, 0, 99], [0, 0, 0, 0, 0, 0x04, 0xB1]],
        (st comm).takes .setTone body = true) := by decide +kernel

/-! ## Acceptance -/

theorem test_witness_MarksAndSettleTimersMoveTheRun :
    ∀ settle ∈ [0, 600], ∀ r ∈ [RunState.armed, .settling],
      let p := planStep .onMark settle true
      let d := running r p (carrier0 tracked comm)
      (st d).running = true ∧ d.acu.current = some 0 ∧ d.acu.stepAt 0 = some p ∧ d.acu.runState = r ∧
        d.txmute = false ∧ (mute .muted true true d).txmute = true ∧ p.needsTransmit = true ∧
        d.acu.timer = some 0 ∧ comm.acu.runState ≠ .armed ∧ comm.acu.runState ≠ .settling ∧
        (p.mask.get 0 = true ∧ ((running r p comm).rcu.records.get 0).state ≠ .track) ∧
        ∀ c : Carrier, p.mask.get c = true → (d.rcu.records.get c).state = .track := by decide +kernel

theorem test_witness_StepsEndEarlyAndAreLogged :
    (∀ r ∈ [RunState.armed, .settling, .measuring], ∀ needs : Bool,
      let p := planStep .onMark 0 needs
      let d := running r p comm
      let d := { d with acu := { d.acu with stopOnFail := true } }
      (st d).running = true ∧ d.acu.runState = r ∧ d.acu.current = some 0 ∧ d.acu.stepAt 0 = some p ∧
        d.acu.stopOnFail = true ∧ d.acu.aggregates.get 0 = some fresh ∧ d.acu.aggregates.get 1 = none ∧
        p.needsTransmit = needs ∧ (st d).takes .runAbort [] = true ∧ d.acu.timer = some 0 ∧
        inOrder AcuEvent.about (.stale 0) d.raised.acu = true ∧ inOrder AcuEvent.about (.stale 0) waiting.raised.acu = false) ∧
      (st comm).running = true ∧ comm.acu.runState = .idle ∧ (st comm).takes .runAbort [] = true ∧
      ∀ start ∈ [StepStart.immediate, .onMark], ∀ settle ∈ [0, 600],
        let p := planStep start settle true
        let d := running .armed p (carrier0 tracked comm)
        d.acu.stopOnFail = false ∧ d.acu.stepAt 0 = some p ∧ p.start = start ∧ p.needsTransmit = true ∧
          d.txmute = false ∧ (mute .muted true true d).txmute = true ∧
          (∀ c : Carrier, p.mask.get c = true → (d.rcu.records.get c).state = .track) ∧
          ((running .armed p comm).rcu.records.get 0).state ≠ .track := by decide +kernel

/-- The last step of a plan, and an aggregate at each bound and beside it. -/
theorem test_witness_EvaluationDecidesTheStep :
    let p := planStep .immediate 0 false
    let d := running .measuring p comm
    let met : Aggregate := ⟨1, some (-900), some (-100), some 40, some 10, 5, true, 0, 0, true, false⟩
    let missed : Aggregate := ⟨0, some (-901), some (-99), some 41, some 9, 6, true, 0, 1, true, false⟩
    (st d).running = true ∧ d.acu.runState = .measuring ∧ d.acu.timer = some 0 ∧ d.acu.current = some 0 ∧
      comm.acu.runState ≠ .measuring ∧ d.acu.stepAt 0 = some p ∧
      0 + 1 = d.acu.planLength ∧
      (∀ k ∈ allCriteria, p.evaluate met k = .passes ∧ p.evaluate missed k = .fails) ∧
      (∀ k ∈ allCriteria, k ≠ .reportsMin → p.evaluate fresh k = .noData) := by decide +kernel

theorem test_witness_CaptureNoticesFeedTheAggregates :
    let d := running .measuring (planStep .immediate 0 false) comm
    (st d).running = true ∧ d.acu.currentStep = some (planStep .immediate 0 false) ∧ d.acu.runState = .measuring ∧
      d.acu.aggregates.get (notice 0).carrier = some fresh ∧ comm.acu.runState ≠ .measuring ∧
      inOrder AcuEvent.about (.capture (notice 0)) d.raised.acu = true ∧
      inOrder AcuEvent.about (.capture (notice 0)) waiting.raised.acu = false ∧ (notice 0).mse = some 30 ∧ (notice 0).xpd = none ∧
      fresh.uncorrSum ≤ 4294967295 ∧ fresh.corrSum ≤ 4294967295 ∧ (running .armed (planStep .onMark 0 false) comm).acu.runState ≠ .measuring := by
  decide +kernel

/-- A LOAD-STEP body for the last slot: carrier 0, ON_MARK with the longest arm timeout. -/
def stepBody : List Byte :=
  [31, 32, 1, 0, 1, 1, 0x0E, 0x10, 0x02, 0x58, 0, 1, 0x51, 0x80, 1, 0, 0, 0, 0, 0, 0, 0, 0, 0, 0, 0, 0, 0, 0, 0, 0, 0, 0, 0, 0, 0]

theorem test_witness_PlanRequestsTakeEffect :
    let run := running .armed (planStep .onMark 0 false) comm
    let loaded :=
      { carrier0 tracked comm with
        acu := { comm.acu with planLength := 1, plan := comm.acu.plan.set 0 (some (planStep .onMark 0 true)) } }
    (run.acu.runState ≠ .idle ∧ (st run).takes .loadStep (zeros 36) = true ∧ (st run).takes .runStart [0] = true ∧
      (st run).takes .logClear [] = true) ∧
    (comm.acu.runState = .idle ∧ (st comm).takes .loadStep stepBody = true ∧ (RawStep.ofBody stepBody).ok = true ∧
      byteAt stepBody 1 = 32 ∧ byteAt stepBody 2 ≤ 1 ∧ byteAt stepBody 3 = 0) ∧
    (loaded.acu.runState = .idle ∧ (st loaded).takes .runStart [0] = true ∧ 0 < loaded.acu.planLength ∧
      loaded.acu.planLength ≤ 32 ∧
      (∀ c : Carrier, (planStep .onMark 0 true).mask.get c = true → (loaded.rcu.records.get c).settings.enabled = true) ∧
      loaded.acu.log.length + (loaded.acu.planLength - 0) ≤ 64 ∧
      loaded.acu.nextSequence + (loaded.acu.planLength - 0) - 1 ≤ 65535 ∧
      loaded.acu.stepAt 0 = some (planStep .onMark 0 true) ∧ (planStep .onMark 0 true).start = .onMark ∧
      loaded.txmute = false) ∧ (st comm).takes .logClear [] = true := by decide +kernel

/-! ## Start-up, phases and the profile -/

/-- PHC's INT read under way at a point of start-up. -/
def startup (x : PhcWork) (o : StartupStep) : Lc44 :=
  onInt .phc ⟨0xFF010, .read⟩ { starting with phc := { starting.phc with phop := .starting o, work := x } }

/-- The header's last word, the first body word, the states and counts of the journal header at their bounds. -/
theorem test_witness_StartupLoadsThenRecovers :
    (∀ x ∈ [PhcWork.loading [], .loading (List.replicate 15 0)],
      let d := startup x .load
      (st d).running = true ∧ d.mpc.cycle = some ⟨.int, ⟨0xFF010, .read⟩, 20⟩ ∧
        d.mpc.intQueue = [⟨.phc, ⟨0xFF010, .read⟩⟩] ∧ d.phc.phop.isStarting = true ∧ d.phc.work = x ∧
        d.phc.phop = .starting .load ∧ d.iport.cycle = none) ∧
    (∀ g ∈ [RecoverStage.readState false, .readState true, .readCount 0x0100 false, .readCount 0x0101 true,
        .readCount 0x0102 false, .restore 1 2 [⟨1, 1⟩, ⟨2, 2⟩] 0 [] false, .restore 1 2 [⟨1, 1⟩, ⟨2, 2⟩] 0 [] true],
      let d := startup (.recovering .valid g) .recover
      (st d).running = true ∧ d.phc.phop.isStarting = true ∧ d.phc.work = .recovering .valid g ∧
        d.sli.mirrorEnabled = false) := by decide +kernel

/-- A staged image of 3,695 words that one word more completes: with sum 0, and with another sum. -/
theorem test_witness_StartupLoadsThenRecovers_last_word :
    let staged := 0x5A4B :: 1 :: List.replicate 3693 (0 : Word)
    (staged ++ [0xA5B4]).length = 3696 ∧ wordSum (staged ++ [0xA5B4]) = 0 ∧ wordSum (staged ++ [0]) ≠ 0 := by
  decide +kernel

theorem test_witness_BeginAndWipeStartAfresh :
    (st (phased .transparent .none)).takes .begin [] = true ∧
      (let d := inHand .begin (onInt .phc ⟨0xFF000, .read⟩
          { phased .transparent .none with phc := { (phased .transparent .none).phc with work := .probe } });
        (st d).running = true ∧ d.mpc.cycle = some ⟨.int, ⟨0xFF000, .read⟩, 20⟩ ∧
          d.mpc.intQueue = [⟨.phc, ⟨0xFF000, .read⟩⟩] ∧ d.mpc.fwdWaiting = false ∧ d.mpc.rstWaiting = none ∧
          d.mpc.mirWaiting = none ∧ d.phc.work = .probe ∧ d.sli.inHand = some Req.begin.code ∧ d.iport.cycle = none) ∧
      ((st tabled).takes .wipe [] = true ∧ tabled.tru.state = .idle ∧ tabled.acu.runState = .idle) ∧
      ((st openTrial).takes .wipe [] = true ∧ openTrial.tru.state ≠ .idle) ∧
      (let d := during (wr 0x2000 1) (.redirected false) tabled;
        (st d).takes .wipe [] = true ∧
          d.iport.cycle = some ⟨wr 0x2000 1, ⟨.redirect .map0 0x8000, some 1, 0⟩, .redirected false⟩) := by decide +kernel

theorem test_witness_SavesWriteImagesThatSumToZero :
    ((st comm).takes .save [] = true ∧ comm.tru.state = .idle) ∧
      ((st openTrial).takes .save [] = true ∧ openTrial.tru.state = .open ∧ openTrial.tru.due = none) ∧
      ((st (trial .closing comm)).takes .save [] = true ∧ (trial .closing comm).mpc.settled = true) ∧
      (∀ k ∈ [0, 3695, 3696], ∀ o ∈ [Phop.saving, .handingOver .write],
        let d := onInt .phc ⟨0xFF000, .write 0⟩
          { comm with phc := { comm.phc with phop := o, work := .writing [] k } }
        (st d).running = true ∧ d.mpc.cycle = some ⟨.int, ⟨0xFF000, .write 0⟩, 20⟩ ∧
          d.mpc.intQueue = [⟨.phc, ⟨0xFF000, .write 0⟩⟩] ∧ d.phc.work = .writing [] k ∧ d.phc.phop = o) ∧
      comm.acu.log.length ≤ 64 ∧ ∀ r ∈ comm.acu.log, r.results.length ≤ 4 := by decide +kernel

/-- Definitions that their loads accept: a rule, a carrier, a step and a layout. -/
def ruleBody : List Byte := [0, 0, 0, 5, 4, 12, 0, 1, 0, 2, 0, 9, 0, 3, 0]

/-- A SET-CARRIER body with everything at a bound. -/
def carrierBody : List Byte := [3, 1, 1, 0xFA, 0x24, 0x01, 0xF4, 0x03, 0xE8]

/-- A LOAD-LAYOUT body: RSL in word 0, MSE in the closing word 1. -/
def layoutBody : List Byte :=
  [0, 1, 0, 1, 16, 0, 1, 1, 2, 8, 0, 1] ++ zeros 30

/-- A LOAD-REGION body: a REDIRECT entry at its longest. -/
def regionBody : List Byte :=
  [1, 0, 0, 0x20, 0, 0, 0x02, 0, 3, 5, 0, 0, 0, 0, 0, 0, 0, 0x80, 0, 0, 0, 0, 0, 0]

theorem test_witness_SavedDefinitionsLoadAsTheyWere :
    (RawRule.ofBody ruleBody).argsOk = true ∧ (RawRule.ofBody ruleBody).toRule.defOk [] = true ∧
      (RawStep.ofBody stepBody).check = some (RawStep.ofBody stepBody).toStep ∧
      (RawCarrier.ofBody carrierBody).check = some ⟨true, some (-1500), 500, 1000⟩ ∧
      checkLayout (byteAt layoutBody 1) (rawSlotsOfBody layoutBody) = some rslLayout ∧ comm.acu.log.length ≤ 64 ∧
      comm.acu.plan[0] = none ∧ comm.fgd.rules[0] = none := by decide +kernel

/-- A slot of kind NONE passes with any signed byte (log 42); a slot in use needs 00h or 01h (R101). -/
theorem test_signed_byte_of_a_slot :
    (RawSlot.mk 0 0 0 0 2).ok 1 = true ∧ (RawSlot.mk 0 1 16 0 1).ok 1 = true ∧ (RawSlot.mk 0 1 16 0 2).ok 1 = false := by
  decide +kernel

/-! ## The service line -/

/-- The receiver in a state, its gap timer due. -/
def receiving (r : RxState) : Lc44 := { comm with sli := { comm.sli with rx := r, gap := some 0 } }

/-- Every state of the receiver with a byte at each bound, deaf and not. -/
theorem test_witness_ReceiverMovesByteByByte :
    ((st starting).running = true ∧ starting.phc.phop.isStarting = true) ∧
      (∀ r ∈ [RxState.hunt, .length, .code 1, .code 65, .body 3 1 [], .body 3 1 [2], .check 1 1 [], .badLength],
        (st (receiving r)).running = true ∧ (receiving r).deaf = false ∧ (receiving r).sli.rx = r ∧ (receiving r).sli.gap = some 0) ∧ comm.sli.gap ≠ some 0 ∧
      (1 ≤ (1 : Byte).toNat ∧ (65 : Byte).toNat ≤ 65 ∧ 65 < (66 : Byte).toNat ∧ (0 : Byte).toNat = 0) ∧
      ([] : List Byte).length + 2 < 3 ∧ 3 ≤ [(2 : Byte)].length + 2 ∧
      BitVec.ofNat 8 1 + 1 + byteSum [] + (0xFE : Byte) = 0 ∧ BitVec.ofNat 8 1 + 1 + byteSum [] + (0xFF : Byte) ≠ 0 := by
  decide +kernel

theorem test_witness_FramesSentAreGood :
    (zeros 64).length ≤ 64 ∧ comm.sli.rx = .hunt ∧ (receiving (.check 1 1 [])).sli.rx = .check 1 1 [] ∧
      (receiving .length).sli.rx = .length ∧ (0 : Byte).toNat = 0 ∧ 0x7F < (0x80 : Byte).toNat := by decide +kernel

theorem test_witness_framesLaw :
    State.reset.framesLaw ∧ (st { comm with sli := { comm.sli with sending := some [frame 0x81 (zeros 64)] } }).framesLaw := by
  refine ⟨fun _ h => (by cases h), fun _ h _ hf => ?_⟩
  cases h
  exact ⟨0x81, zeros 64, by decide, by decide, List.mem_singleton.mp hf⟩

/-- IDENT's request frame. -/
theorem test_ident_frame : frame Req.ident.code [] = [0xC3, 1, 1, 0xFE] := by decide +kernel

theorem test_witness_LineEventsAreAnsweredOrCounted :
    let d := receiving .badLength
    let h := inHand .begin comm
    let s := { comm with sli := { comm.sli with sending := some [] } }
    let b := inHand .begin d
    (st d).running = true ∧ d.deaf = false ∧ d.sli.inHand = none ∧ d.sli.rx = .badLength ∧ d.sli.gap = some 0 ∧
      b.deaf = false ∧ b.sli.inHand ≠ none ∧ b.sli.rx = .badLength ∧ b.sli.gap = some 0 ∧
      namesRequest 0x7F = false ∧ namesRequest 0 = false ∧ h.deaf = false ∧ h.sli.inHand ≠ none ∧ s.sli.sending ≠ none := by
  decide +kernel

theorem test_witness_RequestsPassTheChecksInOrder :
    comm.deaf = false ∧ comm.sli.inHand = none ∧
      requestFilter comm.phc.phase comm.phc.phop .begin = some .badPhase ∧
      (requestFilter comm.phc.phase comm.phc.phop .ident = none ∧ (zeros 1).length ≠ Req.ident.bodyLength) ∧
      ([] : List Byte).length = Req.ident.bodyLength ∧ starting.phc.phop.isStarting = true ∧ (st comm).running = true ∧
      namesRequest 0xFF = false ∧ 0x7F < (0xFF : Byte).toNat := by decide +kernel

/-- Each report with the last index of its table and the first beyond it. -/
theorem test_witness_ReportsChangeNothing :
    (st comm).takes .ident [] = true ∧ (st comm).takes .status [] = true ∧ (st comm).takes .readLayout [] = true ∧
      (∀ n ∈ [(15 : Byte), 16], (st comm).takes .readRegion [n] = true) ∧
      (∀ n ∈ [(63 : Byte), 64], (st comm).takes .readRule [n] = true ∧ (st comm).takes .readLog [n] = true) ∧
      (∀ n ∈ [(3 : Byte), 4], (st comm).takes .readCarrier [n] = true) ∧
      (∀ n ∈ [(31 : Byte), 32], (st comm).takes .readStep [n] = true) ∧
      (∀ n ∈ [(0 : Byte), 1, 2], ∀ p ∈ [(0 : Byte), 1, 2, 5, 6],
        (st comm).takes .readTrial [n, p] = true ∧ (st comm).takes .readOverlay [n, p] = true) ∧
      (journalData 0 comm.tru).length ≤ 63 ∧
      63 < (journalData 0 (journalled (List.replicate 48 (jentry 9 .none)) comm).tru).length := by decide +kernel

theorem test_witness_ReportsReloadTheirItems :
    (RawRegion.ofBody regionBody).check 0 (some 1) (fun _ => false) =
        some ⟨0x2000, 512, true, true, .redirect .map0 0x8000⟩ ∧
      ((RawRule.ofBody ruleBody).argsOk = true ∧ (RawRule.ofBody ruleBody).toRule.defOk [] = true) ∧
      checkLayout (byteAt layoutBody 1) (rawSlotsOfBody layoutBody) = some rslLayout ∧
      (RawStep.ofBody stepBody).check = some (RawStep.ofBody stepBody).toStep := by decide +kernel

theorem test_witness_TableLoadsReplaceOneItem :
    (openTrial.tru.state ≠ .idle ∧ (st openTrial).takes .loadRegion regionBody = true ∧
      (st openTrial).takes .loadRule ruleBody = true ∧ (st openTrial).takes .loadLayout layoutBody = true) ∧
    (tabled.tru.state = .idle ∧ tabled.acu.runState = .idle ∧ (st tabled).takes .loadRegion regionBody = true ∧
      (RawRegion.ofBody regionBody).check 0 none (fun _ => false) ≠ none ∧
      (st tabled).takes .loadRegion (16 :: zeros 23) = true ∧ (st tabled).takes .loadRegion (15 :: 2 :: zeros 22) = true ∧
      (st tabled).takes .loadRegion (15 :: 1 :: zeros 22) = true ∧
      (st tabled).takes .loadRegion (zeros 24) = true ∧ (RawRegion.ofBody (zeros 24)).check 0 none (fun _ => false) = none) ∧
    ((st tabled).takes .loadRule ruleBody = true ∧ (RawRule.ofBody ruleBody).argsOk = true ∧
      (RawRule.ofBody ruleBody).toRule.field.shapeOk = true ∧ (RawRule.ofBody ruleBody).toRule.boundsOk = true ∧
      (st tabled).takes .loadRule (64 :: zeros 14) = true ∧ (st tabled).takes .loadRule (63 :: 1 :: zeros 13) = true ∧
      (RawRule.ofBody (zeros 14 ++ [3])).argsOk = false ∧ (st tabled).takes .loadRule (zeros 15) = true ∧
      (RawRule.ofBody (zeros 15)).argsOk = true ∧ (RawRule.ofBody (zeros 15)).toRule.field.shapeOk = false) ∧
    ((st tabled).takes .loadLayout layoutBody = true ∧
      checkLayout (byteAt layoutBody 1) (rawSlotsOfBody layoutBody) = some rslLayout ∧ byteAt layoutBody 1 < 8 ∧
      (st tabled).takes .loadLayout (1 :: zeros 41) = true ∧ (st tabled).takes .loadLayout (2 :: zeros 41) = true ∧ (st tabled).takes .loadLayout (0 :: 64 :: zeros 40) = true ∧
      checkLayout 64 (rawSlotsOfBody (0 :: 64 :: zeros 40)) = none ∧ (st tabled).takes .loadLayout (0 :: 8 :: zeros 40) = true ∧
      tabled.ccl.table[3] = some ⟨0x4000, 16, true, true, .observe 0 2 8⟩ ∧ 8 ≤ byteAt (0 :: 8 :: zeros 40) 1) := by
  decide +kernel

/-- The mirror at the top of the address space is reserved; below the profile block it ends at its base. -/
theorem test_witness_MirrorRefreshes :
    (∀ body ∈ [[0, 0, 0, 0], [1, 0x0F, 0xEF, 0xF0], [1, 0x0F, 0xEF, 0xF1], [1, 0x0F, 0xFF, 0xF1], [2, 0, 0, 0]],
      (st comm).takes .setMirror body = true) ∧ comm.mpc.settled = true ∧
      u24At [1, 0x0F, 0xEF, 0xF0] 1 + 16 = 0xFF000 ∧ comm.iport.cycle = none ∧
      (during (rd 0) .forward comm).iport.cycle ≠ none ∧ (st comm).running = true ∧ comm.sli.refreshTimer ≠ some 0 ∧
      { comm.sli with refreshTimer := some 0 }.refreshTimer = some 0 := by decide +kernel

/-- A mirror word on the port, of the refresh itself or of one abandoned, at each end of the index. -/
theorem test_witness_MirrorRefreshes_words :
    ∀ orphan : Bool, ∀ index ∈ [0, 14, 15],
      let d := onPort .mir ⟨0x9000, .write 0⟩
        { comm with sli := { comm.sli with orphan := orphan, refresh := some ⟨1, List.replicate 16 0, index⟩ } }
      (st d).running = true ∧ d.mpc.cycle = some ⟨.mir, ⟨0x9000, .write 0⟩, 20⟩ ∧ d.sli.orphan = orphan ∧
        d.sli.refresh = some ⟨1, List.replicate 16 0, index⟩ := by decide +kernel

/-! ## One step of some commands, from the spec's text -/

/-- R165: the tick that brings the accumulator to 1,000 counts a second. -/
theorem test_tick_counts_a_second :
    (after .tick (lastTick comm)).map (fun d => (d.phc.accumulator, d.phc.seconds)) = some (0, 1) ∧
      (after .tick (lastTick (phased .service .none))).map (fun d => d.phc.seconds) = some 0 := by decide +kernel

/-- R119: GA alone joins carriers 0 and 1; SET-GROUPS answers with the groups and the flags. -/
theorem test_set_groups_answer :
    (after (.setGroups [1, 0, 0]) comm).map (fun d => d.sli.sending) =
      some (some [frame (Req.setGroups.code + 0x80) [0, 3, 4, 8, 1, 0, 0]]) := by decide +kernel

/-- Chapter 7: an open switch closes in CLEAR; after its debounce the state is MUTED and ACU is told. -/
theorem test_mast_asserted :
    (after .debounceTimerExpiry (mute .clear true false comm)).map (fun d => (d.tmu.mute, d.txmute, d.raised.acu)) =
      some (.muted, true, [.mute]) := by decide +kernel

/-- R199: the number after 65,535 is 1. -/
theorem test_refresh_number_wraps : nextRefreshNumber 65535 = 1 ∧ nextRefreshNumber 0 = 1 := by decide +kernel

/-- R57: the trial number after 255 is 1, and TRIAL-OPEN asks for the count word 0 at 011h of the block. -/
theorem test_trial_open :
    (after (.trialOpen [0, 0, 0]) { comm with tru := { comm.tru with number := 255 } }).map
        (fun d => (d.tru.state, d.tru.number, d.mpc.cycle)) =
      some (.opening, 1, some ⟨.int, ⟨0xFF011, .write 0⟩, 20⟩) := by decide +kernel

/-- R196: IDENT's answer names the part and the profile base that PSEL selects. -/
theorem test_ident_answer :
    (after (.ident []) comm).map (fun d => d.sli.sending) =
      some (some [frame 0x81 [0, 0x4C, 0x43, 0x34, 0x34, 1, 0x0F, 0xF0, 0, 0, 0, 1, 0]]) := by decide +kernel

/-- R9: a barred write is answered FAULT and counted, without an M-port cycle. -/
theorem test_barred_write :
    (after (.iPortCycle (wr 0x5000 1)) tabled).map (fun d => (d.iport.answer, d.ccl.faults.barred, d.mpc.cycle)) =
      some (some (.fault (some .barred)), 1, none) := by decide +kernel

/-- R39: the value 1 under a CLAMP rule of 2 to 9 is written as 2. -/
theorem test_clamped_write :
    (after (.iPortCycle (wr 0x1000 1)) ruled).map (fun d => (d.mpc.cycle, d.fgd.counts[0])) =
      some (some ⟨.fwd, ⟨0x1000, .write 2⟩, 20⟩, 1) := by decide +kernel

/-- R95: the fold of a flagged word begins with the read of its overlay address. -/
theorem test_handover_begins_the_fold :
    (after (.handover []) { ready with ovu := { ready.ovu with map0 := [3] } }).map (fun d => (d.mpc.cycle, d.phc.phop)) =
      some (some ⟨.int, ⟨0x8003, .read⟩, 20⟩, .handingOver .fold) := by decide +kernel

/-- R115, R134: clearing two carriers tells TMU that they left TRACK, and then that their peaks are reset. -/
theorem test_clear_capture_raises_left_then_reset :
    (after (.clearCapture [3]) comm).map (fun d => d.raised.tmu) =
      some [.leftTrack ⟨true, true, false, false⟩, .peakReset ⟨true, true, false, false⟩] := by decide +kernel

end Sys2Proof.Tests
end

