-- ==== Sys2Proof/Proofs/CycleTake.lean ====
section
/-! SUPPORT. The take of an I-port cycle (R1 to R4): what `takeCycle` is during STARTING, for a write into a reserved
range and after start-up, and from these the statement about the take. -/

namespace Sys2Proof.Machine

/-- Running, with no cycle unanswered, I_PORT_CYCLE takes the cycle and the arbiter decides (R1). -/
theorem exec_iPortCycle_takes {s : State} (x : BusCycle) (hrun : s.running = true) (hc : s.part.iport.cycle = none) :
    exec (.iPortCycle x) s = .next ⟨arbitrate (takeCycle x s.part), s.pending⟩ := by
  rw [exec_iPortCycle, State.effect_running _ hrun]
  simp [hc]

/-- During STARTING the take is a FAULT answer without a cause, and nothing else (R2). -/
theorem takeCycle_starting (x : BusCycle) {d : Lc44} (h : d.phc.phop.isStarting = true) :
    takeCycle x d = d.onIport fun p => { p with answer := some (.fault none) } := by
  simp [takeCycle, h]

/-- After start-up a write into a reserved range is answered FAULT with the cause BARRED (R4). -/
theorem takeCycle_reserved (x : BusCycle) {d : Lc44} (h : d.phc.phop.isStarting = false) (hw : x.op ≠ .read)
    (hr : d.reservedCycle x = true) : takeCycle x d = faultCycle .barred d := by
  cases hx : x.op with
  | read => exact absurd hx hw
  | write w => simp [takeCycle, h, hx, hr]

/-- After start-up a cycle is a reserved write, or it is classified and handled by its record (R3, R4). -/
theorem takeCycle_started (x : BusCycle) {d : Lc44} (h : d.phc.phop.isStarting = false) :
    takeCycle x d =
      if x.op ≠ .read ∧ d.reservedCycle x = true then faultCycle .barred d else handleCycle x (classify x d) d := by
  split
  next hres => exact takeCycle_reserved x h hres.1 hres.2
  next hres => exact takeCycle_eq x d h hres

/-- The HOLD line is asserted during STARTING (R2, R179, R184). -/
theorem holdLine_of_starting {d : Lc44} (h : d.phc.phop.isStarting = true) : d.holdLine = true := by
  simp [Lc44.holdLine, h]

/-- Settles O6: the STARTING answer leaves the M-port as it is, so that the arbiter has nothing to decide; after
STARTING the take is `takeCycle_started`. -/
theorem startingAnswersEveryCycleFault : Obligations.StartingAnswersEveryCycleFault := by
  intro s x hrun hcycle hsettled
  rw [exec_iPortCycle_takes x hrun hcycle]
  refine ⟨fun hstart => ⟨holdLine_of_starting hstart, ?_⟩, fun hstart => ?_⟩
  · rw [takeCycle_starting x hstart, arbitrate_of_settled (s.part.onIport _) hsettled]
    rfl
  · rw [takeCycle_started x hstart]

end Sys2Proof.Machine
end

