-- ==== Sys2Proof/Proofs/Arbiter.lean ====
section
/-! SUPPORT. The arbiter (R28, R29): which client its table chooses, what a grant to each client is, and how a save's
write that ends OK leaves the port to the clients that wait; from these the statement about the arbiter. -/

namespace Sys2Proof.Machine

/-! ## The table of R29 -/

/-- FWD is chosen when it waits alone of the two, or was not the last of the two granted. -/
theorem choice_fwd {m : Mpc} (hf : m.fwdWaiting = true) (h : m.rstWaiting = none ∨ m.alternation = .rst) :
    m.choice = some .fwd := by
  cases hr : m.rstWaiting with
  | none => simp [Mpc.choice, hf, hr]
  | some r =>
    have ha : m.alternation = .rst := by simpa [hr] using h
    simp [Mpc.choice, hf, hr, ha]

/-- RST is chosen when it waits alone of the two, or was not the last of the two granted. -/
theorem choice_rst {m : Mpc} (hr : m.rstWaiting ≠ none) (h : m.fwdWaiting = false ∨ m.alternation = .fwd) :
    m.choice = some .rst := by
  have hr' : m.rstWaiting.isSome = true := Option.isSome_iff_ne_none.mpr hr
  cases hf : m.fwdWaiting with
  | false => simp [Mpc.choice, hf, hr']
  | true =>
    have ha : m.alternation = .fwd := by simpa [hf] using h
    simp [Mpc.choice, hf, hr', ha]

/-- INT is chosen when neither FWD nor RST waits. -/
theorem choice_int {m : Mpc} (hf : m.fwdWaiting = false) (hr : m.rstWaiting = none) (hq : m.intQueue ≠ []) :
    m.choice = some .int := by
  simp [Mpc.choice, hf, hr, hq]

/-- MIR is chosen when it waits alone. -/
theorem choice_mir {m : Mpc} (hf : m.fwdWaiting = false) (hr : m.rstWaiting = none) (hq : m.intQueue = [])
    (hm : m.mirWaiting ≠ none) : m.choice = some .mir := by
  simp [Mpc.choice, hf, hr, hq, Option.isSome_iff_ne_none.mpr hm]

/-! ## Grants -/

/-- A free port has no hold. -/
theorem hold_of_free {m : Mpc} (h : m.free = true) : m.hold = none := by
  simp only [Mpc.free, Bool.and_eq_true, Option.isNone_iff_eq_none] at h
  exact h.2

/-- A grant to FWD begins its hold and presents the stage that the cycle in progress has reached (R28). -/
theorem grantTo_fwd (d : Lc44) :
    grantTo .fwd d =
      presentStage { d with mpc := { d.mpc with fwdWaiting := false, hold := some d.mpc.timeout, alternation := .fwd } } :=
  rfl

/-- A grant to FWD for a forwarded cycle puts that cycle on the port (R8). -/
theorem grantTo_fwd_forward {d : Lc44} {c : ICycle} (hc : d.iport.cycle = some c) (hs : c.stage = .forward) :
    grantTo .fwd d =
      { d with
        mpc :=
          { d.mpc with
            fwdWaiting := false, hold := some d.mpc.timeout, alternation := .fwd
            cycle := some ⟨.fwd, ⟨c.cycle.addr, c.cycle.op⟩, d.mpc.timeout⟩ } } := by
  rw [grantTo_fwd]
  simp only [presentStage, hc, hs]
  rfl

/-- A grant to RST puts its request on the port and sets the alternation record to RST. -/
theorem grantTo_rst {d : Lc44} {r : MRequest} (hr : d.mpc.rstWaiting = some r) (hh : d.mpc.hold = none) :
    grantTo .rst d =
      { d with
        mpc := { d.mpc with rstWaiting := none, alternation := .rst, cycle := some ⟨.rst, r, d.mpc.timeout⟩ } } := by
  simp [grantTo, hr, present, Lc44.onMpc, Mpc.grantTimeout, hh]

/-- A grant to INT puts the head of its queue on the port, where it stays in the queue (R27). -/
theorem grantTo_int {d : Lc44} {q : IntRequest} {rest : List IntRequest} (hq : d.mpc.intQueue = q :: rest)
    (hh : d.mpc.hold = none) :
    grantTo .int d = { d with mpc := { d.mpc with cycle := some ⟨.int, q.request, d.mpc.timeout⟩ } } := by
  simp [grantTo, hq, present, Lc44.onMpc, grantTimeout_free hh]

/-- A grant to MIR puts its word on the port. -/
theorem grantTo_mir {d : Lc44} {r : MRequest} (hr : d.mpc.mirWaiting = some r) (hh : d.mpc.hold = none) :
    grantTo .mir d =
      { d with mpc := { d.mpc with mirWaiting := none, cycle := some ⟨.mir, r, d.mpc.timeout⟩ } } := by
  simp [grantTo, hr, present, Lc44.onMpc, Mpc.grantTimeout, hh]

/-- A free port goes to the client chosen. -/
theorem arbitrateOnce_of_choice {d : Lc44} {x : Client} (hf : d.mpc.free = true) (hx : d.mpc.choice = some x) :
    arbitrateOnce d = grantTo x d := by
  simp [arbitrateOnce, hf, hx]

/-- A grant that puts a cycle on the port is all that the arbiter does. -/
theorem arbitrate_of_grant {d e : Lc44} {x : Client} (hf : d.mpc.free = true) (hx : d.mpc.choice = some x)
    (hg : grantTo x d = e) (hc : e.mpc.cycle ≠ none) : arbitrate d = e := by
  rw [arbitrate, arbitrateOnce_of_choice hf hx, hg]
  exact arbitrateOnce_of_settled e (settled_of_busy _ (by simp [Mpc.free, hc]))

/-- An M-port whose table chooses nobody is settled. -/
theorem settled_of_choice_none {m : Mpc} (h : m.choice = none) : m.settled = true := by simp [Mpc.settled, h]

/-- While a forwarded cycle is in progress a grant changes the M-port alone. -/
theorem keeps_grantTo_forward (x : Client) {d : Lc44} {c : ICycle} (hc : d.iport.cycle = some c)
    (hs : c.stage = .forward) : d.keepsOutside [.mpc] (grantTo x d) := by
  cases x with
  | fwd =>
    rw [grantTo_fwd_forward hc hs]
    exact keeps_onMpc (fun _ => _) d
  | rst =>
    unfold grantTo
    cases d.mpc.rstWaiting with
    | none => exact keeps_refl _ d
    | some r => exact keeps_trans (keeps_onMpc _ d) (keeps_present _ _ _)
  | int =>
    unfold grantTo
    cases d.mpc.intQueue with
    | nil => exact keeps_refl _ d
    | cons q rest => exact keeps_present _ _ d
  | mir =>
    unfold grantTo
    cases d.mpc.mirWaiting with
    | none => exact keeps_refl _ d
    | some r => exact keeps_trans (keeps_onMpc _ d) (keeps_present _ _ _)

/-- While a forwarded cycle is in progress a decision of the arbiter changes the M-port alone. -/
theorem keeps_arbitrateOnce_forward {d : Lc44} {c : ICycle} (hc : d.iport.cycle = some c) (hs : c.stage = .forward) :
    d.keepsOutside [.mpc] (arbitrateOnce d) := by
  unfold arbitrateOnce
  split
  · split
    · exact keeps_refl _ d
    · exact keeps_grantTo_forward _ hc hs
  · exact keeps_refl _ d

/-- While a forwarded cycle is in progress the arbiter changes the M-port alone. -/
theorem keeps_arbitrate_forward {d : Lc44} {c : ICycle} (hc : d.iport.cycle = some c) (hs : c.stage = .forward) :
    d.keepsOutside [.mpc] (arbitrate d) := by
  have once := keeps_arbitrateOnce_forward hc hs
  have hi : (arbitrateOnce d).iport = d.iport := once.2.2 .iport (by decide)
  exact keeps_trans once (keeps_arbitrateOnce_forward (hi ▸ hc) hs)

/-! ## A save's write ends OK -/

/-- The request for write `k` of an image, at its place in the profile block (R170). -/
def Lc44.imageRequest (image : List Word) (k : Nat) (d : Lc44) : MRequest :=
  ⟨d.profileAddr (imageWrite image k).1, .write (imageWrite image k).2⟩

/-- After write `k` of a SAVE, PHC requests the next of the 3,697 writes, or none after the last; PHC and the M-port
apart nothing changes (R170). -/
theorem imageWriteEnded_saving {d : Lc44} {image : List Word} {k : Nat} (hw : d.phc.work = .writing image k)
    (hp : d.phc.phop = .saving) :
    d.keepsOutside [.mpc, .phc] (imageWriteEnded none d) ∧
      (imageWriteEnded none d).mpc =
        { d.mpc with
          intQueue := d.mpc.intQueue ++ if k < 3696 then [⟨.phc, d.imageRequest image (k + 1)⟩] else [] } := by
  by_cases hk : k < 3696
  · have hn : k + 1 < Config.imageWrites := by simp only [Config.imageWrites]; omega
    simp only [imageWriteEnded, hw, if_pos hn, if_pos hk]
    exact ⟨keeps_trans (keeps_trans (keeps_onPhc _ d) (keeps_onPhc _ _) (l := [.phc])) (keeps_requestImageWrite _), rfl⟩
  · have hn : ¬ k + 1 < Config.imageWrites := by simp only [Config.imageWrites]; omega
    have hh : (d.onPhc (Phc.onRecord fun r => { r with writes := r.writes + 1 })).phc.phop.isHandingOver = false := by
      simp [Phc.onRecord, hp, Phop.isHandingOver]
    simp only [imageWriteEnded, hw, if_neg hn, if_neg hk, writingDone, hh, List.append_nil]
    exact ⟨keeps_trans (keeps_onPhc _ d) (keeps_onPhc _ _), rfl⟩

/-- A save's write ends OK: the port is free with PHC's next write in the queue, or none, and the arbiter decides. -/
theorem exec_saveWritten {s : State} {p : MCycle} {q : IntRequest} {image : List Word} {k : Nat} (w : Word)
    (hrun : s.running = true) (hcycle : s.part.mpc.cycle = some p) (hint : p.client = .int)
    (hqueue : s.part.mpc.intQueue = [q]) (howner : q.owner = .phc) (hwork : s.part.phc.work = .writing image k)
    (hphop : s.part.phc.phop = .saving) :
    ∃ e, exec (.memoryAnswer (.ok w)) s = .next ⟨arbitrate e, s.pending⟩ ∧ s.part.keepsOutside [.mpc, .phc] e ∧
      e.mpc =
        { s.part.mpc with
          cycle := none, intQueue := if k < 3696 then [⟨.phc, s.part.imageRequest image (k + 1)⟩] else [] } := by
  obtain ⟨hkeeps, hmpc⟩ :=
    imageWriteEnded_saving (d := s.part.onMpc fun m => { Mpc.ended p (.ok w) m with intQueue := [] }) hwork hphop
  refine ⟨_, ?_, keeps_trans (keeps_onMpc _ s.part) hkeeps, hmpc⟩
  rw [exec_ok w s hrun, memoryEnd_int _ _ p q [] hcycle hint hqueue, howner]
  simp only [intEnded, phcEnded, Lc44.onMpc_phc, hwork]
  rfl

/-! ## The statement -/

/-- Settles O11: each row of the table is a lemma about `Mpc.choice` and each grant one about `grantTo`; the run is the
end of a save's write, which frees the port, followed by the grant to the client its row chooses. -/
theorem arbiterGrantsInTurn : Obligations.ArbiterGrantsInTurn := by
  refine ⟨?_, fun m => ⟨fun hf _ ha => choice_fwd hf (.inr ha), fun _ hr ha => choice_rst hr (.inr ha),
    fun hf hr => choice_fwd hf (.inl hr), fun hf hr => choice_rst hr (.inl hf), choice_int, choice_mir,
    fun hf hr hq hm => (choice_eq_none_iff m).mpr ⟨hf, hr, hq, hm⟩, ?_⟩⟩
  · intro s p q image k w c hrun hcycle hint hhold hqueue howner hwork hphop hic hstage m next
    obtain ⟨e, hexec, hkeeps, hmpc⟩ := exec_saveWritten w hrun hcycle hint hqueue howner hwork hphop
    have hi : e.iport.cycle = some c := (hkeeps.2.2 .iport (by decide)).symm ▸ hic
    have hh : e.mpc.hold = none := by simp [hmpc, hhold]
    have hfree : e.mpc.free = true := by simp [Mpc.free, hmpc, hhold]
    refine ⟨_, hexec, keeps_trans hkeeps (keeps_arbitrate_forward hi hstage), ?fwd, ?rst, ?int, ?mir, ?nobody⟩
    case fwd =>
      intro hk hf hr
      rw [arbitrate_of_grant hfree (choice_fwd (by simpa [hmpc] using hf) (by simpa [hmpc] using hr))
        (grantTo_fwd_forward hi hstage) (by simp)]
      simp only [hmpc, if_pos hk]
      rfl
    case rst =>
      intro hk r hr hf
      have hr' : e.mpc.rstWaiting = some r := by simpa [hmpc] using hr
      rw [arbitrate_of_grant hfree (choice_rst (by simp [hr']) (by simpa [hmpc] using hf)) (grantTo_rst hr' hh)
        (by simp)]
      simp only [hmpc, if_pos hk]
      rfl
    case int =>
      intro hk hf hr
      have hq : e.mpc.intQueue = [⟨.phc, next⟩] := by simp only [hmpc, if_pos hk]; rfl
      rw [arbitrate_of_grant hfree (choice_int (by simpa [hmpc] using hf) (by simpa [hmpc] using hr) (by simp [hq]))
        (grantTo_int hq hh) (by simp)]
      simp only [hmpc, if_pos hk]
      rfl
    case mir =>
      intro hk hf hr r hm
      have hm' : e.mpc.mirWaiting = some r := by simpa [hmpc] using hm
      rw [arbitrate_of_grant hfree (choice_mir (by simpa [hmpc] using hf) (by simpa [hmpc] using hr)
        (by simp [hmpc, hk]) (by simp [hm'])) (grantTo_mir hm' hh) (by simp)]
      simp [hmpc, hk, m]
    case nobody =>
      intro hk hf hr hm
      have hnone : e.mpc.choice = none := (choice_eq_none_iff _).mpr (by simpa [hmpc, hk] using ⟨hf, hr, hm⟩)
      rw [arbitrate_of_settled e (settled_of_choice_none hnone), hmpc]
      simp [hk, m]
  · rintro d rfl hfree
    have hh := hold_of_free hfree
    exact ⟨fun hx => arbitrateOnce_of_settled d (settled_of_choice_none hx),
      fun hx => (arbitrateOnce_of_choice hfree hx).trans (grantTo_fwd d),
      fun r hr hx => (arbitrateOnce_of_choice hfree hx).trans (grantTo_rst hr hh),
      fun q rest hq hx => (arbitrateOnce_of_choice hfree hx).trans (grantTo_int hq hh),
      fun r hr hx => (arbitrateOnce_of_choice hfree hx).trans (grantTo_mir hr hh)⟩

end Sys2Proof.Machine
end

