-- ==== Sys2Proof/Proofs/Field.lean ====
section
/-! SUPPORT. Fields of a word (R37): the bits of a field as a bit vector of the field's width, what extraction reads of
them and what insertion writes into them. -/

namespace Sys2Proof.Machine

/-! ## Extraction -/

theorem shapeOk_iff {f : Field} : f.shapeOk = true ↔ 1 ≤ f.width ∧ f.offset ≤ 15 ∧ f.width + f.offset ≤ 16 := by
  simp only [Field.shapeOk, within, Bool.and_eq_true, decide_eq_true_eq]
  omega

/-- The bits of a field of a word, from its offset up. -/
def Field.bits (f : Field) (w : Word) : BitVec f.width := w.extractLsb' f.offset f.width

theorem Field.bits_toNat (f : Field) (w : Word) : (f.bits w).toNat = w.toNat / 2 ^ f.offset % 2 ^ f.width := by
  rw [Field.bits, BitVec.extractLsb'_toNat, Nat.shiftRight_eq_div_pow]

/-- The sign bit of a field is the word's bit at the field's upper end. -/
theorem Field.bits_msb {f : Field} (w : Word) (hw : 1 ≤ f.width) :
    (f.bits w).msb = w.getLsbD (f.offset + f.width - 1) := by
  have hlast : f.offset + (f.width - 1) = f.offset + f.width - 1 := by omega
  have htop : f.width - 1 < f.width := by omega
  rw [BitVec.msb_eq_getLsbD_last, Field.bits, BitVec.getLsbD_extractLsb', hlast]
  simp [htop]

/-- An unsigned field is extracted as the number its bits spell. -/
theorem extract_unsigned {f : Field} (w : Word) (h : f.signed = false) : extract f w = ((f.bits w).toNat : Int) := by
  simp [extract, h, Field.bits_toNat]

/-- A signed field is extracted as the two's complement value of its bits. -/
theorem extract_signed {f : Field} (w : Word) (h : f.signed = true) : extract f w = (f.bits w).toInt := by
  rw [BitVec.toInt_eq_toNat_cond, Field.bits_toNat, extract, h]
  by_cases hn : 2 ^ f.width ≤ 2 * (w.toNat / 2 ^ f.offset % 2 ^ f.width)
  · simp [hn, Nat.not_lt.mpr hn]
  · simp [hn, Nat.not_le.mp hn]

/-- A signed field is its unsigned value, less 2 to the power width when its highest bit is set. -/
theorem extract_signed_eq {f : Field} (w : Word) (h : f.signed = true) (hw : 1 ≤ f.width) :
    extract f w =
      if w.getLsbD (f.offset + f.width - 1) = true then
        ((w.toNat / 2 ^ f.offset % 2 ^ f.width : Nat) : Int) - (2 ^ f.width : Nat)
      else ((w.toNat / 2 ^ f.offset % 2 ^ f.width : Nat) : Int) := by
  rw [extract_signed w h, BitVec.toInt_eq_msb_cond, Field.bits_msb w hw, Field.bits_toNat]

/-! ## The range of a field -/

theorem Field.range_unsigned {f : Field} (h : f.signed = false) :
    f.least = 0 ∧ f.greatest = (2 ^ f.width : Nat) - 1 := by
  simp [Field.least, Field.greatest, h]

theorem Field.range_signed {f : Field} (h : f.signed = true) :
    f.least = -((2 ^ (f.width - 1) : Nat) : Int) ∧ f.greatest = (2 ^ (f.width - 1) : Nat) - 1 := by
  simp [Field.least, Field.greatest, h]

/-- A value extracted from a field lies in the field's range. -/
theorem extract_mem_range (f : Field) (w : Word) : f.least ≤ extract f w ∧ extract f w ≤ f.greatest := by
  cases h : f.signed with
  | false =>
    have hlt := (f.bits w).isLt
    rw [(Field.range_unsigned h).1, (Field.range_unsigned h).2, extract_unsigned w h]
    omega
  | true =>
    have hle := BitVec.le_toInt (f.bits w)
    have hlt := BitVec.toInt_lt (x := f.bits w)
    rw [(Field.range_signed h).1, (Field.range_signed h).2, extract_signed w h]
    push_cast
    omega

/-- The bits of an unsigned field spell every value of its range. -/
theorem toNat_ofInt_of_range {f : Field} {v : Int} (h : f.signed = false) (hl : f.least ≤ v) (hg : v ≤ f.greatest) :
    ((BitVec.ofInt f.width v).toNat : Int) = v := by
  rw [(Field.range_unsigned h).1] at hl
  rw [(Field.range_unsigned h).2] at hg
  rw [BitVec.toNat_ofInt, Int.emod_eq_of_lt hl (by omega), Int.toNat_of_nonneg hl]

/-- The bits of a signed field stand for every value of its range in two's complement. -/
theorem toInt_ofInt_of_range {f : Field} {v : Int} (hw : 1 ≤ f.width) (h : f.signed = true) (hl : f.least ≤ v)
    (hg : v ≤ f.greatest) : (BitVec.ofInt f.width v).toInt = v := by
  rw [(Field.range_signed h).1] at hl
  rw [(Field.range_signed h).2] at hg
  push_cast at hl hg
  exact BitVec.toInt_ofInt_eq_self hw hl (by omega)

/-! ## Insertion -/

/-- The mask of a field has exactly the bits of the field's place. -/
theorem getLsbD_fieldMask (f : Field) (i : Nat) :
    (fieldMask f).getLsbD i = (decide (i < 16) && (decide (f.offset ≤ i) && decide (i - f.offset < f.width))) := by
  rw [fieldMask, BitVec.getLsbD_ofNat, Nat.testBit_mul_two_pow, Nat.testBit_two_pow_sub_one]

/-- The bits a field takes from a value are the value's lowest ones, moved to the field's place. -/
theorem getLsbD_fieldBits (f : Field) (v : Int) (i : Nat) :
    (fieldBits f v).getLsbD i =
      (decide (i < 16) && (decide (f.offset ≤ i) && (BitVec.ofInt f.width v).getLsbD (i - f.offset))) := by
  rw [fieldBits, BitVec.getLsbD_ofNat, Nat.testBit_mul_two_pow, ← BitVec.toNat_ofInt, BitVec.testBit_toNat]

/-- Outside its place an insertion leaves the word as it was. -/
theorem getLsbD_insertField_outside {f : Field} (v : Int) (w : Word) {i : Nat} (hi : i < 16)
    (h : i < f.offset ∨ f.offset + f.width ≤ i) : (insertField f v w).getLsbD i = w.getLsbD i := by
  rw [insertField, BitVec.getLsbD_or, BitVec.getLsbD_and, BitVec.getLsbD_not, getLsbD_fieldMask, getLsbD_fieldBits]
  rcases h with below | above
  · simp [hi, Nat.not_le.mpr below]
  · have hw : f.width ≤ i - f.offset := by omega
    simp [hi, BitVec.getLsbD_of_ge _ _ hw, Nat.not_lt.mpr hw]

/-- At its place an insertion writes the lowest bits of the value. -/
theorem getLsbD_insertField_inside {f : Field} (v : Int) (w : Word) {i : Nat} (hs : f.width + f.offset ≤ 16)
    (hi : i < f.width) : (insertField f v w).getLsbD (f.offset + i) = (BitVec.ofInt f.width v).getLsbD i := by
  have h16 : f.offset + i < 16 := by omega
  rw [insertField, BitVec.getLsbD_or, BitVec.getLsbD_and, BitVec.getLsbD_not, getLsbD_fieldMask, getLsbD_fieldBits]
  simp [h16, hi]

/-- The field's bits of a word into which a value was inserted are the value's lowest ones. -/
theorem Field.bits_insertField {f : Field} (v : Int) (w : Word) (hs : f.width + f.offset ≤ 16) :
    f.bits (insertField f v w) = BitVec.ofInt f.width v := by
  apply BitVec.eq_of_getLsbD_eq
  intro i hi
  rw [Field.bits, BitVec.getLsbD_extractLsb', getLsbD_insertField_inside v w hs hi]
  simp [hi]

/-- A value of the field's range comes back as it was put in (R37). -/
theorem extract_insertField {f : Field} {v : Int} (w : Word) (hs : f.shapeOk = true) (hl : f.least ≤ v)
    (hg : v ≤ f.greatest) : extract f (insertField f v w) = v := by
  obtain ⟨hw, -, hfit⟩ := shapeOk_iff.mp hs
  cases h : f.signed with
  | false => rw [extract_unsigned _ h, Field.bits_insertField v w hfit, toNat_ofInt_of_range h hl hg]
  | true => rw [extract_signed _ h, Field.bits_insertField v w hfit, toInt_ofInt_of_range hw h hl hg]

/-- The lowest bits of a value's two's complement do not depend on the width it is written in. -/
theorem setWidth_ofInt {m n : Nat} (v : Int) (h : n ≤ m) : (BitVec.ofInt m v).setWidth n = BitVec.ofInt n v := by
  have hdvd : ((2 ^ n : Nat) : Int) ∣ (2 ^ m : Nat) := Int.natCast_dvd_natCast.mpr (Nat.pow_dvd_pow 2 h)
  have hnonneg : 0 ≤ v % (2 ^ m : Nat) := Int.emod_nonneg v (by positivity)
  apply BitVec.eq_of_toNat_eq
  calc ((BitVec.ofInt m v).setWidth n).toNat
      = (v % (2 ^ m : Nat)).toNat % 2 ^ n := by rw [BitVec.toNat_setWidth, BitVec.toNat_ofInt]
    _ = (v % (2 ^ m : Nat) % (2 ^ n : Nat)).toNat := by rw [Int.toNat_emod hnonneg (by positivity), Int.toNat_natCast]
    _ = (v % (2 ^ n : Nat)).toNat := by rw [Int.emod_emod_of_dvd v hdvd]
    _ = (BitVec.ofInt n v).toNat := (BitVec.toNat_ofInt v).symm

/-- A field takes the lowest bits of the value's 16-bit two's complement. -/
theorem getLsbD_ofInt_width {f : Field} (v : Int) {i : Nat} (hs : f.width + f.offset ≤ 16) (hi : i < f.width) :
    (BitVec.ofInt f.width v).getLsbD i = (BitVec.ofInt 16 v).getLsbD i := by
  rw [← setWidth_ofInt v (show f.width ≤ 16 by omega), BitVec.getLsbD_setWidth]
  simp [hi]

end Sys2Proof.Machine
end

