-- ==== Sys2Proof/Proofs/FieldRule.lean ====
section
/-! SUPPORT. A field rule on a word (R38, R39): the violation and the correction of each kind, what the rule step does
on a violation, and the counts; from these the two statements about fields and rules. -/

namespace Sys2Proof.Machine

/-! ## Violations and corrections by kind -/

section
variable {r : Rule} {mem : Option Word} {muted : Bool} {w : Word} {lo hi lock : Int} {step : Nat}

theorem violated_range (h : r.kind = .range lo hi) :
    r.violated mem muted w = true ↔ extract r.field w < lo ∨ hi < extract r.field w := by
  simp [Rule.violated, h]

theorem violated_step (h : r.kind = .step lo hi step) :
    r.violated mem muted w = true ↔
      extract r.field w < lo ∨ hi < extract r.field w ∨ ¬ (step : Int) ∣ extract r.field w - lo := by
  simp [Rule.violated, h, or_assoc]

theorem violated_frozen {m : Word} (h : r.kind = .frozen) :
    r.violated (some m) muted w = true ↔ extract r.field w ≠ extract r.field m := by
  simp [Rule.violated, h]

theorem violated_muteLock (h : r.kind = .muteLock lock) :
    r.violated mem muted w = true ↔ muted = true ∧ extract r.field w ≠ lock := by
  simp [Rule.violated, h]

theorem correction_range (h : r.kind = .range lo hi) :
    r.correction mem w = if extract r.field w < lo then lo else hi := by
  simp [Rule.correction, h]

theorem correction_step (h : r.kind = .step lo hi step) :
    r.correction mem w =
      if extract r.field w < lo then lo else lo + (min (extract r.field w) hi - lo) / step * step := by
  simp [Rule.correction, h]

theorem correction_frozen {m : Word} (h : r.kind = .frozen) : r.correction (some m) w = extract r.field m := by
  simp [Rule.correction, h]

theorem correction_muteLock (h : r.kind = .muteLock lock) : r.correction mem w = lock := by
  simp [Rule.correction, h]

/-! ## The bounds of a loaded rule (R42) -/

theorem boundsOk_range (h : r.kind = .range lo hi) (hb : r.boundsOk = true) :
    r.field.least ≤ lo ∧ lo ≤ hi ∧ hi ≤ r.field.greatest := by
  simp only [Rule.boundsOk, h, Field.holds, withinInt, Bool.and_eq_true, decide_eq_true_eq] at hb
  omega

theorem boundsOk_step (h : r.kind = .step lo hi step) (hb : r.boundsOk = true) :
    (r.field.least ≤ lo ∧ lo ≤ hi ∧ hi ≤ r.field.greatest) ∧ 1 ≤ step := by
  simp only [Rule.boundsOk, h, Field.holds, withinInt, within, Bool.and_eq_true, decide_eq_true_eq] at hb
  omega

theorem boundsOk_muteLock (h : r.kind = .muteLock lock) (hb : r.boundsOk = true) :
    r.field.least ≤ lock ∧ lock ≤ r.field.greatest := by
  simp only [Rule.boundsOk, h, Field.holds, withinInt, Bool.and_eq_true, decide_eq_true_eq] at hb
  omega

end

/-! ## The correction of STEP -/

/-- The greatest value of the lattice `lo + k * step` that is not above `top` (R39). -/
theorem lattice_floor {lo top step : Int} (hstep : 0 < step) (h : lo ≤ top) :
    let c := lo + (top - lo) / step * step
    lo ≤ c ∧ c ≤ top ∧ step ∣ c - lo ∧ ∀ u, u ≤ top → step ∣ u - lo → u ≤ c := by
  have hfloor : (top - lo) / step * step ≤ top - lo := Int.ediv_mul_le _ hstep.ne'
  have hnonneg : 0 ≤ (top - lo) / step * step :=
    mul_nonneg (Int.ediv_nonneg (by omega) hstep.le) hstep.le
  refine ⟨by omega, by omega, by simp, ?_⟩
  rintro u hu ⟨k, hk⟩
  have hkq : k ≤ (top - lo) / step := Int.le_ediv_of_mul_le hstep (by rw [mul_comm]; omega)
  have hmul : k * step ≤ (top - lo) / step * step := mul_le_mul_of_nonneg_right hkq hstep.le
  rw [mul_comm] at hk
  omega

/-- The STEP correction of a value not below lo is the largest allowed value not above it. -/
theorem correction_step_greatest {r : Rule} {mem : Option Word} {w : Word} {lo hi : Int} {step : Nat}
    (h : r.kind = .step lo hi step) (hle : lo ≤ hi) (hstep : 1 ≤ step) (hv : lo ≤ extract r.field w) :
    let v := extract r.field w
    let c := r.correction mem w
    c = lo + (min v hi - lo) / step * step ∧ lo ≤ c ∧ c ≤ hi ∧ c ≤ v ∧ (step : Int) ∣ c - lo ∧
      ∀ u, lo ≤ u → u ≤ hi → u ≤ v → (step : Int) ∣ u - lo → u ≤ c := by
  have heq : r.correction mem w = lo + (min (extract r.field w) hi - lo) / step * step := by
    rw [correction_step h, if_neg (not_lt.mpr hv)]
  obtain ⟨hlo, htop, hdvd, hgreatest⟩ :=
    lattice_floor (step := (step : Int)) (by exact_mod_cast hstep) (le_min hv hle)
  intro v c
  simp only [v, c, heq]
  obtain ⟨hcv, hchi⟩ := le_min_iff.mp htop
  exact ⟨trivial, hlo, hchi, hcv, hdvd, fun u _ huhi huv => hgreatest u (le_min huv huhi)⟩

/-! ## Every correction lies in the range of its field -/

/-- The correction of a loaded rule lies in its field's range, by kind (R37, R39). -/
theorem correction_mem_range {r : Rule} (m w : Word) (hb : r.boundsOk = true) :
    r.field.least ≤ r.correction (some m) w ∧ r.correction (some m) w ≤ r.field.greatest := by
  cases hk : r.kind with
  | range lo hi =>
    obtain ⟨hlo, hle, hhi⟩ := boundsOk_range hk hb
    rw [correction_range hk]
    split <;> omega
  | step lo hi step =>
    obtain ⟨⟨hlo, hle, hhi⟩, hstep⟩ := boundsOk_step hk hb
    by_cases hv : extract r.field w < lo
    · rw [correction_step hk, if_pos hv]
      omega
    · obtain ⟨-, hclo, hchi, -⟩ := correction_step_greatest (mem := some m) hk hle hstep (not_lt.mp hv)
      exact ⟨hlo.trans hclo, hchi.trans hhi⟩
  | frozen =>
    rw [correction_frozen hk]
    exact extract_mem_range r.field m
  | muteLock lock =>
    rw [correction_muteLock hk]
    exact boundsOk_muteLock hk hb

/-! ## The rule step on a violation (R39, R48) -/

section
variable {r : FixedRule} {rs : List FixedRule} {mem : Option Word} {muted : Bool} {w : Word}

theorem counted_live (h : r.live = true) : r.counted = [r.index] := by simp [FixedRule.counted, h]

/-- NOTE counts and goes on with the working value as it is. -/
theorem applyRules_note (hv : r.rule.violated mem muted w = true) (ha : r.rule.action = .note) :
    applyRules mem muted (r :: rs) w =
      { applyRules mem muted rs w with hits := r.counted ++ (applyRules mem muted rs w).hits } := by
  simp [applyRules, hv, ha]

/-- REFUSE counts, ends and refuses. -/
theorem applyRules_refuse (hv : r.rule.violated mem muted w = true) (ha : r.rule.action = .refuse) :
    applyRules mem muted (r :: rs) w = ⟨w, r.counted, true⟩ := by
  simp [applyRules, hv, ha]

/-- CLAMP counts and goes on with the correction inserted. -/
theorem applyRules_clamp (hv : r.rule.violated mem muted w = true) (ha : r.rule.action = .clamp) :
    let corrected := insertField r.rule.field (r.rule.correction mem w) w
    applyRules mem muted (r :: rs) w =
      { applyRules mem muted rs corrected with hits := r.counted ++ (applyRules mem muted rs corrected).hits } := by
  simp [applyRules, hv, ha]

end

/-! ## The counts (R40) -/

/-- An index hit once has its count raised by one up to 255, and an index not hit keeps its count. -/
theorem getElem_raiseCounts (hits : List (Fin 64)) (counts : Vector Nat 64) (i : Fin 64) (hn : hits.Nodup) :
    (raiseCounts hits counts)[i] = if i ∈ hits then min 255 (counts[i] + 1) else counts[i] := by
  induction hits generalizing counts with
  | nil => rfl
  | cons j js ih =>
    obtain ⟨hj, hjs⟩ := List.nodup_cons.mp hn
    rw [raiseCounts, ih _ hjs]
    by_cases hij : i = j
    · subst hij
      simp [hj, satInc, satAdd, Config.max8]
    · have hset : (counts.set j (satInc Config.max8 counts[j]))[i] = counts[i] := by
        simp [Fin.val_inj, Ne.symm hij]
      simp only [hset, List.mem_cons, hij, false_or]

/-! ## The statements -/

/-- Settles O15: extraction reads the field's bits as a bit vector of its width, insertion writes the value's lowest
bits there, and the corrections of a loaded rule lie in the field's range by `correction_mem_range`. -/
theorem fieldsAreExtractedAndInserted : Obligations.FieldsAreExtractedAndInserted := by
  intro f w hs
  obtain ⟨hw, -, hfit⟩ := shapeOk_iff.mp hs
  obtain ⟨hleast, hgreatest⟩ := extract_mem_range f w
  refine ⟨?unsigned, ?positive, ?negative, hleast, hgreatest, Field.range_unsigned, Field.range_signed, ?rules,
    fun v => ⟨extract_insertField w hs, ?outside, ?inside⟩⟩
  case unsigned =>
    intro h
    rw [extract_unsigned w h, Field.bits_toNat]
  case positive =>
    intro h hbit
    rw [extract_signed_eq w h hw, hbit, if_neg Bool.false_ne_true]
  case negative =>
    intro h hbit
    rw [extract_signed_eq w h hw, if_pos hbit]
  case rules =>
    rintro r m muted rfl hb
    refine ⟨fun lo hi hk => ?_, fun lo hi step hk => (boundsOk_step hk hb).1, violated_frozen,
      fun _ => correction_mem_range m w hb⟩
    obtain ⟨hlo, hle, hhi⟩ := boundsOk_range hk hb
    exact ⟨hlo, hle, hhi, violated_range hk⟩
  case outside => exact fun i h => getLsbD_insertField_outside v w i.isLt h
  case inside =>
    intro i hi
    rw [getLsbD_insertField_inside v w hfit hi, getLsbD_ofInt_width v hfit hi]

/-- Settles O16: the violation and the correction of each kind, the three actions and the counts are the lemmas above;
that the STEP correction is the largest allowed value is `correction_step_greatest`. -/
theorem rulesFindAndCorrectViolations : Obligations.RulesFindAndCorrectViolations := by
  refine ⟨fun r mem muted w => ⟨fun lo hi => violated_range, fun lo hi step => violated_step, ?frozen,
      fun lock => violated_muteLock, ?unmuted⟩, ?actions, getElem_raiseCounts, fun r mem w => ⟨?range, ?step, ?memory,
      fun lock => correction_muteLock⟩⟩
  case frozen =>
    rintro m hk rfl
    exact violated_frozen hk
  case unmuted =>
    rintro lock hk rfl
    simp [Rule.violated, hk]
  case actions =>
    intro r rs mem muted w hlive hv
    have hcounted := counted_live hlive
    refine ⟨fun ha => ?_, fun ha => ?_, fun ha => ?_⟩
    · rw [applyRules_note hv ha, hcounted, List.singleton_append]
    · rw [applyRules_refuse hv ha, hcounted]
    · rw [applyRules_clamp hv ha, hcounted, List.singleton_append]
  case range =>
    intro lo hi hk hle
    rw [correction_range hk]
    exact ⟨fun hv => if_pos hv, fun hv => if_neg (by omega)⟩
  case step =>
    intro lo hi step hk hle hstep
    exact ⟨fun hv => by rw [correction_step hk, if_pos hv], correction_step_greatest hk hle hstep⟩
  case memory =>
    rintro m hk rfl
    exact correction_frozen hk

end Sys2Proof.Machine
end

