-- ==== Sys2Proof/Proofs/OverlayDiscard.lean ====
section
/-! SUPPORT. OVERLAY-DISCARD (R92): the phases and operations in which the filter refuses it, its answer by selector,
and what clearing maps leaves unchanged (R89); from these the statement about the request. -/

namespace Sys2Proof.Machine

/-! ## Set counts and cleared maps -/

/-- A number in two bytes, most significant first (R204). -/
theorem b2_eq (n : Nat) : b2 n = [BitVec.ofNat 8 (n / 256), BitVec.ofNat 8 n] := by
  simp [b2, bytesBE]

/-- An answer given after maps were cleared is the maps cleared after the answer. -/
theorem answer_clearMaps_takeInHand (r : Req) (body : List Byte) (status : Status) (data : List Byte)
    (cleared : MapId → Bool) (d : Lc44) :
    answer status data (clearMaps cleared (d.takeInHand r body)) = clearMaps cleared (d.reply r body status data) :=
  answer_taken r body status data d _ rfl

/-- Clearing maps touches the maps themselves and the void mark of the cycle in progress, and nothing else. -/
theorem clearMaps_eq {cleared : MapId → Bool} {void : ICycle → ICycle} (h : ∀ c, c.voided cleared = void c)
    (d : Lc44) :
    clearMaps cleared d =
      { d with
        ovu :=
          { d.ovu with
            map0 := if cleared .map0 then [] else d.ovu.map0
            map1 := if cleared .map1 then [] else d.ovu.map1 }
        iport := { d.iport with cycle := d.iport.cycle.map void } } := by
  rw [← funext h]
  rfl

/-! ## The request -/

/-- OVERLAY-DISCARD taken and passing the checks is its owner's effect. -/
theorem exec_overlayDiscard_takes {s : State} {body : List Byte} (h : s.takes .overlayDiscard body = true) :
    exec (.overlayDiscard body) s =
      .next ⟨ownOverlayDiscard body (s.part.takeInHand .overlayDiscard body), s.pending⟩ := by
  rw [exec_overlayDiscard, State.effect_running _ (State.takes_iff.mp h).1, request_takes _ h]

/-- OVERLAY-DISCARD refused by the filter is answered with the filter's status and no data. -/
theorem exec_overlayDiscard_refused {s : State} {body : List Byte} {status : Status} (hrun : s.running = true)
    (hdeaf : s.part.deaf = false) (hfree : s.part.sli.inHand = none)
    (hf : requestFilter s.part.phc.phase s.part.phc.phop .overlayDiscard = some status) :
    exec (.overlayDiscard body) s = .next ⟨s.part.reply .overlayDiscard body status [], s.pending⟩ := by
  rw [exec_overlayDiscard, State.effect_running _ hrun, request_refused hdeaf hfree hf]
  rfl

section
variable {body : List Byte} {d : Lc44}

/-- Selector 0 clears map 0 and answers its set count. -/
theorem ownOverlayDiscard_map0 (h : byteAt body 0 = 0) :
    ownOverlayDiscard body (d.takeInHand .overlayDiscard body) =
      clearMaps (fun m => decide (m = .map0)) (d.reply .overlayDiscard body .ok (b2 d.ovu.map0.length)) := by
  rw [← answer_clearMaps_takeInHand]
  simp only [ownOverlayDiscard, h]
  rfl

/-- Selector 1 clears map 1 and answers its set count. -/
theorem ownOverlayDiscard_map1 (h : byteAt body 0 = 1) :
    ownOverlayDiscard body (d.takeInHand .overlayDiscard body) =
      clearMaps (fun m => decide (m = .map1)) (d.reply .overlayDiscard body .ok (b2 d.ovu.map1.length)) := by
  rw [← answer_clearMaps_takeInHand]
  simp only [ownOverlayDiscard, h]
  rfl

/-- Selector 2 clears both maps and answers both set counts. -/
theorem ownOverlayDiscard_both (h : byteAt body 0 = 2) :
    ownOverlayDiscard body (d.takeInHand .overlayDiscard body) =
      clearMaps (fun _ => true)
        (d.reply .overlayDiscard body .ok (b2 d.ovu.map0.length ++ b2 d.ovu.map1.length)) := by
  rw [← answer_clearMaps_takeInHand]
  simp only [ownOverlayDiscard, h]
  rfl

/-- A selector above 2 is answered BADARG. -/
theorem ownOverlayDiscard_badArg (h : 2 < byteAt body 0) :
    ownOverlayDiscard body (d.takeInHand .overlayDiscard body) = d.reply .overlayDiscard body .badArg [] := by
  rw [← answer_takeInHand]
  unfold ownOverlayDiscard
  split
  case h_1 h0 => omega
  case h_2 h1 => omega
  case h_3 h2 => omega
  case h_4 => rfl

end

/-! ## The statement -/

/-- Settles O29: the filter's refusals by its table, then the owner's answer by selector. What is left is that the
void mark of R89 is the one the statement writes out for each map, which the stage, the direction and the treatment of
the cycle in progress decide. -/
theorem overlayDiscardClearsTheNamedMaps : Obligations.OverlayDiscardClearsTheNamedMaps := by
  refine ⟨rfl, rfl, rfl, fun _ => rfl, fun _ _ => rfl,
    fun s body hrun hdeaf hfree status hf => exec_overlayDiscard_refused hrun hdeaf hfree hf, ?taken⟩
  case taken =>
    intro s body htakes n0 n1 count cleared
    have hcleared (named : MapId → Bool) (data : List Byte) :
        clearMaps named (s.part.reply .overlayDiscard body .ok data) = cleared (named .map0) (named .map1) data := by
      refine clearMaps_eq (fun ⟨⟨_, _, op⟩, ⟨treatment, _, _⟩, stage⟩ => ?_) _
      cases stage with
      | redirected void =>
        cases op with
        | read => rfl
        | write w =>
          cases treatment with
          | redirect m base => cases m <;> rfl
          | _ => rfl
      | _ => rfl
    rw [exec_overlayDiscard_takes htakes]
    refine ⟨fun h => ?_, fun h => ?_, fun h => ?_, fun h => ?_⟩
    · rw [ownOverlayDiscard_map0 h, b2_eq, hcleared]
      rfl
    · rw [ownOverlayDiscard_map1 h, b2_eq, hcleared]
      rfl
    · rw [ownOverlayDiscard_both h, b2_eq, b2_eq, hcleared]
    · rw [ownOverlayDiscard_badArg h]

end Sys2Proof.Machine
end

