-- ==== Sys2Proof/Proofs/MuteRelease.lean ====
section
/-! SUPPORT. MUTE-RELEASE (R128): its answer by mute state, the refusal that carries the mute state, and what a MAST
asserted event (R125) leaves of the service line and the phase, so that a release taken after it still reaches TMU; from
these the statement about the request and its race with an assertion. -/

namespace Sys2Proof.Machine

/-! ## The request, by mute state -/

section
variable {s : State} {body : List Byte}

/-- While the line is deaf a MUTE-RELEASE is not received. -/
theorem exec_muteRelease_deaf (hrun : s.running = true) (hdeaf : s.part.deaf = true) :
    exec (.muteRelease body) s = .next s := by
  rw [exec_muteRelease, State.effect_running _ hrun, request_deaf hdeaf]

/-- MUTE-RELEASE refused by the filter carries the mute state beside the filter's status (R192). -/
theorem exec_muteRelease_refused {status : Status} (hrun : s.running = true) (hdeaf : s.part.deaf = false)
    (hfree : s.part.sli.inHand = none)
    (hf : requestFilter s.part.phc.phase s.part.phc.phop .muteRelease = some status) :
    exec (.muteRelease body) s =
      .next ⟨s.part.reply .muteRelease body status (bytesBE 1 s.part.tmu.mute.code), s.pending⟩ := by
  rw [exec_muteRelease, State.effect_running _ hrun, request_refused hdeaf hfree hf]
  rfl

/-- MUTE-RELEASE taken and passing the checks is its owner's effect. -/
theorem exec_muteRelease_takes (h : s.takes .muteRelease body = true) :
    exec (.muteRelease body) s =
      .next ⟨ownMuteRelease body (s.part.takeInHand .muteRelease body), s.pending⟩ := by
  rw [exec_muteRelease, State.effect_running _ (State.takes_iff.mp h).1, request_takes _ h]

/-- In HOLDOFF a release makes the state CLEAR, cancels the timer, and is answered OK. -/
theorem exec_muteRelease_holdoff (h : s.takes .muteRelease body = true) (hm : s.part.tmu.mute = .holdoff) :
    exec (.muteRelease body) s =
      .next
        ⟨{ s.part.reply .muteRelease body .ok [0] with
            tmu := { s.part.tmu with mute := .clear, holdoff := none } },
          s.pending⟩ := by
  have hm' : (s.part.takeInHand .muteRelease body).tmu.mute = .holdoff := hm
  rw [exec_muteRelease_takes h, ownMuteRelease, hm']
  dsimp only
  rw [answer_taken .muteRelease body _ _ s.part _ rfl]
  rfl

/-- In MUTED a release is answered BADSTATE and changes nothing else. -/
theorem exec_muteRelease_muted (h : s.takes .muteRelease body = true) (hm : s.part.tmu.mute = .muted) :
    exec (.muteRelease body) s = .next ⟨s.part.reply .muteRelease body .badState [1], s.pending⟩ := by
  have hm' : (s.part.takeInHand .muteRelease body).tmu.mute = .muted := hm
  rw [exec_muteRelease_takes h, ownMuteRelease, hm', ← answer_takeInHand]
  rfl

/-- In CLEAR a release is answered OK and changes nothing else. -/
theorem exec_muteRelease_clear (h : s.takes .muteRelease body = true) (hm : s.part.tmu.mute = .clear) :
    exec (.muteRelease body) s = .next ⟨s.part.reply .muteRelease body .ok [0], s.pending⟩ := by
  have hm' : (s.part.takeInHand .muteRelease body).tmu.mute = .clear := hm
  rw [exec_muteRelease_takes h, ownMuteRelease, hm', ← answer_takeInHand]
  rfl

end

/-- Running, TXMUTE is released in CLEAR (R124). -/
theorem txmute_released {s : State} (hrun : s.running = true) (hm : s.part.tmu.mute = .clear) :
    s.part.txmute = false := by
  have hreset : s.part.resetAsserted = false := by simpa [State.running] using hrun
  simp [Lc44.txmute, hreset, hm]

/-! ## A MAST asserted event -/

/-- An asserted event ends in MUTED from every mute state (R125). -/
@[simp] theorem mute_mastAsserted (d : Lc44) : (mastAsserted d).tmu.mute = .muted := by
  unfold mastAsserted
  dsimp only
  split <;> rfl

/-- With the raw level ASSERTED, accepting it is the MAST asserted event (R123). -/
theorem acceptLevel_asserted {d : Lc44} (h : d.tmu.mastRaw = true) :
    acceptLevel d = mastAsserted (d.onTmu fun t => { t with mastAccepted := t.mastRaw, debounce := none }) :=
  if_pos h

/-- The debounce timer's expiry with the raw level ASSERTED ends in MUTED, and touches TMU and the raised events
alone. -/
theorem exec_debounceTimerExpiry_asserted {s : State} (hrun : s.running = true) (hdue : s.part.tmu.debounce = some 0)
    (hraw : s.part.tmu.mastRaw = true) :
    ∃ e, exec .debounceTimerExpiry s = .next ⟨e, s.pending⟩ ∧ e.tmu.mute = .muted ∧
      s.part.keepsOutside [.tmu, .raised] e := by
  refine ⟨acceptLevel s.part, ?_, ?_, ?_⟩
  · rw [exec_debounceTimerExpiry, State.effect_running _ hrun, if_pos ((timerDue_iff _).mpr hdue)]
  · rw [acceptLevel_asserted hraw, mute_mastAsserted]
  · rw [acceptLevel_asserted hraw]
    exact keeps_trans (keeps_onTmu _ _) (keeps_mastAsserted _)

/-- Whether a request is taken depends on RESET, PHC and SLI alone: a change of TMU and the raised events leaves it. -/
theorem State.takes_of_keepsOutside {r : Req} {body : List Byte} {s : State} {e : Lc44}
    (hk : s.part.keepsOutside [.tmu, .raised] e) (h : s.takes r body = true) :
    State.takes r body ⟨e, s.pending⟩ = true := by
  obtain ⟨hreset, -, hblock⟩ := hk
  have hphc : e.phc = s.part.phc := hblock .phc (by decide)
  have hsli : e.sli = s.part.sli := hblock .sli (by decide)
  simpa only [State.takes, State.running, Lc44.deaf, hreset, hphc, hsli] using h

/-! ## The statement -/

/-- Settles O39: the filter by its table, then the answer by mute state. In the race an assertion after the release
finds CLEAR and ends in MUTED; an assertion before it leaves the service line and the phase, so that the release is
taken and finds MUTED. -/
theorem muteReleaseEndsAHoldOff : Obligations.MuteReleaseEndsAHoldOff := by
  refine ⟨fun phase => by cases phase <;> rfl, fun _ => rfl, fun _ _ => rfl, ?starting, ?busy, ?taken⟩
  case starting =>
    intro s body hrun hstart
    exact exec_muteRelease_deaf hrun (by simp [Lc44.deaf, hstart])
  case busy =>
    intro s body hrun hdeaf hfree hphop
    have hf : requestFilter s.part.phc.phase s.part.phc.phop .muteRelease = some .busy := by
      cases hp : s.part.phc.phop with
      | saving => rfl
      | handingOver step => rfl
      | _ => simp [hp, Phop.isHandingOver] at hphop
    rw [exec_muteRelease_refused hrun hdeaf hfree hf]
    cases s.part.tmu.mute <;> rfl
  case taken =>
    intro s body htakes
    obtain ⟨hrun, -⟩ := State.takes_iff.mp htakes
    refine ⟨?heldOff, exec_muteRelease_muted htakes, exec_muteRelease_clear htakes⟩
    case heldOff =>
      intro hm d
      refine ⟨exec_muteRelease_holdoff htakes hm, ?txmute, fun hdue hraw => ⟨?releaseFirst, ?assertFirst⟩⟩
      case txmute => exact txmute_released (s := ⟨d, s.pending⟩) hrun rfl
      case releaseFirst =>
        obtain ⟨e, hexec, hmuted, -⟩ := exec_debounceTimerExpiry_asserted (s := ⟨d, s.pending⟩) hrun hdue hraw
        exact ⟨e, hexec, hmuted⟩
      case assertFirst =>
        obtain ⟨e, hexec, hmuted, hkeeps⟩ := exec_debounceTimerExpiry_asserted hrun hdue hraw
        exact ⟨e, hexec, hmuted, exec_muteRelease_muted (State.takes_of_keepsOutside hkeeps htakes) hmuted⟩

end Sys2Proof.Machine
end

