-- ==== Sys2Proof/Proofs/Framing.lean ====
section
/-! SUPPORT. A frame and its receiver (R186, R187): the sum of a frame's bytes, what the receiver does with the byte of
each frame state, and that it completes the frame that the LC44 builds from a body of at most 64 bytes. -/

namespace Sys2Proof.Machine

/-! ## Sums -/

@[simp] theorem byteSum_nil : byteSum [] = 0 := rfl
@[simp] theorem byteSum_cons (b : Byte) (l : List Byte) : byteSum (b :: l) = b + byteSum l := rfl

/-- The sum of two lists of bytes, one after the other. -/
@[simp] theorem byteSum_append (l m : List Byte) : byteSum (l ++ m) = byteSum l + byteSum m := by
  induction l with
  | nil => simp
  | cons b l ih => rw [List.cons_append, byteSum_cons, byteSum_cons, ih, add_assoc]

/-- From its length on, a frame is the bytes its checksum covers and the checksum. -/
theorem frame_tail (code : Byte) (body : List Byte) :
    (frame code body).tail =
      BitVec.ofNat 8 (body.length + 1) :: code :: body ++
        [-byteSum (BitVec.ofNat 8 (body.length + 1) :: code :: body)] := rfl

/-- The checksum cancels the bytes it covers (R186). -/
theorem byteSum_frame_tail (code : Byte) (body : List Byte) : byteSum (frame code body).tail = 0 := by
  rw [frame_tail, byteSum_append, byteSum_cons _ [], byteSum_nil, add_zero, add_neg_cancel]

/-- The receiver's check, written as the sum of R186. -/
theorem sumsToZero_iff {len : Nat} {code check : Byte} {body : List Byte} :
    sumsToZero len code body check = true ↔ BitVec.ofNat 8 len + code + byteSum body + check = 0 := by
  simp [sumsToZero, add_assoc]

/-- A length byte stands for the length of its frame. -/
theorem toNat_lengthByte {n : Nat} (h : n ≤ 64) : (BitVec.ofNat 8 (n + 1)).toNat = n + 1 := by
  rw [BitVec.toNat_ofNat, Nat.mod_eq_of_lt (by omega)]

/-! ## The receiver, by frame state -/

/-- The frame state with `held` received of the body: the body goes on, or the checksum is awaited (R187). -/
def RxState.gathering (len : Nat) (code : Byte) (held : List Byte) : RxState :=
  if held.length + 1 < len then .body len code held else .check len code held

section
variable {s : Sli}

@[simp] theorem gather_rx (r : RxState) : (s.gather r).rx = r := rfl
@[simp] theorem gather_gather (r q : RxState) : (s.gather r).gather q = s.gather q := rfl
@[simp] theorem complete_gather (f : RxFrame) (r : RxState) : (s.gather r).complete f = s.complete f := rfl
@[simp] theorem complete_completed (f : RxFrame) : (s.complete f).completed = s.completed ++ [f] := rfl

theorem receive_hunt (h : s.rx = .hunt) : s.receive startByte = s.gather .length := by
  simp [Sli.receive, h]

theorem receive_length {b : Byte} (h : s.rx = .length) :
    s.receive b = s.gather (if 1 ≤ b.toNat ∧ b.toNat ≤ 65 then .code b.toNat else .badLength) := by
  unfold Sli.receive
  rw [h]
  dsimp only
  split <;> rfl

theorem receive_code {b : Byte} {len : Nat} (h : s.rx = .code len) :
    s.receive b = s.gather (.gathering len b []) := by
  simp [Sli.receive, h, RxState.gathering]

theorem receive_body {b code : Byte} {len : Nat} {held : List Byte} (h : s.rx = .body len code held) :
    s.receive b = s.gather (.gathering len code (held ++ [b])) := by
  simp [Sli.receive, h, RxState.gathering]

theorem receive_check {b code : Byte} {len : Nat} {body : List Byte} (h : s.rx = .check len code body) :
    s.receive b = s.complete (completedFrame len code body b) := by
  simp [Sli.receive, h]

end

/-- A frame that completes is good exactly when its bytes from the length on sum to 0 (R186). -/
theorem completedFrame_eq_good_iff {len : Nat} {code b : Byte} {body : List Byte} :
    completedFrame len code body b = .good code body ↔ BitVec.ofNat 8 len + code + byteSum body + b = 0 := by
  rw [← sumsToZero_iff]
  unfold completedFrame
  split <;> simp_all

/-- A frame whose bytes do not sum to 0 completes bad, with its code (R188). -/
theorem completedFrame_bad {len : Nat} {code b : Byte} {body : List Byte}
    (h : BitVec.ofNat 8 len + code + byteSum body + b ≠ 0) :
    completedFrame len code body b = .bad (some code) :=
  if_neg fun hz => h (sumsToZero_iff.mp hz)

/-- In LENGTH the receiver goes on to the code exactly for a length in 1 to 65. -/
theorem receive_length_rx_iff {s : Sli} {b : Byte} (h : s.rx = .length) :
    (s.receive b).rx = .code b.toNat ↔ 1 ≤ b.toNat ∧ b.toNat ≤ 65 := by
  rw [receive_length h, gather_rx]
  split <;> simp_all

/-! ## The receiver on a frame -/

/-- The rest of a body, byte by byte, brings the receiver to CHECK with the whole body. -/
theorem foldl_receive_gathering (s : Sli) {len : Nat} (code : Byte) (held rest : List Byte)
    (h : held.length + rest.length + 1 = len) :
    rest.foldl (fun s b => s.receive b) (s.gather (.gathering len code held)) =
      s.gather (.check len code (held ++ rest)) := by
  induction rest generalizing held with
  | nil =>
    have hdone : ¬ held.length + 1 < len := by simp only [List.length_nil] at h; omega
    simp [RxState.gathering, hdone]
  | cons b rest ih =>
    rw [List.length_cons] at h
    have hmore : held.length + 1 < len := by omega
    have hbody : RxState.gathering len code held = .body len code held := if_pos hmore
    rw [List.foldl_cons, receive_body (by rw [gather_rx, hbody]), gather_gather,
      ih (held ++ [b]) (by rw [List.length_append, List.length_singleton]; omega), List.append_assoc,
      List.singleton_append]

/-- A receiver in HUNT completes a frame of at most 64 body bytes as a good frame with its code and body. -/
theorem foldl_receive_frame {s : Sli} {code : Byte} {body : List Byte} (hbody : body.length ≤ 64)
    (hs : s.rx = .hunt) :
    (frame code body).foldl (fun s b => s.receive b) s = s.complete (.good code body) := by
  have hlen : (BitVec.ofNat 8 (body.length + 1)).toNat = body.length + 1 := toNat_lengthByte hbody
  have hsum : completedFrame (body.length + 1) code body
      (-byteSum (BitVec.ofNat 8 (body.length + 1) :: code :: body)) = .good code body := by
    rw [completedFrame_eq_good_iff, byteSum_cons, byteSum_cons, ← add_assoc, add_neg_cancel]
  have hstart : s.receive 0xC3 = s.gather .length := receive_hunt hs
  have hlength : (s.gather .length).receive (BitVec.ofNat 8 (body.length + 1)) =
      s.gather (.code (body.length + 1)) := by
    rw [receive_length (gather_rx _), hlen, if_pos (by omega), gather_gather]
  have hcode : (s.gather (.code (body.length + 1))).receive code = s.gather (.gathering (body.length + 1) code []) := by
    rw [receive_code (gather_rx _), gather_gather]
  calc (frame code body).foldl (fun s b => s.receive b) s
      = (body ++ [-byteSum (BitVec.ofNat 8 (body.length + 1) :: code :: body)]).foldl (fun s b => s.receive b)
          (((s.receive 0xC3).receive (BitVec.ofNat 8 (body.length + 1))).receive code) := rfl
    _ = (s.gather (.check (body.length + 1) code body)).receive
          (-byteSum (BitVec.ofNat 8 (body.length + 1) :: code :: body)) := by
        rw [hstart, hlength, hcode, List.foldl_append,
          foldl_receive_gathering s code [] body (by rw [List.length_nil]; omega), List.nil_append]
        rfl
    _ = s.complete (.good code body) := by rw [receive_check (gather_rx _), complete_gather, hsum]

end Sys2Proof.Machine
end

