-- ==== Sys2Proof/Proofs/ResponseLengths.lean ====
section
/-! SUPPORT. The data of a response in one frame (R190, R204): how many bytes each field and each report has, so that
with the status none is longer than a frame's body. -/

namespace Sys2Proof.Machine

/-! ## Fields -/

@[simp] theorem length_bytesBE (n v : Nat) : (bytesBE n v).length = n := by
  induction n with
  | zero => rfl
  | succ k ih => rw [bytesBE, List.length_cons, ih]

@[simp] theorem length_b1 (n : Nat) : (b1 n).length = 1 := length_bytesBE 1 n
@[simp] theorem length_b2 (n : Nat) : (b2 n).length = 2 := length_bytesBE 2 n
@[simp] theorem length_b4 (n : Nat) : (b4 n).length = 4 := length_bytesBE 4 n
@[simp] theorem length_addrBytes (a : Addr) : (addrBytes a).length = 3 := length_bytesBE 3 _
@[simp] theorem length_wordBytes (w : Word) : (wordBytes w).length = 2 := length_bytesBE 2 _
@[simp] theorem length_signedBytes (v : Int) : (signedBytes v).length = 2 := length_wordBytes _
@[simp] theorem length_flagByte (b : Bool) : (flagByte b).length = 1 := rfl
@[simp] theorem length_setByte (m : CarrierSet) : (setByte m).length = 1 := length_b1 _

/-- An optional value takes its presence byte and its size, absent or not (R204). -/
theorem length_optBytes {α : Type} {n : Nat} {enc : α → List Byte} (h : ∀ a, (enc a).length = n) (v : Option α) :
    (optBytes n enc v).length = n + 1 := by
  cases v with
  | none => simp [optBytes]
  | some a => simp [optBytes, h]

@[simp] theorem length_opt1 (v : Option Nat) : (opt1 v).length = 2 := length_optBytes length_b1 v
@[simp] theorem length_opt2 (v : Option Nat) : (opt2 v).length = 3 := length_optBytes length_b2 v
@[simp] theorem length_opt4 (v : Option Nat) : (opt4 v).length = 5 := length_optBytes length_b4 v
@[simp] theorem length_optSigned (v : Option Int) : (optSigned v).length = 3 := length_optBytes length_signedBytes v

/-! ## Items of the tables -/

@[simp] theorem length_treatmentBytes (t : Treatment) : t.bytes.length = 14 := by
  cases t <;> simp [Treatment.bytes]

@[simp] theorem length_ruleKindBytes (k : RuleKind) : k.bytes.length = 7 := by
  cases k <;> simp [RuleKind.bytes]

@[simp] theorem length_slotBytes (s : Option LayoutSlot) : (slotBytes s).length = 5 := by
  cases s <;> simp [slotBytes]

@[simp] theorem length_planStepBytes (p : PlanStep) : p.bytes.length = 32 := by
  simp [PlanStep.bytes]

/-- At most one group for each carrier (R119). -/
theorem length_groupBytes_le (ga gb gx : Bool) : (groupBytes ga gb gx).length ≤ 4 := by
  have hfour : carriers.length = 4 := rfl
  simpa [groupBytes, List.length_flatMap, hfour] using
    List.length_filter_le (fun c => carriers.all fun b => decide (c ≤ b) || !(group ga gb gx c).get b) carriers

/-! ## Reports in one frame -/

theorem length_identData (d : Lc44) : (identData d).length = 12 := by
  simp [identData, Config.identity]

theorem length_regionData (i : Nat) (r : Option Region) : (regionData i r).length = 24 := by
  cases r <;> simp [regionData]

theorem length_ruleData (i : Nat) (r : Option Rule) (n : Nat) : (ruleData i r n).length = 16 := by
  cases r <;> simp [ruleData]

theorem length_layoutData (l : Option Layout) : (layoutData l).length = 42 := by
  cases l <;> simp [layoutData]

theorem length_stepData (i : Nat) (a : Acu) (p : Option PlanStep) : (stepData i a p).length = 36 := by
  cases p <;> simp [stepData]

theorem length_recordData (r : CaptureRecord) (t : BitVec 32) : (recordData r t).length = 54 := by
  unfold recordData
  simp

theorem length_groupsData_le (ga gb gx : Bool) : (groupsData ga gb gx).length ≤ 7 := by
  simpa [groupsData] using length_groupBytes_le ga gb gx

theorem length_toneData (t : Tmu) : (toneData t).length = 9 := by
  simp [toneData]

theorem length_foldData (f : FoldRecord) : (foldData f).length = 13 := by
  simp [foldData]

theorem length_overlayData (m : MapId) (page : Nat) (d : Lc44) : (overlayData m page d).length = 53 := by
  simp [overlayData, length_foldData, length_optBytes]

end Sys2Proof.Machine
end

