-- ==== Sys2Proof/Proofs/SentFrames.lean ====
section
/-! SUPPORT. Every step keeps the frames being sent good (R186, R190): what each request's owner sends, what each
command does to what is being sent, and from these the statement about frames. -/

namespace Sys2Proof.Machine

section
variable {d : Lc44}

/-! ## Owners -/

/-- An answer in one frame after an operation that leaves the service line alone. -/
theorem sendsGood_answer_after {l : List Block} {e : Lc44} (h : d.keepsOutside l e) (g : d.sendsGood) (s : Status)
    (data : List Byte) (hdata : data.length ≤ 63 := by simp) (hl : Block.sli ∉ l := by decide) :
    (answer s data e).sendsGood :=
  sendsGood_answer s data hdata (sendsGood_of_keeps g h hl)

/-- A refusal by the owner is its status alone. -/
theorem sendsGood_deny (s : Status) (g : d.sendsGood) : (deny s d).sendsGood :=
  sendsGood_answer s [] (Nat.zero_le _) g

theorem sendsGood_ownIdent (b : List Byte) (g : d.sendsGood) : (ownIdent b d).sendsGood :=
  sendsGood_answer _ _ (by rw [length_identData]; decide) g

theorem sendsGood_ownStatus (b : List Byte) (g : d.sendsGood) : (ownStatus b d).sendsGood :=
  sendsGood_answerChain _ _ g

theorem sendsGood_ownBegin (b : List Byte) (g : d.sendsGood) : (ownBegin b d).sendsGood :=
  sendsGood_of_keeps g (keeps_ownBegin b d)

theorem sendsGood_ownWipe (b : List Byte) (g : d.sendsGood) : (ownWipe b d).sendsGood := by
  unfold ownWipe
  split
  · exact sendsGood_answer _ _ (Nat.zero_le _) (sendsGood_wipeEffect g)
  · exact sendsGood_deny _ g

theorem sendsGood_ownSave (b : List Byte) (g : d.sendsGood) : (ownSave b d).sendsGood := by
  unfold ownSave
  split
  · exact sendsGood_answer_after (keeps_beginSave d) g _ _
  · exact sendsGood_deny _ g

theorem sendsGood_ownHandover (b : List Byte) (g : d.sendsGood) : (ownHandover b d).sendsGood := by
  unfold ownHandover
  split
  · exact sendsGood_answer_after (keeps_beginHandover d) g _ _
  · exact sendsGood_answer _ _ (by simp) g

theorem sendsGood_ownLoadRegion (b : List Byte) (g : d.sendsGood) : (ownLoadRegion b d).sendsGood := by
  unfold ownLoadRegion
  split
  · exact sendsGood_deny _ g
  · split
    · split
      · exact sendsGood_deny _ g
      · exact sendsGood_answer_after (keeps_storeRegion _ _ d) g _ _
    · exact sendsGood_deny _ g

theorem sendsGood_ownReadRegion (b : List Byte) (g : d.sendsGood) : (ownReadRegion b d).sendsGood := by
  unfold ownReadRegion
  split
  · exact sendsGood_answer _ _ (by rw [length_regionData]; decide) g
  · exact sendsGood_deny _ g

theorem sendsGood_ownLoadRule (b : List Byte) (g : d.sendsGood) : (ownLoadRule b d).sendsGood := by
  unfold ownLoadRule
  dsimp only
  split
  · exact sendsGood_deny _ g
  · split
    · split
      · exact sendsGood_answer_after (keeps_storeRule _ _ d) g _ _
      · split
        · exact sendsGood_deny _ g
        · split
          · exact sendsGood_answer_after (keeps_storeRule _ _ d) g _ _
          · exact sendsGood_deny _ g
    · exact sendsGood_deny _ g

theorem sendsGood_ownReadRule (b : List Byte) (g : d.sendsGood) : (ownReadRule b d).sendsGood := by
  unfold ownReadRule
  split
  · exact sendsGood_answer _ _ (by rw [length_ruleData]; decide) g
  · exact sendsGood_deny _ g

theorem sendsGood_ownLoadLayout (b : List Byte) (g : d.sendsGood) : (ownLoadLayout b d).sendsGood := by
  unfold ownLoadLayout
  split
  · exact sendsGood_deny _ g
  · split
    · exact sendsGood_deny _ g
    · exact sendsGood_answer_after (keeps_onRcu _ d) g _ _

theorem sendsGood_ownReadLayout (b : List Byte) (g : d.sendsGood) : (ownReadLayout b d).sendsGood :=
  sendsGood_answer _ _ (by rw [length_layoutData]; decide) g

theorem sendsGood_ownSetCarrier (b : List Byte) (g : d.sendsGood) : (ownSetCarrier b d).sendsGood := by
  unfold ownSetCarrier
  split
  · exact sendsGood_deny _ g
  · split
    · exact sendsGood_answer_after (keeps_setRecord _ _ d) g _ _
    · exact sendsGood_deny _ g

theorem sendsGood_ownReadCarrier (b : List Byte) (g : d.sendsGood) : (ownReadCarrier b d).sendsGood := by
  unfold ownReadCarrier
  split
  · exact sendsGood_deny _ g
  · exact sendsGood_answer _ _ (by rw [length_recordData]; decide) g

theorem sendsGood_ownPeakReset (b : List Byte) (g : d.sendsGood) : (ownPeakReset b d).sendsGood := by
  unfold ownPeakReset
  split
  · exact sendsGood_answer_after (keeps_resetPeaks _ d) g _ _
  · exact sendsGood_deny _ g

theorem sendsGood_ownClearCapture (b : List Byte) (g : d.sendsGood) : (ownClearCapture b d).sendsGood := by
  unfold ownClearCapture
  split
  · exact sendsGood_deny _ g
  · split
    · exact sendsGood_answer_after (keeps_clearCaptures _ d) g _ _
    · exact sendsGood_deny _ g

theorem sendsGood_ownSetGroups (b : List Byte) (g : d.sendsGood) : (ownSetGroups b d).sendsGood := by
  unfold ownSetGroups
  split
  · exact sendsGood_answer_after (keeps_trans (l := [.rcu, .raised]) (keeps_onRcu _ d) (keeps_raiseTmu _ _)) g _ _
      ((length_groupsData_le _ _ _).trans (by decide))
  · exact sendsGood_deny _ g

theorem sendsGood_ownSetTone (b : List Byte) (g : d.sendsGood) : (ownSetTone b d).sendsGood := by
  unfold ownSetTone
  split
  · exact sendsGood_deny _ g
  · exact sendsGood_answer_after (keeps_trans (l := [.tmu]) (keeps_onTmu _ d) (keeps_recomputeTone _)) g _ _
      (by rw [length_toneData]; decide)

theorem sendsGood_ownSetTimes (b : List Byte) (g : d.sendsGood) : (ownSetTimes b d).sendsGood := by
  unfold ownSetTimes
  dsimp only
  split
  · exact sendsGood_answer_after
      (keeps_trans (l := [.mpc, .tmu, .rcu, .raised])
        (keeps_trans (l := [.mpc, .tmu]) (keeps_onMpc _ d) (keeps_onTmu _ _)) (keeps_setReportTimes _ _ _)) g _ _
  · exact sendsGood_deny _ g

theorem sendsGood_ownSetMirror (b : List Byte) (g : d.sendsGood) : (ownSetMirror b d).sendsGood := by
  unfold ownSetMirror
  split
  · exact sendsGood_answer _ _ (Nat.zero_le _) (sendsGood_setMirror _ _ g)
  · exact sendsGood_deny _ g

theorem sendsGood_ownMuteRelease (b : List Byte) (g : d.sendsGood) : (ownMuteRelease b d).sendsGood := by
  unfold ownMuteRelease
  split
  · exact sendsGood_answer _ _ (by simp) g
  · exact sendsGood_answer _ _ (by simp) g
  · exact sendsGood_answer_after (keeps_onTmu _ d) g _ _

theorem sendsGood_ownTrialOpen (b : List Byte) (g : d.sendsGood) : (ownTrialOpen b d).sendsGood := by
  unfold ownTrialOpen
  split
  · exact sendsGood_deny _ g
  · split
    · exact sendsGood_of_keeps g (keeps_beginOpening _ d)
    · exact sendsGood_deny _ g

theorem sendsGood_ownTrialConfirm (b : List Byte) (g : d.sendsGood) : (ownTrialConfirm b d).sendsGood := by
  unfold ownTrialConfirm
  split
  · exact sendsGood_of_keeps g (keeps_beginClosing _ d)
  · split <;> exact sendsGood_deny _ g

theorem sendsGood_ownTrialExtend (b : List Byte) (g : d.sendsGood) : (ownTrialExtend b d).sendsGood := by
  unfold ownTrialExtend
  split
  · exact sendsGood_deny _ g
  · split
    · exact sendsGood_answer_after (keeps_onTru _ d) g _ _
    · split <;> exact sendsGood_deny _ g

theorem sendsGood_ownTrialAbort (b : List Byte) (g : d.sendsGood) : (ownTrialAbort b d).sendsGood := by
  unfold ownTrialAbort
  split
  · exact stable_sendsGood.takeRollbackCause _ _ g
  · split <;> exact sendsGood_deny _ g

/-- READ-TRIAL's data go in one frame only when they fit it (R204). -/
theorem sendsGood_answerTrial (data : List Byte) (g : d.sendsGood) : (answerTrial data d).sendsGood := by
  unfold answerTrial
  split
  next h => exact sendsGood_answer _ _ h g
  next => exact sendsGood_answerChain _ _ g

theorem sendsGood_ownReadTrial (b : List Byte) (g : d.sendsGood) : (ownReadTrial b d).sendsGood := by
  unfold ownReadTrial
  split
  · split
    · exact sendsGood_answerTrial _ g
    · exact sendsGood_answerTrial _ g
    · exact sendsGood_deny _ g
  · exact sendsGood_deny _ g

theorem sendsGood_ownOverlayDiscard (b : List Byte) (g : d.sendsGood) : (ownOverlayDiscard b d).sendsGood := by
  unfold ownOverlayDiscard
  split
  · exact sendsGood_answer_after (keeps_clearMaps _ d) g _ _
  · exact sendsGood_answer_after (keeps_clearMaps _ d) g _ _
  · exact sendsGood_answer_after (keeps_clearMaps _ d) g _ _
  · exact sendsGood_deny _ g

theorem sendsGood_ownReadOverlay (b : List Byte) (g : d.sendsGood) : (ownReadOverlay b d).sendsGood := by
  unfold ownReadOverlay
  split
  · exact sendsGood_deny _ g
  · split
    · exact sendsGood_answer _ _ (by rw [length_overlayData]; decide) g
    · exact sendsGood_deny _ g

theorem sendsGood_ownLoadStep (b : List Byte) (g : d.sendsGood) : (ownLoadStep b d).sendsGood := by
  unfold ownLoadStep
  split
  · exact sendsGood_deny _ g
  · split
    · split
      · exact sendsGood_deny _ g
      · exact sendsGood_answer_after (keeps_onAcu _ d) g _ _
    · exact sendsGood_deny _ g

theorem sendsGood_ownReadStep (b : List Byte) (g : d.sendsGood) : (ownReadStep b d).sendsGood := by
  unfold ownReadStep
  split
  · exact sendsGood_answer _ _ (by rw [length_stepData]; decide) g
  · exact sendsGood_deny _ g

theorem sendsGood_ownRunStart (b : List Byte) (g : d.sendsGood) : (ownRunStart b d).sendsGood := by
  unfold ownRunStart
  dsimp only
  split
  · exact sendsGood_deny _ g
  · split
    · exact sendsGood_deny _ g
    · split
      · exact sendsGood_deny _ g
      · exact sendsGood_answer_after (keeps_trans (l := [.acu]) (keeps_onAcu _ d) (keeps_beginStep _ _ _)) g _ _

theorem sendsGood_ownRunAbort (b : List Byte) (g : d.sendsGood) : (ownRunAbort b d).sendsGood := by
  unfold ownRunAbort
  split
  · exact sendsGood_deny _ g
  · exact sendsGood_answer_after (keeps_endStep _ _ d) g _ _

theorem sendsGood_ownReadLog (b : List Byte) (g : d.sendsGood) : (ownReadLog b d).sendsGood := by
  unfold ownReadLog
  split
  · exact sendsGood_answerChain _ _ g
  · exact sendsGood_deny _ g

theorem sendsGood_ownLogClear (b : List Byte) (g : d.sendsGood) : (ownLogClear b d).sendsGood := by
  unfold ownLogClear
  split
  · exact sendsGood_deny _ g
  · exact sendsGood_answer_after (keeps_onAcu _ d) g _ _

/-! ## The line's events -/

/-- Receiving leaves what is being sent. -/
theorem receive_sending (b : Byte) (s : Sli) : (s.receive b).sending = s.sending := by
  unfold Sli.receive
  split
  · split <;> rfl
  · split <;> rfl
  all_goals rfl

/-- Dropping a frame partly received leaves what is being sent. -/
theorem dropPartial_sending (s : Sli) : s.dropPartial.sending = s.sending := by
  unfold Sli.dropPartial
  split <;> rfl

theorem sendsGood_receiveByte (b : Byte) (g : d.sendsGood) : (receiveByte b d).sendsGood := by
  unfold receiveByte
  split
  · exact g
  · exact sendsGood_onSli _ (receive_sending b) g

theorem sendsGood_takeBadFrame (code : Option Byte) (g : d.sendsGood) : (takeBadFrame code d).sendsGood := by
  unfold takeBadFrame
  split
  · exact g
  · dsimp only
    split
    · exact g
    · exact sendsGood_answerBadFrame _ _

theorem sendsGood_discardFrame (g : d.sendsGood) : (discardFrame d).sendsGood := by
  unfold discardFrame
  split
  · exact g
  · exact sendsGood_onSli _ (fun _ => rfl) g

theorem sendsGood_lineFailed (g : d.sendsGood) : (lineFailed d).sendsGood := by
  unfold lineFailed
  split
  · exact g
  · exact sendsGood_onSli _ dropPartial_sending g

theorem sendsGood_gapExpired (g : d.sendsGood) : (gapExpired d).sendsGood := by
  unfold gapExpired
  split
  · exact g
  · split
    · exact sendsGood_answerBadFrame _ _
    · exact sendsGood_onSli _ dropPartial_sending g

/-- Once a response has ended nothing is being sent. -/
theorem sendsGood_responseEnded (g : d.sendsGood) : (responseEnded d).sendsGood := by
  unfold responseEnded
  split
  · exact g
  · exact fun _ h => nomatch h

theorem sendsGood_unknownTaken (code : Byte) (body : List Byte) (g : d.sendsGood) :
    (unknownTaken code body d).sendsGood := by
  unfold unknownTaken onFrame
  split
  · exact g
  · split
    · exact g
    · split
      · exact g
      · exact sendsGood_answer _ _ (Nat.zero_le _) g

/-! ## Time, marks and reports of loss -/

theorem sendsGood_tickAll (g : d.sendsGood) : (tickAll d).sendsGood := sendsGood_of_eq g rfl

theorem sendsGood_release (straps : Straps) (g : d.sendsGood) : (release straps d).sendsGood :=
  stable_sendsGood.arbitrate g

/-- A rollback cause taken, and the arbiter's decision after it. -/
theorem sendsGood_arbitrate_takeRollbackCause (x : EndCause) (c : Option Carrier) (g : d.sendsGood) :
    (arbitrate (takeRollbackCause x c d)).sendsGood :=
  stable_sendsGood.arbitrate (stable_sendsGood.takeRollbackCause x c g)

theorem sendsGood_lossReport (c : Carrier) (g : d.sendsGood) : (lossReport c d).sendsGood := by
  unfold lossReport
  split
  · exact sendsGood_arbitrate_takeRollbackCause _ _ g
  · exact g

/-- A notice to TRU whose effect keeps the frames being sent good. -/
theorem sendsGood_deliverTru {f : Lc44 → Lc44} (e : TruEvent) (hf : ∀ x : Lc44, x.sendsGood → (f x).sendsGood)
    (g : d.sendsGood) : (deliverTru e f d).sendsGood := by
  unfold deliverTru
  split
  · exact hf _ g
  · exact g

/-- Accepting a MAST level touches TMU and the raised events alone. -/
theorem keeps_acceptLevel (d : Lc44) : d.keepsOutside [.tmu, .raised] (acceptLevel d) := by
  unfold acceptLevel
  dsimp only
  split
  · exact keeps_trans (keeps_onTmu _ _) (keeps_mastAsserted _)
  · exact keeps_trans (keeps_onTmu _ _) (keeps_mastReleased _)

/-- Carriers leaving TRACK touch TMU alone. -/
theorem keeps_leftTrack (m : CarrierSet) (d : Lc44) : d.keepsOutside [.tmu] (leftTrack m d) := by
  unfold leftTrack
  dsimp only
  split
  · exact keeps_trans (keeps_onTmu _ _) (keeps_recomputeTone _)
  · exact keeps_onTmu _ _

/-- A peak reset touches TMU alone. -/
theorem keeps_tonePeakReset (m : CarrierSet) (d : Lc44) : d.keepsOutside [.tmu] (tonePeakReset m d) := by
  unfold tonePeakReset
  split
  · exact keeps_trans (keeps_onTmu _ _) (keeps_recomputeTone _)
  · exact keeps_refl _ _

/-- A change of the group flags touches TMU alone. -/
theorem keeps_changeGroups (d : Lc44) : d.keepsOutside [.tmu] (changeGroups d) := by
  unfold changeGroups
  split
  · exact keeps_trans (keeps_onTmu _ _) (keeps_recomputeTone _)
  · exact keeps_refl _ _

end

/-! ## Commands -/

/-- A command keeps the frames being sent good. -/
def keepsFrames (c : Instr) : Prop := ∀ s t : State, s.part.sendsGood → exec c s = .next t → t.part.sendsGood

section
variable {c : Instr}

/-- A command whose effect keeps them, whether RESET is asserted or not. -/
theorem keepsFrames_of_effect {f : Lc44 → Lc44} (hc : ∀ s, exec c s = s.effect f)
    (hf : ∀ d : Lc44, d.sendsGood → (f d).sendsGood) : keepsFrames c := by
  intro s t g h
  rw [hc] at h
  obtain ⟨-, hrunning, hreset⟩ := State.effect_next h
  cases hr : s.part.resetAsserted with
  | false => exact hrunning hr ▸ hf _ g
  | true => exact hreset hr ▸ g

/-- A command whose effect leaves the service line alone. -/
theorem keepsFrames_of_keeps {l : List Block} {f : Lc44 → Lc44} (hc : ∀ s, exec c s = s.effect f)
    (hf : ∀ d : Lc44, d.keepsOutside l (f d)) (hl : Block.sli ∉ l := by decide) : keepsFrames c :=
  keepsFrames_of_effect hc fun d g => sendsGood_of_keeps g (hf d) hl

/-- A request whose owner keeps them. -/
theorem keepsFrames_request {r : Req} {owner : List Byte → Lc44 → Lc44} {body : List Byte}
    (hc : ∀ s, exec c s = s.effect (request r owner body))
    (ho : ∀ {d : Lc44} (b : List Byte), d.sendsGood → (owner b d).sendsGood) : keepsFrames c :=
  keepsFrames_of_effect hc fun _ g => sendsGood_request (fun _ ge => ho _ ge) g

/-- A request whose owner may ask for the M-port, and the arbiter's decision after it. -/
theorem keepsFrames_arbitrate_request {r : Req} {owner : List Byte → Lc44 → Lc44} {body : List Byte}
    (hc : ∀ s, exec c s = s.effect fun d => arbitrate (request r owner body d))
    (ho : ∀ {d : Lc44} (b : List Byte), d.sendsGood → (owner b d).sendsGood) : keepsFrames c :=
  keepsFrames_of_effect hc fun _ g => stable_sendsGood.arbitrate (sendsGood_request (fun _ ge => ho _ ge) g)

end

/-- RESET asserted, nothing is being sent. -/
theorem keepsFrames_resetAsserted : keepsFrames .resetAsserted := by
  intro s t _ h
  obtain rfl := Host.Outcome.next.inj h
  exact fun _ hsending => nomatch hsending

/-- RESET released, start-up begins with nothing changed on the service line. -/
theorem keepsFrames_resetRelease (psel : BitVec 2) (commission depol : Bool) :
    keepsFrames (.resetRelease psel commission depol) := by
  intro s t g h
  obtain rfl := Host.Outcome.next.inj h
  dsimp only
  split
  · exact sendsGood_release _ g
  · exact g

/-- The level on the MAST pin is TMU's. -/
theorem keepsFrames_mastLevelChange (asserted : Bool) : keepsFrames (.mastLevelChange asserted) := by
  intro s t g h
  obtain rfl := Host.Outcome.next.inj h
  exact sendsGood_of_keeps g (keeps_onTmu _ _)

/-- An I-port cycle is taken and the arbiter decides, or it is not taken. -/
theorem keepsFrames_iPortCycle (x : BusCycle) : keepsFrames (.iPortCycle x) :=
  keepsFrames_of_effect (exec_iPortCycle x) fun d g => by
    split
    · exact g
    · exact stable_sendsGood.arbitrate (stable_sendsGood.takeCycle _ g)

/-- Memory's answer ends the M-port cycle OK or FAULT. -/
theorem keepsFrames_memoryAnswer (a : MemAnswer) : keepsFrames (.memoryAnswer a) :=
  keepsFrames_of_effect (exec_memoryAnswer a) fun d g => by
    cases a <;> exact sendsGood_memoryEnd _ g

/-- A MARK confirm closes an OPEN trial, or is counted. -/
theorem keepsFrames_markConfirm : keepsFrames .markConfirm :=
  keepsFrames_of_effect exec_markConfirm fun d g => by
    dsimp only
    split
    · exact stable_sendsGood.arbitrate
        (sendsGood_of_keeps g (keeps_trans (l := [.raised, .mpc, .tru]) (keeps_takenTru _ d) (keeps_beginClosing _ _)))
    · exact g

/-- A MARK abort is a rollback cause in an OPEN trial, or is counted. -/
theorem keepsFrames_markAbort : keepsFrames .markAbort :=
  keepsFrames_of_effect exec_markAbort fun d g => by
    dsimp only
    split
    · exact sendsGood_arbitrate_takeRollbackCause _ _ g
    · exact g

/-- The trial timer's expiry is a rollback cause in an OPEN trial, held in CLOSING, and nothing otherwise. -/
theorem keepsFrames_trialTimerExpiry : keepsFrames .trialTimerExpiry :=
  keepsFrames_of_effect exec_trialTimerExpiry fun d g => by
    split
    · exact g
    · split
      · exact sendsGood_arbitrate_takeRollbackCause _ _ g
      · split <;> exact g

/-- A loss run of 3 or more is a report of loss. -/
theorem keepsFrames_truCaptureNotice (n : CaptureNotice) : keepsFrames (.truCaptureNotice n) :=
  keepsFrames_of_effect (exec_truCaptureNotice n) fun d g => sendsGood_deliverTru _ (g := g) fun x gx => by
    split
    · exact sendsGood_lossReport _ gx
    · exact gx

/-- The report timer's expiry touches RCU and the raised events alone. -/
theorem keepsFrames_reportTimerExpiry (c : Carrier) : keepsFrames (.reportTimerExpiry c) :=
  keepsFrames_of_keeps (l := [.rcu, .raised]) (exec_reportTimerExpiry c) fun d => by
    split
    · exact keeps_becomeStale _ _
    · exact keeps_refl _ _

/-- The debounce timer's expiry touches TMU and the raised events alone. -/
theorem keepsFrames_debounceTimerExpiry : keepsFrames .debounceTimerExpiry :=
  keepsFrames_of_keeps (l := [.tmu, .raised]) exec_debounceTimerExpiry fun d => by
    split
    · exact keeps_acceptLevel _
    · exact keeps_refl _ _

/-- COMMISSIONING_SECOND is a tick, or nothing. -/
theorem keepsFrames_commissioningSecond : keepsFrames .commissioningSecond :=
  keepsFrames_of_effect exec_commissioningSecond fun d g => by
    split
    · exact sendsGood_tickAll g
    · exact g

/-- Every command keeps the frames being sent good. -/
theorem keepsFrames_all (c : Instr) : keepsFrames c := by
  cases c with
  -- the bus ports and the trial
  | iPortCycle x => exact keepsFrames_iPortCycle x
  | memoryAnswer a => exact keepsFrames_memoryAnswer a
  | memoryTimeout => exact keepsFrames_of_effect exec_memoryTimeout fun _ g => sendsGood_memoryEnd _ g
  | heldWriteRelease =>
    exact keepsFrames_of_effect exec_heldWriteRelease fun _ g =>
      stable_sendsGood.arbitrate (stable_sendsGood.releaseHeld g)
  | markConfirm => exact keepsFrames_markConfirm
  | markAbort => exact keepsFrames_markAbort
  | trialTimerExpiry => exact keepsFrames_trialTimerExpiry
  | truCaptureNotice n => exact keepsFrames_truCaptureNotice n
  | truStaleNotice c =>
    exact keepsFrames_of_effect (exec_truStaleNotice c) fun _ g =>
      sendsGood_deliverTru _ (fun _ gx => sendsGood_lossReport _ gx) g
  -- captures, mute and tone
  | observeHandoff h =>
    exact keepsFrames_of_keeps (l := [.rcu, .raised]) (exec_observeHandoff h) fun d =>
      keeps_trans (keeps_takenRcu h d) (keeps_takeHandoff h _)
  | reportTimerExpiry c => exact keepsFrames_reportTimerExpiry c
  | mastLevelChange asserted => exact keepsFrames_mastLevelChange asserted
  | debounceTimerExpiry => exact keepsFrames_debounceTimerExpiry
  | holdOffExpiry => exact keepsFrames_of_keeps exec_holdOffExpiry fun d => keeps_onTmu _ d
  | tmuCaptureNotice n =>
    exact keepsFrames_of_keeps (l := [.tmu, .raised]) (exec_tmuCaptureNotice n) fun d =>
      keeps_deliverTmu _ d fun _ => keeps_mono (keeps_changeView _ _ _)
  | tmuStaleNotice c =>
    exact keepsFrames_of_keeps (l := [.tmu, .raised]) (exec_tmuStaleNotice c) fun d =>
      keeps_deliverTmu _ d fun _ => keeps_mono (keeps_changeView _ _ _)
  | leftTrackReport m =>
    exact keepsFrames_of_keeps (l := [.tmu, .raised]) (exec_leftTrackReport m) fun d =>
      keeps_deliverTmu _ d fun _ => keeps_mono (keeps_leftTrack _ _)
  | peakResetNotice m =>
    exact keepsFrames_of_keeps (l := [.tmu, .raised]) (exec_peakResetNotice m) fun d =>
      keeps_deliverTmu _ d fun _ => keeps_mono (keeps_tonePeakReset _ _)
  | groupFlagsChange =>
    exact keepsFrames_of_keeps (l := [.tmu, .raised]) exec_groupFlagsChange fun d =>
      keeps_trans (keeps_takenTmu _ d) (keeps_changeGroups _)
  -- acceptance
  | stepSignal =>
    exact keepsFrames_of_keeps (l := [.acu, .raised]) exec_stepSignal fun d =>
      keeps_trans (keeps_takenAcu _ d) (keeps_takeStep _)
  | acuCaptureNotice n =>
    exact keepsFrames_of_keeps (l := [.acu, .raised]) (exec_acuCaptureNotice n) fun d =>
      keeps_deliverAcu _ d fun _ => keeps_mono (keeps_takeAcuCapture _ _)
  | acuStaleNotice c =>
    exact keepsFrames_of_keeps (l := [.acu, .raised]) (exec_acuStaleNotice c) fun d =>
      keeps_deliverAcu _ d fun _ => keeps_mono (keeps_takeAcuStale _ _)
  | muteNotice =>
    exact keepsFrames_of_keeps (l := [.acu, .raised]) exec_muteNotice fun d =>
      keeps_trans (keeps_takenAcu _ d) (keeps_takeMute _)
  | rollbackNotice =>
    exact keepsFrames_of_keeps (l := [.acu, .raised]) exec_rollbackNotice fun d =>
      keeps_trans (keeps_takenAcu _ d) (keeps_takeRollback _)
  | armTimeoutExpiry => exact keepsFrames_of_keeps exec_armTimeoutExpiry keeps_armExpired
  | settleTimerExpiry => exact keepsFrames_of_keeps exec_settleTimerExpiry keeps_settleExpired
  | measureTimerExpiry => exact keepsFrames_of_keeps exec_measureTimerExpiry keeps_measureExpired
  -- time and reset
  | tick => exact keepsFrames_of_effect exec_tick fun _ g => sendsGood_tickAll g
  | commissioningSecond => exact keepsFrames_commissioningSecond
  | resetAsserted => exact keepsFrames_resetAsserted
  | resetRelease psel commission depol => exact keepsFrames_resetRelease psel commission depol
  | refreshTimerExpiry =>
    exact keepsFrames_of_effect exec_refreshTimerExpiry fun _ g =>
      stable_sendsGood.arbitrate (sendsGood_refreshExpired g)
  -- the line's events
  | badFrame code => exact keepsFrames_of_effect (exec_badFrame code) fun _ g => sendsGood_takeBadFrame code g
  | frameDiscarded => exact keepsFrames_of_effect exec_frameDiscarded fun _ g => sendsGood_discardFrame g
  | lineError => exact keepsFrames_of_effect exec_lineError fun _ g => sendsGood_lineFailed g
  | gapTimerExpiry => exact keepsFrames_of_effect exec_gapTimerExpiry fun _ g => sendsGood_gapExpired g
  | responseSent => exact keepsFrames_of_effect exec_responseSent fun _ g => sendsGood_responseEnded g
  | unknownRequest code body =>
    exact keepsFrames_of_effect (exec_unknownRequest code body) fun _ g => sendsGood_unknownTaken code body g
  | byteReceived b => exact keepsFrames_of_effect (exec_byteReceived b) fun _ g => sendsGood_receiveByte b g
  -- requests
  | ident body => exact keepsFrames_request (exec_ident body) sendsGood_ownIdent
  | status body => exact keepsFrames_request (exec_status body) sendsGood_ownStatus
  | beginReq body => exact keepsFrames_arbitrate_request (exec_beginReq body) sendsGood_ownBegin
  | wipe body => exact keepsFrames_request (exec_wipe body) sendsGood_ownWipe
  | save body => exact keepsFrames_arbitrate_request (exec_save body) sendsGood_ownSave
  | handover body => exact keepsFrames_arbitrate_request (exec_handover body) sendsGood_ownHandover
  | loadRegion body => exact keepsFrames_request (exec_loadRegion body) sendsGood_ownLoadRegion
  | readRegion body => exact keepsFrames_request (exec_readRegion body) sendsGood_ownReadRegion
  | loadRule body => exact keepsFrames_request (exec_loadRule body) sendsGood_ownLoadRule
  | readRule body => exact keepsFrames_request (exec_readRule body) sendsGood_ownReadRule
  | loadLayout body => exact keepsFrames_request (exec_loadLayout body) sendsGood_ownLoadLayout
  | readLayout body => exact keepsFrames_request (exec_readLayout body) sendsGood_ownReadLayout
  | setCarrier body => exact keepsFrames_request (exec_setCarrier body) sendsGood_ownSetCarrier
  | readCarrier body => exact keepsFrames_request (exec_readCarrier body) sendsGood_ownReadCarrier
  | peakReset body => exact keepsFrames_request (exec_peakReset body) sendsGood_ownPeakReset
  | clearCapture body => exact keepsFrames_request (exec_clearCapture body) sendsGood_ownClearCapture
  | setGroups body => exact keepsFrames_request (exec_setGroups body) sendsGood_ownSetGroups
  | setTone body => exact keepsFrames_request (exec_setTone body) sendsGood_ownSetTone
  | setTimes body => exact keepsFrames_request (exec_setTimes body) sendsGood_ownSetTimes
  | setMirror body => exact keepsFrames_arbitrate_request (exec_setMirror body) sendsGood_ownSetMirror
  | muteRelease body => exact keepsFrames_request (exec_muteRelease body) sendsGood_ownMuteRelease
  | trialOpen body => exact keepsFrames_arbitrate_request (exec_trialOpen body) sendsGood_ownTrialOpen
  | trialConfirm body => exact keepsFrames_arbitrate_request (exec_trialConfirm body) sendsGood_ownTrialConfirm
  | trialExtend body => exact keepsFrames_request (exec_trialExtend body) sendsGood_ownTrialExtend
  | trialAbort body => exact keepsFrames_arbitrate_request (exec_trialAbort body) sendsGood_ownTrialAbort
  | readTrial body => exact keepsFrames_request (exec_readTrial body) sendsGood_ownReadTrial
  | overlayDiscard body => exact keepsFrames_request (exec_overlayDiscard body) sendsGood_ownOverlayDiscard
  | readOverlay body => exact keepsFrames_request (exec_readOverlay body) sendsGood_ownReadOverlay
  | loadStep body => exact keepsFrames_request (exec_loadStep body) sendsGood_ownLoadStep
  | readStep body => exact keepsFrames_request (exec_readStep body) sendsGood_ownReadStep
  | runStart body => exact keepsFrames_request (exec_runStart body) sendsGood_ownRunStart
  | runAbort body => exact keepsFrames_request (exec_runAbort body) sendsGood_ownRunAbort
  | readLog body => exact keepsFrames_request (exec_readLog body) sendsGood_ownReadLog
  | logClear body => exact keepsFrames_request (exec_logClear body) sendsGood_ownLogClear

/-- A step is idle on an empty queue, and otherwise the command at its front (log 4). -/
theorem step_keeps_framesLaw {s t : State} (g : s.framesLaw) (h : step s = .next t) : t.framesLaw := by
  unfold step at h
  split at h
  next =>
    obtain rfl := Host.Outcome.next.inj h
    exact g
  next c rest _ => exact keepsFrames_all c { s with pending := rest } t g h

/-! ## The statement -/

/-- A request's code lies in 01h to 7Fh (R186). -/
theorem reqCode_range (r : Req) : 1 ≤ r.code.toNat ∧ r.code.toNat ≤ 0x7F := by
  cases r <;> decide

/-- The response to a code outside 01h to 7Fh carries FFh (R188). -/
theorem responseCode_outside {code : Byte} (h : code.toNat = 0 ∨ 0x7F < code.toNat) : responseCode code = 0xFF :=
  if_neg (by omega)

/-- Settles O54: a built frame sums to 0 by its checksum and is completed good by the receiver's run over it; what
completes in CHECK is decided by the sum; and every step keeps the frames being sent good, command by command. -/
theorem framesSentAreGood : Obligations.FramesSentAreGood := by
  refine ⟨fun code body hbody => ⟨rfl, byteSum_frame_tail code body, rfl, fun l hl => foldl_receive_frame hbody hl⟩,
    ?completes, fun l b hl => receive_length_rx_iff hl, fun r => ?codes, fun code => responseCode_outside,
    fun s t => step_keeps_framesLaw⟩
  case completes =>
    intro l len code b body hl
    rw [receive_check hl, complete_completed]
    refine ⟨?_, fun h => by rw [completedFrame_bad h]⟩
    rw [List.append_cancel_left_eq, List.singleton_inj, completedFrame_eq_good_iff]
  case codes =>
    obtain ⟨hlow, hhigh⟩ := reqCode_range r
    exact ⟨hlow, hhigh, responseCode_code r⟩

end Sys2Proof.Machine
end

