-- ==== Sys2Proof/Proofs/RequestChecks.lean ====
section
/-! SUPPORT. The checks of a request before its owner (R193): the filter by phase and operation, the length of the body,
and the codes that name no request; from these the statement about the order of the checks. -/

namespace Sys2Proof.Machine

/-! ## The filter -/

/-- IDENT, STATUS and the eight READ requests. -/
def readReqs : List Req :=
  [.ident, .status, .readRegion, .readRule, .readLayout, .readCarrier, .readTrial, .readOverlay, .readStep, .readLog]

/-- The requests that the filter takes during SAVING and HANDING_OVER are those of the list. -/
theorem isRead_iff {r : Req} : r.isRead = true ↔ r ∈ readReqs := by
  cases r <;> decide

theorem requestFilter_transparent (r : Req) :
    requestFilter .transparent .none r =
      if r ∈ [Req.ident, .status, .begin, .muteRelease] then none else some .badPhase := by
  cases r <;> rfl

theorem requestFilter_commissioning (r : Req) :
    requestFilter .commissioning .none r = if r = .begin then some .badPhase else none := by
  cases r <;> rfl

theorem requestFilter_service (r : Req) :
    requestFilter .service .none r =
      if r ∈ readReqs ++ [.peakReset, .setTone, .muteRelease] then none else some .badPhase := by
  cases r <;> rfl

theorem requestFilter_saving (phase : Phase) (r : Req) :
    requestFilter phase .saving r = if r ∈ readReqs then none else some .busy :=
  if_congr isRead_iff rfl rfl

theorem requestFilter_handingOver (phase : Phase) (h : HandoverStep) (r : Req) :
    requestFilter phase (.handingOver h) r = if r ∈ readReqs then none else some .busy :=
  if_congr isRead_iff rfl rfl

/-! ## After the filter -/

section
variable {r : Req} {body : List Byte} {owner : List Byte → Lc44 → Lc44} {d : Lc44}

/-- A request that the filter takes goes on to the length check. -/
theorem request_filtered (hdeaf : d.deaf = false) (hfree : d.sli.inHand = none)
    (hf : requestFilter d.phc.phase d.phc.phop r = none) :
    request r owner body d =
      if body.length = r.bodyLength then owner body (d.takeInHand r body)
      else refuse r .badArg (d.takeInHand r body) := by
  have hf' : requestFilter (d.takeInHand r body).phc.phase (d.takeInHand r body).phc.phop r = none := hf
  rw [request_free hdeaf hfree, dispatchRequest, hf']

/-- A request that the filter takes with a body of another length is answered BADARG. -/
theorem request_badLength (hdeaf : d.deaf = false) (hfree : d.sli.inHand = none)
    (hf : requestFilter d.phc.phase d.phc.phop r = none) (hlen : body.length ≠ r.bodyLength) :
    request r owner body d = d.reply r body .badArg (refusalData r d) := by
  rw [request_filtered hdeaf hfree hf, if_neg hlen, refuse, answer_takeInHand]
  rfl

/-- A request that passes both checks is its owner's. -/
theorem request_owner (hdeaf : d.deaf = false) (hfree : d.sli.inHand = none)
    (hf : requestFilter d.phc.phase d.phc.phop r = none) (hlen : body.length = r.bodyLength) :
    request r owner body d = owner body (d.takeInHand r body) := by
  rw [request_filtered hdeaf hfree hf, if_pos hlen]

end

/-- While PHOP is STARTING the line is deaf. -/
theorem deaf_of_starting {d : Lc44} (h : d.phc.phop.isStarting = true) : d.deaf = true := by
  simp [Lc44.deaf, h]

/-! ## Codes that name no request -/

/-- The list of all requests leaves none out. -/
theorem mem_allReqs (r : Req) : r ∈ allReqs := by
  cases r <;> decide

theorem namesRequest_iff {code : Byte} : namesRequest code = true ↔ ∃ r : Req, r.code = code := by
  simp [namesRequest, mem_allReqs]

/-- A frame with a code that names no request is taken and answered UNKNOWN. -/
theorem exec_unknownRequest_taken {s : State} {code : Byte} (body : List Byte) (hrun : s.running = true)
    (hdeaf : s.part.deaf = false) (hfree : s.part.sli.inHand = none) (hnames : namesRequest code = false) :
    exec (.unknownRequest code body) s = .next ⟨answer .unknown [] (takeFrame code body s.part), s.pending⟩ := by
  rw [exec_unknownRequest, State.effect_running _ hrun]
  simp [unknownTaken, onFrame, hdeaf, hfree, hnames]

/-! ## The statement -/

/-- Settles O56: the filter by its table; then, with the request taken, the filter's status, the length check and the
owner in this order; STARTING is a deaf line. -/
theorem requestsPassTheChecksInOrder : Obligations.RequestsPassTheChecksInOrder := by
  refine ⟨fun r => ?filter, fun r body owner d hdeaf hfree => ?checks, fun r body owner d hstart => ?starting,
    fun code => namesRequest_iff, fun s code body hrun hdeaf hfree hnames => ?unknown⟩
  case filter =>
    exact ⟨requestFilter_transparent r, requestFilter_commissioning r, requestFilter_saving _ r,
      fun h => requestFilter_handingOver _ h r, requestFilter_service r⟩
  case checks =>
    exact ⟨fun status hf => request_refused hdeaf hfree hf, fun hf hlen => request_badLength hdeaf hfree hf hlen,
      fun hf hlen => request_owner hdeaf hfree hf hlen⟩
  case starting => exact request_deaf (deaf_of_starting hstart)
  case unknown =>
    exact ⟨exec_unknownRequest_taken body hrun hdeaf hfree hnames, responseCode_outside⟩

end Sys2Proof.Machine
end

