-- ==== Sys2Proof/Proofs/Commands.lean ====
section
/-! SUPPORT. Every command as one change of the LC44 (R179; logs 4, 5): `exec` always answers a next state and leaves
the queue alone, which blocks each command may touch, and when every step keeps a property of the LC44. From these the
statements about the queue and about commands taken while RESET is asserted. -/

namespace Sys2Proof.Machine

set_option Elab.async false

/-! ## A command's change of the LC44 -/

/-- The LC44 after a command. -/
def Lc44.after (c : Instr) (d : Lc44) : Lc44 :=
  match exec c ⟨d, []⟩ with
  | .next t => t.part
  | _ => d

/-- Every command answers a next state: the LC44 after it, with the queue as it was. -/
theorem exec_eq_after (c : Instr) (s : State) : exec c s = .next ⟨s.part.after c, s.pending⟩ := by
  cases c <;> rfl

/-- Settles O1: `step` looks at the queue and runs `exec` on its front. -/
theorem stepRunsTheFrontCommand : Obligations.StepRunsTheFrontCommand :=
  ⟨fun _ _ => rfl, fun s h => by rw [step, h]⟩

/-- Settles O2: each command is a change of the LC44 that always has a next state, and none under RESET. -/
theorem everyCommandCompletes : Obligations.EveryCommandCompletes :=
  ⟨fun c s => ⟨s.part.after c, exec_eq_after c s⟩, exec_inReset⟩

/-- A command that is an effect changes the LC44 by its function while RESET is released. -/
theorem after_of_effect {c : Instr} {f : Lc44 → Lc44} (hc : ∀ s, exec c s = s.effect f) (d : Lc44) :
    d.after c = if d.resetAsserted then d else f d := by
  simp only [Lc44.after, hc]
  rfl

/-- RESET_ASSERTED gives the reset values, and keeps the level on the MAST pin (R179). -/
theorem after_resetAsserted (d : Lc44) : d.after .resetAsserted = Lc44.inReset d.tmu.mastRaw := rfl

/-- RESET_RELEASE releases RESET where it is asserted (log 5). -/
theorem after_resetRelease (psel : BitVec 2) (commission depol : Bool) (d : Lc44) :
    d.after (.resetRelease psel commission depol) =
      if d.resetAsserted then release ⟨psel, commission, depol⟩ d else d := rfl

/-- A tick, block by block. -/
theorem tickAll_eq (d : Lc44) :
    tickAll d =
      { d with
        tru := d.tru.tick
        rcu := d.rcu.tick
        tmu := d.tmu.tick
        acu := d.acu.tick
        phc := d.phc.tick
        sli := d.sli.tick } := by
  simp only [tickAll, Lc44.onTru, Lc44.onRcu, Lc44.onTmu, Lc44.onAcu, Lc44.onPhc, Lc44.onSli]

/-! ## What each command may touch -/

/-- The blocks that a bus cycle and the arbiter's decision may touch. -/
@[reducible] def busBlocks : List Block := [.iport, .mpc, .ccl, .fgd, .tru, .raised, .sli, .ovu, .phc]

/-- The blocks that the end of an M-port cycle may touch: all, since a BEGIN or a LOAD may end with it. -/
@[reducible] def allBlocks : List Block := [.iport, .mpc, .ccl, .fgd, .tru, .ovu, .rcu, .tmu, .acu, .phc, .sli, .raised]

/-- The blocks that a command may touch. -/
def touches (c : Instr) : List Block :=
  match c with
  | .iPortCycle _ | .heldWriteRelease | .markConfirm | .markAbort | .trialTimerExpiry | .truCaptureNotice _
  | .truStaleNotice _ | .refreshTimerExpiry | .beginReq _ | .save _ | .handover _ | .setMirror _ | .trialOpen _
  | .trialConfirm _ | .trialAbort _ => busBlocks
  | .memoryAnswer _ | .memoryTimeout | .wipe _ | .resetAsserted | .resetRelease _ _ _ => allBlocks
  | .observeHandoff _ | .reportTimerExpiry _ => [.rcu, .raised]
  | .mastLevelChange _ | .holdOffExpiry => [.tmu]
  | .debounceTimerExpiry | .tmuCaptureNotice _ | .tmuStaleNotice _ | .leftTrackReport _ | .peakResetNotice _
  | .groupFlagsChange => [.tmu, .raised]
  | .stepSignal | .acuCaptureNotice _ | .acuStaleNotice _ | .muteNotice | .rollbackNotice => [.acu, .raised]
  | .armTimeoutExpiry | .settleTimerExpiry | .measureTimerExpiry => [.acu]
  | .tick | .commissioningSecond => [.tru, .rcu, .tmu, .acu, .phc, .sli]
  | .badFrame _ | .frameDiscarded | .lineError | .gapTimerExpiry | .responseSent | .unknownRequest _ _
  | .byteReceived _ | .ident _ | .status _ | .readRegion _ | .readRule _ | .readLayout _ | .readCarrier _
  | .readTrial _ | .readOverlay _ | .readStep _ | .readLog _ => [.sli]
  | .loadRegion _ => [.iport, .ovu, .ccl, .sli]
  | .loadRule _ => [.iport, .fgd, .sli]
  | .loadLayout _ | .setCarrier _ => [.rcu, .sli]
  | .peakReset _ | .clearCapture _ | .setGroups _ => [.rcu, .raised, .sli]
  | .setTone _ | .muteRelease _ => [.tmu, .sli]
  | .setTimes _ => [.mpc, .tmu, .rcu, .raised, .sli]
  | .trialExtend _ => [.tru, .sli]
  | .overlayDiscard _ => [.iport, .ovu, .sli]
  | .loadStep _ | .runStart _ | .runAbort _ | .logClear _ => [.acu, .sli]

/-! ## The line's events and time -/

theorem keeps_receiveByte (b : Byte) (d : Lc44) : d.keepsOutside [.sli] (receiveByte b d) := by
  unfold receiveByte
  split
  · exact keeps_refl _ _
  · exact keeps_onSli _ _

theorem keeps_answerBadFrame (code : Option Byte) (d : Lc44) : d.keepsOutside [.sli] (answerBadFrame code d) :=
  keeps_trans (keeps_onSli _ _) (keeps_startSending _ _)

theorem keeps_takeBadFrame (code : Option Byte) (d : Lc44) : d.keepsOutside [.sli] (takeBadFrame code d) := by
  unfold takeBadFrame
  split
  · exact keeps_refl _ _
  · dsimp only
    split
    · exact keeps_trans (keeps_onSli _ _) (keeps_onSli _ _)
    · exact keeps_trans (keeps_onSli _ _) (keeps_answerBadFrame _ _)

theorem keeps_discardFrame (d : Lc44) : d.keepsOutside [.sli] (discardFrame d) := by
  unfold discardFrame
  split
  · exact keeps_refl _ _
  · exact keeps_onSli _ _

theorem keeps_lineFailed (d : Lc44) : d.keepsOutside [.sli] (lineFailed d) := by
  unfold lineFailed
  split
  · exact keeps_refl _ _
  · exact keeps_onSli _ _

theorem keeps_gapExpired (d : Lc44) : d.keepsOutside [.sli] (gapExpired d) := by
  unfold gapExpired
  split
  · exact keeps_refl _ _
  · split
    · exact keeps_trans (keeps_onSli _ _) (keeps_answerBadFrame _ _)
    · exact keeps_onSli _ _

theorem keeps_responseEnded (d : Lc44) : d.keepsOutside [.sli] (responseEnded d) := by
  unfold responseEnded
  split
  · exact keeps_refl _ _
  · exact keeps_onSli _ _

theorem keeps_unknownTaken (code : Byte) (body : List Byte) (d : Lc44) :
    d.keepsOutside [.sli] (unknownTaken code body d) := by
  unfold unknownTaken onFrame
  split
  · exact keeps_refl _ _
  · split
    · exact keeps_refl _ _
    · split
      · exact keeps_onSli _ _
      · exact keeps_trans (keeps_takeFrame _ _ _) (keeps_answer _ _ _)

theorem keeps_tickAll (d : Lc44) : d.keepsOutside [.tru, .rcu, .tmu, .acu, .phc, .sli] (tickAll d) :=
  keeps_trans (keeps_trans (l := [.tru, .rcu, .tmu, .acu, .phc])
    (keeps_trans (l := [.tru, .rcu, .tmu, .acu]) (keeps_trans (l := [.tru, .rcu, .tmu])
      (keeps_trans (l := [.tru, .rcu]) (keeps_onTru _ _) (keeps_onRcu _ _)) (keeps_onTmu _ _)) (keeps_onAcu _ _))
    (keeps_onPhc _ _)) (keeps_onSli _ _)

/-! ## Trials and bus cycles -/

/-- The arbiter's decision after an operation touches the bus blocks, when the operation touches no other. -/
theorem keeps_arbitrate_after {l : List Block} {d e : Lc44} (h : d.keepsOutside l e)
    (hl : l ⊆ busBlocks := by decide) : d.keepsOutside busBlocks (arbitrate e) :=
  keeps_trans h (keeps_arbitrate e) hl

/-- A request followed by the arbiter's decision. -/
theorem keeps_arbitrate_request {l : List Block} {r : Req} {owner : List Byte → Lc44 → Lc44} {body : List Byte}
    {d : Lc44} (h : ∀ b e, Lc44.keepsOutside l e (owner b e)) (hl : l ⊆ busBlocks := by decide) :
    d.keepsOutside busBlocks (arbitrate (request r owner body d)) :=
  keeps_trans (keeps_request fun b e => keeps_mono (h b e) hl) (keeps_arbitrate _)

theorem keeps_ignoreMark (d : Lc44) : d.keepsOutside [.tru] (ignoreMark d) := keeps_onTru _ _

theorem keeps_lossReport (c : Carrier) (d : Lc44) : d.keepsOutside busBlocks (lossReport c d) := by
  unfold lossReport
  split
  · exact keeps_arbitrate_after (keeps_takeRollbackCause _ _ _)
  · exact keeps_refl _ _

/-- A MARK signal is taken by an open trial, and ignored otherwise. -/
theorem keeps_mark {e : TruEvent} {f : Lc44 → Lc44} (hf : ∀ x : Lc44, x.keepsOutside busBlocks (f x)) (d : Lc44) :
    d.keepsOutside busBlocks
      (if (takenTru e d).tru.openUndue then f (takenTru e d) else ignoreMark (takenTru e d)) := by
  have ht : d.keepsOutside busBlocks (takenTru e d) := keeps_mono (keeps_takenTru e d)
  split
  · exact keeps_trans ht (hf _)
  · exact keeps_trans ht (keeps_ignoreMark _)

/-! ## Start-up and the ends of M-port cycles -/

theorem keeps_requestRead (offset : Nat) (d : Lc44) : d.keepsOutside [.mpc] (requestRead offset d) :=
  keeps_requestInt _ _ _

theorem keeps_recoverRequest (g : RecoverStage) (d : Lc44) : d.keepsOutside [.mpc] (recoverRequest g d) := by
  unfold recoverRequest
  split
  case h_4 =>
    split
    · exact keeps_refl _ _
    · exact keeps_requestInt _ _ _
  all_goals exact keeps_requestInt _ _ _

theorem keeps_enterRecover (status : ProfileStatus) (g : RecoverStage) (d : Lc44) :
    d.keepsOutside [.mpc, .phc] (enterRecover status g d) :=
  keeps_trans (keeps_onPhc _ _) (keeps_recoverRequest _ _)

theorem keeps_endStartup (status : ProfileStatus) (x : RecoverySummary) (close : HeaderClose) (d : Lc44) :
    d.keepsOutside [.mpc, .phc, .sli] (endStartup status x close d) := by
  unfold endStartup
  dsimp only
  split
  · exact keeps_trans (keeps_trans (l := [.mpc, .phc]) (keeps_onPhc _ _) (keeps_onMpc _ _)) (keeps_startMirror _)
  · exact keeps_trans (keeps_onPhc _ _) (keeps_onMpc _ _)

theorem keeps_recoverClose (status : ProfileStatus) (result : RecoveryResult) (o : TrialOutcome) (d : Lc44) :
    d.keepsOutside [.tru, .mpc, .phc] (recoverClose status result o d) :=
  keeps_trans (keeps_onTru _ _) (keeps_enterRecover _ _ _)

theorem keeps_recoverRestore (status : ProfileStatus) (number count : Nat) (todo : List JournalRecord)
    (restored : Nat) (unrestored : List Addr) (d : Lc44) :
    d.keepsOutside [.tru, .mpc, .phc] (recoverRestore status number count todo restored unrestored d) := by
  unfold recoverRestore
  split
  · exact keeps_recoverClose _ _ _ _
  · exact keeps_mono (keeps_enterRecover _ _ _)

theorem keeps_recoverNoRead (status : ProfileStatus) (d : Lc44) :
    d.keepsOutside [.tru, .mpc, .phc, .sli] (recoverNoRead status d) :=
  keeps_trans (keeps_onTru _ _) (keeps_endStartup _ _ _ _)

theorem keeps_recoverBy (status : ProfileStatus) (state count : Word) (d : Lc44) :
    d.keepsOutside [.tru, .mpc, .phc, .sli] (recoverBy status state count d) := by
  unfold recoverBy
  dsimp only
  split
  · exact keeps_trans (keeps_onTru _ _) (keeps_endStartup _ _ _ _)
  · split
    · exact keeps_trans (keeps_onTru _ _) (keeps_enterRecover _ _ _)
    · split
      · exact keeps_trans (keeps_onTru _ _) (keeps_enterRecover _ _ _)
      · exact keeps_trans (keeps_onTru _ _) (keeps_recoverClose _ _ _ _)
  · exact keeps_trans (keeps_onTru _ _) (keeps_recoverClose _ _ _ _)

theorem keeps_recordWordRead (status : ProfileStatus) (number count : Nat) (good : List JournalRecord)
    (part : List Word) (w : Word) (d : Lc44) :
    d.keepsOutside [.tru, .mpc, .phc] (recordWordRead status number count good part w d) := by
  unfold recordWordRead
  split
  · dsimp only
    split
    · exact keeps_recoverClose _ _ _ _
    · split
      · exact keeps_mono (keeps_enterRecover _ _ _)
      · exact keeps_recoverRestore _ _ _ _ _ _ _
  · exact keeps_mono (keeps_enterRecover _ _ _)

theorem keeps_recoverOk (status : ProfileStatus) (g : RecoverStage) (w : Word) (d : Lc44) :
    d.keepsOutside [.tru, .mpc, .phc, .sli] (recoverOk status g w d) := by
  unfold recoverOk
  split
  · exact keeps_mono (keeps_enterRecover _ _ _)
  · exact keeps_recoverBy _ _ _ _
  · exact keeps_mono (keeps_recordWordRead _ _ _ _ _ _ _)
  · exact keeps_mono (keeps_recoverRestore _ _ _ _ _ _ _)
  · exact keeps_mono (keeps_enterRecover _ _ _)
  · exact keeps_mono (keeps_endStartup _ _ _ _)

theorem keeps_recoverFailed (status : ProfileStatus) (g : RecoverStage) (d : Lc44) :
    d.keepsOutside [.tru, .mpc, .phc, .sli] (recoverFailed status g d) := by
  unfold recoverFailed
  split
  · exact keeps_mono (keeps_enterRecover _ _ _)
  · exact keeps_recoverNoRead _ _
  · exact keeps_mono (keeps_enterRecover _ _ _)
  · exact keeps_recoverNoRead _ _
  · exact keeps_mono (keeps_enterRecover _ _ _)
  · exact keeps_mono (keeps_recoverClose _ _ _ _)
  · exact keeps_mono (keeps_enterRecover _ _ _)
  · exact keeps_mono (keeps_recoverRestore _ _ _ _ _ _ _)
  · exact keeps_mono (keeps_enterRecover _ _ _)
  · exact keeps_trans (keeps_onTru _ _) (keeps_endStartup _ _ _ _)
  · exact keeps_mono (keeps_enterRecover _ _ _)
  · exact keeps_mono (keeps_endStartup _ _ _ _)

theorem keeps_loadEndsWith (status : ProfileStatus) (d : Lc44) :
    d.keepsOutside [.mpc, .phc] (loadEndsWith status d) :=
  keeps_trans (keeps_onPhc _ _) (keeps_enterRecover _ _ _)

theorem keeps_loadNext (staged : List Word) (d : Lc44) : d.keepsOutside [.mpc, .phc] (loadNext staged d) :=
  keeps_trans (keeps_onPhc _ _) (keeps_requestRead _ _)

theorem keeps_loadCcl (staged : List Word) (d : Lc44) : d.keepsOutside [.ccl, .ovu] (loadCcl staged d) :=
  keeps_trans (keeps_onCcl _ _) (keeps_onOvu _ _)

theorem keeps_loadTmu (staged : List Word) (d : Lc44) : d.keepsOutside [.tmu] (loadTmu staged d) :=
  keeps_trans (keeps_onTmu _ _) (keeps_recomputeTone _)

theorem keeps_loadSli (staged : List Word) (d : Lc44) : d.keepsOutside [.sli, .ccl] (loadSli staged d) :=
  keeps_trans (keeps_onSli _ _) (keeps_syncCcl _)

theorem keeps_putInForce (staged : List Word) (d : Lc44) :
    d.keepsOutside [.mpc, .ccl, .fgd, .ovu, .rcu, .tmu, .acu, .phc, .sli] (putInForce staged d) := by
  unfold putInForce
  refine keeps_trans (l₁ := [.mpc, .ccl, .fgd, .ovu, .rcu, .tmu, .acu, .phc, .sli]) ?_ (keeps_setPhase _ _)
  refine keeps_trans (l₁ := [.mpc, .ccl, .fgd, .ovu, .rcu, .tmu, .acu, .sli]) ?_ (keeps_onPhc _ _)
  refine keeps_trans (l₁ := [.mpc, .ccl, .fgd, .ovu, .rcu, .tmu, .acu]) ?_ (keeps_loadSli _ _)
  refine keeps_trans (l₁ := [.ccl, .fgd, .ovu, .rcu, .tmu, .acu]) ?_ (keeps_onMpc _ _)
  refine keeps_trans (l₁ := [.ccl, .fgd, .ovu, .rcu, .acu]) ?_ (keeps_loadTmu _ _)
  refine keeps_trans (l₁ := [.ccl, .fgd, .ovu, .rcu]) ?_ (keeps_onAcu _ _)
  refine keeps_trans (l₁ := [.ccl, .ovu, .rcu]) ?_ (keeps_onFgd _ _)
  exact keeps_trans (keeps_onRcu _ _) (keeps_loadCcl _ _)

theorem keeps_loadWordRead (staged : List Word) (d : Lc44) :
    d.keepsOutside [.mpc, .ccl, .fgd, .ovu, .rcu, .tmu, .acu, .phc, .sli] (loadWordRead staged d) := by
  unfold loadWordRead
  split
  · exact keeps_mono (keeps_loadNext _ _)
  · split
    · exact keeps_mono (keeps_loadEndsWith _ _)
    · split
      · exact keeps_mono (keeps_loadNext _ _)
      · split
        · exact keeps_trans (keeps_putInForce _ _) (keeps_loadEndsWith _ _)
        · exact keeps_mono (keeps_loadEndsWith _ _)

theorem keeps_phcEnded (e : MEnd) (d : Lc44) : d.keepsOutside allBlocks (phcEnded e d) := by
  unfold phcEnded
  split
  · exact keeps_refl _ _
  · exact keeps_mono (keeps_probeEnded _ _)
  · exact keeps_mono (keeps_imageWriteEnded _ _)
  · split
    · exact keeps_mono (keeps_loadEndsWith _ _)
    · exact keeps_mono (keeps_loadWordRead _ _)
  · split
    · exact keeps_mono (keeps_recoverFailed _ _ _)
    · exact keeps_mono (keeps_recoverOk _ _ _ _)

theorem keeps_intEnded (o : IntOwner) (e : MEnd) (d : Lc44) : d.keepsOutside allBlocks (intEnded o e d) := by
  unfold intEnded
  split
  · exact keeps_mono (keeps_headerEnded _ _)
  · exact keeps_mono (keeps_foldEnded _ _)
  · exact keeps_phcEnded _ _

theorem keeps_dispatchEnd (c : MCycle) (e : MEnd) (d : Lc44) : d.keepsOutside allBlocks (dispatchEnd c e d) := by
  unfold dispatchEnd
  split
  · exact keeps_mono (keeps_fwdEnded _ _)
  · exact keeps_mono (keeps_restoreEnded _ _)
  · split
    · exact keeps_refl _ _
    · exact keeps_trans (keeps_onMpc _ _) (keeps_intEnded _ _ _)
  · exact keeps_mono (keeps_mirrorEnded _ _)

theorem keeps_memoryEnd (e : MEnd) (d : Lc44) : d.keepsOutside allBlocks (memoryEnd e d) := by
  unfold memoryEnd
  split
  · exact keeps_refl _ _
  · exact keeps_trans (keeps_trans (l := allBlocks) (keeps_onMpc _ _) (keeps_dispatchEnd _ _ _)) (keeps_arbitrate _)

/-! ## The blocks of every command -/

/-- A command that is an effect touches what its function touches. -/
theorem keeps_after {l : List Block} {c : Instr} {f : Lc44 → Lc44} (hc : ∀ s, exec c s = s.effect f)
    (hf : ∀ d : Lc44, d.keepsOutside l (f d)) (d : Lc44) : d.keepsOutside l (d.after c) := by
  rw [after_of_effect hc]
  split
  · exact keeps_refl _ _
  · exact hf d

/-- A command other than the two of RESET leaves RESET, the straps and the blocks it does not touch as they are. -/
theorem after_keeps (c : Instr) (ha : c ≠ .resetAsserted)
    (hr : ∀ psel commission depol, c ≠ .resetRelease psel commission depol) (d : Lc44) :
    d.keepsOutside (touches c) (d.after c) := by
  cases c with
  | resetAsserted => exact absurd rfl ha
  | resetRelease psel commission depol => exact absurd rfl (hr psel commission depol)
  -- the bus ports and the trial
  | iPortCycle x =>
    refine keeps_after (exec_iPortCycle x) (fun d => ?_) d
    split
    · exact keeps_refl _ _
    · exact keeps_arbitrate_after (keeps_takeCycle x d)
  | memoryAnswer a =>
    refine keeps_after (exec_memoryAnswer a) (fun d => ?_) d
    cases a with
    | ok w => exact keeps_memoryEnd _ d
    | fault => exact keeps_memoryEnd _ d
  | memoryTimeout => exact keeps_after exec_memoryTimeout (keeps_memoryEnd _) d
  | heldWriteRelease => exact keeps_after exec_heldWriteRelease (fun d => keeps_arbitrate_after (keeps_releaseHeld d)) d
  | markConfirm =>
    exact keeps_after exec_markConfirm
      (keeps_mark fun x => keeps_arbitrate_after (keeps_beginClosing .mark x)) d
  | markAbort =>
    exact keeps_after exec_markAbort
      (keeps_mark fun x => keeps_arbitrate_after (keeps_takeRollbackCause .abortedMark none x)) d
  | trialTimerExpiry =>
    refine keeps_after exec_trialTimerExpiry (fun d => ?_) d
    split
    · exact keeps_refl _ _
    · split
      · exact keeps_arbitrate_after (keeps_takeRollbackCause _ _ _)
      · split
        · exact keeps_mono (keeps_onTru _ _)
        · exact keeps_refl _ _
  | truCaptureNotice n =>
    refine keeps_after (l := busBlocks) (exec_truCaptureNotice n) (fun d => keeps_deliverTru _ d fun x => ?_) d
    split
    · exact keeps_lossReport _ _
    · exact keeps_refl _ _
  | truStaleNotice k =>
    exact keeps_after (l := busBlocks) (exec_truStaleNotice k) (fun d => keeps_deliverTru _ d (keeps_lossReport k)) d
  -- captures, mute and tone
  | observeHandoff h =>
    exact keeps_after (l := [.rcu, .raised]) (exec_observeHandoff h)
      (fun d => keeps_trans (keeps_takenRcu h d) (keeps_takeHandoff h _)) d
  | reportTimerExpiry k =>
    refine keeps_after (exec_reportTimerExpiry k) (fun d => ?_) d
    split
    · exact keeps_becomeStale _ _
    · exact keeps_refl _ _
  | mastLevelChange asserted => exact keeps_onTmu _ d
  | debounceTimerExpiry =>
    refine keeps_after exec_debounceTimerExpiry (fun d => ?_) d
    split
    · exact keeps_acceptLevel _
    · exact keeps_refl _ _
  | holdOffExpiry => exact keeps_after exec_holdOffExpiry (fun d => keeps_onTmu _ d) d
  | tmuCaptureNotice n =>
    exact keeps_after (l := [.tmu, .raised]) (exec_tmuCaptureNotice n)
      (fun d => keeps_deliverTmu _ d fun _ => keeps_mono (keeps_changeView _ _ _)) d
  | tmuStaleNotice k =>
    exact keeps_after (l := [.tmu, .raised]) (exec_tmuStaleNotice k)
      (fun d => keeps_deliverTmu _ d fun _ => keeps_mono (keeps_changeView _ _ _)) d
  | leftTrackReport m =>
    exact keeps_after (l := [.tmu, .raised]) (exec_leftTrackReport m)
      (fun d => keeps_deliverTmu _ d fun _ => keeps_mono (keeps_leftTrack _ _)) d
  | peakResetNotice m =>
    exact keeps_after (l := [.tmu, .raised]) (exec_peakResetNotice m)
      (fun d => keeps_deliverTmu _ d fun _ => keeps_mono (keeps_tonePeakReset _ _)) d
  | groupFlagsChange =>
    exact keeps_after exec_groupFlagsChange (fun d => keeps_trans (keeps_takenTmu _ d) (keeps_changeGroups _)) d
  -- acceptance
  | stepSignal =>
    exact keeps_after exec_stepSignal (fun d => keeps_trans (keeps_takenAcu _ d) (keeps_takeStep _)) d
  | acuCaptureNotice n =>
    exact keeps_after (l := [.acu, .raised]) (exec_acuCaptureNotice n)
      (fun d => keeps_deliverAcu _ d fun _ => keeps_mono (keeps_takeAcuCapture _ _)) d
  | acuStaleNotice k =>
    exact keeps_after (l := [.acu, .raised]) (exec_acuStaleNotice k)
      (fun d => keeps_deliverAcu _ d fun _ => keeps_mono (keeps_takeAcuStale _ _)) d
  | muteNotice =>
    exact keeps_after exec_muteNotice (fun d => keeps_trans (keeps_takenAcu _ d) (keeps_takeMute _)) d
  | rollbackNotice =>
    exact keeps_after exec_rollbackNotice (fun d => keeps_trans (keeps_takenAcu _ d) (keeps_takeRollback _)) d
  | armTimeoutExpiry => exact keeps_after exec_armTimeoutExpiry keeps_armExpired d
  | settleTimerExpiry => exact keeps_after exec_settleTimerExpiry keeps_settleExpired d
  | measureTimerExpiry => exact keeps_after exec_measureTimerExpiry keeps_measureExpired d
  -- time
  | tick => exact keeps_after exec_tick keeps_tickAll d
  | commissioningSecond =>
    refine keeps_after exec_commissioningSecond (fun d => ?_) d
    split
    · exact keeps_tickAll d
    · exact keeps_refl _ _
  | refreshTimerExpiry =>
    exact keeps_after exec_refreshTimerExpiry (fun d => keeps_arbitrate_after (keeps_refreshExpired d)) d
  -- the line's events
  | badFrame code => exact keeps_after (exec_badFrame code) (keeps_takeBadFrame code) d
  | frameDiscarded => exact keeps_after exec_frameDiscarded keeps_discardFrame d
  | lineError => exact keeps_after exec_lineError keeps_lineFailed d
  | gapTimerExpiry => exact keeps_after exec_gapTimerExpiry keeps_gapExpired d
  | responseSent => exact keeps_after exec_responseSent keeps_responseEnded d
  | unknownRequest code body => exact keeps_after (exec_unknownRequest code body) (keeps_unknownTaken code body) d
  | byteReceived b => exact keeps_after (exec_byteReceived b) (keeps_receiveByte b) d
  -- requests
  | ident body => exact keeps_after (exec_ident body) (fun _ => keeps_request keeps_ownIdent) d
  | status body => exact keeps_after (exec_status body) (fun _ => keeps_request keeps_ownStatus) d
  | beginReq body => exact keeps_after (exec_beginReq body) (fun _ => keeps_arbitrate_request keeps_ownBegin) d
  | wipe body =>
    exact keeps_after (l := allBlocks) (exec_wipe body) (fun _ => keeps_mono (keeps_request keeps_ownWipe)) d
  | save body => exact keeps_after (exec_save body) (fun _ => keeps_arbitrate_request keeps_ownSave) d
  | handover body => exact keeps_after (exec_handover body) (fun _ => keeps_arbitrate_request keeps_ownHandover) d
  | loadRegion body => exact keeps_after (exec_loadRegion body) (fun _ => keeps_request keeps_ownLoadRegion) d
  | readRegion body => exact keeps_after (exec_readRegion body) (fun _ => keeps_request keeps_ownReadRegion) d
  | loadRule body => exact keeps_after (exec_loadRule body) (fun _ => keeps_request keeps_ownLoadRule) d
  | readRule body => exact keeps_after (exec_readRule body) (fun _ => keeps_request keeps_ownReadRule) d
  | loadLayout body => exact keeps_after (exec_loadLayout body) (fun _ => keeps_request keeps_ownLoadLayout) d
  | readLayout body => exact keeps_after (exec_readLayout body) (fun _ => keeps_request keeps_ownReadLayout) d
  | setCarrier body => exact keeps_after (exec_setCarrier body) (fun _ => keeps_request keeps_ownSetCarrier) d
  | readCarrier body => exact keeps_after (exec_readCarrier body) (fun _ => keeps_request keeps_ownReadCarrier) d
  | peakReset body => exact keeps_after (exec_peakReset body) (fun _ => keeps_request keeps_ownPeakReset) d
  | clearCapture body => exact keeps_after (exec_clearCapture body) (fun _ => keeps_request keeps_ownClearCapture) d
  | setGroups body => exact keeps_after (exec_setGroups body) (fun _ => keeps_request keeps_ownSetGroups) d
  | setTone body => exact keeps_after (exec_setTone body) (fun _ => keeps_request keeps_ownSetTone) d
  | setTimes body => exact keeps_after (exec_setTimes body) (fun _ => keeps_request keeps_ownSetTimes) d
  | setMirror body => exact keeps_after (exec_setMirror body) (fun _ => keeps_arbitrate_request keeps_ownSetMirror) d
  | muteRelease body => exact keeps_after (exec_muteRelease body) (fun _ => keeps_request keeps_ownMuteRelease) d
  | trialOpen body => exact keeps_after (exec_trialOpen body) (fun _ => keeps_arbitrate_request keeps_ownTrialOpen) d
  | trialConfirm body =>
    exact keeps_after (exec_trialConfirm body) (fun _ => keeps_arbitrate_request keeps_ownTrialConfirm) d
  | trialExtend body => exact keeps_after (exec_trialExtend body) (fun _ => keeps_request keeps_ownTrialExtend) d
  | trialAbort body =>
    exact keeps_after (exec_trialAbort body) (fun _ => keeps_arbitrate_request keeps_ownTrialAbort) d
  | readTrial body => exact keeps_after (exec_readTrial body) (fun _ => keeps_request keeps_ownReadTrial) d
  | overlayDiscard body =>
    exact keeps_after (exec_overlayDiscard body) (fun _ => keeps_request keeps_ownOverlayDiscard) d
  | readOverlay body => exact keeps_after (exec_readOverlay body) (fun _ => keeps_request keeps_ownReadOverlay) d
  | loadStep body => exact keeps_after (exec_loadStep body) (fun _ => keeps_request keeps_ownLoadStep) d
  | readStep body => exact keeps_after (exec_readStep body) (fun _ => keeps_request keeps_ownReadStep) d
  | runStart body => exact keeps_after (exec_runStart body) (fun _ => keeps_request keeps_ownRunStart) d
  | runAbort body => exact keeps_after (exec_runAbort body) (fun _ => keeps_request keeps_ownRunAbort) d
  | readLog body => exact keeps_after (exec_readLog body) (fun _ => keeps_request keeps_ownReadLog) d
  | logClear body => exact keeps_after (exec_logClear body) (fun _ => keeps_request keeps_ownLogClear) d

/-! ## One block of a frame -/

section
variable {l : List Block} {d e : Lc44} (h : d.keepsOutside l e)
include h

theorem keeps_iport (hl : Block.iport ∉ l := by decide) : e.iport = d.iport := h.2.2 .iport hl
theorem keeps_mpc (hl : Block.mpc ∉ l := by decide) : e.mpc = d.mpc := h.2.2 .mpc hl
theorem keeps_ccl (hl : Block.ccl ∉ l := by decide) : e.ccl = d.ccl := h.2.2 .ccl hl
theorem keeps_fgd (hl : Block.fgd ∉ l := by decide) : e.fgd = d.fgd := h.2.2 .fgd hl
theorem keeps_tru (hl : Block.tru ∉ l := by decide) : e.tru = d.tru := h.2.2 .tru hl
theorem keeps_ovu (hl : Block.ovu ∉ l := by decide) : e.ovu = d.ovu := h.2.2 .ovu hl
theorem keeps_rcu (hl : Block.rcu ∉ l := by decide) : e.rcu = d.rcu := h.2.2 .rcu hl
theorem keeps_tmu (hl : Block.tmu ∉ l := by decide) : e.tmu = d.tmu := h.2.2 .tmu hl
theorem keeps_acu (hl : Block.acu ∉ l := by decide) : e.acu = d.acu := h.2.2 .acu hl
theorem keeps_phc (hl : Block.phc ∉ l := by decide) : e.phc = d.phc := h.2.2 .phc hl
theorem keeps_sli (hl : Block.sli ∉ l := by decide) : e.sli = d.sli := h.2.2 .sli hl

end

/-! ## Properties that every step keeps -/

/-- A property of the LC44 that rests on RESET, the straps and the blocks listed. -/
def RestsOn (l : List Block) (P : Lc44 → Prop) : Prop :=
  ∀ d e : Lc44, e.resetAsserted = d.resetAsserted → e.straps = d.straps → (∀ b ∈ l, d.sameBlock e b) → P d → P e

/-- An operation that leaves its blocks alone keeps a property. -/
theorem RestsOn.of_keeps {l k : List Block} {P : Lc44 → Prop} (hP : RestsOn l P) {d e : Lc44}
    (h : d.keepsOutside k e) (g : P d) (hk : ∀ b ∈ l, b ∉ k := by decide) : P e :=
  hP d e h.1 h.2.1 (fun b hb => h.2.2 b (hk b hb)) g

/-- A command that touches none of its blocks keeps a property. -/
theorem RestsOn.after {l : List Block} {P : Lc44 → Prop} (hP : RestsOn l P) {c : Instr} (ha : c ≠ .resetAsserted)
    (hr : ∀ psel commission depol, c ≠ .resetRelease psel commission depol) (hl : ∀ b ∈ l, b ∉ touches c)
    {d : Lc44} (g : P d) : P (d.after c) :=
  hP.of_keeps (after_keeps c ha hr d) g hl

/-- Whether a command is none of RESET's two and touches no block of the list: a test that `rfl` runs. -/
def leavesAlone (l : List Block) : Instr → Bool
  | .resetAsserted | .resetRelease _ _ _ => false
  | c => l.all fun b => !(touches c).contains b

/-- A command that leaves a property's blocks alone keeps it. -/
theorem RestsOn.elsewhere {l : List Block} {P : Lc44 → Prop} (hP : RestsOn l P) {c : Instr}
    (h : leavesAlone l c = true) {d : Lc44} (g : P d) : P (d.after c) := by
  unfold leavesAlone at h
  split at h
  next => cases h
  next => cases h
  next ha hr =>
    exact hP.after ha hr (fun b hb => by simpa using List.all_eq_true.1 h b hb) g

/-- A command that is an effect keeps a property that its function keeps while RESET is released. -/
theorem after_of_keeps {P : Lc44 → Prop} {c : Instr} {f : Lc44 → Lc44} (hc : ∀ s, exec c s = s.effect f) {d : Lc44}
    (hf : d.resetAsserted = false → P (f d)) (g : P d) : P (d.after c) := by
  rw [after_of_effect hc]
  cases hr : d.resetAsserted with
  | false => exact hf hr
  | true => exact g

/-- What every command keeps every step keeps: on an empty queue a step is idle (log 4). -/
theorem step_keeps {P : Lc44 → Prop} (h : ∀ (c : Instr) (d : Lc44), P d → P (d.after c)) {s t : State}
    (g : P s.part) (hs : step s = .next t) : P t.part := by
  unfold step at hs
  split at hs
  next =>
    obtain rfl := Host.Outcome.next.inj hs
    exact g
  next c rest _ =>
    rw [exec_eq_after] at hs
    obtain rfl := Host.Outcome.next.inj hs
    exact h c _ g

end Sys2Proof.Machine
end

