-- ==== Sys2Proof/Proofs/Ends.lean ====
section
/-! SUPPORT. The ends of M-port cycles and the properties they keep (R21): header words, restores and the fold keep every
stable property; and what a property that rests on none of the bus blocks (RCU, TMU, ACU) still needs of PHC. -/

namespace Sys2Proof.Machine

set_option Elab.async false

/-! ## Stable properties -/

section
variable {P : Lc44 → Prop} (S : Stable P)
include S

/-- The entry check keeps a stable property. -/
theorem Stable.entryCheck {d : Lc44} (g : P d) : P (entryCheck d) := by
  unfold Machine.entryCheck
  split
  · exact S.takeRollbackCause _ _ g
  · exact g

/-- A close that succeeds keeps a stable property. -/
theorem Stable.closeSucceeds {d : Lc44} (g : P d) : P (closeSucceeds d) := by
  unfold Machine.closeSucceeds
  dsimp only
  split
  · exact S.answer _ _ _ (Nat.zero_le _) (S.tru _ _ g)
  · exact S.tru _ _ g

/-- A close that fails keeps a stable property. -/
theorem Stable.closeFails {d : Lc44} (g : P d) : P (closeFails d) := by
  unfold Machine.closeFails
  dsimp only
  have open_ : ∀ b : Bool, P (if b then Machine.answer .noMem [] (d.onTru fun t =>
      { t with state := .open, work := .idle, closeSource := none, expiryHeld := false })
    else (d.onTru fun t => { t with state := .open, work := .idle, closeSource := none, expiryHeld := false }).onTru
      (Tru.onOutcome fun o => { o with confirmFailures := o.confirmFailures.map (satInc Config.max8) })) := by
    intro b
    split
    · exact S.answer _ _ _ (Nat.zero_le _) (S.tru _ _ g)
    · exact S.tru _ _ (S.tru _ _ g)
  split
  · exact S.takeRollbackCause _ _ (open_ _)
  · exact S.entryCheck (open_ _)

/-- An open that fails keeps a stable property. -/
theorem Stable.failOpen {d : Lc44} (f : Tru → Tru) (g : P d) : P (failOpen f d) :=
  S.answer _ _ _ (Nat.zero_le _) (S.tru _ _ g)

/-- The entry to OPEN keeps a stable property. -/
theorem Stable.enterOpen {d : Lc44} (g : P d) : P (enterOpen d) :=
  S.entryCheck (S.answer _ _ _ (by simp) (S.tru _ _ g))

/-- The end of a rollback keeps a stable property. -/
theorem Stable.endRollback {d : Lc44} (g : P d) : P (endRollback d) := by
  unfold Machine.endRollback
  exact S.tru _ _ g

/-- A header word written keeps a stable property. -/
theorem Stable.headerWritten {d : Lc44} (step : HeaderStep) (g : P d) : P (headerWritten step d) := by
  cases step with
  | staleState | openCount | endState => exact S.requestHeader _ _ _ g
  | staleCount => exact S.requestHeader _ _ _ (S.tru _ _ (S.tru _ _ g))
  | openState => exact S.enterOpen g
  | closeState => exact S.requestHeader _ _ _ (S.closeSucceeds g)
  | closeCount => exact S.tru _ _ g
  | endCount => exact S.endRollback g

/-- A header word that failed twice keeps a stable property. -/
theorem Stable.headerFailed {d : Lc44} (step : HeaderStep) (timedOut : Bool) (g : P d) :
    P (headerFailed step timedOut d) := by
  cases step with
  | staleState | staleCount | openCount | openState => exact S.failOpen _ g
  | closeState =>
    simp only [Machine.headerFailed]
    split
    · exact S.tru _ _ (S.closeSucceeds g)
    · exact S.closeFails g
  | closeCount => exact S.tru _ _ g
  | endState => exact S.endRollback (S.tru _ _ g)
  | endCount => exact S.endRollback g

/-- The end of a header word keeps a stable property. -/
theorem Stable.headerEnded {d : Lc44} (f : Option MFailure) (g : P d) : P (headerEnded f d) := by
  unfold Machine.headerEnded
  split
  · split
    · exact S.headerWritten _ g
    · dsimp only
      split
      · exact S.headerFailed _ _ g
      · exact S.requestHeader _ _ _ g
  · exact g

/-- The end of a restore keeps a stable property. -/
theorem Stable.restoreEnded {d : Lc44} (f : Option MFailure) (g : P d) : P (restoreEnded f d) := by
  unfold Machine.restoreEnded
  split
  · split
    · exact S.restoreNext (S.tru _ _ g)
    · exact S.mpc _ _ (S.tru _ _ g)
    · exact S.restoreNext (S.tru _ _ g)
  · exact g

/-- The end of an M-port cycle keeps a stable property that a failed fold, the mirror and PHC keep (R21). -/
theorem Stable.memoryEnd (hfold : ∀ w d, P d → P (foldFailed w d)) (hmirror : ∀ f d, P d → P (mirrorEnded f d))
    (hphc : ∀ e d, P d → P (phcEnded e d)) {d : Lc44} (e : MEnd) (g : P d) : P (memoryEnd e d) := by
  unfold Machine.memoryEnd
  split
  · exact g
  · apply S.arbitrate
    have ge := S.mpc (Mpc.ended ‹_› e) d g
    unfold dispatchEnd
    split
    · exact S.fwdEnded _ ge
    · exact S.restoreEnded _ ge
    · split
      · exact ge
      next q rest _ =>
        have gq := S.mpc (fun m => { m with intQueue := rest }) _ ge
        cases q.owner with
        | tru => exact S.headerEnded _ gq
        | ovu => exact S.foldEnded _ gq fun w => hfold w _ gq
        | phc => exact hphc _ _ gq
    · exact hmirror _ _ ge

end

/-! ## BEGIN and WIPE, block by block -/

/-- What the last part of BEGIN and WIPE touches. -/
theorem keeps_mirrorToDefaults (d : Lc44) : d.keepsOutside [.mpc, .sli, .ccl] (mirrorToDefaults d) :=
  keeps_trans (keeps_setMirror _ _ _) (keeps_onSli _ _)

theorem commonReset_acu (next : Nat) (d : Lc44) : (commonReset next d).acu = { Acu.reset with nextSequence := next } :=
  (keeps_acu (keeps_onPhc _ _)).trans (keeps_acu (keeps_mirrorToDefaults _))

theorem commonReset_tmu (next : Nat) (d : Lc44) : (commonReset next d).tmu = d.tmu.toDefaults := by
  refine (keeps_tmu (keeps_onPhc _ _)).trans ((keeps_tmu (keeps_mirrorToDefaults _)).trans ?_)
  refine (keeps_tmu (keeps_onAcu _ _)).trans (congrArg Tmu.toDefaults ?_)
  refine (keeps_tmu (keeps_onRcu _ _)).trans ((keeps_tmu (keeps_clearMaps _ _)).trans ?_)
  refine (keeps_tmu (keeps_onOvu _ _)).trans ((keeps_tmu (keeps_onTru _ _)).trans ?_)
  exact (keeps_tmu (keeps_unliveRules _ _)).trans rfl

theorem commonReset_rcu (next : Nat) (d : Lc44) : (commonReset next d).rcu = d.rcu.toReset := by
  refine (keeps_rcu (keeps_onPhc _ _)).trans ((keeps_rcu (keeps_mirrorToDefaults _)).trans ?_)
  refine (keeps_rcu (keeps_onAcu _ _)).trans ((keeps_rcu (keeps_onTmu _ _)).trans (congrArg Rcu.toReset ?_))
  refine (keeps_rcu (keeps_clearMaps _ _)).trans ((keeps_rcu (keeps_onOvu _ _)).trans ?_)
  exact (keeps_rcu (keeps_onTru _ _)).trans ((keeps_rcu (keeps_unliveRules _ _)).trans rfl)

/-! ## RESET's release, block by block -/

/-- RESET's release leaves alone what neither samples a level nor starts LOAD (R179). -/
theorem release_rcu (straps : Straps) (d : Lc44) : (release straps d).rcu = d.rcu := by
  unfold release
  refine (keeps_rcu (keeps_arbitrate _)).trans ((keeps_rcu (keeps_loadNext _ _)).trans ?_)
  rfl

theorem release_acu (straps : Straps) (d : Lc44) : (release straps d).acu = d.acu := by
  unfold release
  refine (keeps_acu (keeps_arbitrate _)).trans ((keeps_acu (keeps_loadNext _ _)).trans ?_)
  rfl

/-! ## Requests -/

/-- A request keeps it when its owner does: the checks before the owner answer, and touch no more. -/
theorem RestsOn.request {P : Lc44 → Prop} {l : List Block} (hP : RestsOn l P) (hl : ∀ b ∈ l, b ∉ [Block.sli]) {r : Req}
    {owner : List Byte → Lc44 → Lc44} {body : List Byte} {d : Lc44} (h : ∀ e : Lc44, P e → P (owner body e))
    (g : P d) : P (request r owner body d) := by
  unfold Machine.request onFrame
  split
  · exact g
  · split
    · exact hP.of_keeps (keeps_onSli _ _) g hl
    · have gt := hP.of_keeps (keeps_takeFrame r.code body d) g hl
      unfold dispatchRequest
      split
      · exact hP.of_keeps (keeps_answer _ _ _) gt hl
      · split
        · exact h _ gt
        · exact hP.of_keeps (keeps_answer _ _ _) gt hl

/-! ## Properties of RCU, TMU and ACU -/

section
variable {P : Lc44 → Prop} {l : List Block} (hP : RestsOn l P) (hl : ∀ b ∈ l, b ∉ busBlocks)
include hP hl

/-- An operation that touches bus blocks alone keeps a property of the others. -/
theorem RestsOn.bus {d e : Lc44} {k : List Block} (h : d.keepsOutside k e) (g : P d)
    (hk : k ⊆ busBlocks := by decide) : P e :=
  hP.of_keeps h g fun b hb hb' => hl b hb (hk hb')

/-- A property that rests on none of the bus blocks is stable. -/
theorem RestsOn.stable : Stable P where
  iport _ _ g := hP.bus hl (keeps_onIport _ _) g
  mpc _ _ g := hP.bus hl (keeps_onMpc _ _) g
  ccl _ _ g := hP.bus hl (keeps_onCcl _ _) g
  fgd _ _ g := hP.bus hl (keeps_onFgd _ _) g
  tru _ _ g := hP.bus hl (keeps_onTru _ _) g
  ovu _ _ g := hP.bus hl (keeps_onOvu _ _) g
  answer _ _ _ _ g := hP.bus hl (keeps_answer _ _ _) g
  raised _ _ g := hP.bus hl (keeps_onRaised _ _) g
  foldDone _ g := hP.bus hl (keeps_foldDone _) g

/-- PHC keeps such a property when the effect of BEGIN, the items of a LOAD and a change of phase do. -/
theorem RestsOn.phcEnded (hbegin : ∀ d, P d → P (beginEffect d)) (hload : ∀ staged d, P d → P (putInForce staged d))
    (hphase : ∀ p d, P d → P (setPhase p d)) (e : MEnd) {d : Lc44} (g : P d) : P (phcEnded e d) := by
  unfold Machine.phcEnded
  split
  · exact g
  · unfold probeEnded
    dsimp only
    have gi := hP.bus hl (keeps_onPhc (fun p => { p with work := .idle }) d) g
    split
    · exact hP.bus hl (keeps_answer _ _ _) gi
    · exact hP.bus hl (keeps_answer _ _ _) (hbegin _ gi)
  · unfold imageWriteEnded
    split
    · dsimp only
      have gi := hP.bus hl (keeps_onPhc (Phc.onRecord fun r => { r with writes := r.writes + 1 }) d) g
      split
      · exact hP.bus hl (keeps_writingFailed _ _ _) gi
      · split
        · exact hP.bus hl (keeps_trans (l := [.mpc, .phc]) (keeps_onPhc _ _) (keeps_requestImageWrite _)) gi
        · unfold writingDone
          dsimp only
          split
          · exact hphase _ _ (hP.bus hl (keeps_onPhc _ _) gi)
          · exact hP.bus hl (keeps_onPhc _ _) gi
    · exact g
  · split
    · exact hP.bus hl (keeps_loadEndsWith _ _) g
    · unfold loadWordRead
      split
      · exact hP.bus hl (keeps_loadNext _ _) g
      · split
        · exact hP.bus hl (keeps_loadEndsWith _ _) g
        · split
          · exact hP.bus hl (keeps_loadNext _ _) g
          · split
            · exact hP.bus hl (keeps_loadEndsWith _ _) (hload _ _ g)
            · exact hP.bus hl (keeps_loadEndsWith _ _) g
  · split
    · exact hP.bus hl (keeps_recoverFailed _ _ _) g
    · exact hP.bus hl (keeps_recoverOk _ _ _ _) g

/-- The end of an M-port cycle keeps such a property under the same conditions. -/
theorem RestsOn.memoryEnd (hbegin : ∀ d, P d → P (beginEffect d)) (hload : ∀ staged d, P d → P (putInForce staged d))
    (hphase : ∀ p d, P d → P (setPhase p d)) (e : MEnd) {d : Lc44} (g : P d) : P (memoryEnd e d) :=
  (hP.stable hl).memoryEnd (fun _ _ g => hP.bus hl (keeps_foldFailed _ _) g)
    (fun _ _ g => hP.bus hl (keeps_mirrorEnded _ _) g) (fun e _ g => hP.phcEnded hl hbegin hload hphase e g) e g

end

end Sys2Proof.Machine
end

