-- ==== Sys2Proof/Proofs/MuteLaw.lean ====
section
/-! SUPPORT. The mute machine stays coherent (R123 to R128): what the changes of TMU do to the mute state, its timers and
the MAST levels, that the tone leaves them alone, and from these the law of every step. -/

namespace Sys2Proof.Machine

set_option Elab.async false

/-! ## TMU alone -/

/-- MUTED exactly under an accepted MAST, the hold-off timer exactly in HOLDOFF, the debounce timer exactly while the
levels differ (R123 to R128). -/
def Tmu.coherent (t : Tmu) : Prop :=
  (t.mute = .muted ↔ t.mastAccepted = true) ∧ (t.holdoff.isSome = true ↔ t.mute = .holdoff) ∧
    (t.debounce.isSome = true ↔ t.mastRaw ≠ t.mastAccepted)

/-- A tick leaves it running whether a timer runs. -/
@[simp] theorem isSome_tickTimer (x : Option Nat) : (tickTimer x).isSome = x.isSome := by cases x <;> rfl

/-- The tone's recomputation leaves the mute machine alone. -/
theorem coherent_recomputed (p : Phase) {t : Tmu} (h : t.coherent) : (t.recomputed p).coherent := h

/-- A tick keeps the mute machine coherent: it stops no timer. -/
theorem coherent_tick {t : Tmu} (h : t.coherent) : t.tick.coherent := by
  simpa [Tmu.coherent, Tmu.tick] using h

/-- A change of the raw level loads or cancels the debounce timer (R123). -/
theorem coherent_levelChange (asserted : Bool) {t : Tmu} (h : t.coherent) : (t.levelChange asserted false).coherent := by
  obtain ⟨hmute, hholdoff, hdebounce⟩ := h
  unfold Tmu.levelChange
  split
  · exact ⟨hmute, hholdoff, hdebounce⟩
  · refine ⟨hmute, hholdoff, ?_⟩
    by_cases ha : asserted = t.mastAccepted <;> simp [ha]

/-- The hold-off ends in CLEAR, its timer stopped (R127, R128). -/
theorem coherent_released {t : Tmu} (h : t.coherent) (hm : t.mute = .holdoff) :
    ({ t with mute := .clear, holdoff := none } : Tmu).coherent := by
  obtain ⟨hmute, -, hdebounce⟩ := h
  refine ⟨?_, by simp, hdebounce⟩
  simpa [hm] using hmute

/-! ## The LC44 -/

/-- The mute machine is coherent while RESET is released. -/
def Lc44.muteCoherent (d : Lc44) : Prop := d.resetAsserted = false → d.tmu.coherent

theorem muteCoherent_restsOn : RestsOn [.tmu] Lc44.muteCoherent := by
  intro d e hreset _ hsame g hr
  have htmu : e.tmu = d.tmu := hsame .tmu (by simp)
  exact htmu ▸ g (hreset ▸ hr)

theorem tmu_not_bus : ∀ b ∈ [Block.tmu], b ∉ busBlocks := by decide

theorem muteCoherent_stable : Stable Lc44.muteCoherent := muteCoherent_restsOn.stable tmu_not_bus

/-- A change of TMU that keeps the mute machine coherent. -/
theorem muteCoherent_onTmu {d : Lc44} {f : Tmu → Tmu} (hf : d.tmu.coherent → (f d.tmu).coherent)
    (g : d.muteCoherent) : (d.onTmu f).muteCoherent :=
  fun hr => hf (g hr)

theorem muteCoherent_recomputeTone {d : Lc44} (g : d.muteCoherent) : (recomputeTone d).muteCoherent :=
  muteCoherent_onTmu (coherent_recomputed _) g

theorem muteCoherent_setPhase (p : Phase) {d : Lc44} (g : d.muteCoherent) : (setPhase p d).muteCoherent :=
  muteCoherent_recomputeTone (muteCoherent_restsOn.of_keeps
    (keeps_trans (l := [.phc, .ccl]) (keeps_onPhc (fun x => { x with phase := p }) d) (keeps_syncCcl _)) g)

/-- BEGIN and WIPE leave the mute machine as it is (R137). -/
theorem muteCoherent_commonReset (next : Nat) {d : Lc44} (g : d.muteCoherent) : (commonReset next d).muteCoherent := by
  intro hr
  rw [(keeps_commonReset next d).1] at hr
  rw [commonReset_tmu]
  exact g hr

theorem muteCoherent_beginEffect {d : Lc44} (g : d.muteCoherent) : (beginEffect d).muteCoherent :=
  muteCoherent_setPhase _ (muteCoherent_restsOn.of_keeps (keeps_onPhc _ _) (muteCoherent_commonReset 1 g))

theorem muteCoherent_wipeEffect {d : Lc44} (g : d.muteCoherent) : (wipeEffect d).muteCoherent :=
  muteCoherent_restsOn.of_keeps (keeps_raiseTmu _ _) (muteCoherent_restsOn.of_keeps (keeps_raiseTmu _ _)
    (muteCoherent_setPhase .transparent (muteCoherent_commonReset _ g)))

/-- LOAD replaces the tone settings and the hold-off setting alone (R129, R137). -/
theorem muteCoherent_loadTmu (staged : List Word) {d : Lc44} (g : d.muteCoherent) : (loadTmu staged d).muteCoherent :=
  fun hr => g hr

theorem muteCoherent_putInForce (staged : List Word) {d : Lc44} (g : d.muteCoherent) :
    (putInForce staged d).muteCoherent := by
  unfold putInForce
  refine muteCoherent_setPhase _ ?_
  refine muteCoherent_restsOn.of_keeps (keeps_onPhc _ _) ?_
  refine muteCoherent_restsOn.of_keeps (keeps_loadSli _ _) ?_
  refine muteCoherent_restsOn.of_keeps (keeps_onMpc _ _) ?_
  refine muteCoherent_loadTmu _ ?_
  refine muteCoherent_restsOn.of_keeps (keeps_onAcu _ _) ?_
  refine muteCoherent_restsOn.of_keeps (keeps_onFgd _ _) ?_
  refine muteCoherent_restsOn.of_keeps (keeps_loadCcl _ _) ?_
  exact muteCoherent_restsOn.of_keeps (keeps_onRcu _ _) g

theorem muteCoherent_memoryEnd (e : MEnd) {d : Lc44} (g : d.muteCoherent) : (memoryEnd e d).muteCoherent :=
  muteCoherent_restsOn.memoryEnd tmu_not_bus (fun _ => muteCoherent_beginEffect)
    (fun staged _ => muteCoherent_putInForce staged) (fun p _ => muteCoherent_setPhase p) e g

/-- A MAST asserted event leads to MUTED, with the hold-off stopped (R125). -/
theorem mastAsserted_tmu (d : Lc44) : (mastAsserted d).tmu = { d.tmu with mute := .muted, holdoff := none } := by
  unfold mastAsserted
  dsimp only
  split <;> rfl

/-- The accepted level takes the raw level: MUTED when it is ASSERTED, and from MUTED the hold-off or CLEAR when it is
RELEASED (R125, R126). -/
theorem muteCoherent_acceptLevel {d : Lc44} (g : d.muteCoherent) : (acceptLevel d).muteCoherent := by
  intro hr
  rw [(keeps_acceptLevel d).1] at hr
  obtain ⟨hmute, hholdoff, -⟩ := g hr
  cases hraw : d.tmu.mastRaw with
  | true =>
    have haccept : acceptLevel d = mastAsserted (d.onTmu fun t => { t with mastAccepted := t.mastRaw, debounce := none }) :=
      if_pos hraw
    rw [haccept, mastAsserted_tmu]
    exact ⟨by simp [hraw], by simp, by simp⟩
  | false =>
    simp only [acceptLevel, mastReleased, Lc44.onTmu_tmu, hraw, Bool.false_eq_true, if_false]
    by_cases hm : d.tmu.mute = .muted
    · by_cases h0 : d.tmu.holdoffSetting = 0 <;> simp [hm, h0, Tmu.coherent]
    · simp only [hm, if_false]
      exact ⟨by simp [hm], hholdoff, by simp⟩

theorem muteCoherent_changeView (c : Carrier) (v : CarrierView) {d : Lc44} (g : d.muteCoherent) :
    (changeView c v d).muteCoherent := by
  unfold changeView
  dsimp only
  split
  · exact muteCoherent_recomputeTone g
  · exact g

theorem muteCoherent_leftTrack (m : CarrierSet) {d : Lc44} (g : d.muteCoherent) : (leftTrack m d).muteCoherent := by
  unfold leftTrack
  dsimp only
  split
  · exact muteCoherent_recomputeTone g
  · exact g

theorem muteCoherent_tonePeakReset (m : CarrierSet) {d : Lc44} (g : d.muteCoherent) :
    (tonePeakReset m d).muteCoherent := by
  unfold tonePeakReset
  split
  · exact muteCoherent_recomputeTone g
  · exact g

theorem muteCoherent_changeGroups {d : Lc44} (g : d.muteCoherent) : (changeGroups d).muteCoherent := by
  unfold changeGroups
  split
  · exact muteCoherent_recomputeTone g
  · exact g

theorem muteCoherent_deliverTmu {e : TmuEvent} {f : Lc44 → Lc44} {d : Lc44}
    (hf : ∀ x : Lc44, x.muteCoherent → (f x).muteCoherent) (g : d.muteCoherent) : (deliverTmu e f d).muteCoherent := by
  unfold deliverTmu
  split
  · exact hf _ g
  · exact g

/-! ## Requests -/

theorem muteCoherent_answer (s : Status) (data : List Byte) {d : Lc44} (g : d.muteCoherent) :
    (answer s data d).muteCoherent :=
  muteCoherent_restsOn.of_keeps (keeps_answer _ _ _) g

theorem muteCoherent_ownWipe (b : List Byte) {d : Lc44} (g : d.muteCoherent) : (ownWipe b d).muteCoherent := by
  unfold ownWipe
  split
  · exact muteCoherent_answer _ _ (muteCoherent_wipeEffect g)
  · exact muteCoherent_answer _ _ g

theorem muteCoherent_ownSetTone (b : List Byte) {d : Lc44} (g : d.muteCoherent) : (ownSetTone b d).muteCoherent := by
  unfold ownSetTone
  split
  · exact muteCoherent_answer _ _ g
  · exact muteCoherent_answer _ _ (muteCoherent_recomputeTone g)

theorem muteCoherent_ownSetTimes (b : List Byte) {d : Lc44} (g : d.muteCoherent) :
    (ownSetTimes b d).muteCoherent := by
  unfold ownSetTimes
  dsimp only
  split
  · exact muteCoherent_answer _ _ (muteCoherent_restsOn.of_keeps (keeps_setReportTimes _ _ _) g)
  · exact muteCoherent_answer _ _ g

theorem muteCoherent_ownMuteRelease (b : List Byte) {d : Lc44} (g : d.muteCoherent) :
    (ownMuteRelease b d).muteCoherent := by
  unfold ownMuteRelease
  split
  · exact muteCoherent_answer _ _ g
  · exact muteCoherent_answer _ _ g
  next hm => exact muteCoherent_answer _ _ (muteCoherent_onTmu (fun h => coherent_released h hm) g)

/-! ## Every command -/

/-- At RESET's release the mute state follows the MAST level, and no timer runs (R124, R179). -/
theorem muteCoherent_release (straps : Straps) (d : Lc44) : (release straps d).muteCoherent := by
  unfold release
  dsimp only
  refine muteCoherent_stable.arbitrate (muteCoherent_restsOn.of_keeps (keeps_loadNext _ _) ?_)
  refine muteCoherent_restsOn.of_keeps (keeps_onPhc _ _) fun _ => ?_
  exact ⟨by cases h : d.tmu.mastRaw <;> simp [h], by cases h : d.tmu.mastRaw <;> simp [h], by simp⟩

/-- Every command keeps the mute machine coherent: those that do not touch TMU by their frame, the others by what they
do to it. -/
theorem after_muteCoherent (c : Instr) (d : Lc44) (g : d.muteCoherent) : (d.after c).muteCoherent := by
  cases c with
  | resetAsserted =>
    rw [after_resetAsserted]
    exact fun hr => nomatch hr
  | resetRelease psel commission depol =>
    rw [after_resetRelease]
    split
    · exact muteCoherent_release _ _
    · exact g
  | memoryAnswer a =>
    refine after_of_keeps (exec_memoryAnswer a) (fun _ => ?_) g
    cases a with
    | ok w => exact muteCoherent_memoryEnd _ g
    | fault => exact muteCoherent_memoryEnd _ g
  | memoryTimeout => exact after_of_keeps exec_memoryTimeout (fun _ => muteCoherent_memoryEnd _ g) g
  | mastLevelChange asserted =>
    intro hr
    have hr' : d.resetAsserted = false := hr
    show (d.tmu.levelChange asserted d.resetAsserted).coherent
    rw [hr']
    exact coherent_levelChange asserted (g hr')
  | debounceTimerExpiry =>
    refine after_of_keeps exec_debounceTimerExpiry (fun _ => ?_) g
    split
    · exact muteCoherent_acceptLevel g
    · exact g
  | holdOffExpiry =>
    refine after_of_keeps exec_holdOffExpiry (fun _ => muteCoherent_onTmu (fun h => ?_) g) g
    split
    next hm => exact coherent_released h hm.1
    next => exact h
  | tmuCaptureNotice n =>
    exact after_of_keeps (exec_tmuCaptureNotice n)
      (fun _ => muteCoherent_deliverTmu (fun _ => muteCoherent_changeView _ _) g) g
  | tmuStaleNotice k =>
    exact after_of_keeps (exec_tmuStaleNotice k)
      (fun _ => muteCoherent_deliverTmu (fun _ => muteCoherent_changeView _ _) g) g
  | leftTrackReport m =>
    exact after_of_keeps (exec_leftTrackReport m)
      (fun _ => muteCoherent_deliverTmu (fun _ => muteCoherent_leftTrack _) g) g
  | peakResetNotice m =>
    exact after_of_keeps (exec_peakResetNotice m)
      (fun _ => muteCoherent_deliverTmu (fun _ => muteCoherent_tonePeakReset _) g) g
  | groupFlagsChange => exact after_of_keeps exec_groupFlagsChange (fun _ => muteCoherent_changeGroups g) g
  | tick => exact after_of_keeps exec_tick (fun hr _ => coherent_tick (g hr)) g
  | commissioningSecond =>
    refine after_of_keeps exec_commissioningSecond (fun hr => ?_) g
    split
    · exact fun _ => coherent_tick (g hr)
    · exact g
  | wipe body =>
    exact after_of_keeps (exec_wipe body)
      (fun _ => muteCoherent_restsOn.request (by decide) (fun _ => muteCoherent_ownWipe _) g) g
  | setTone body =>
    exact after_of_keeps (exec_setTone body)
      (fun _ => muteCoherent_restsOn.request (by decide) (fun _ => muteCoherent_ownSetTone _) g) g
  | setTimes body =>
    exact after_of_keeps (exec_setTimes body)
      (fun _ => muteCoherent_restsOn.request (by decide) (fun _ => muteCoherent_ownSetTimes _) g) g
  | muteRelease body =>
    exact after_of_keeps (exec_muteRelease body)
      (fun _ => muteCoherent_restsOn.request (by decide) (fun _ => muteCoherent_ownMuteRelease _) g) g
  | _ =>
    exact muteCoherent_restsOn.elsewhere (by rfl) g

/-- Settles O40: every command keeps the mute machine coherent, and so does every step. -/
theorem muteMachineStaysCoherent : Obligations.MuteMachineStaysCoherent :=
  fun _ _ g h => step_keeps (P := Lc44.muteCoherent) after_muteCoherent g h

end Sys2Proof.Machine
end

