-- ==== Sys2Proof/Proofs/PeakLaw.lean ====
section
/-! SUPPORT. Peaks and verdicts (R107, R112): a capture raises the peak to its RSL at least and judges it, every other
change of a capture record keeps the two in step, and from these the law of every step and the table of verdicts. -/

namespace Sys2Proof.Machine

set_option Elab.async false

/-! ## One value per carrier -/

/-- One carrier's value replaced, read at a carrier. -/
theorem PerCarrier_get_set {α : Type} (p : PerCarrier α) (k c : Carrier) (a : α) :
    (p.set k a).get c = if c = k then a else p.get c := by
  revert c k
  intro k c
  match k, c with
  | 0, 0 | 0, 1 | 0, 2 | 0, 3 | 1, 0 | 1, 1 | 1, 2 | 1, 3 | 2, 0 | 2, 1 | 2, 2 | 2, 3 | 3, 0 | 3, 1 | 3, 2
  | 3, 3 => rfl

/-- The same value for every carrier, read at a carrier. -/
@[simp] theorem PerCarrier_get_all {α : Type} (a : α) (c : Carrier) : (PerCarrier.all a).get c = a := by
  match c with
  | 0 | 1 | 2 | 3 => rfl

/-! ## One capture record -/

/-- The peak is at least the last RSL, and the verdict is that on the peak (R107, R112). -/
def CaptureRecord.peakOk (r : CaptureRecord) : Prop :=
  (∀ p, r.peak = some p → ∃ v, r.lastRsl = some v ∧ v ≤ p.rsl) ∧ r.verdict = verdictOf r.settings r.peak

/-- Judging a record gives it its verdict. -/
theorem peakOk_judged {r : CaptureRecord} (h : ∀ p, r.peak = some p → ∃ v, r.lastRsl = some v ∧ v ≤ p.rsl) :
    r.judged.peakOk :=
  ⟨h, rfl⟩

/-- After a capture the peak is at least the captured RSL (R107). -/
theorem rsl_le_peakAfterCapture {rsl : Int} {tick : BitVec 32} {peak : Option Peak} {p : Peak}
    (h : peakAfterCapture rsl tick peak = some p) : rsl ≤ p.rsl := by
  cases peak with
  | none =>
    obtain rfl := Option.some.inj h
    exact le_refl _
  | some q =>
    simp only [peakAfterCapture] at h
    split at h
    next =>
      obtain rfl := Option.some.inj h
      exact le_refl _
    next hq =>
      obtain rfl := Option.some.inj h
      omega

theorem peakOk_captured (r : CaptureRecord) (b : Buffer) (tick : BitVec 32) (timeout : Nat) (floor : Int) :
    (r.captured b tick timeout floor).peakOk :=
  peakOk_judged fun _ hp => ⟨b.rsl.value, rfl, rsl_le_peakAfterCapture hp⟩

/-- A record with no peak: nothing is compared (R112). -/
theorem peakOk_cleared (settings : CarrierSettings) : (CaptureRecord.cleared settings).peakOk := by
  refine ⟨nofun, ?_⟩
  cases h : settings.expected <;> simp [CaptureRecord.cleared, verdictOf, h]

/-! ## RCU -/

/-- Every carrier's peak and verdict are in step. -/
def Rcu.peaksOk (r : Rcu) : Prop := ∀ c : Carrier, (r.records.get c).peakOk

theorem peaksOk_restsOn : RestsOn [.rcu] fun d => d.rcu.peaksOk := by
  intro d e _ _ hsame g
  have hrcu : e.rcu = d.rcu := hsame .rcu (by simp)
  exact hrcu ▸ g

theorem rcu_not_bus : ∀ b ∈ [Block.rcu], b ∉ busBlocks := by decide

/-- A change of RCU beside its records. -/
theorem peaksOk_of_records {r q : Rcu} (h : q.records = r.records) (g : r.peaksOk) : q.peaksOk :=
  fun c => h ▸ g c

section
variable {d : Lc44}

theorem peaksOk_setRecord (c : Carrier) {x : CaptureRecord} (hx : x.peakOk) (g : d.rcu.peaksOk) :
    (setRecord c x d).rcu.peaksOk := by
  intro k
  simp only [setRecord, Lc44.onRcu_rcu, PerCarrier_get_set]
  split
  · exact hx
  · exact g k

theorem peaksOk_captureAttempt (c : Carrier) (b : Buffer) (g : d.rcu.peaksOk) :
    (captureAttempt c b d).rcu.peaksOk := by
  have gb (b' : Buffer) : (setBuffer c b' d).rcu.peaksOk := g
  unfold captureAttempt
  dsimp only
  split
  · exact peaksOk_restsOn.of_keeps (keeps_sendCapture _ _) (peaksOk_setRecord c (peakOk_captured _ _ _ _ _) (gb _))
  · exact peaksOk_setRecord c (g c) (gb _)

theorem peaksOk_takeHandoff (h : Handoff) (g : d.rcu.peaksOk) : (takeHandoff h d).rcu.peaksOk := by
  unfold takeHandoff
  split
  · split
    · unfold observeWord
      dsimp only
      split
      · exact peaksOk_captureAttempt _ _ g
      · exact g
    · exact g
  · exact g

theorem peaksOk_becomeStale (c : Carrier) (g : d.rcu.peaksOk) : (becomeStale c d).rcu.peaksOk := by
  unfold becomeStale
  dsimp only
  split
  · exact peaksOk_restsOn.of_keeps (keeps_sendStale _ _) (peaksOk_setRecord c (g c) g)
  · exact g

theorem peaksOk_retimeCarrier (timeout : Nat) (c : Carrier) (g : d.rcu.peaksOk) :
    (retimeCarrier timeout c d).rcu.peaksOk := by
  unfold retimeCarrier
  dsimp only
  split
  · split
    · exact peaksOk_becomeStale c g
    · exact peaksOk_setRecord c (g c) g
  · exact g

theorem peaksOk_setReportTimes (timeout : Nat) (floor : Int) (g : d.rcu.peaksOk) :
    (setReportTimes timeout floor d).rcu.peaksOk := by
  unfold setReportTimes
  dsimp only
  exact peaksOk_retimeCarrier _ _ (peaksOk_retimeCarrier _ _ (peaksOk_retimeCarrier _ _ (peaksOk_retimeCarrier _ _ g)))

theorem peaksOk_resetPeaks (m : CarrierSet) (g : d.rcu.peaksOk) : (resetPeaks m d).rcu.peaksOk := by
  intro c
  simp only [resetPeaks, raiseTmu, Lc44.onRaised_rcu, Lc44.onRcu_rcu, PerCarrier_get_mapAll]
  split
  · exact peakOk_judged nofun
  · exact g c

theorem peaksOk_clearCaptures (m : CarrierSet) (g : d.rcu.peaksOk) : (clearCaptures m d).rcu.peaksOk := by
  intro c
  simp only [clearCaptures, raiseTmu, Lc44.onRaised_rcu, Lc44.onRcu_rcu, PerCarrier_get_mapAll]
  split
  · exact peakOk_cleared _
  · exact g c

theorem peaksOk_tick (g : d.rcu.peaksOk) : (tickAll d).rcu.peaksOk := by
  intro c
  show CaptureRecord.peakOk (PerCarrier.get (d.rcu.tick).records c)
  rw [Rcu.tick, PerCarrier_get_mapAll]
  exact g c

/-! ## The phase and the profile -/

theorem peaksOk_setPhase (p : Phase) (g : d.rcu.peaksOk) : (setPhase p d).rcu.peaksOk :=
  peaksOk_restsOn.of_keeps (keeps_setPhase p d) g

/-- BEGIN and WIPE clear every record (R121). -/
theorem peaksOk_toReset (r : Rcu) : r.toReset.peaksOk := by
  intro c
  simp only [Rcu.toReset, Rcu.reset, PerCarrier_get_all]
  exact peakOk_cleared _

theorem peaksOk_commonReset (next : Nat) : (commonReset next d).rcu.peaksOk := by
  rw [commonReset_rcu]
  exact peaksOk_toReset _

theorem peaksOk_beginEffect : (beginEffect d).rcu.peaksOk :=
  peaksOk_setPhase _ (peaksOk_restsOn.of_keeps (keeps_onPhc _ _) (peaksOk_commonReset 1))

theorem peaksOk_wipeEffect : (wipeEffect d).rcu.peaksOk :=
  peaksOk_restsOn.of_keeps (keeps_raiseTmu _ _) (peaksOk_restsOn.of_keeps (keeps_raiseTmu _ _)
    (peaksOk_setPhase .transparent (peaksOk_commonReset _)))

/-- LOAD replaces settings, and judges each record under its own (R120). -/
theorem peaksOk_loadRcu (staged : List Word) (g : d.rcu.peaksOk) : (loadRcu staged d).rcu.peaksOk := by
  intro c
  simp only [loadRcu, Lc44.onRcu_rcu, PerCarrier_get_mapAll]
  exact peakOk_judged (g c).1

theorem peaksOk_putInForce (staged : List Word) (g : d.rcu.peaksOk) : (putInForce staged d).rcu.peaksOk := by
  unfold putInForce
  refine peaksOk_setPhase _ ?_
  refine peaksOk_restsOn.of_keeps (keeps_onPhc _ _) ?_
  refine peaksOk_restsOn.of_keeps (keeps_loadSli _ _) ?_
  refine peaksOk_restsOn.of_keeps (keeps_onMpc _ _) ?_
  refine peaksOk_restsOn.of_keeps (keeps_loadTmu _ _) ?_
  refine peaksOk_restsOn.of_keeps (keeps_onAcu _ _) ?_
  refine peaksOk_restsOn.of_keeps (keeps_onFgd _ _) ?_
  refine peaksOk_restsOn.of_keeps (keeps_loadCcl _ _) ?_
  exact peaksOk_loadRcu _ g

theorem peaksOk_memoryEnd (e : MEnd) (g : d.rcu.peaksOk) : (memoryEnd e d).rcu.peaksOk :=
  peaksOk_restsOn.memoryEnd rcu_not_bus (fun _ _ => peaksOk_beginEffect) (fun staged _ => peaksOk_putInForce staged)
    (fun p _ => peaksOk_setPhase p) e g

/-! ## Requests -/

theorem peaksOk_answer (s : Status) (data : List Byte) (g : d.rcu.peaksOk) : (answer s data d).rcu.peaksOk :=
  peaksOk_restsOn.of_keeps (keeps_answer _ _ _) g

theorem peaksOk_ownWipe (b : List Byte) (g : d.rcu.peaksOk) : (ownWipe b d).rcu.peaksOk := by
  unfold ownWipe
  split
  · exact peaksOk_answer _ _ peaksOk_wipeEffect
  · exact peaksOk_answer _ _ g

theorem peaksOk_ownLoadLayout (b : List Byte) (g : d.rcu.peaksOk) : (ownLoadLayout b d).rcu.peaksOk := by
  unfold ownLoadLayout
  split
  · exact peaksOk_answer _ _ g
  · split
    · exact peaksOk_answer _ _ g
    · exact peaksOk_answer _ _ (peaksOk_of_records (r := d.rcu) rfl g)

theorem peaksOk_ownSetCarrier (b : List Byte) (g : d.rcu.peaksOk) : (ownSetCarrier b d).rcu.peaksOk := by
  unfold ownSetCarrier
  split
  · exact peaksOk_answer _ _ g
  · split
    next c s _ _ => exact peaksOk_answer _ _ (peaksOk_setRecord c (peakOk_judged (g c).1) g)
    next => exact peaksOk_answer _ _ g

theorem peaksOk_ownPeakReset (b : List Byte) (g : d.rcu.peaksOk) : (ownPeakReset b d).rcu.peaksOk := by
  unfold ownPeakReset
  split
  · exact peaksOk_answer _ _ (peaksOk_resetPeaks _ g)
  · exact peaksOk_answer _ _ g

theorem peaksOk_ownClearCapture (b : List Byte) (g : d.rcu.peaksOk) : (ownClearCapture b d).rcu.peaksOk := by
  unfold ownClearCapture
  split
  · exact peaksOk_answer _ _ g
  · split
    · exact peaksOk_answer _ _ (peaksOk_clearCaptures _ g)
    · exact peaksOk_answer _ _ g

theorem peaksOk_ownSetGroups (b : List Byte) (g : d.rcu.peaksOk) : (ownSetGroups b d).rcu.peaksOk := by
  unfold ownSetGroups
  split
  · exact peaksOk_answer _ _ (peaksOk_of_records (r := d.rcu) rfl g)
  · exact peaksOk_answer _ _ g

theorem peaksOk_ownSetTimes (b : List Byte) (g : d.rcu.peaksOk) : (ownSetTimes b d).rcu.peaksOk := by
  unfold ownSetTimes
  dsimp only
  split
  · exact peaksOk_answer _ _ (peaksOk_setReportTimes _ _ g)
  · exact peaksOk_answer _ _ g

end

/-! ## Every command -/

/-- Every command keeps peaks and verdicts in step: those that do not touch RCU by their frame, the others by what they
do to its records. -/
theorem after_peaksOk (c : Instr) (d : Lc44) (g : d.rcu.peaksOk) : (d.after c).rcu.peaksOk := by
  have request {c : Instr} {r : Req} {owner : List Byte → Lc44 → Lc44} {body : List Byte}
      (hc : ∀ s, exec c s = s.effect (request r owner body))
      (ho : ∀ e : Lc44, e.rcu.peaksOk → (owner body e).rcu.peaksOk) : (d.after c).rcu.peaksOk :=
    after_of_keeps (P := fun d => d.rcu.peaksOk) hc (fun _ => peaksOk_restsOn.request (by decide) ho g) g
  have effect {c : Instr} {f : Lc44 → Lc44} (hc : ∀ s, exec c s = s.effect f) (hf : (f d).rcu.peaksOk) :
      (d.after c).rcu.peaksOk :=
    after_of_keeps (P := fun d => d.rcu.peaksOk) hc (fun _ => hf) g
  cases c with
  | resetAsserted =>
    rw [after_resetAsserted]
    exact peaksOk_toReset Rcu.reset
  | resetRelease psel commission depol =>
    rw [after_resetRelease]
    split
    · rw [release_rcu]
      exact g
    · exact g
  | memoryAnswer a =>
    refine effect (exec_memoryAnswer a) ?_
    cases a with
    | ok w => exact peaksOk_memoryEnd _ g
    | fault => exact peaksOk_memoryEnd _ g
  | memoryTimeout => exact effect exec_memoryTimeout (peaksOk_memoryEnd _ g)
  | observeHandoff h => exact effect (exec_observeHandoff h) (peaksOk_takeHandoff (d := takenRcu h d) h g)
  | reportTimerExpiry k =>
    refine effect (exec_reportTimerExpiry k) ?_
    split
    · exact peaksOk_becomeStale k g
    · exact g
  | tick => exact effect exec_tick (peaksOk_tick g)
  | commissioningSecond =>
    refine effect exec_commissioningSecond ?_
    split
    · exact peaksOk_tick g
    · exact g
  | wipe body => exact request (exec_wipe body) fun _ => peaksOk_ownWipe _
  | loadLayout body => exact request (exec_loadLayout body) fun _ => peaksOk_ownLoadLayout _
  | setCarrier body => exact request (exec_setCarrier body) fun _ => peaksOk_ownSetCarrier _
  | peakReset body => exact request (exec_peakReset body) fun _ => peaksOk_ownPeakReset _
  | clearCapture body => exact request (exec_clearCapture body) fun _ => peaksOk_ownClearCapture _
  | setGroups body => exact request (exec_setGroups body) fun _ => peaksOk_ownSetGroups _
  | setTimes body => exact request (exec_setTimes body) fun _ => peaksOk_ownSetTimes _
  | _ => exact peaksOk_restsOn.elsewhere (by rfl) g

/-! ## The statement -/

/-- Without an expected level, or without a peak, there is no verdict (R112). -/
theorem verdictOf_none {x : CarrierSettings} {peak : Option Peak} (h : x.expected = none ∨ peak = none) :
    verdictOf x peak = .none := by
  cases hx : x.expected with
  | none => simp [verdictOf, hx]
  | some e =>
    have hp : peak = none := by simpa [hx] using h
    simp [verdictOf, hx, hp]

/-- With both, the conditions of R112 are taken in order. -/
theorem verdictOf_some {x : CarrierSettings} {e : Int} {p : Peak} (he : x.expected = some e) :
    verdictOf x (some p) =
      if e - x.tolerance ≤ p.rsl then .main else if p.rsl ≤ e - x.margin then .side else .low := by
  simp [verdictOf, he]

/-- Settles O35: every command keeps peaks and verdicts in step, and the verdict's conditions are read off in order. -/
theorem verdictsComparePeaks : Obligations.VerdictsComparePeaks := by
  refine ⟨fun _ _ g h => step_keeps (P := fun d => d.rcu.peaksOk) after_peaksOk g h, fun x peak => ⟨verdictOf_none, ?_⟩⟩
  rintro e p he rfl
  rw [verdictOf_some he]
  refine ⟨fun hmain => if_pos hmain, fun hbelow hside => ?_, fun hbelow hlow => ?_⟩
  · rw [if_neg (by omega), if_pos hside]
  · rw [if_neg (by omega), if_neg (by omega)]

end Sys2Proof.Machine
end

