-- ==== Sys2Proof/Proofs/JournalLaw.lean ====
section
/-! SUPPORT. The trial journal (R70 to R72): almost every operation leaves the addresses of the journal or takes some
away, and makes the stage of the cycle in progress promise no more; only the entry of a new address adds one, after its
stage has promised that it is new and has room. From these the law of every step. -/

namespace Sys2Proof.Machine

set_option Elab.async false

/-! ## The law and the operations that cannot break it -/

/-- At most 48 entries of distinct addresses (R70). -/
def JournalFits (j : List JournalEntry) : Prop := j.length ≤ 48 ∧ (j.map JournalEntry.addr).Nodup

/-- The journal fits, and the cycle in progress keeps its promise. -/
def Lc44.journalOk (d : Lc44) : Prop :=
  d.tru.journal.length ≤ 48 ∧ (d.tru.journal.map JournalEntry.addr).Nodup ∧
    ∀ c, d.iport.cycle = some c → c.stage.journalPromise c.cycle.addr d.tru.journal

/-- A stage promises of a journal whatever another promises of it. -/
def Stage.promisesLess (g h : Stage) : Prop := ∀ a j, g.journalPromise a j → h.journalPromise a j

/-- The journal loses addresses at most, and the cycle in progress, if it goes on, promises no more. -/
structure Lc44.journalShrinks (d e : Lc44) : Prop where
  addrs : (e.tru.journal.map JournalEntry.addr).Sublist (d.tru.journal.map JournalEntry.addr)
  cycle : ∀ c, e.iport.cycle = some c →
    ∃ b, d.iport.cycle = some b ∧ c.cycle.addr = b.cycle.addr ∧ b.stage.promisesLess c.stage

/-- The journal has an entry for an address exactly when it lists the address. -/
theorem hasEntry_iff (j : List JournalEntry) (a : Addr) : hasEntry j a = true ↔ a ∈ j.map JournalEntry.addr := by
  simp [hasEntry]

theorem hasEntry_eq_false_iff (j : List JournalEntry) (a : Addr) :
    hasEntry j a = false ↔ a ∉ j.map JournalEntry.addr := by
  rw [← hasEntry_iff, Bool.not_eq_true]

/-- A promise of a journal holds of one with fewer addresses. -/
theorem journalPromise_of_sublist {g : Stage} {a : Addr} {j k : List JournalEntry}
    (h : (k.map JournalEntry.addr).Sublist (j.map JournalEntry.addr)) (p : g.journalPromise a j) :
    g.journalPromise a k := by
  have new (hn : hasEntry j a = false) : hasEntry k a = false := by
    rw [hasEntry_eq_false_iff] at hn ⊢
    exact fun hk => hn (h.subset hk)
  have shorter : k.length ≤ j.length := by simpa using h.length_le
  cases g with
  | preRead g => exact fun hi => new (p hi)
  | writeAhead g k => exact ⟨new p.1, lt_of_le_of_lt shorter p.2⟩
  | forward | redirected | held | guardForward => trivial

section
variable {d e f : Lc44}

theorem journalShrinks_refl (d : Lc44) : d.journalShrinks d :=
  ⟨List.Sublist.refl _, fun c hc => ⟨c, hc, rfl, fun _ _ p => p⟩⟩

theorem Lc44.journalShrinks.trans (h : d.journalShrinks e) (k : e.journalShrinks f) : d.journalShrinks f := by
  refine ⟨k.addrs.trans h.addrs, fun c hc => ?_⟩
  obtain ⟨b, hb, hcb, pcb⟩ := k.cycle c hc
  obtain ⟨a, ha, hba, pba⟩ := h.cycle b hb
  exact ⟨a, ha, hcb.trans hba, fun _ _ p => pcb _ _ (pba _ _ p)⟩

/-- What shrinks the journal keeps the law. -/
theorem Lc44.journalShrinks.ok (h : d.journalShrinks e) (g : d.journalOk) : e.journalOk := by
  obtain ⟨hlen, hnodup, hpromise⟩ := g
  have shorter : e.tru.journal.length ≤ d.tru.journal.length := by simpa using h.addrs.length_le
  refine ⟨shorter.trans hlen, hnodup.sublist h.addrs, fun c hc => ?_⟩
  obtain ⟨b, hb, haddr, hless⟩ := h.cycle c hc
  rw [haddr]
  exact hless _ _ (journalPromise_of_sublist h.addrs (hpromise b hb))

theorem journalShrinks_of_eq (ht : e.tru = d.tru) (hi : e.iport = d.iport) : d.journalShrinks e :=
  ⟨ht ▸ List.Sublist.refl _, fun c hc => ⟨c, hi ▸ hc, rfl, fun _ _ p => p⟩⟩

/-- An operation that leaves TRU and the I-port alone. -/
theorem journalShrinks_of_keeps {l : List Block} (h : d.keepsOutside l e) (ht : Block.tru ∉ l := by decide)
    (hi : Block.iport ∉ l := by decide) : d.journalShrinks e :=
  journalShrinks_of_eq (keeps_tru h ht) (keeps_iport h hi)

/-- A change of TRU that leaves the journal alone. -/
theorem journalShrinks_onTru (f : Tru → Tru) (d : Lc44) (h : (f d.tru).journal = d.tru.journal := by rfl) :
    d.journalShrinks (d.onTru f) :=
  ⟨by rw [Lc44.onTru_tru, h], fun c hc => ⟨c, hc, rfl, fun _ _ p => p⟩⟩

/-- A change of TRU that empties the journal. -/
theorem journalShrinks_emptied (f : Tru → Tru) (d : Lc44) (h : (f d.tru).journal = [] := by rfl) :
    d.journalShrinks (d.onTru f) :=
  ⟨by simp [h], fun c hc => ⟨c, hc, rfl, fun _ _ p => p⟩⟩

/-- A change of TRU that leaves the addresses of the journal alone. -/
theorem journalShrinks_sameAddrs (f : Tru → Tru) (d : Lc44)
    (h : (f d.tru).journal.map JournalEntry.addr = d.tru.journal.map JournalEntry.addr) :
    d.journalShrinks (d.onTru f) :=
  ⟨by rw [Lc44.onTru_tru, h], fun c hc => ⟨c, hc, rfl, fun _ _ p => p⟩⟩

/-- A change of the cycle in progress that leaves its address and promises no more. -/
theorem journalShrinks_onCycle (f : ICycle → ICycle) (d : Lc44)
    (h : ∀ c, (f c).cycle = c.cycle ∧ c.stage.promisesLess (f c).stage) :
    d.journalShrinks (d.onIport fun p => { p with cycle := p.cycle.map f }) := by
  refine ⟨List.Sublist.refl _, fun c hc => ?_⟩
  simp only [Lc44.onIport_iport, Option.map_eq_some_iff] at hc
  obtain ⟨b, hb, rfl⟩ := hc
  exact ⟨b, hb, by rw [(h b).1], (h b).2⟩

/-! ## Trials -/

theorem journalShrinks_requestHeader (g : HeaderStep) (r t : Bool) (d : Lc44) :
    d.journalShrinks (requestHeader g r t d) :=
  (journalShrinks_onTru _ _).trans (journalShrinks_of_keeps (keeps_requestInt _ _ _))

theorem journalShrinks_startHeader (g : HeaderStep) (d : Lc44) : d.journalShrinks (startHeader g d) := by
  unfold startHeader
  split
  · exact journalShrinks_onTru _ _
  · exact journalShrinks_requestHeader _ _ _ _

theorem journalShrinks_countRefused (d : Lc44) : d.journalShrinks (countRefused d) := journalShrinks_onTru _ _

theorem journalShrinks_restoreNext (d : Lc44) : d.journalShrinks (restoreNext d) := by
  unfold restoreNext
  split
  · exact (journalShrinks_onTru _ _).trans (journalShrinks_of_keeps (keeps_requestRst _ _))
  · exact journalShrinks_requestHeader _ _ _ _

theorem journalShrinks_answer (s : Status) (data : List Byte) (d : Lc44) : d.journalShrinks (answer s data d) :=
  journalShrinks_of_keeps (keeps_answer _ _ _)

theorem journalShrinks_startRollback (x : EndCause) (c : Option Carrier) (d : Lc44) :
    d.journalShrinks (startRollback x c d) := by
  unfold startRollback
  dsimp only
  refine Lc44.journalShrinks.trans ?_ (journalShrinks_restoreNext _)
  have marked : d.journalShrinks (raiseAcu .rollback (d.onTru fun t =>
      { t with
        state := .rollingBack
        timer := none
        due := none
        journal := t.journal.map fun e => { e with mark := .waiting }
        outcome := t.outcome.map fun o =>
          { o with cause := some x, lossCarrier := c, entriesAtEnd := some t.journal.length } })) :=
    (journalShrinks_sameAddrs _ d (by simp [Function.comp_def])).trans (journalShrinks_of_keeps (keeps_raiseAcu _ _))
  split
  · exact marked.trans (journalShrinks_answer _ _ _)
  · exact marked

theorem journalShrinks_takeRollbackCause (x : EndCause) (c : Option Carrier) (d : Lc44) :
    d.journalShrinks (takeRollbackCause x c d) := by
  unfold takeRollbackCause
  split
  · exact journalShrinks_onTru _ _
  · exact journalShrinks_startRollback _ _ _

theorem journalShrinks_endRollback (d : Lc44) : d.journalShrinks (endRollback d) := journalShrinks_emptied _ _

theorem journalShrinks_restoreEnded (f : Option MFailure) (d : Lc44) : d.journalShrinks (restoreEnded f d) := by
  unfold restoreEnded
  split
  next retry e _ _ =>
    split
    · have removed : d.journalShrinks (d.onTru fun t => { t with journal := removeEntry e.addr t.journal }) :=
        ⟨(List.filter_sublist).map _, fun c hc => ⟨c, hc, rfl, fun _ _ p => p⟩⟩
      exact removed.trans (journalShrinks_restoreNext _)
    · exact (journalShrinks_onTru _ _).trans (journalShrinks_of_keeps (keeps_requestRst _ _))
    · refine (journalShrinks_sameAddrs _ d ?_).trans (journalShrinks_restoreNext _)
      simp only [markUnrestored, List.map_map]
      exact List.map_congr_left fun x _ => by dsimp only [Function.comp_apply]; split <;> rfl
  next => exact journalShrinks_refl _

theorem journalShrinks_entryCheck (d : Lc44) : d.journalShrinks (entryCheck d) := by
  unfold entryCheck
  split
  · exact journalShrinks_takeRollbackCause _ _ _
  · exact journalShrinks_refl _

theorem journalShrinks_renumber (d : Lc44) : d.journalShrinks (renumber d) := journalShrinks_emptied _ _

theorem journalShrinks_beginOpening (r : OpenRequest) (d : Lc44) : d.journalShrinks (beginOpening r d) := by
  unfold beginOpening
  dsimp only
  split
  · exact (journalShrinks_onTru _ _).trans (journalShrinks_startHeader _ _)
  · exact ((journalShrinks_onTru _ _).trans (journalShrinks_renumber _)).trans (journalShrinks_startHeader _ _)

theorem journalShrinks_enterOpen (d : Lc44) : d.journalShrinks (enterOpen d) :=
  ((journalShrinks_onTru _ d).trans (journalShrinks_answer _ _ _)).trans (journalShrinks_entryCheck _)

theorem journalShrinks_failOpen (f : Tru → Tru) (d : Lc44) (h : ∀ t, (f t).journal = t.journal) :
    d.journalShrinks (failOpen f d) :=
  (journalShrinks_onTru (fun t => f { t with state := .idle, work := .idle, openRequest := none }) d (h _)).trans
    (journalShrinks_answer _ _ _)

theorem journalShrinks_beginClosing (c : CloseSource) (d : Lc44) : d.journalShrinks (beginClosing c d) :=
  (journalShrinks_onTru _ d).trans (journalShrinks_startHeader _ _)

theorem journalShrinks_closeSucceeds (d : Lc44) : d.journalShrinks (closeSucceeds d) := by
  unfold closeSucceeds
  dsimp only
  split
  · exact (journalShrinks_emptied _ _).trans (journalShrinks_answer _ _ _)
  · exact journalShrinks_emptied _ _

theorem journalShrinks_closeFails (d : Lc44) : d.journalShrinks (closeFails d) := by
  unfold closeFails
  dsimp only
  have reopened : ∀ b : Bool, d.journalShrinks (if b then answer .noMem [] (d.onTru fun t =>
      { t with state := .open, work := .idle, closeSource := none, expiryHeld := false })
    else (d.onTru fun t => { t with state := .open, work := .idle, closeSource := none, expiryHeld := false }).onTru
      (Tru.onOutcome fun o => { o with confirmFailures := o.confirmFailures.map (satInc Config.max8) })) := by
    intro b
    split
    · exact (journalShrinks_onTru _ _).trans (journalShrinks_answer _ _ _)
    · exact (journalShrinks_onTru _ _).trans (journalShrinks_onTru _ _)
  split
  · exact (reopened _).trans (journalShrinks_takeRollbackCause _ _ _)
  · exact (reopened _).trans (journalShrinks_entryCheck _)

theorem journalShrinks_headerWritten (step : HeaderStep) (d : Lc44) : d.journalShrinks (headerWritten step d) := by
  cases step with
  | staleState | openCount | endState => exact journalShrinks_requestHeader _ _ _ _
  | staleCount =>
    exact ((journalShrinks_onTru _ d).trans (journalShrinks_renumber _)).trans (journalShrinks_requestHeader _ _ _ _)
  | openState => exact journalShrinks_enterOpen _
  | closeState => exact (journalShrinks_closeSucceeds _).trans (journalShrinks_requestHeader _ _ _ _)
  | closeCount => exact journalShrinks_onTru _ _
  | endCount => exact journalShrinks_endRollback _

theorem journalShrinks_headerFailed (step : HeaderStep) (timedOut : Bool) (d : Lc44) :
    d.journalShrinks (headerFailed step timedOut d) := by
  cases step with
  | staleState | staleCount => exact journalShrinks_failOpen _ _ fun _ => rfl
  | openCount | openState => exact journalShrinks_failOpen _ _ fun _ => rfl
  | closeState =>
    simp only [headerFailed]
    split
    · exact (journalShrinks_closeSucceeds _).trans (journalShrinks_onTru _ _)
    · exact journalShrinks_closeFails _
  | closeCount => exact journalShrinks_onTru _ _
  | endState => exact (journalShrinks_onTru _ d).trans (journalShrinks_endRollback _)
  | endCount => exact journalShrinks_endRollback _

theorem journalShrinks_headerEnded (f : Option MFailure) (d : Lc44) : d.journalShrinks (headerEnded f d) := by
  unfold headerEnded
  split
  · split
    · exact journalShrinks_headerWritten _ _
    · dsimp only
      split
      · exact journalShrinks_headerFailed _ _ _
      · exact journalShrinks_requestHeader _ _ _ _
  · exact journalShrinks_refl _

theorem journalShrinks_sequenceAnswered (d : Lc44) : d.journalShrinks (sequenceAnswered d) := by
  unfold sequenceAnswered
  split
  · exact journalShrinks_startRollback _ _ _
  · split
    · exact journalShrinks_requestHeader _ _ _ _
    · exact journalShrinks_refl _

/-! ## Cycles -/

/-- An answer ends the cycle, and with it every promise. -/
theorem journalShrinks_answerCycle (a : IAnswer) (d : Lc44) : d.journalShrinks (answerCycle a d) := by
  unfold answerCycle afterAnswer
  dsimp only
  refine Lc44.journalShrinks.trans ?_ (journalShrinks_of_keeps (keeps_foldReleased _))
  have free : d.journalShrinks (d.onIport fun p => { p with cycle := none, answer := some a }) :=
    ⟨List.Sublist.refl _, fun c hc => nomatch hc⟩
  have ended := (free.trans (journalShrinks_of_keeps (keeps_onMpc (fun m => { m with hold := none }) _))).trans
    (journalShrinks_of_keeps (keeps_syncCcl _))
  split
  · exact ended.trans (journalShrinks_sequenceAnswered _)
  · exact ended

theorem journalShrinks_faultCycle (c : FaultCause) (d : Lc44) : d.journalShrinks (faultCycle c d) :=
  (journalShrinks_of_keeps (keeps_countFault _ _)).trans (journalShrinks_answerCycle _ _)

/-- A stage that promises nothing is entered freely. -/
theorem journalShrinks_enterStage (g : Stage) (d : Lc44) (h : ∀ a j, g.journalPromise a j) :
    d.journalShrinks (enterStage g d) :=
  journalShrinks_onCycle _ _ fun _ => ⟨rfl, fun a j _ => h a j⟩

theorem journalShrinks_presentStage (d : Lc44) : d.journalShrinks (presentStage d) := by
  unfold presentStage
  split
  · exact journalShrinks_refl _
  · split
    case h_3 => exact journalShrinks_refl _
    case h_6 c _ g _ =>
      unfold presentGuarded
      dsimp only
      have counted := journalShrinks_of_keeps (keeps_countHits (lockPass d.txmute g).hits d)
      split
      · exact counted.trans (journalShrinks_faultCycle _ _)
      · exact (counted.trans (journalShrinks_enterStage
          (.guardForward { g with working := (lockPass d.txmute g).working }) _ fun _ _ => trivial)).trans
          (journalShrinks_of_keeps (keeps_present _ _ _))
    all_goals exact journalShrinks_of_keeps (keeps_present _ _ _)

theorem journalShrinks_arbitrateOnce (d : Lc44) : d.journalShrinks (arbitrateOnce d) := by
  unfold arbitrateOnce
  split
  · split
    · exact journalShrinks_refl _
    · unfold grantTo
      split
      · exact (journalShrinks_of_keeps (keeps_onMpc _ _)).trans (journalShrinks_presentStage _)
      · split
        · exact journalShrinks_refl _
        · exact (journalShrinks_of_keeps (keeps_onMpc _ _)).trans (journalShrinks_of_keeps (keeps_present _ _ _))
      · split
        · exact journalShrinks_refl _
        · exact journalShrinks_of_keeps (keeps_present _ _ _)
      · split
        · exact journalShrinks_refl _
        · exact (journalShrinks_of_keeps (keeps_onMpc _ _)).trans (journalShrinks_of_keeps (keeps_present _ _ _))
  · exact journalShrinks_refl _

theorem journalShrinks_arbitrate (d : Lc44) : d.journalShrinks (arbitrate d) :=
  (journalShrinks_arbitrateOnce _).trans (journalShrinks_arbitrateOnce _)

theorem journalOk_arbitrate (g : d.journalOk) : (arbitrate d).journalOk := (journalShrinks_arbitrate d).ok g

/-! ## The guarded-write sequence -/

/-- A stage is gone on to whose promise holds; what the earlier stage promised no longer counts. -/
theorem journalOk_goOn {g : Stage} (hj : JournalFits d.tru.journal)
    (hg : ∀ c, d.iport.cycle = some c → g.journalPromise c.cycle.addr d.tru.journal) : (goOn g d).journalOk := by
  have entered : (enterStage g d).journalOk := by
    refine ⟨hj.1, hj.2, fun c hc => ?_⟩
    simp only [enterStage, Lc44.onIport_iport, Option.map_eq_some_iff] at hc
    obtain ⟨b, hb, rfl⟩ := hc
    exact hg b hb
  unfold goOn
  split
  · exact (journalShrinks_presentStage _).ok entered
  · exact (journalShrinks_of_keeps (keeps_requestFwd _)).ok entered

theorem Lc44.journalOk.fits (g : d.journalOk) : JournalFits d.tru.journal := ⟨g.1, g.2.1⟩

/-- The rules lead to the write-ahead only of an address that is new, with room for it (R71, R72). -/
theorem journalOk_guardRules (data : Word) {s : GuardSeq} (g : d.journalOk)
    (hn : s.isNew = true → ∀ c, d.iport.cycle = some c →
      hasEntry d.tru.journal c.cycle.addr = false ∧ d.tru.journal.length < 48) :
    (guardRules data s d).journalOk := by
  have counted := journalShrinks_of_keeps (keeps_countHits (applyRules s.memWord d.txmute s.rules data).hits d)
  unfold guardRules
  dsimp only
  split
  · exact (counted.trans (journalShrinks_faultCycle _ _)).ok g
  · refine journalOk_goOn (counted.ok g).fits fun c hc => ?_
    split
    next hnew => exact hn hnew c hc
    next => trivial

theorem journalOk_guardGo (journalled : Bool) (first count : Nat) {x : BusCycle} (offset : Nat) (data : Word)
    (g : d.journalOk) (hx : ∀ c, d.iport.cycle = some c → c.cycle = x) :
    (guardGo journalled first count x offset data d).journalOk := by
  unfold guardGo
  dsimp only
  split
  · refine journalOk_goOn g.fits fun c hc hnew => ?_
    simp only [Bool.and_eq_true, Bool.not_eq_true'] at hnew
    rw [hx c hc]
    exact hnew.2
  next hnone =>
    simp only [Bool.or_eq_true, not_or, Bool.not_eq_true] at hnone
    exact journalOk_guardRules _ g fun hnew => absurd hnew (by simp [hnone.1])

theorem journalOk_settle (first count : Nat) {x : BusCycle} (offset : Nat) (data : Word) (g : d.journalOk)
    (hx : ∀ c, d.iport.cycle = some c → c.cycle = x) : (settle first count x offset data d).journalOk := by
  have held := (journalShrinks_enterStage .held d fun _ _ => trivial).ok g
  unfold settle
  split
  · exact held
  · exact held
  · exact journalOk_guardGo _ _ _ _ _ g hx
  · exact journalOk_guardGo _ _ _ _ _ g hx
  · split
    · exact ((journalShrinks_countRefused _).trans (journalShrinks_faultCycle _ _)).ok g
    · exact journalOk_guardGo _ _ _ _ _ g hx

theorem journalOk_takeCycle (x : BusCycle) (g : d.journalOk) (hc : d.iport.cycle = none) :
    (takeCycle x d).journalOk := by
  have taken (r : ClassRecord) : (d.onIport fun p => { p with cycle := some ⟨x, r, .forward⟩ }).journalOk := by
    refine ⟨g.1, g.2.1, fun c h => ?_⟩
    obtain rfl := Option.some.inj h
    trivial
  have forward {e : Lc44} (he : e.journalOk) : (goOn .forward e).journalOk := journalOk_goOn he.fits fun _ _ => trivial
  have handled (r : ClassRecord) : (handleCycle x r d).journalOk := by
    unfold handleCycle
    dsimp only
    split
    · exact (journalShrinks_faultCycle _ _).ok (taken r)
    · refine journalOk_settle _ _ _ _ (taken r) fun c h => ?_
      obtain rfl := Option.some.inj h
      rfl
    · unfold takeGuardedRead
      split
      · split
        · exact (journalShrinks_answerCycle _ _).ok (taken r)
        · exact forward (taken r)
      · exact forward (taken r)
    · unfold takeRedirectedWrite
      split
      · exact (journalShrinks_faultCycle _ _).ok (taken r)
      · split
        · exact (journalShrinks_faultCycle _ _).ok (taken r)
        · exact journalOk_goOn (taken r).fits fun _ _ => trivial
    · exact journalOk_goOn (taken r).fits fun _ _ => trivial
    · exact forward (taken r)
  unfold takeCycle
  split
  · exact ⟨g.1, g.2.1, fun c h => absurd h (by simp [hc])⟩
  · split
    · split
      · exact (journalShrinks_faultCycle _ _).ok g
      · exact handled _
    · exact handled _

theorem journalOk_releaseHeld (g : d.journalOk) : (releaseHeld d).journalOk := by
  unfold releaseHeld
  split
  · exact g
  next c hc =>
    split
    · refine journalOk_settle _ _ _ _ g fun b hb => ?_
      rw [hc] at hb
      exact congrArg ICycle.cycle (Option.some.inj hb).symm
    · exact g

/-- The entry of a new address with room for it is the one addition to the journal (R70, R72). -/
theorem fits_appendEntry {c : ICycle} {s : GuardSeq} (hj : JournalFits d.tru.journal)
    (hnew : hasEntry d.tru.journal c.cycle.addr = false) (hroom : d.tru.journal.length < 48) :
    JournalFits (appendEntry c s d).tru.journal := by
  rw [hasEntry_eq_false_iff] at hnew
  refine ⟨by simp [appendEntry]; omega, ?_⟩
  simp only [appendEntry, Lc44.onTru_tru, List.map_append, List.map_cons, List.map_nil]
  rw [List.nodup_append]
  refine ⟨hj.2, by simp, fun a ha b hb => ?_⟩
  rw [List.mem_singleton.mp hb]
  rintro rfl
  exact hnew ha

theorem journalOk_fwdOk {c : ICycle} (w : Word) (g : d.journalOk) (hc : d.iport.cycle = some c) :
    (fwdOk c w d).journalOk := by
  have hp := g.2.2 c hc
  unfold fwdOk
  split
  · unfold forwardOk
    split
    · exact (journalShrinks_answerCycle _ _).ok g
    · exact ((journalShrinks_of_keeps (keeps_acceptedWrite _ _ _)).trans (journalShrinks_answerCycle _ _)).ok g
  · unfold redirectedOk
    split
    · refine (Lc44.journalShrinks.trans ?_ (journalShrinks_answerCycle _ _)).ok g
      split
      · exact journalShrinks_refl _
      · exact journalShrinks_of_keeps (keeps_onOvu _ _)
    · exact (journalShrinks_answerCycle _ _).ok g
    · exact (journalShrinks_answerCycle _ _).ok g
  · exact g
  next s hs =>
    rw [hs] at hp
    unfold preReadOk
    split
    · exact ((journalShrinks_countRefused _).trans (journalShrinks_faultCycle _ _)).ok g
    next hroom =>
      refine journalOk_guardRules _ g fun hnew b hb => ?_
      obtain rfl := Option.some.inj (hc.symm.trans hb)
      have hroom' : d.tru.journal.length < 48 :=
        Nat.lt_of_not_le fun hfull => hroom (by simp [show s.isNew = true from hnew, Config.journalRoom, hfull])
      exact ⟨hp hnew, hroom'⟩
  next s k hs =>
    rw [hs] at hp
    unfold writeAheadOk
    split
    · refine journalOk_goOn g.fits fun b hb => ?_
      obtain rfl := Option.some.inj (hc.symm.trans hb)
      exact hp
    · exact journalOk_goOn (fits_appendEntry g.fits hp.1 hp.2) fun _ _ => trivial
  · unfold guardForwardOk
    refine (Lc44.journalShrinks.trans ?_ (journalShrinks_answerCycle _ _)).ok g
    split
    · refine journalShrinks_sameAddrs _ d ?_
      simp only [noteForward, List.map_map]
      exact List.map_congr_left fun x _ => by dsimp only [Function.comp_apply]; split <;> rfl
    · exact journalShrinks_refl _

theorem journalOk_fwdEnded (e : MEnd) (g : d.journalOk) : (fwdEnded e d).journalOk := by
  unfold fwdEnded
  split
  · exact g
  next c w hc => exact journalOk_fwdOk w g hc
  · unfold fwdFailed
    refine (Lc44.journalShrinks.trans ?_ (journalShrinks_faultCycle _ _)).ok g
    split
    · exact journalShrinks_countRefused _
    · exact journalShrinks_refl _

/-! ## Tables, BEGIN and WIPE -/

theorem promisesLess_unlive (touched : Fin 64 → Bool) (g : Stage) : g.promisesLess (g.unlive touched) := by
  cases g <;> exact fun _ _ p => p

theorem journalShrinks_unliveRules (touched : Fin 64 → Bool) (d : Lc44) :
    d.journalShrinks (unliveRules touched d) :=
  journalShrinks_onCycle _ _ fun c => ⟨rfl, promisesLess_unlive touched c.stage⟩

/-- A void mark changes a redirected stage, which promises nothing. -/
theorem voided_promisesLess (cleared : MapId → Bool) (c : ICycle) :
    (c.voided cleared).cycle = c.cycle ∧ c.stage.promisesLess (c.voided cleared).stage := by
  unfold ICycle.voided
  split
  · split
    · exact ⟨rfl, fun _ _ _ => trivial⟩
    · exact ⟨rfl, fun _ _ p => p⟩
  · exact ⟨rfl, fun _ _ p => p⟩

theorem journalShrinks_clearMaps (cleared : MapId → Bool) (d : Lc44) : d.journalShrinks (clearMaps cleared d) :=
  (journalShrinks_of_keeps (keeps_onOvu _ _)).trans (journalShrinks_onCycle _ _ (voided_promisesLess cleared))

theorem journalShrinks_commonReset (next : Nat) (d : Lc44) : d.journalShrinks (commonReset next d) := by
  unfold commonReset
  dsimp only
  refine Lc44.journalShrinks.trans ?_ (journalShrinks_of_keeps (keeps_onPhc _ _))
  refine Lc44.journalShrinks.trans ?_ (journalShrinks_of_keeps (keeps_mirrorToDefaults _))
  refine Lc44.journalShrinks.trans ?_ (journalShrinks_of_keeps (keeps_onAcu _ _))
  refine Lc44.journalShrinks.trans ?_ (journalShrinks_of_keeps (keeps_onTmu _ _))
  refine Lc44.journalShrinks.trans ?_ (journalShrinks_of_keeps (keeps_onRcu _ _))
  refine Lc44.journalShrinks.trans ?_ (journalShrinks_clearMaps _ _)
  refine Lc44.journalShrinks.trans ?_ (journalShrinks_of_keeps (keeps_onOvu _ _))
  refine Lc44.journalShrinks.trans ?_ (journalShrinks_onTru _ _)
  refine Lc44.journalShrinks.trans ?_ (journalShrinks_unliveRules _ _)
  refine Lc44.journalShrinks.trans ?_ (journalShrinks_of_keeps (keeps_onFgd _ _))
  refine Lc44.journalShrinks.trans ?_ (journalShrinks_of_keeps (keeps_onCcl _ _))
  exact journalShrinks_of_keeps (keeps_onMpc _ _)

theorem journalShrinks_beginEffect (d : Lc44) : d.journalShrinks (beginEffect d) :=
  ((journalShrinks_commonReset _ _).trans (journalShrinks_of_keeps (keeps_onPhc _ _))).trans
    (journalShrinks_of_keeps (keeps_setPhase _ _))

theorem journalShrinks_wipeEffect (d : Lc44) : d.journalShrinks (wipeEffect d) :=
  (((journalShrinks_commonReset _ _).trans (journalShrinks_of_keeps (keeps_setPhase _ _))).trans
    (journalShrinks_of_keeps (keeps_raiseTmu _ _))).trans (journalShrinks_of_keeps (keeps_raiseTmu _ _))

/-! ## Start-up and the ends of M-port cycles -/

theorem journalShrinks_recoverClose (status : ProfileStatus) (result : RecoveryResult) (o : TrialOutcome) (d : Lc44) :
    d.journalShrinks (recoverClose status result o d) :=
  (journalShrinks_onTru _ _).trans (journalShrinks_of_keeps (keeps_enterRecover _ _ _))

theorem journalShrinks_recoverRestore (status : ProfileStatus) (number count : Nat) (todo : List JournalRecord)
    (restored : Nat) (unrestored : List Addr) (d : Lc44) :
    d.journalShrinks (recoverRestore status number count todo restored unrestored d) := by
  unfold recoverRestore
  split
  · exact journalShrinks_recoverClose _ _ _ _
  · exact journalShrinks_of_keeps (keeps_enterRecover _ _ _)

theorem journalShrinks_recoverNoRead (status : ProfileStatus) (d : Lc44) :
    d.journalShrinks (recoverNoRead status d) :=
  (journalShrinks_onTru _ _).trans (journalShrinks_of_keeps (keeps_endStartup _ _ _ _))

theorem journalShrinks_recoverOk (status : ProfileStatus) (g : RecoverStage) (w : Word) (d : Lc44) :
    d.journalShrinks (recoverOk status g w d) := by
  unfold recoverOk
  split
  · exact journalShrinks_of_keeps (keeps_enterRecover _ _ _)
  · unfold recoverBy
    dsimp only
    split
    · exact (journalShrinks_onTru _ _).trans (journalShrinks_of_keeps (keeps_endStartup _ _ _ _))
    · split
      · exact (journalShrinks_onTru _ _).trans (journalShrinks_of_keeps (keeps_enterRecover _ _ _))
      · split
        · exact (journalShrinks_onTru _ _).trans (journalShrinks_of_keeps (keeps_enterRecover _ _ _))
        · exact (journalShrinks_onTru _ _).trans (journalShrinks_recoverClose _ _ _ _)
    · exact (journalShrinks_onTru _ _).trans (journalShrinks_recoverClose _ _ _ _)
  · unfold recordWordRead
    split
    · dsimp only
      split
      · exact journalShrinks_recoverClose _ _ _ _
      · split
        · exact journalShrinks_of_keeps (keeps_enterRecover _ _ _)
        · exact journalShrinks_recoverRestore _ _ _ _ _ _ _
    · exact journalShrinks_of_keeps (keeps_enterRecover _ _ _)
  · exact journalShrinks_recoverRestore _ _ _ _ _ _ _
  · exact journalShrinks_of_keeps (keeps_enterRecover _ _ _)
  · exact journalShrinks_of_keeps (keeps_endStartup _ _ _ _)

theorem journalShrinks_recoverFailed (status : ProfileStatus) (g : RecoverStage) (d : Lc44) :
    d.journalShrinks (recoverFailed status g d) := by
  unfold recoverFailed
  split
  · exact journalShrinks_of_keeps (keeps_enterRecover _ _ _)
  · exact journalShrinks_recoverNoRead _ _
  · exact journalShrinks_of_keeps (keeps_enterRecover _ _ _)
  · exact journalShrinks_recoverNoRead _ _
  · exact journalShrinks_of_keeps (keeps_enterRecover _ _ _)
  · exact journalShrinks_recoverClose _ _ _ _
  · exact journalShrinks_of_keeps (keeps_enterRecover _ _ _)
  · exact journalShrinks_recoverRestore _ _ _ _ _ _ _
  · exact journalShrinks_of_keeps (keeps_enterRecover _ _ _)
  · exact (journalShrinks_onTru _ _).trans (journalShrinks_of_keeps (keeps_endStartup _ _ _ _))
  · exact journalShrinks_of_keeps (keeps_enterRecover _ _ _)
  · exact journalShrinks_of_keeps (keeps_endStartup _ _ _ _)

theorem journalShrinks_phcEnded (e : MEnd) (d : Lc44) : d.journalShrinks (phcEnded e d) := by
  unfold phcEnded
  split
  · exact journalShrinks_refl _
  · unfold probeEnded
    dsimp only
    have ended := journalShrinks_of_keeps (keeps_onPhc (fun p => { p with work := .idle }) d)
    split
    · exact ended.trans (journalShrinks_answer _ _ _)
    · exact (ended.trans (journalShrinks_beginEffect _)).trans (journalShrinks_answer _ _ _)
  · exact journalShrinks_of_keeps (keeps_imageWriteEnded _ _)
  · split
    · exact journalShrinks_of_keeps (keeps_loadEndsWith _ _)
    · exact journalShrinks_of_keeps (keeps_loadWordRead _ _)
  · split
    · exact journalShrinks_recoverFailed _ _ _
    · exact journalShrinks_recoverOk _ _ _ _

theorem journalOk_memoryEnd (e : MEnd) (g : d.journalOk) : (memoryEnd e d).journalOk := by
  unfold memoryEnd
  split
  · exact g
  next p _ =>
    apply journalOk_arbitrate
    have ended := journalShrinks_of_keeps (keeps_onMpc (Mpc.ended p e) d)
    unfold dispatchEnd
    split
    · exact journalOk_fwdEnded _ (ended.ok g)
    · exact (ended.trans (journalShrinks_restoreEnded _ _)).ok g
    · split
      · exact ended.ok g
      next q rest _ =>
        have left := ended.trans (journalShrinks_of_keeps (keeps_onMpc (fun m => { m with intQueue := rest }) _))
        cases q.owner with
        | tru => exact (left.trans (journalShrinks_headerEnded _ _)).ok g
        | ovu => exact (left.trans (journalShrinks_of_keeps (keeps_foldEnded _ _))).ok g
        | phc => exact (left.trans (journalShrinks_phcEnded _ _)).ok g
    · exact (ended.trans (journalShrinks_of_keeps (keeps_mirrorEnded _ _))).ok g

/-! ## Commands -/

theorem journalShrinks_lossReport (c : Carrier) (d : Lc44) : d.journalShrinks (lossReport c d) := by
  unfold lossReport
  split
  · exact (journalShrinks_takeRollbackCause _ _ _).trans (journalShrinks_arbitrate _)
  · exact journalShrinks_refl _

theorem journalShrinks_deliverTru {x : TruEvent} {f : Lc44 → Lc44} (d : Lc44)
    (h : ∀ y : Lc44, y.journalShrinks (f y)) : d.journalShrinks (deliverTru x f d) := by
  unfold deliverTru
  split
  · exact (journalShrinks_of_keeps (keeps_takenTru _ _)).trans (h _)
  · exact journalShrinks_refl _

/-- A request shrinks the journal when its owner does. -/
theorem journalShrinks_request {r : Req} {owner : List Byte → Lc44 → Lc44} {body : List Byte} (d : Lc44)
    (h : ∀ b (y : Lc44), y.journalShrinks (owner b y)) : d.journalShrinks (request r owner body d) := by
  unfold request onFrame
  split
  · exact journalShrinks_refl _
  · split
    · exact journalShrinks_of_keeps (keeps_onSli _ _)
    · refine (journalShrinks_of_keeps (keeps_takeFrame r.code body d)).trans ?_
      unfold dispatchRequest
      split
      · exact journalShrinks_answer _ _ _
      · split
        · exact h _ _
        · exact journalShrinks_answer _ _ _

theorem journalShrinks_ownWipe (b : List Byte) (d : Lc44) : d.journalShrinks (ownWipe b d) := by
  unfold ownWipe
  split
  · exact (journalShrinks_wipeEffect _).trans (journalShrinks_answer _ _ _)
  · exact journalShrinks_answer _ _ _

theorem journalShrinks_ownLoadRegion (b : List Byte) (d : Lc44) : d.journalShrinks (ownLoadRegion b d) := by
  unfold ownLoadRegion
  split
  · exact journalShrinks_answer _ _ _
  · split
    · split
      · exact journalShrinks_answer _ _ _
      · exact ((journalShrinks_clearMaps _ _).trans (journalShrinks_of_keeps (keeps_onCcl _ _))).trans
          (journalShrinks_answer _ _ _)
    · exact journalShrinks_answer _ _ _

theorem journalShrinks_storeRule (i : Fin 64) (r : Option Rule) (d : Lc44) : d.journalShrinks (storeRule i r d) :=
  (journalShrinks_of_keeps (keeps_onFgd _ _)).trans (journalShrinks_unliveRules _ _)

theorem journalShrinks_ownLoadRule (b : List Byte) (d : Lc44) : d.journalShrinks (ownLoadRule b d) := by
  unfold ownLoadRule
  dsimp only
  split
  · exact journalShrinks_answer _ _ _
  · split
    · split
      · exact (journalShrinks_storeRule _ _ _).trans (journalShrinks_answer _ _ _)
      · split
        · exact journalShrinks_answer _ _ _
        · split
          · exact (journalShrinks_storeRule _ _ _).trans (journalShrinks_answer _ _ _)
          · exact journalShrinks_answer _ _ _
    · exact journalShrinks_answer _ _ _

theorem journalShrinks_ownOverlayDiscard (b : List Byte) (d : Lc44) : d.journalShrinks (ownOverlayDiscard b d) := by
  unfold ownOverlayDiscard
  split
  case h_4 => exact journalShrinks_answer _ _ _
  all_goals exact (journalShrinks_clearMaps _ _).trans (journalShrinks_answer _ _ _)

theorem journalShrinks_ownTrialOpen (b : List Byte) (d : Lc44) : d.journalShrinks (ownTrialOpen b d) := by
  unfold ownTrialOpen
  split
  · exact journalShrinks_answer _ _ _
  · split
    · exact journalShrinks_beginOpening _ _
    · exact journalShrinks_answer _ _ _

theorem journalShrinks_ownTrialConfirm (b : List Byte) (d : Lc44) : d.journalShrinks (ownTrialConfirm b d) := by
  unfold ownTrialConfirm
  split
  · exact journalShrinks_beginClosing _ _
  · split <;> exact journalShrinks_answer _ _ _

theorem journalShrinks_ownTrialExtend (b : List Byte) (d : Lc44) : d.journalShrinks (ownTrialExtend b d) := by
  unfold ownTrialExtend
  split
  · exact journalShrinks_answer _ _ _
  · split
    · exact (journalShrinks_onTru _ _).trans (journalShrinks_answer _ _ _)
    · split <;> exact journalShrinks_answer _ _ _

theorem journalShrinks_ownTrialAbort (b : List Byte) (d : Lc44) : d.journalShrinks (ownTrialAbort b d) := by
  unfold ownTrialAbort
  split
  · exact journalShrinks_takeRollbackCause _ _ _
  · split <;> exact journalShrinks_answer _ _ _


theorem journalShrinks_tickAll (d : Lc44) : d.journalShrinks (tickAll d) := by
  rw [tickAll_eq]
  exact ⟨List.Sublist.refl _, fun c hc => ⟨c, hc, rfl, fun _ _ p => p⟩⟩

end

/-- An effect that shrinks the journal keeps the law. -/
theorem after_journalOk_of_shrinks {c : Instr} {f : Lc44 → Lc44} (hc : ∀ s, exec c s = s.effect f)
    (hf : ∀ d : Lc44, d.journalShrinks (f d)) {d : Lc44} (g : d.journalOk) : (d.after c).journalOk :=
  after_of_keeps hc (fun _ => (hf d).ok g) g

theorem journalOk_restsOn : RestsOn [.tru, .iport] Lc44.journalOk := by
  intro d e _ _ hsame g
  exact (journalShrinks_of_eq (hsame .tru (by simp)) (hsame .iport (by simp))).ok g

/-- RESET's release reads the profile and leaves TRU and the I-port alone. -/
theorem journalShrinks_release (straps : Straps) (d : Lc44) : d.journalShrinks (release straps d) := by
  unfold release
  dsimp only
  refine Lc44.journalShrinks.trans ?_ (journalShrinks_arbitrate _)
  refine Lc44.journalShrinks.trans ?_ (journalShrinks_of_keeps (keeps_loadNext _ _))
  exact journalShrinks_of_eq rfl rfl

/-- Every command keeps the journal's law. -/
theorem after_journalOk (c : Instr) (d : Lc44) (g : d.journalOk) : (d.after c).journalOk := by
  cases c with
  | resetAsserted =>
    rw [after_resetAsserted]
    exact ⟨Nat.zero_le _, List.nodup_nil, fun c hc => absurd hc (Option.some_ne_none c).symm⟩
  | resetRelease psel commission depol =>
    rw [after_resetRelease]
    split
    · exact (journalShrinks_release _ _).ok g
    · exact g
  | iPortCycle x =>
    refine after_of_keeps (exec_iPortCycle x) (fun _ => ?_) g
    split
    · exact g
    next hc => exact journalOk_arbitrate (journalOk_takeCycle x g (by simpa using hc))
  | memoryAnswer a =>
    refine after_of_keeps (exec_memoryAnswer a) (fun _ => ?_) g
    cases a with
    | ok w => exact journalOk_memoryEnd _ g
    | fault => exact journalOk_memoryEnd _ g
  | memoryTimeout => exact after_of_keeps exec_memoryTimeout (fun _ => journalOk_memoryEnd _ g) g
  | heldWriteRelease =>
    exact after_of_keeps exec_heldWriteRelease (fun _ => journalOk_arbitrate (journalOk_releaseHeld g)) g
  -- the trial
  | markConfirm =>
    refine after_journalOk_of_shrinks exec_markConfirm (fun d => ?_) g
    have taken := journalShrinks_of_keeps (keeps_takenTru .confirm d)
    dsimp only
    split
    · exact (taken.trans (journalShrinks_beginClosing _ _)).trans (journalShrinks_arbitrate _)
    · exact taken.trans (journalShrinks_onTru _ _)
  | markAbort =>
    refine after_journalOk_of_shrinks exec_markAbort (fun d => ?_) g
    have taken := journalShrinks_of_keeps (keeps_takenTru .abort d)
    dsimp only
    split
    · exact (taken.trans (journalShrinks_takeRollbackCause _ _ _)).trans (journalShrinks_arbitrate _)
    · exact taken.trans (journalShrinks_onTru _ _)
  | trialTimerExpiry =>
    refine after_journalOk_of_shrinks exec_trialTimerExpiry (fun d => ?_) g
    split
    · exact journalShrinks_refl _
    · split
      · exact (journalShrinks_takeRollbackCause _ _ _).trans (journalShrinks_arbitrate _)
      · split
        · exact journalShrinks_onTru _ _
        · exact journalShrinks_refl _
  | truCaptureNotice n =>
    refine after_journalOk_of_shrinks (exec_truCaptureNotice n) (fun d => journalShrinks_deliverTru d fun y => ?_) g
    split
    · exact journalShrinks_lossReport _ _
    · exact journalShrinks_refl _
  | truStaleNotice k =>
    exact after_journalOk_of_shrinks (exec_truStaleNotice k)
      (fun d => journalShrinks_deliverTru d (journalShrinks_lossReport k)) g
  -- time
  | tick => exact after_journalOk_of_shrinks exec_tick journalShrinks_tickAll g
  | commissioningSecond =>
    refine after_journalOk_of_shrinks exec_commissioningSecond (fun d => ?_) g
    split
    · exact journalShrinks_tickAll d
    · exact journalShrinks_refl _
  | refreshTimerExpiry =>
    exact after_journalOk_of_shrinks exec_refreshTimerExpiry
      (fun d => (journalShrinks_of_keeps (keeps_refreshExpired d)).trans (journalShrinks_arbitrate _)) g
  -- requests
  | beginReq body =>
    exact after_journalOk_of_shrinks (exec_beginReq body)
      (fun d => (journalShrinks_request d fun b y => journalShrinks_of_keeps (keeps_ownBegin b y)).trans
        (journalShrinks_arbitrate _)) g
  | save body =>
    exact after_journalOk_of_shrinks (exec_save body)
      (fun d => (journalShrinks_of_keeps (keeps_request keeps_ownSave)).trans (journalShrinks_arbitrate _)) g
  | handover body =>
    exact after_journalOk_of_shrinks (exec_handover body)
      (fun d => (journalShrinks_of_keeps (keeps_request keeps_ownHandover)).trans (journalShrinks_arbitrate _)) g
  | setMirror body =>
    exact after_journalOk_of_shrinks (exec_setMirror body)
      (fun d => (journalShrinks_of_keeps (keeps_request keeps_ownSetMirror)).trans (journalShrinks_arbitrate _)) g
  | trialOpen body =>
    exact after_journalOk_of_shrinks (exec_trialOpen body)
      (fun d => (journalShrinks_request d journalShrinks_ownTrialOpen).trans (journalShrinks_arbitrate _)) g
  | trialConfirm body =>
    exact after_journalOk_of_shrinks (exec_trialConfirm body)
      (fun d => (journalShrinks_request d journalShrinks_ownTrialConfirm).trans (journalShrinks_arbitrate _)) g
  | trialAbort body =>
    exact after_journalOk_of_shrinks (exec_trialAbort body)
      (fun d => (journalShrinks_request d journalShrinks_ownTrialAbort).trans (journalShrinks_arbitrate _)) g
  | trialExtend body =>
    exact after_journalOk_of_shrinks (exec_trialExtend body)
      (fun d => journalShrinks_request d journalShrinks_ownTrialExtend) g
  | wipe body =>
    exact after_journalOk_of_shrinks (exec_wipe body) (fun d => journalShrinks_request d journalShrinks_ownWipe) g
  | loadRegion body =>
    exact after_journalOk_of_shrinks (exec_loadRegion body)
      (fun d => journalShrinks_request d journalShrinks_ownLoadRegion) g
  | loadRule body =>
    exact after_journalOk_of_shrinks (exec_loadRule body)
      (fun d => journalShrinks_request d journalShrinks_ownLoadRule) g
  | overlayDiscard body =>
    exact after_journalOk_of_shrinks (exec_overlayDiscard body)
      (fun d => journalShrinks_request d journalShrinks_ownOverlayDiscard) g
  | _ => exact journalOk_restsOn.elsewhere (by rfl) g

/-- Settles O20: every command keeps the journal's law, and so does every step. -/
theorem journalStaysWithin48DistinctAddresses : Obligations.JournalStaysWithin48DistinctAddresses :=
  fun _ _ g h => step_keeps (P := Lc44.journalOk) after_journalOk g h

end Sys2Proof.Machine
end

