-- ==== Sys2Proof/Proofs/ResetAndTime.lean ====
section
/-! SUPPORT. Reset, its release, and the passing of time: the reset values, the laws at reset, the first read of
start-up, and what a tick and a commissioning second change. -/

namespace Sys2Proof.Machine

set_option Elab.async false

/-! ## Reset -/

/-- Settles O3: the reset values are read off the state at reset. -/
theorem resetAssertedGivesTheResetValues : Obligations.ResetAssertedGivesTheResetValues := by
  refine ⟨fun s => rfl, ?_⟩
  have table (i : Fin 16) : State.reset.part.ccl.table[i] = none := Vector.getElem_replicate ..
  have rules (i : Fin 64) : State.reset.part.fgd.rules[i] = none ∧ State.reset.part.fgd.counts[i] = 0 :=
    ⟨Vector.getElem_replicate .., Vector.getElem_replicate ..⟩
  have plan (i : Fin 32) : State.reset.part.acu.plan[i] = none := Vector.getElem_replicate ..
  have captures (c : Carrier) :
      State.reset.part.rcu.buffers.get c = Buffer.reset ∧
        State.reset.part.rcu.records.get c = CaptureRecord.cleared .default :=
    ⟨PerCarrier_get_all _ c, PerCarrier_get_all _ c⟩
  have view (c : Carrier) : State.reset.part.tmu.view.get c = ⟨false, none⟩ := PerCarrier_get_all _ c
  refine ⟨rfl, rfl, rfl, rfl, rfl, table, rfl, rfl, rfl, rfl, rfl, rfl, rfl, rfl, rfl, rules, rfl, rfl, rfl, rfl, rfl,
    rfl, rfl, rfl, rfl, rfl, rfl, rfl, rfl, rfl, rfl, rfl, rfl, rfl, rfl, rfl, rfl, rfl, rfl, captures, rfl, rfl, rfl,
    rfl, rfl, rfl, view, rfl, rfl, plan, ?_⟩
  repeat' apply And.intro
  all_goals rfl

/-- Settles O13: at reset nothing waits, nothing runs and every table is empty. -/
theorem lawsHoldAtReset : Obligations.LawsHoldAtReset := by
  have table (i : Fin 16) : State.reset.part.ccl.table[i] = none := Vector.getElem_replicate ..
  have noCycle (c : ICycle) : State.reset.part.iport.cycle ≠ some c := (Option.some_ne_none c).symm
  have notMuted : State.reset.part.resetAsserted ≠ false := by decide
  have notLoading (staged : List Word) : State.reset.part.phc.work ≠ .loading staged := PhcWork.noConfusion
  have notAwaiting : State.reset.part.ovu.work ≠ .awaitWrite := FoldWork.noConfusion
  refine ⟨rfl, ?_, fun h => absurd h notMuted, ?_, ?_, ?_, ?_, fun _ h => absurd h (Option.some_ne_none _).symm⟩
  · exact ⟨fun _ => ⟨rfl, rfl, rfl, notAwaiting⟩, fun c h => absurd h (noCycle c), fun _ => rfl,
      fun p h => absurd h (Option.some_ne_none p).symm, fun h => absurd h notAwaiting⟩
  · exact ⟨by decide, by decide, fun c h => absurd h (noCycle c)⟩
  · intro c
    have hc : State.reset.part.rcu.records.get c = CaptureRecord.cleared .default := PerCarrier_get_all _ c
    simp only [hc]
    exact peakOk_cleared _
  · refine ⟨fun m => ?_, fun i j r q m hi => ?_, fun c _ _ h => absurd h (noCycle c), fun _ => rfl,
      fun staged h => absurd h (notLoading staged)⟩
    · cases m <;> exact ⟨List.Pairwise.nil, List.forall_mem_nil _⟩
    · exact absurd hi (by simp [table i])
  · exact ⟨by decide, by decide, rfl, rfl, fun h => absurd rfl h, fun _ => rfl,
      fun staged h => absurd h (notLoading staged)⟩

/-- Settles O4: LOAD asks for the profile's first word, and the free port is given to PHC at once. -/
theorem resetReleaseStartsLoad : Obligations.ResetReleaseStartsLoad := by
  intro s raw psel commission depol h
  cases raw <;> simp [exec, execResetRelease, h] <;> rfl

/-! ## Time -/

/-- The records of RCU after a tick: each running report timer has one tick less. -/
theorem records_tick (r : Rcu) (c : Carrier) :
    r.tick.records.get c = { r.records.get c with timer := (r.records.get c).timer.map (· - 1) } :=
  PerCarrier_get_mapAll _ _ c

/-- The commissioning seconds run in COMMISSIONING once start-up is over (R165). -/
theorem counts_iff (p : Phc) : p.counts = true ↔ p.phase = .commissioning ∧ p.phop.isStarting = false := by
  simp [Phc.counts]

/-- The next tick ends a second when the seconds run and 999 ticks of it have passed (R165). -/
theorem secondEnds_iff (p : Phc) : p.secondEnds = true ↔ p.counts = true ∧ 999 ≤ p.accumulator := by
  simp [Phc.secondEnds]

/-- Settles O5: the parts of `tickAll`, one for each block. -/
theorem ticksAndSecondsCountTime : Obligations.TicksAndSecondsCountTime := by
  intro s hrun counting
  have hcount : s.part.phc.counts = true ↔ counting := counts_iff _
  refine ⟨⟨tickAll s.part, by rw [exec_tick, State.effect_running _ hrun], keeps_tickAll _, ?_, rfl, records_tick _,
    ?_, rfl, ?_, ?_, ?_, ?_, ?_, rfl⟩, ?_, ?_⟩
  · rw [tickAll_eq]
    cases hs : s.part.tru.state <;> simp [Tru.tick, hs, tickTimer]
  · rw [tickAll_eq]
    cases ht : s.part.tmu.tone <;> simp [Tmu.tick, ht, tickTimer, cadenceLength]
  · intro hm
    rw [tickAll_eq]
    cases hs : s.part.acu.runState
    case measuring => exact absurd hs hm
    all_goals simp [Acu.tick, hs]
  · intro p hm hp
    rw [tickAll_eq]
    simp [Acu.tick, hm, hp, satInc, satAdd]
  · intro hc ha
    have he : s.part.phc.secondEnds = false := by
      rw [Bool.eq_false_iff, Ne, secondEnds_iff]
      omega
    simp [tickAll_eq, Phc.tick, he, hcount.mpr hc]
  · intro hc ha
    have he : s.part.phc.secondEnds = true := (secondEnds_iff _).mpr ⟨hcount.mpr hc, by omega⟩
    simp [tickAll_eq, Phc.tick, he, satInc, satAdd, Config.max32]
  · intro hc
    have hf : s.part.phc.counts = false := by rwa [Bool.eq_false_iff, Ne, hcount]
    simp [tickAll_eq, Phc.tick, Phc.secondEnds, hf]
  · intro hc ha
    have he : s.part.phc.secondEnds = true := (secondEnds_iff _).mpr ⟨hcount.mpr hc, by omega⟩
    rw [exec_commissioningSecond, exec_tick, State.effect_running _ hrun, State.effect_running _ hrun]
    simp [he]
  · intro hc
    have he : s.part.phc.secondEnds = false := by
      rw [Bool.eq_false_iff, Ne, secondEnds_iff, hcount]
      rintro ⟨h, h'⟩
      rcases hc with hc | hc
      · exact hc h
      · omega
    rw [exec_commissioningSecond]
    exact State.effect_same (by simp [he])

end Sys2Proof.Machine
end

