-- ==== Sys2Proof/Proofs/CyclesTaken.lean ====
section
/-! SUPPORT. The cycles of the I-port: how they are classified, those that are forwarded, those answered without memory,
and those redirected to the overlay. -/

namespace Sys2Proof.Machine

set_option Elab.async false

/-! ## Classification -/

/-- Settles O7: the lookup finds the first matching entry. -/
theorem firstMatchingEntryClassifies : Obligations.FirstMatchingEntryClassifies := by
  intro d x reserved
  have hres : d.reserved x.addr.toNat = true ↔ reserved := reserved_iff d _
  refine ⟨fun ht => ⟨by simp [classify, ht, ClassRecord.plain], by simp [Lc44.reservedCycle, ht]⟩,
    fun ht => by simp [Lc44.reservedCycle, ht, hres],
    fun ht hr => by simp [classify, hres.mpr hr, ClassRecord.plain], fun ht hr => ?_⟩
  have hf : d.reserved x.addr.toNat = false := by rwa [Bool.eq_false_iff, Ne, hres]
  refine ⟨fun i r hi hm hfirst => ?_, fun hnone => ?_⟩
  · simp only [classify, ht, hf, lookup_eq_some _ _ i r hi hm hfirst]
    cases d.ccl.phase <;> cases r.treatment <;> rfl
  · simp [classify, ht, hf, lookup_eq_none _ _ hnone, ClassRecord.plain]

/-! ## Cycles that need memory -/

/-- A cycle is taken while the I-port is open to it: the arbiter decides after the take. -/
theorem exec_iPortCycle_open {s : State} (x : BusCycle) (h : s.takesCycle = true) :
    exec (.iPortCycle x) s = .next ⟨arbitrate (takeCycle x s.part), s.pending⟩ := by
  obtain ⟨hrun, -, hc, -⟩ := (takesCycle_iff s).mp h
  exact exec_iPortCycle_takes x hrun hc

/-- The LC44 with a cycle that waits at a stage for the port. -/
def Lc44.waitsAt (x : ICycle) (d : Lc44) : Lc44 :=
  { d with iport := { d.iport with cycle := some x }, mpc := { d.mpc with fwdWaiting := true } }

/-- A cycle just taken goes on to a stage that needs memory: FWD waits for the port. -/
theorem goOn_taken (g : Stage) (c : ICycle) (d : Lc44) (h : d.mpc.hold = none) :
    goOn g (d.onIport fun p => { p with cycle := some c }) = d.waitsAt { c with stage := g } := by
  rw [goOn_free g (d.onIport fun p => { p with cycle := some c }) h]
  rfl

/-- FWD waits at a busy port: the arbiter leaves it waiting. -/
theorem arbitrate_waitsAt_busy (x : ICycle) (d : Lc44) (h : d.mpc.cycle ≠ none) :
    arbitrate (d.waitsAt x) = d.waitsAt x := arbitrate_busy _ h

/-- FWD waits alone at a free port for a cycle that it presents unchanged: it is granted the port. -/
theorem arbitrate_waitsAt_free (x : ICycle) (r : MRequest) (d : Lc44) (h : d.mpc.cycle = none) (hh : d.mpc.hold = none)
    (hf : d.mpc.fwdWaiting = false) (hn : d.mpc.noRival = true)
    (hp : ∀ e : Lc44, e.iport.cycle = some x → e.ovu = d.ovu → presentStage e = present .fwd r e) :
    arbitrate (d.waitsAt x) =
      { d with
        iport := { d.iport with cycle := some x }
        mpc :=
          { d.mpc with
            cycle := some ⟨.fwd, r, d.mpc.timeout⟩
            hold := some d.mpc.timeout
            alternation := .fwd } } := by
  have hgrant : presentStage ({ d.waitsAt x with
      mpc := { (d.waitsAt x).mpc with
        fwdWaiting := false, hold := some (d.waitsAt x).mpc.timeout, alternation := .fwd } } : Lc44) = _ :=
    hp _ rfl rfl
  rw [arbitrate_fwd (d.waitsAt x) h hh hn rfl (by rw [hgrant]; exact Option.some_ne_none _), hgrant]
  simp only [present, Lc44.onMpc, Lc44.waitsAt, Mpc.grantTimeout, Option.getD_some, hf]

/-- The treatments under which a cycle is forwarded (section 1.5). -/
theorem handleCycle_forwarded {x : BusCycle} {r : ClassRecord} {d : Lc44}
    (h : r.treatment = .pass ∨ (r.treatment = .barred ∧ x.op = .read) ∨
      (∃ first count stride, r.treatment = .observe first count stride) ∨
      (∃ value mask signal, r.treatment = .mark value mask signal) ∨
      (∃ first count, r.treatment = .guarded first count ∧ x.op = .read ∧
        (d.tru.state = .rollingBack → waitingEntry d.tru.journal x.addr = none))) :
    handleCycle x r d = goOn .forward (d.onIport fun p => { p with cycle := some ⟨x, r, .forward⟩ }) := by
  rcases h with h | ⟨h, ho⟩ | ⟨_, _, _, h⟩ | ⟨_, _, _, h⟩ | ⟨_, _, h, ho, hw⟩
  · simp [handleCycle, h]
  · simp [handleCycle, h, ho]
  · simp [handleCycle, h]
  · simp [handleCycle, h]
  · simp only [handleCycle, h, ho, takeGuardedRead, Lc44.onIport_tru]
    cases hs : d.tru.state
    case rollingBack => rw [hw hs]
    all_goals rfl

/-- Settles O8: FWD waits for the port, and at a free port is granted it at once. -/
theorem forwardedCyclesRequestThePort : Obligations.ForwardedCyclesRequestThePort := by
  intro s x h r hres hr taken
  obtain ⟨hrun, hstart, hc, hh, hf, -, -⟩ := (takesCycle_iff s).mp h
  have hexec : exec (.iPortCycle x) s = .next ⟨arbitrate (s.part.waitsAt ⟨x, r, .forward⟩), s.pending⟩ := by
    rw [exec_iPortCycle_open x h, takeCycle_eq x _ hstart hres, handleCycle_forwarded hr, goOn_taken _ _ _ hh]
  refine ⟨fun hfree hn => ?_, fun hbusy => by rw [hexec, arbitrate_waitsAt_busy _ _ hbusy]; rfl⟩
  rw [hexec, arbitrate_waitsAt_free _ ⟨x.addr, x.op⟩ _ hfree hh hf hn]
  intro e he _
  simp [presentStage, he]

/-! ## Cycles answered without memory -/

/-- A cycle answered at the take leaves the port as it was, and the arbiter has nothing to decide. -/
theorem exec_iPortCycle_answered {s : State} {x : BusCycle} {e : Lc44} (h : s.takesCycle = true)
    (hset : s.part.mpc.settled = true) (he : takeCycle x s.part = e) (hm : e.mpc = s.part.mpc) :
    exec (.iPortCycle x) s = .next ⟨e, s.pending⟩ := by
  rw [exec_iPortCycle_open x h, he, arbitrate_of_settled e (by rwa [hm])]

/-- A cycle that has used neither the port nor the journal is refused: the I-port and the counter of the cause change. -/
theorem faultCycle_atOnce (c : FaultCause) (d : Lc44) (hf : d.iport.inFlight = false) (hs : d.inStep = true)
    (hw : d.ovu.work ≠ .awaitWrite) (hh : d.mpc.hold = none) :
    faultCycle c d =
      { d with
        iport := ⟨none, some (.fault (some c))⟩
        ccl := { d.ccl with faults := d.ccl.faults.count c } } :=
  answerCycle_atOnce _ _ hf hs hw hh

/-- Settles O9: each cause is found at the take, and the answer is given at once. -/
theorem cyclesAnsweredWithoutMemory : Obligations.CyclesAnsweredWithoutMemory := by
  intro s x h hset r refused f bounded waits
  obtain ⟨hrun, hstart, hc, hh, hf, hw, hs⟩ := (takesCycle_iff s).mp h
  have hflight : ({ s.part.iport with cycle := some ⟨x, r, .forward⟩ } : IPort).inFlight = false := rfl
  have htake (hn : ¬(x.op ≠ .read ∧ s.part.reservedCycle x = true)) : takeCycle x s.part = handleCycle x r s.part :=
    takeCycle_eq x _ hstart hn
  refine ⟨fun hx hcause => ?_, fun hx hn ⟨m, base, hm, hb⟩ hhand => ?_, fun first count hg hwait hn => ⟨fun hx => ?_,
    fun hx e he => ?_⟩⟩
  · have key : takeCycle x s.part =
        { s.part with
          iport := refused .barred
          ccl := { s.part.ccl with faults := { f with barred := bounded f.barred } } } := by
      cases hx' : x.op
      case read => exact absurd hx' hx
      rename_i data
      by_cases hr : s.part.reservedCycle x = true
      · rw [takeCycle_reserved x hstart hx hr,
          faultCycle_atOnce _ _ (by simp [IPort.inFlight, hc]) hs hw hh]
        rfl
      · rw [takeCycle_eq x _ hstart (fun g => hr g.2)]
        rcases hcause with hcause | hcause | ⟨m, base, hm, hb⟩
        · exact absurd hcause hr
        · simp only [handleCycle, show (classify x s.part).treatment = .barred from hcause, hx']
          exact faultCycle_atOnce _ _ hflight hs hw hh
        · simp only [handleCycle, show (classify x s.part).treatment = _ from hm, hx', takeRedirectedWrite,
            reserved_onIport, show s.part.reserved (base.toNat + (classify x s.part).offset) = true from hb, if_true]
          exact faultCycle_atOnce _ _ hflight hs hw hh
    exact exec_iPortCycle_answered h hset key rfl
  · have hn' := htake (fun g => by simp [hn] at g)
    have key : handleCycle x r s.part =
        { s.part with
          iport := refused .redirect
          ccl := { s.part.ccl with faults := { f with redirect := bounded f.redirect } } } := by
      cases hx' : x.op
      case read => exact absurd hx' hx
      simp only [handleCycle, hm, hx', takeRedirectedWrite, reserved_onIport, hb, Lc44.onIport_phc, hhand, if_true,
        Bool.false_eq_true, if_false]
      exact faultCycle_atOnce _ _ hflight hs hw hh
    exact exec_iPortCycle_answered h hset (hn'.trans key) rfl
  · have hn' := htake (fun g => by simp [hn] at g)
    have key : handleCycle x r s.part =
        { s.part with
          iport := refused .rollback
          ccl := { s.part.ccl with faults := { f with rollback := bounded f.rollback } }
          tru :=
            { s.part.tru with
              outcome := s.part.tru.outcome.map fun o =>
                { o with refused := o.refused.map fun n => min 65535 (n + 1) } } } := by
      cases hx' : x.op
      case read => exact absurd hx' hx
      obtain ⟨e, he⟩ := Option.isSome_iff_exists.mp hwait.2
      have hfault : handleCycle x r s.part =
          faultCycle .rollback (countRefused (s.part.onIport fun p => { p with cycle := some ⟨x, r, .forward⟩ })) := by
        simp only [handleCycle, hg, hx', settle, Lc44.onIport_tru, hwait.1, he]
      rw [hfault]
      exact faultCycle_atOnce _ (countRefused (s.part.onIport fun p => { p with cycle := some ⟨x, r, .forward⟩ }))
        hflight hs hw hh
    exact exec_iPortCycle_answered h hset (hn'.trans key) rfl
  · have hn' := htake (fun g => g.1 hx)
    have key : handleCycle x r s.part = { s.part with iport := ⟨none, some (.okRead e.preImage)⟩ } := by
      simp only [handleCycle, hg, hx, takeGuardedRead, Lc44.onIport_tru, hwait.1, he]
      exact answerCycle_atOnce _ _ hflight hs hw hh
    exact exec_iPortCycle_answered h hset (hn'.trans key) rfl

/-! ## Redirected cycles -/

/-- A flag entered: the flags set before, and the one entered. -/
theorem mem_setFlag (k n : Nat) (flags : List Nat) : n ∈ setFlag k flags ↔ n ∈ flags ∨ n = k := by
  induction flags with
  | nil => simp [setFlag]
  | cons x xs ih =>
    simp only [setFlag]
    split
    · simp [or_comm]
    · split
      · rename_i hk
        simp only [List.mem_cons, hk]
        tauto
      · simp only [List.mem_cons, ih]
        tauto

/-- A redirected cycle at the take goes on to OVU's cycle, unless it is a write that is refused (R87, R88). -/
theorem handleCycle_redirected {x : BusCycle} {r : ClassRecord} {m : MapId} {base : Addr} {d : Lc44}
    (hr : r.treatment = .redirect m base)
    (h : x.op ≠ .read → d.reserved (base.toNat + r.offset) = false ∧ d.phc.phop.isHandingOver = false) :
    handleCycle x r d = goOn (.redirected false) (d.onIport fun p => { p with cycle := some ⟨x, r, .forward⟩ }) := by
  cases hx : x.op with
  | read => simp [handleCycle, hr, hx]
  | write w =>
    obtain ⟨hb, hh⟩ := h (by simp [hx])
    simp [handleCycle, hr, hx, takeRedirectedWrite, hb, hh]

/-- The map of a map replaced. -/
theorem map_setMap (o : Ovu) (m n : MapId) (flags : List Nat) :
    (o.setMap m flags).map n = if n = m then flags else o.map n := by
  cases m <;> cases n <;> rfl

/-- A redirected cycle is no guarded-write sequence. -/
theorem inFlight_redirected {p : IPort} {c : ICycle} {void : Bool} (hc : p.cycle = some c)
    (hs : c.stage = .redirected void) : p.inFlight = false := by
  simp [IPort.inFlight, hc, hs]

/-- The answer of a cycle changes the I-port, the port and CCL. -/
theorem keeps_answered (d : Lc44) (i : IPort) (m : Mpc) (c : Ccl) :
    d.keepsOutside [.iport, .mpc, .ccl] { d with iport := i, mpc := m, ccl := c } :=
  keeps_trans (keeps_onIport (fun _ => i) d)
    (keeps_trans (l := [.mpc, .ccl]) (keeps_onMpc (fun _ => m) _) (keeps_onCcl (fun _ => c) _))

/-- FWD's cycle ends with an answer, and nobody waits for the port: the I-port is free, and CCL is in step (R3, R4). -/
theorem arbitrate_answerCycle (a : IAnswer) (d : Lc44) (hflight : d.iport.inFlight = false)
    (hw : d.ovu.work ≠ .awaitWrite) (hf : d.mpc.fwdWaiting = false) (hn : d.mpc.noRival = true) :
    arbitrate (answerCycle a d) =
      { d with
        iport := ⟨none, some a⟩
        mpc := { d.mpc with hold := none }
        ccl :=
          { d.ccl with
            phase := d.phc.phase
            mirror := if d.sli.mirrorEnabled then some d.sli.mirrorAddress else none } } := by
  rw [answerCycle_plain a d hflight hw]
  exact arbitrate_idle _ hf hn

/-- FWD's cycle ends with a FAULT answer, and nobody waits for the port. -/
theorem arbitrate_faultCycle (c : FaultCause) (d : Lc44) (hflight : d.iport.inFlight = false)
    (hw : d.ovu.work ≠ .awaitWrite) (hf : d.mpc.fwdWaiting = false) (hn : d.mpc.noRival = true) :
    arbitrate (faultCycle c d) =
      { d with
        iport := ⟨none, some (.fault (some c))⟩
        mpc := { d.mpc with hold := none }
        ccl :=
          { d.ccl with
            faults := d.ccl.faults.count c
            phase := d.phc.phase
            mirror := if d.sli.mirrorEnabled then some d.sli.mirrorAddress else none } } :=
  arbitrate_answerCycle _ _ hflight hw hf hn

/-- Who waits for the port when a cycle has left it. -/
theorem ended_fwdWaiting (p : MCycle) (e : MEnd) (m : Mpc) : (Mpc.ended p e m).fwdWaiting = m.fwdWaiting := by
  cases e <;> rfl

/-- The rivals of FWD when a cycle has left the port. -/
theorem ended_noRival (p : MCycle) (e : MEnd) (m : Mpc) : (Mpc.ended p e m).noRival = m.noRival := by
  cases e <;> rfl

/-- A failed cycle of FWD that was no guarded-write sequence: the I-port is answered FAULT with cause MEMORY. -/
theorem fwdEnded_failed {c : ICycle} (f : MFailure) (d : Lc44) (hc : d.iport.cycle = some c)
    (hs : c.stage.failCause = .memory) : fwdEnded (.error f) d = faultCycle .memory d := by
  simp [fwdEnded, hc, fwdFailed, hs]

/-- A cycle of FWD outside the guarded-write sequence fails with nobody waiting: the I-port is answered, and the port
counts the failure. -/
theorem memoryEnd_failed {c : ICycle} {p : MCycle} (f : MFailure) (d : Lc44) (hc : d.iport.cycle = some c)
    (hs : c.stage.failCause = .memory) (hflight : d.iport.inFlight = false) (hp : d.mpc.cycle = some p)
    (hfwd : p.client = .fwd) (hw : d.ovu.work ≠ .awaitWrite) (hf : d.mpc.fwdWaiting = false)
    (hn : d.mpc.noRival = true) :
    memoryEnd (.error f) d =
      { d with
        iport := ⟨none, some (.fault (some .memory))⟩
        mpc := { Mpc.ended p (.error f) d.mpc with hold := none }
        ccl :=
          { d.ccl with
            faults := d.ccl.faults.count .memory
            phase := d.phc.phase
            mirror := if d.sli.mirrorEnabled then some d.sli.mirrorAddress else none } } := by
  rw [memoryEnd_fwd _ _ _ hp hfwd, fwdEnded_failed f (d.onMpc (Mpc.ended p (.error f))) hc hs]
  exact arbitrate_faultCycle _ (d.onMpc (Mpc.ended p (.error f))) hflight hw ((ended_fwdWaiting ..).trans hf)
    ((ended_noRival p (.error f) d.mpc).trans hn)

/-- OVU once memory has accepted a redirected write: the flag of its offset is set, unless the write is void (R88, R89). -/
def Ovu.flagged (m : MapId) (offset : Nat) (void : Bool) (o : Ovu) : Ovu :=
  if void then o else o.setMap m (setFlag offset (o.map m))

/-- The flags after an accepted redirected write. -/
theorem mem_flagged (m n : MapId) (offset k : Nat) (o : Ovu) :
    k ∈ (o.flagged m offset false).map n ↔ k ∈ o.map n ∨ n = m ∧ k = offset := by
  simp only [Ovu.flagged, Bool.false_eq_true, if_false, map_setMap]
  split
  · rename_i h
    rw [mem_setFlag, h]
    tauto
  · tauto

/-- An accepted redirected write changes no more of OVU than the maps. -/
theorem flagged_keeps (m : MapId) (offset : Nat) (void : Bool) (o : Ovu) :
    (o.flagged m offset void).fold = o.fold ∧ (o.flagged m offset void).work = o.work := by
  cases void <;> cases m <;> exact ⟨rfl, rfl⟩

/-- A redirected cycle accepted by memory: a write sets its flag, a read is answered with memory's data. -/
theorem redirectedOk_eq {c : ICycle} {void : Bool} {m : MapId} {base : Addr} (w : Word) (d : Lc44)
    (hr : c.record.treatment = .redirect m base) :
    redirectedOk c void w d =
      match c.cycle.op with
      | .read => answerCycle (.okRead w) d
      | .write _ => answerCycle .okWrite (d.onOvu (Ovu.flagged m c.record.offset void)) := by
  cases hop : c.cycle.op with
  | read => simp [redirectedOk, hop]
  | write data => cases void <;> simp [redirectedOk, hop, hr] <;> rfl

/-- Settles O10: OVU's address at the grant, and OVU's flag at memory's OK. -/
theorem redirectedCyclesUseTheOverlay : Obligations.RedirectedCyclesUseTheOverlay := by
  refine ⟨?_, ?_⟩
  · intro s x m base h hfree hn r hr hx
    obtain ⟨hrun, hstart, hc, hh, hf, -, -⟩ := (takesCycle_iff s).mp h
    have hexec : exec (.iPortCycle x) s = .next ⟨arbitrate (s.part.waitsAt ⟨x, r, .redirected false⟩), s.pending⟩ := by
      rw [exec_iPortCycle_open x h, takeCycle_eq x _ hstart (fun g => by simp [(hx g.1).1] at g),
        handleCycle_redirected hr (fun g => (hx g).2), goOn_taken _ _ _ hh]
    rw [hexec, arbitrate_waitsAt_free _ ⟨_, x.op⟩ _ hfree hh hf hn]
    intro e he ho
    simp only [presentStage, he, redirectedAddr, hr, ho]
    cases hx' : x.op <;> simp [addrPlus]
  · intro s c void m base p w hrun hc hstage hr hp hfwd hf hn hw
    have hflight := inFlight_redirected hc hstage
    refine ⟨⟨memoryEnd (.ok w) s.part, exec_ok w s hrun, ?_⟩, ⟨memoryEnd (.error .fault) s.part, exec_failure .fault s hrun,
      ?_⟩⟩
    · have hend : memoryEnd (.ok w) s.part =
          arbitrate (redirectedOk c void w (s.part.onMpc fun m => { m with cycle := none })) := by
        rw [memoryEnd_fwd _ _ _ hp hfwd]
        simp only [fwdEnded, Lc44.onMpc_iport, hc, fwdOk, hstage]
        rfl
      rw [hend, redirectedOk_eq w _ hr]
      cases hop : c.cycle.op with
      | read =>
        rw [arbitrate_answerCycle (.okRead w) (s.part.onMpc fun m => { m with cycle := none }) hflight hw hf hn]
        exact ⟨keeps_mono (keeps_answered ..), rfl, rfl, rfl, rfl, rfl, fun _ => ⟨rfl, rfl⟩, fun data h => nomatch h⟩
      | write data =>
        have hkeeps := flagged_keeps m c.record.offset void s.part.ovu
        rw [arbitrate_answerCycle .okWrite
          ((s.part.onMpc fun m => { m with cycle := none }).onOvu (Ovu.flagged m c.record.offset void)) hflight
          (by simpa [hkeeps] using hw) hf hn]
        refine ⟨keeps_trans (keeps_onOvu (Ovu.flagged m c.record.offset void) s.part) (keeps_answered ..), rfl, rfl, rfl,
          hkeeps.1, hkeeps.2, fun h => BusOp.noConfusion h,
          fun _ _ => ⟨rfl, fun hv => by simp [hv, Ovu.flagged], fun hv n k => ?_⟩⟩
        subst hv
        exact mem_flagged m n _ k _
    · rw [memoryEnd_failed .fault s.part hc (by rw [hstage]; rfl) hflight hp hfwd hw hf hn]
      exact ⟨keeps_answered .., rfl, rfl⟩

end Sys2Proof.Machine
end

