-- ==== Sys2Proof/Proofs/CyclesEnd.lean ====
section
/-! SUPPORT. The end of a forwarded cycle: its answer, what an accepted OBSERVE or MARK write reports, and the failure
that the port counts. -/

namespace Sys2Proof.Machine

set_option Elab.async false

/-- A forwarded cycle is no guarded-write sequence. -/
theorem inFlight_forward {p : IPort} {c : ICycle} (hc : p.cycle = some c) (hs : c.stage = .forward) :
    p.inFlight = false := by
  simp [IPort.inFlight, hc, hs]

/-- A forwarded cycle accepted by memory: the arbiter decides after its answer. -/
theorem memoryEnd_forwarded {d : Lc44} {c : ICycle} {p : MCycle} (w : Word) (hc : d.iport.cycle = some c)
    (hs : c.stage = .forward) (hp : d.mpc.cycle = some p) (hfwd : p.client = .fwd) :
    memoryEnd (.ok w) d = arbitrate (forwardOk c w (d.onMpc fun m => { m with cycle := none })) := by
  rw [memoryEnd_fwd _ _ _ hp hfwd]
  simp only [fwdEnded, Lc44.onMpc_iport, hc, fwdOk, hs]
  rfl

/-- The port with the failure of a cycle of FWD counted: it has no INT owner. -/
theorem ended_error_fwd {p : MCycle} (f : MFailure) (m : Mpc) (h : p.client = .fwd) :
    Mpc.ended p (.error f) m =
      { m with
        cycle := none
        faults := if f = .fault then min 4294967295 (m.faults + 1) else m.faults
        timeouts := if f = .timeout then min 4294967295 (m.timeouts + 1) else m.timeouts
        lastFailure := some ⟨.fwd, none, p.request, f⟩ } := by
  simp [Mpc.ended, Mpc.failed, h, satInc, satAdd, Config.max32]

/-- A MARK write matches when it agrees with the value in every bit of the mask (R10). -/
theorem markMatches_iff (value mask data : Word) :
    markMatches value mask data = true ↔
      ∀ i : Fin 16, mask.getLsbD i = true → data.getLsbD i = value.getLsbD i := by
  simp only [markMatches, decide_eq_true_eq]
  constructor
  · intro h i hi
    have hbit : ¬ data[i] = value[i] → mask[i] = false := by
      simpa using congrArg (fun x : Word => x.getLsbD i) h
    by_contra hne
    exact absurd hi (by simpa using hbit (by simpa using hne))
  · intro h
    apply BitVec.eq_of_getLsbD_eq
    intro i hi
    cases hm : mask.getLsbD i
    · simp [hm]
    · simp [hm, h ⟨i, hi⟩ hm]

/-- What an accepted forwarded write reports to RCU, TRU and ACU (R10, R11). -/
theorem acceptedWrite_mark {r : ClassRecord} {value mask : Word} {signal : MarkSignal} (data : Word) (d : Lc44)
    (h : r.treatment = .mark value mask signal) :
    acceptedWrite r data d =
      if markMatches value mask data = true ∧ d.phc.phop.isHandingOver = false then raiseSignal signal d else d := by
  simp [acceptedWrite, h]

/-- An accepted write of an OBSERVE region is given to RCU (R11). -/
theorem acceptedWrite_observe {r : ClassRecord} {first count stride : Nat} (data : Word) (d : Lc44)
    (h : r.treatment = .observe first count stride) :
    acceptedWrite r data d = raiseRcu ⟨r.offset, first, count, stride, data⟩ d := by
  simp [acceptedWrite, h]

/-- Settles O14: the answer goes to the I-port, and nobody waits for the port it leaves. -/
theorem forwardedCyclesAreAnswered : Obligations.ForwardedCyclesAreAnswered := by
  refine ⟨?_, ?_⟩
  · intro s c p hrun hc hs hp hfwd hf hn hw synced freed failed
    have hflight := inFlight_forward hc hs
    have hfail (f : MFailure) : memoryEnd (.error f) s.part = failed f := by
      rw [memoryEnd_failed f s.part hc (by rw [hs]; rfl) hflight hp hfwd hw hf hn, ended_error_fwd f _ hfwd]
      rfl
    refine ⟨fun w hop => ?_, fun data w hop ht => ?_, ?_, ?_⟩
    · rw [exec_ok w s hrun, memoryEnd_forwarded w hc hs hp hfwd]
      simp only [forwardOk, hop]
      rw [arbitrate_answerCycle (.okRead w) (s.part.onMpc fun m => { m with cycle := none }) hflight hw hf hn]
      rfl
    · have hquiet : acceptedWrite c.record data (s.part.onMpc fun m => { m with cycle := none }) =
          s.part.onMpc fun m => { m with cycle := none } := by
        rcases ht with ht | ht <;> simp [acceptedWrite, ht]
      rw [exec_ok w s hrun, memoryEnd_forwarded w hc hs hp hfwd]
      simp only [forwardOk, hop, hquiet]
      rw [arbitrate_answerCycle .okWrite (s.part.onMpc fun m => { m with cycle := none }) hflight hw hf hn]
      rfl
    · exact (exec_failure .fault s hrun).trans (by rw [hfail])
    · exact (exec_failure .timeout s hrun).trans (by rw [hfail])
  · intro s c p data w hrun hc hs hop hp hfwd hf hn hw raised agrees
    have hflight := inFlight_forward hc hs
    let freed := s.part.onMpc fun m => { m with cycle := none }
    have hkeeps : freed.keepsOutside [.raised] (acceptedWrite c.record data freed) :=
      keeps_acceptedWrite _ _ _
    have hi := keeps_iport hkeeps
    have hm := keeps_mpc hkeeps
    have hccl := keeps_ccl hkeeps
    have hend : memoryEnd (.ok w) s.part = arbitrate (answerCycle .okWrite (acceptedWrite c.record data freed)) := by
      rw [memoryEnd_forwarded w hc hs hp hfwd]
      simp only [forwardOk, hop]
      rfl
    rw [arbitrate_answerCycle .okWrite (acceptedWrite c.record data freed) (by rw [hi]; exact hflight)
      (by rw [keeps_ovu hkeeps]; exact hw) (by rw [hm]; exact hf) (by rw [hm]; exact hn)] at hend
    refine ⟨_, exec_ok w s hrun, ?_⟩
    rw [hend]
    have hraises {value mask : Word} {signal : MarkSignal} (ht : c.record.treatment = .mark value mask signal)
        (hag : agrees value mask) : (acceptedWrite c.record data freed).raised = (raiseSignal signal freed).raised := by
      rw [acceptedWrite_mark data freed ht, if_pos ⟨(markMatches_iff ..).mpr hag.1, hag.2⟩]
    have hquiet {value mask : Word} {signal : MarkSignal} (ht : c.record.treatment = .mark value mask signal)
        (hag : ¬ agrees value mask) : (acceptedWrite c.record data freed).raised = raised := by
      rw [acceptedWrite_mark data freed ht, if_neg fun g => hag ⟨(markMatches_iff ..).mp g.1, g.2⟩]
      rfl
    refine ⟨keeps_trans (keeps_onMpc (fun m => { m with cycle := none }) s.part)
      (keeps_trans (l := [.iport, .mpc, .ccl, .raised]) hkeeps (keeps_answered ..)), rfl, ?_, ?_, ?_,
      fun value mask => hraises, fun value mask => hraises, fun value mask => hraises,
      fun value mask signal => hquiet, fun first count stride ht => ?_⟩
    · simp only [hm]
      rfl
    · simp only [hccl]
      rfl
    · simp only [hccl]
      rfl
    · simp only [acceptedWrite_observe data freed ht]
      rfl

end Sys2Proof.Machine
end

