-- ==== Sys2Proof/Proofs/GuardedWrites.lean ====
section
/-! SUPPORT. The guarded-write sequence: the lock pass, the rules a write fixes, the take of a guarded write with the
trial IDLE, and the resumption of a held one. -/

namespace Sys2Proof.Machine

set_option Elab.async false

/-! ## Lock values -/

/-- The value of a field fixes the field's bits (R37). -/
theorem Field.bits_of_extract {f : Field} {w : Word} {v : Int} (h : extract f w = v) :
    f.bits w = BitVec.ofInt f.width v := by
  cases hs : f.signed with
  | false =>
    rw [← h, extract_unsigned w hs, BitVec.ofInt_natCast, BitVec.ofNat_toNat, BitVec.setWidth_eq]
  | true => rw [← h, extract_signed w hs, BitVec.ofInt_toInt]

/-- Two words with the same bits in a field have the same value in it. -/
theorem extract_congr {f : Field} {w x : Word} (h : f.bits w = f.bits x) : extract f w = extract f x := by
  cases hs : f.signed with
  | false => rw [extract_unsigned w hs, extract_unsigned x hs, h]
  | true => rw [extract_signed w hs, extract_signed x hs, h]

/-- Two lock rules of one word without a conflict ask for the same value of every bit they share (R42). -/
theorem lockBits_agree {r q : Rule} {a b : Int} (hr : r.kind = .muteLock a) (hq : q.kind = .muteLock b)
    (hw : r.word = q.word) (h : r.lockConflict q = false) {i : Nat} (hi : (fieldMask r.field).getLsbD i = true)
    (hj : (fieldMask q.field).getLsbD i = true) :
    (fieldBits r.field a).getLsbD i = (fieldBits q.field b).getLsbD i := by
  simp only [Rule.lockConflict, hr, hq, hw, decide_true, Bool.true_and, decide_eq_false_iff_not, ne_eq, not_not] at h
  have hbit := congrArg (fun x : Word => x.getLsbD i) h
  simp only [BitVec.getLsbD_and, BitVec.getLsbD_xor, hi, hj, Bool.and_true] at hbit
  simpa using hbit

/-- A lock value inserted leaves the lock value of another rule of the word in its place (R42, R51). -/
theorem extract_insert_lock {r q : Rule} {a b : Int} {w : Word} (hr : r.kind = .muteLock a) (hq : q.kind = .muteLock b)
    (hw : r.word = q.word) (h : r.lockConflict q = false) (hsr : r.field.shapeOk = true) (hsq : q.field.shapeOk = true)
    (ha : extract r.field w = a) : extract r.field (insertField q.field b w) = a := by
  obtain ⟨-, -, hfr⟩ := shapeOk_iff.mp hsr
  obtain ⟨-, -, hfq⟩ := shapeOk_iff.mp hsq
  have hbits := Field.bits_of_extract ha
  rw [← ha]
  apply extract_congr
  apply BitVec.eq_of_getLsbD_eq
  intro k hk
  simp only [Field.bits, BitVec.getLsbD_extractLsb', hk, decide_true, Bool.true_and]
  rcases Nat.lt_or_ge (r.field.offset + k) q.field.offset with hb | hb
  · exact getLsbD_insertField_outside b w (by omega) (Or.inl hb)
  rcases Nat.lt_or_ge (r.field.offset + k) (q.field.offset + q.field.width) with hu | hu
  · have hin : q.field.offset + (r.field.offset + k - q.field.offset) = r.field.offset + k := by omega
    have hagree := lockBits_agree hr hq hw h (i := r.field.offset + k)
      (by rw [getLsbD_fieldMask]; simp; omega) (by rw [getLsbD_fieldMask]; simp; omega)
    have h16 : r.field.offset + k < 16 := by omega
    simp only [getLsbD_fieldBits, h16, hb, Nat.le_add_right, decide_true, Bool.true_and, Nat.add_sub_cancel_left]
      at hagree
    have hplace := getLsbD_insertField_inside b w hfq (i := r.field.offset + k - q.field.offset) (by omega)
    rw [hin] at hplace
    rw [hplace, ← hagree, ← hbits]
    simp [Field.bits, hk]
  · exact getLsbD_insertField_outside b w (by omega) (Or.inr hu)

/-- The rules of a write as the table can hold them: good fields and bounds, one word, no lock against another (R42). -/
structure LocksFit (rules : List FixedRule) : Prop where
  good : ∀ r ∈ rules, r.rule.field.shapeOk = true ∧ r.rule.boundsOk = true
  oneWord : ∀ r ∈ rules, ∀ q ∈ rules, r.rule.word = q.rule.word
  agree : ∀ r ∈ rules, ∀ q ∈ rules, r.rule.lockConflict q.rule = false

/-- A word carries the lock value of every MUTE-LOCK rule of a list. -/
def carriesLocks (rules : List FixedRule) (w : Word) : Prop :=
  ∀ r ∈ rules, ∀ lock, r.rule.kind = .muteLock lock → extract r.rule.field w = lock

/-- A rule's lock value inserted: the word carries it beside the locks that it carried. -/
theorem carriesLocks_insert {rules done : List FixedRule} {q : FixedRule} {b : Int} {w : Word} (h : LocksFit rules)
    (hd : ∀ r ∈ done, r ∈ rules) (hq : q ∈ rules) (hk : q.rule.kind = .muteLock b) (hw : carriesLocks done w) :
    carriesLocks (q :: done) (insertField q.rule.field b w) := by
  intro r hr lock hlock
  obtain ⟨hl, hg⟩ := boundsOk_muteLock hk (h.good q hq).2
  rcases List.mem_cons.mp hr with rfl | hr
  · rw [hk] at hlock
    injection hlock with hlock
    rw [← hlock]
    exact extract_insertField w (h.good r hq).1 hl hg
  · exact extract_insert_lock hlock hk (h.oneWord r (hd r hr) q hq) (h.agree r (hd r hr) q hq) (h.good r (hd r hr)).1
      (h.good q hq).1 (hw r hr lock hlock)

/-- The locks inserted again: the word carries the lock of every rule (R51). -/
theorem carriesLocks_reinsertLocks {rules : List FixedRule} (h : LocksFit rules) (todo done : List FixedRule) (w : Word)
    (ht : ∀ r ∈ todo, r ∈ rules) (hd : ∀ r ∈ done, r ∈ rules) (hw : carriesLocks done w) :
    ∀ r ∈ todo ++ done, ∀ lock, r.rule.kind = .muteLock lock → extract r.rule.field (reinsertLocks todo w) = lock := by
  induction todo generalizing done w with
  | nil => exact hw
  | cons q rest ih =>
    have hq := ht q List.mem_cons_self
    have hrest : ∀ r ∈ rest, r ∈ rules := fun r hr => ht r (List.mem_cons_of_mem q hr)
    cases hk : q.rule.kind with
    | muteLock b =>
      have step := ih (q :: done) (insertField q.rule.field b w) hrest
        (fun r hr => (List.mem_cons.mp hr).elim (fun e => e ▸ hq) (hd r)) (carriesLocks_insert h hd hq hk hw)
      intro r hr
      simp only [reinsertLocks, hk]
      exact step r (List.perm_middle.mem_iff.mpr hr)
    | _ =>
      intro r hr lock hlock
      simp only [reinsertLocks, hk]
      rcases List.mem_append.mp hr with hr | hr
      · rcases List.mem_cons.mp hr with rfl | hr
        · rw [hk] at hlock
          exact absurd hlock (by simp)
        · exact ih done w hrest hd hw r (List.mem_append_left _ hr) lock hlock
      · exact ih done w hrest hd hw r (List.mem_append_right _ hr) lock hlock

/-- A rule that finds no violation leaves the working value to the rules after it (R48). -/
theorem applyRules_pass {mem : Option Word} {muted : Bool} {r : FixedRule} {rs : List FixedRule} {w : Word}
    (hv : r.rule.violated mem muted w = false) : applyRules mem muted (r :: rs) w = applyRules mem muted rs w := by
  simp [applyRules, hv]

/-- A MUTE-LOCK rule as the table can hold it notes nothing (R42). -/
theorem action_ne_note {r : Rule} {lock : Int} (h : r.kind = .muteLock lock) (hb : r.boundsOk = true) :
    r.action ≠ .note := by
  simp only [Rule.boundsOk, h, Bool.and_eq_true, decide_eq_true_eq] at hb
  exact hb.2

/-- The locks applied as rules under TXMUTE with no refusal: the word carries the lock of every rule (R51). -/
theorem carriesLocks_applyRules {rules : List FixedRule} (h : LocksFit rules) (mem : Option Word)
    (todo done : List FixedRule) (w : Word) (ht : ∀ r ∈ todo, r ∈ rules ∧ r.rule.isMuteLock = true)
    (hd : ∀ r ∈ done, r ∈ rules) (hw : carriesLocks done w) (hr : (applyRules mem true todo w).refused = false) :
    ∀ r ∈ todo ++ done, ∀ lock, r.rule.kind = .muteLock lock →
      extract r.rule.field (applyRules mem true todo w).working = lock := by
  induction todo generalizing done w with
  | nil => exact hw
  | cons q rest ih =>
    obtain ⟨hq, hlock⟩ := ht q List.mem_cons_self
    have hrest : ∀ r ∈ rest, r ∈ rules ∧ r.rule.isMuteLock = true := fun r hr => ht r (List.mem_cons_of_mem q hr)
    have hdone : ∀ r ∈ q :: done, r ∈ rules := fun r hr => (List.mem_cons.mp hr).elim (fun e => e ▸ hq) (hd r)
    cases hk : q.rule.kind with
    | muteLock b =>
      intro r hmem
      have hmem' : r ∈ rest ++ q :: done := List.perm_middle.mem_iff.mpr hmem
      cases hv : q.rule.violated mem true w
      · have hkeep : extract q.rule.field w = b := by
          by_contra hne
          rw [(violated_muteLock hk).mpr ⟨rfl, hne⟩] at hv
          cases hv
        rw [applyRules_pass hv] at hr ⊢
        refine ih (q :: done) w hrest hdone (fun x hx lock hl => ?_) hr r hmem'
        rcases List.mem_cons.mp hx with rfl | hx
        · rw [hk] at hl
          injection hl with hl
          exact hl ▸ hkeep
        · exact hw x hx lock hl
      · cases ha : q.rule.action with
        | note => exact absurd ha (action_ne_note hk (h.good q hq).2)
        | refuse => rw [applyRules_refuse hv ha] at hr; cases hr
        | clamp =>
          rw [applyRules_clamp hv ha] at hr ⊢
          rw [correction_muteLock hk] at hr ⊢
          exact ih (q :: done) _ hrest hdone (carriesLocks_insert h hd hq hk hw) hr r hmem'
    | _ => simp [Rule.isMuteLock, hk] at hlock

/-- Settles O18: the locks are inserted again, or applied as rules when TXMUTE has been asserted meanwhile. -/
theorem lockPassLeavesEveryLockValue : Obligations.LockPassLeavesEveryLockValue := by
  intro g hgood hword hagree hpass r hr lock hk
  have hfit : LocksFit g.rules := ⟨hgood, hword, hagree⟩
  cases hs : g.sample
  · simp only [lockPass, hs, Bool.not_true, Bool.false_eq_true, if_false] at hpass ⊢
    refine carriesLocks_applyRules hfit _ _ [] _ (fun q hq => List.mem_filter.mp hq) (by simp) (by simp [carriesLocks])
      hpass r ?_ lock hk
    simp [hr, Rule.isMuteLock, hk]
  · simp only [lockPass, hs, Bool.not_true, Bool.false_eq_true, if_false, if_true]
    exact carriesLocks_reinsertLocks hfit g.rules [] _ (fun q hq => hq) (by simp) (by simp [carriesLocks]) r (by simpa)
      lock hk

/-! ## The rules a write fixes -/

/-- The rules a write fixes: the non-empty ones of the span whose word is the write's offset (R46). -/
theorem mem_fixRules {f : Fgd} {first count offset : Nat} {q : FixedRule} :
    q ∈ f.fixRules first count offset ↔
      f.rules[q.index] = some q.rule ∧ first ≤ q.index.val ∧ q.index.val < first + count ∧ q.rule.word = offset ∧
        q.live = true := by
  simp only [Fgd.fixRules, List.mem_filterMap, List.mem_finRange, true_and]
  constructor
  · rintro ⟨i, hi⟩
    cases hr : f.rules[i] with
    | none => simp [hr] at hi
    | some r =>
      simp only [hr, Option.ite_none_right_eq_some, Option.some.injEq] at hi
      obtain ⟨⟨hlo, hhi, hw⟩, rfl⟩ := hi
      exact ⟨hr, hlo, hhi, hw, rfl⟩
  · rintro ⟨hr, hlo, hhi, hw, hl⟩
    refine ⟨q.index, ?_⟩
    obtain ⟨i, r, live⟩ := q
    simp only at hr hlo hhi hw hl
    simp [hr, hlo, hhi, hw, hl]

/-- The rules a write fixes are in ascending index order (R46). -/
theorem pairwise_fixRules (f : Fgd) (first count offset : Nat) :
    ((f.fixRules first count offset).map FixedRule.index).Pairwise (· < ·) := by
  rw [List.pairwise_map, Fgd.fixRules, List.pairwise_filterMap]
  have hindex (i : Fin 64) (q : FixedRule) (h : (match f.rules[i] with
      | none => none
      | some r =>
        if first ≤ i.val ∧ i.val < first + count ∧ r.word = offset then some (⟨i, r, true⟩ : FixedRule) else none)
      = some q) : q.index = i := by
    split at h
    · cases h
    · simp only [Option.ite_none_right_eq_some, Option.some.injEq] at h
      rw [← h.2]
  refine (List.pairwise_lt_finRange 64).imp fun {i j} hij q hq p hp => ?_
  rwa [hindex i q hq, hindex j p hp]

/-! ## The sequence at the end of its settle step -/

/-- FGD with the violations of a rule step counted. -/
def Fgd.counted (r : RuleResult) (f : Fgd) : Fgd := { f with counts := raiseCounts r.hits f.counts }

/-- No violation is counted where none is found. -/
theorem countHits_nil (d : Lc44) : countHits [] d = d := rfl

/-- The sequence a write begins, before its pre-read and its rules (R46). -/
def GuardSeq.begun (rules : List FixedRule) (journalled isNew : Bool) (data : Word) : GuardSeq :=
  ⟨rules, journalled, isNew, none, data, false⟩

/-- A new address or a FROZEN rule makes the pre-read (R47). -/
theorem guardGo_preRead {journalled isNew : Bool} {first count offset : Nat} {c : BusCycle} {d : Lc44} (data : Word)
    (hn : isNew = (journalled && !hasEntry d.tru.journal c.addr))
    (h : isNew = true ∨ ∃ r ∈ d.fgd.fixRules first count offset, r.rule.kind = .frozen) :
    guardGo journalled first count c offset data d =
      goOn (.preRead (.begun (d.fgd.fixRules first count offset) journalled isNew data)) d := by
  have hpre : (isNew || (d.fgd.fixRules first count offset).any fun r => r.rule.isFrozen) = true := by
    rw [Bool.or_eq_true, List.any_eq_true]
    refine h.imp id fun ⟨r, hr, hk⟩ => ⟨r, hr, by simp [Rule.isFrozen, hk]⟩
  subst hn
  simp only [guardGo, hpre, if_true]
  rfl

/-- Otherwise the rules are applied at once (R47, R48). -/
theorem guardGo_rules {journalled : Bool} {first count offset : Nat} {c : BusCycle} {d : Lc44} (data : Word)
    (hn : (journalled && !hasEntry d.tru.journal c.addr) = false)
    (h : ∀ r ∈ d.fgd.fixRules first count offset, r.rule.kind ≠ .frozen) :
    guardGo journalled first count c offset data d =
      guardRules data (.begun (d.fgd.fixRules first count offset) journalled false data) d := by
  have hpre : ((d.fgd.fixRules first count offset).any fun r => r.rule.isFrozen) = false := by
    rw [List.any_eq_false]
    intro r hr
    have hk := h r hr
    cases hq : r.rule.kind <;> simp_all [Rule.isFrozen]
  simp only [guardGo, hn, hpre, Bool.or_self, Bool.false_eq_true, if_false]
  rfl

/-- The rules refuse a write: it is answered FAULT with cause RULE (R48). -/
theorem guardRules_refused {data : Word} {g : GuardSeq} {d : Lc44}
    (h : (applyRules g.memWord d.txmute g.rules data).refused = true) :
    guardRules data g d = faultCycle .rule (countHits (applyRules g.memWord d.txmute g.rules data).hits d) := by
  simp [guardRules, h]

/-- The rules let a write through whose address is not new: it goes on to its forward (R48, R49). -/
theorem guardRules_forward {data : Word} {g : GuardSeq} {d : Lc44} (hn : g.isNew = false)
    (h : (applyRules g.memWord d.txmute g.rules data).refused = false) :
    guardRules data g d =
      goOn
        (.guardForward { g with working := (applyRules g.memWord d.txmute g.rules data).working, sample := d.txmute })
        (countHits (applyRules g.memWord d.txmute g.rules data).hits d) := by
  simp [guardRules, h, hn]

/-- The word a lock pass lets through when TXMUTE is as it was at the rules (R51). -/
def GuardSeq.locked (muted : Bool) (g : GuardSeq) : Word :=
  if muted then reinsertLocks g.rules g.working else g.working

/-- The lock pass under the TXMUTE of the rules refuses nothing and counts nothing (R51). -/
theorem lockPass_sampled (muted : Bool) (g : GuardSeq) (h : muted = true → g.sample = true) :
    lockPass muted g = ⟨g.locked muted, [], false⟩ := by
  cases muted
  · rfl
  · simp [lockPass, h rfl, GuardSeq.locked]

/-- The forward of a sequence is presented under the TXMUTE of its rules (R51, R52). -/
theorem presentGuarded_sampled (c : ICycle) (g : GuardSeq) (d : Lc44) (h : d.txmute = true → g.sample = true) :
    presentGuarded c g d =
      present .fwd ⟨c.cycle.addr, .write (g.locked d.txmute)⟩
        (enterStage (.guardForward { g with working := g.locked d.txmute }) d) := by
  simp [presentGuarded, lockPass_sampled _ g h, countHits_nil]

/-- The port with FWD alone granted to the forward of a sequence (R28, R51, R52). -/
theorem arbitrate_guardForward (c : ICycle) (g : GuardSeq) (d : Lc44) (hc : d.mpc.cycle = none)
    (hh : d.mpc.hold = none) (hf : d.mpc.fwdWaiting = false) (hn : d.mpc.noRival = true) (hs : g.sample = d.txmute) :
    arbitrate (d.waitsAt { c with stage := .guardForward g }) =
      { d with
        iport :=
          { d.iport with
            cycle := some { c with stage := .guardForward { g with working := g.locked d.txmute } } }
        mpc :=
          { d.mpc with
            cycle := some ⟨.fwd, ⟨c.cycle.addr, .write (g.locked d.txmute)⟩, d.mpc.timeout⟩
            hold := some d.mpc.timeout
            alternation := .fwd } } := by
  let e := d.waitsAt { c with stage := .guardForward g }
  have hgrant : presentStage ({ e with
      mpc := { e.mpc with fwdWaiting := false, hold := some e.mpc.timeout, alternation := .fwd } } : Lc44) = _ :=
    presentGuarded_sampled { c with stage := .guardForward g } g _ fun h => hs.trans h
  rw [arbitrate_fwd e hc hh hn rfl (by rw [hgrant]; exact Option.some_ne_none _), hgrant]
  simp only [e, present, enterStage, Lc44.onIport, Lc44.onMpc, Lc44.waitsAt, Mpc.grantTimeout, Option.getD_some, hf]
  rfl

/-- Outcomes of one queue agree when the LC44s do. -/
theorem next_congr {d e : Lc44} {q : List Instr} (h : d = e) :
    (Host.Outcome.next ⟨d, q⟩ : Host.Outcome State Fault Refusal) = .next ⟨e, q⟩ := by
  rw [h]

/-- A cycle that is at a stage already. -/
theorem enterStage_same {c : ICycle} {g : Stage} {d : Lc44} (hc : d.iport.cycle = some c) (hs : c.stage = g) :
    enterStage g d = d := by
  have hi : ({ d.iport with cycle := d.iport.cycle.map fun x => { x with stage := g } } : IPort) = d.iport := by
    rw [hc, ← hs]
    exact congrArg (fun x => (⟨x, d.iport.answer⟩ : IPort)) hc.symm
  simp only [enterStage, Lc44.onIport, hi]

/-- Without the hold the cycle in progress waits for the port at the stage it goes on to (R26). -/
theorem goOn_unheld {c : ICycle} (g : Stage) {d : Lc44} (hc : d.iport.cycle = some c) (hh : d.mpc.hold = none) :
    goOn g d = d.waitsAt { c with stage := g } := by
  rw [goOn_free _ _ hh]
  simp [requestFwd, enterStage, Lc44.onIport, Lc44.onMpc, hc, Lc44.waitsAt]

/-! ## A guarded write taken with the trial IDLE -/

/-- A guarded write taken with the trial IDLE begins its sequence at once (R46). -/
theorem takeCycle_guarded_idle {x : BusCycle} {first count : Nat} {data : Word} {d : Lc44}
    (hstart : d.phc.phop.isStarting = false) (hidle : d.tru.state = .idle) (hx : x.op = .write data)
    (hres : d.reservedCycle x = false) (ht : (classify x d).treatment = .guarded first count) :
    takeCycle x d =
      guardGo false first count x (classify x d).offset data
        (d.onIport fun p => { p with cycle := some ⟨x, classify x d, .forward⟩ }) := by
  rw [takeCycle_eq x _ hstart (fun g => by simp [hres] at g)]
  simp [handleCycle, ht, hx, settle, hidle]

/-- Settles O17: the rules are applied at the take, and the lock pass sees the same TXMUTE. -/
theorem guardedWritesPassTheirRules : Obligations.GuardedWritesPassTheirRules := by
  intro s x first count data h hfree hn hidle hx hres ht r rules result counted hfrozen
  obtain ⟨hrun, hstart, hc, hh, hf, hw, hs⟩ := (takesCycle_iff s).mp h
  let taken := s.part.onIport fun p => { p with cycle := some ⟨x, r, .forward⟩ }
  have htake : takeCycle x s.part = guardRules data (.begun rules false false data) taken := by
    rw [takeCycle_guarded_idle hstart hidle hx hres ht]
    exact guardGo_rules data rfl hfrozen
  refine ⟨fun i q hq hlo hhi hword => mem_fixRules.mpr ⟨hq, hlo, hhi, hword, rfl⟩, fun q hq => mem_fixRules.mp hq,
    pairwise_fixRules .., fun hr => ?_, fun hr => ?_⟩
  · have hset : s.part.mpc.settled = true := by
      simp only [Mpc.noRival, Bool.and_eq_true, Option.isNone_iff_eq_none, List.isEmpty_iff] at hn
      exact settled_of_choice_none ((choice_eq_none_iff _).mpr ⟨hf, hn.1.1, hn.1.2, hn.2⟩)
    refine exec_iPortCycle_answered h hset ?_ rfl
    rw [htake, guardRules_refused (d := taken) hr]
    exact faultCycle_atOnce .rule (countHits result.hits taken) rfl hs hw hh
  · intro word
    let g : GuardSeq := ⟨rules, false, false, none, result.working, s.part.txmute⟩
    have hgo : takeCycle x s.part = (countHits result.hits s.part).waitsAt ⟨x, r, .guardForward g⟩ := by
      rw [htake, guardRules_forward (d := taken) rfl hr]
      exact goOn_unheld (c := ⟨x, r, .forward⟩) (.guardForward g) rfl hh
    rw [exec_iPortCycle_open x h, hgo]
    exact next_congr
      (arbitrate_guardForward ⟨x, r, .forward⟩ g (countHits result.hits s.part) hfree hh hf hn rfl)

/-! ## A held write resumed -/

/-- A held write that is resumed is settled under the trial as it stands (R46, R60). -/
theorem exec_heldWriteRelease_held {s : State} {c : ICycle} {first count : Nat} {data : Word} (hrun : s.running = true)
    (hc : s.part.iport.cycle = some c) (hs : c.stage = .held) (ht : c.record.treatment = .guarded first count)
    (hop : c.cycle.op = .write data) :
    exec .heldWriteRelease s =
      .next ⟨arbitrate (settle first count c.cycle c.record.offset data s.part), s.pending⟩ := by
  rw [exec_heldWriteRelease, State.effect_running _ hrun]
  simp [releaseHeld, hc, hs, ht, hop]

/-- The refusal of a cycle changes the I-port and CCL. -/
theorem keeps_refused (d : Lc44) (i : IPort) (c : Ccl) :
    d.keepsOutside [.iport, .ccl] { d with iport := i, ccl := c } :=
  keeps_trans (keeps_onIport (fun _ => i) d) (keeps_onCcl (fun _ => c) _)

/-- A refusal of a cycle that neither holds nor has used the port: the I-port and CCL change. -/
theorem faultCycle_unheld (x : FaultCause) (d : Lc44) (hflight : d.iport.inFlight = false) (hh : d.mpc.hold = none)
    (hw : d.ovu.work ≠ .awaitWrite) :
    faultCycle x d =
      { d with
        iport := ⟨none, some (.fault (some x))⟩
        ccl :=
          { d.ccl with
            faults := d.ccl.faults.count x
            phase := d.phc.phase
            mirror := if d.sli.mirrorEnabled then some d.sli.mirrorAddress else none } } := by
  refine (answerCycle_plain _ (countFault x d) hflight hw).trans ?_
  have hm : ({ (countFault x d).mpc with hold := none } : Mpc) = d.mpc := by
    rw [← hh]
    rfl
  rw [hm]
  rfl

/-- The trial has settled on a state in which a held write goes on: journalled under OPEN, plain in IDLE, and in
ROLLING_BACK for an address that does not wait (R46, R75). -/
theorem settle_goes {journalled : Bool} {first count offset : Nat} {c : BusCycle} {data : Word} {d : Lc44}
    (h : journalled = true ∧ d.tru.state = .open ∨
      journalled = false ∧ (d.tru.state = .idle ∨
        d.tru.state = .rollingBack ∧ ¬ (waitingEntry d.tru.journal c.addr).isSome = true)) :
    settle first count c offset data d = guardGo journalled first count c offset data d := by
  rcases h with ⟨rfl, h⟩ | ⟨rfl, h | ⟨h, hw⟩⟩
  · simp [settle, h]
  · simp [settle, h]
  · have hnone : waitingEntry d.tru.journal c.addr = none := by simpa using hw
    simp [settle, h, hnone]

/-- Settles O19: the resumed write is settled under the trial as it stands, and waits for the port without the hold. -/
theorem heldWritesResumeWhenTheTrialSettles : Obligations.HeldWritesResumeWhenTheTrialSettles := by
  intro s c first count data hrun hc hs ht hop hh hf hset tru waits faults goesOn
  have hexec := exec_heldWriteRelease_held hrun hc hs ht hop
  have hflight : s.part.iport.inFlight = false := by simp [IPort.inFlight, hc, hs]
  have hrefused (x : FaultCause) (d : Lc44) (hd : s.part.keepsOutside [.tru, .fgd] d) (hw : s.part.ovu.work ≠ .awaitWrite) :
      arbitrate (faultCycle x d) =
        { d with
          iport := ⟨none, some (.fault (some x))⟩
          ccl :=
            { d.ccl with
              faults := d.ccl.faults.count x
              phase := d.phc.phase
              mirror := if d.sli.mirrorEnabled then some d.sli.mirrorAddress else none } } := by
    have hm : d.mpc = s.part.mpc := keeps_mpc hd
    rw [faultCycle_unheld x d (by rw [keeps_iport hd]; exact hflight) (by rw [hm]; exact hh)
      (by rw [keeps_ovu hd]; exact hw)]
    exact arbitrate_of_settled _ (hm ▸ hset)
  have hgoes (g : Stage) (hits : List (Fin 64)) :
      arbitrate (goOn g (countHits hits s.part)) = goesOn g { s.part.fgd with counts := raiseCounts hits s.part.fgd.counts } := by
    rw [goOn_unheld g (d := countHits hits s.part) hc hh]
    rfl
  refine ⟨fun hstate => ?_, fun hstate hwait hw => ?_, fun journalled hstate => ?_, fun hidle hnone hfree hn => ?_⟩
  · have hheld : settle first count c.cycle c.record.offset data s.part = enterStage .held s.part := by
      rcases hstate with hstate | hstate <;> simp [settle, tru, hstate]
    rw [hexec, hheld, enterStage_same hc hs, arbitrate_of_settled _ hset]
  · obtain ⟨e, he⟩ := Option.isSome_iff_exists.mp hwait
    have hfault : settle first count c.cycle c.record.offset data s.part =
        faultCycle .rollback (countRefused s.part) := by
      simp [settle, tru, hstate, he]
    rw [hexec, hfault, hrefused .rollback (countRefused s.part) (keeps_mono (keeps_countRefused _)) hw]
    exact ⟨_, rfl, keeps_trans (keeps_countRefused _) (keeps_refused ..), rfl, rfl, rfl⟩
  · intro rules isNew result counted
    have hgo := settle_goes (first := first) (count := count) (offset := c.record.offset) (data := data) hstate
    refine ⟨fun hpre => ?_, fun hnew hfrozen => ⟨fun hpass => ?_, fun hno hw => ?_⟩⟩
    · rw [hexec, hgo, guardGo_preRead data rfl hpre]
      exact next_congr (hgoes _ [])
    · rw [hexec, hgo, guardGo_rules data hnew hfrozen, guardRules_forward rfl hpass]
      exact next_congr (hgoes _ result.hits)
    · rw [hexec, hgo, guardGo_rules data hnew hfrozen, guardRules_refused hno]
      exact ⟨_, next_congr (hrefused .rule (countHits result.hits s.part) (keeps_mono (keeps_onFgd _ _)) hw),
        keeps_trans (keeps_onFgd _ _) (keeps_refused ..), rfl, rfl, rfl⟩
  · have hgo := settle_goes (first := first) (count := count) (offset := c.record.offset) (data := data)
      (c := c.cycle) (d := s.part) (journalled := false) (Or.inr ⟨rfl, Or.inl hidle⟩)
    have hfrozen : ∀ r ∈ s.part.fgd.fixRules first count c.record.offset, r.rule.kind ≠ .frozen := by simp [hnone]
    let g : GuardSeq := ⟨[], false, false, none, data, s.part.txmute⟩
    have hword : g.locked s.part.txmute = data := by cases h : s.part.txmute <;> simp [g, GuardSeq.locked, reinsertLocks]
    have hgrant := arbitrate_guardForward c g s.part hfree hh hf hn rfl
    rw [hword] at hgrant
    rw [hexec, hgo, guardGo_rules data rfl hfrozen, hnone, guardRules_forward rfl rfl]
    exact next_congr ((congrArg arbitrate (goOn_unheld (.guardForward g) hc hh)).trans hgrant)

end Sys2Proof.Machine
end

