-- ==== Sys2Proof/Proofs/WriteAhead.lean ====
section
/-! SUPPORT. The write-ahead of a new address: its words under the hold, the entry it appends, and the answer of a
sequence that ends before it has one. -/

namespace Sys2Proof.Machine

set_option Elab.async false

/-! ## With no cycle in progress -/

/-- Without a cycle in progress FWD presents nothing. -/
theorem presentStage_idle {d : Lc44} (h : d.iport.cycle = none) : presentStage d = d := by
  simp [presentStage, h]

/-- Without a cycle in progress one decision of the arbiter changes no more than the port. -/
theorem keeps_arbitrateOnce_idle {d : Lc44} (h : d.iport.cycle = none) : d.keepsOutside [.mpc] (arbitrateOnce d) := by
  unfold arbitrateOnce
  split
  · split
    · exact keeps_refl _ _
    · rename_i x _
      cases x with
      | fwd =>
        rw [grantTo, presentStage_idle (by exact h)]
        exact keeps_onMpc _ _
      | rst =>
        simp only [grantTo]
        split
        · exact keeps_refl _ _
        · exact keeps_trans (keeps_onMpc _ _) (keeps_present _ _ _)
      | int =>
        simp only [grantTo]
        split
        · exact keeps_refl _ _
        · exact keeps_present _ _ _
      | mir =>
        simp only [grantTo]
        split
        · exact keeps_refl _ _
        · exact keeps_trans (keeps_onMpc _ _) (keeps_present _ _ _)
  · exact keeps_refl _ _

/-- Without a cycle in progress the arbiter changes no more than the port. -/
theorem keeps_arbitrate_idle {d : Lc44} (h : d.iport.cycle = none) : d.keepsOutside [.mpc] (arbitrate d) := by
  have hfirst := keeps_arbitrateOnce_idle h
  exact keeps_trans hfirst (keeps_arbitrateOnce_idle ((congrArg IPort.cycle (keeps_iport hfirst)).trans h))

/-! ## The answer of a sequence -/

/-- The journal's addresses when a rollback starts. -/
theorem addrs_startRollback (x : EndCause) (c : Option Carrier) (d : Lc44) :
    (startRollback x c d).tru.journal.map JournalEntry.addr = d.tru.journal.map JournalEntry.addr := by
  have hrestore (e : Lc44) : (restoreNext e).tru.journal = e.tru.journal := by
    unfold restoreNext
    split <;> rfl
  have hanswer (e : Lc44) (b : Bool) : (if b then answer .ok [] e else e).tru = e.tru := by
    cases b
    · rfl
    · exact keeps_tru (keeps_answer _ _ e)
  unfold startRollback
  simp only [hrestore, hanswer]
  simp [raiseAcu, Lc44.onTru, Lc44.onRaised, Function.comp_def]

/-- The journal's addresses when a sequence has answered. -/
theorem addrs_sequenceAnswered (d : Lc44) :
    (sequenceAnswered d).tru.journal.map JournalEntry.addr = d.tru.journal.map JournalEntry.addr := by
  unfold sequenceAnswered
  split
  · exact addrs_startRollback _ _ _
  · split <;> rfl

/-- With no rollback due a sequence that has answered leaves the outcome record. -/
theorem outcome_sequenceAnswered {d : Lc44} (h : d.tru.due = none) :
    (sequenceAnswered d).tru.outcome = d.tru.outcome := by
  unfold sequenceAnswered
  rw [h]
  dsimp only
  split <;> rfl

/-- The trial unit after a cycle is answered: that of the sequence, if one was in flight. -/
theorem tru_answerCycle (a : IAnswer) (d : Lc44) :
    ∃ e : Lc44, e.tru = d.tru ∧ (answerCycle a d).tru = if d.iport.inFlight then (sequenceAnswered e).tru else d.tru := by
  let freed := (d.onIport fun p => { p with cycle := none, answer := some a }).onMpc fun m => { m with hold := none }
  have hsync : (syncCcl freed).tru = d.tru := (keeps_tru (keeps_syncCcl freed)).trans rfl
  refine ⟨syncCcl freed, hsync, ?_⟩
  have hfold (x : Lc44) : (foldReleased x).tru = x.tru := keeps_tru (keeps_foldReleased x)
  simp only [answerCycle, afterAnswer, hfold]
  cases d.iport.inFlight
  · exact hsync
  · rfl

/-- The addresses of the journal when a cycle is answered. -/
theorem addrs_answerCycle (a : IAnswer) (d : Lc44) :
    (answerCycle a d).tru.journal.map JournalEntry.addr = d.tru.journal.map JournalEntry.addr := by
  obtain ⟨e, he, h⟩ := tru_answerCycle a d
  rw [h]
  split
  · rw [addrs_sequenceAnswered, he]
  · rfl

/-- The outcome record when a cycle is answered with no rollback due. -/
theorem outcome_answerCycle (a : IAnswer) {d : Lc44} (hd : d.tru.due = none) :
    (answerCycle a d).tru.outcome = d.tru.outcome := by
  obtain ⟨e, he, h⟩ := tru_answerCycle a d
  rw [h]
  split
  · rw [outcome_sequenceAnswered (he ▸ hd), he]
  · rfl

/-- The I-port once a cycle is answered. -/
theorem iport_answerCycle (a : IAnswer) (d : Lc44) : (answerCycle a d).iport = ⟨none, some a⟩ := by
  have hfold (x : Lc44) : (foldReleased x).iport = x.iport := keeps_iport (keeps_foldReleased x)
  have hseq (x : Lc44) : (sequenceAnswered x).iport = x.iport := keeps_iport (keeps_sequenceAnswered x)
  have hsync (x : Lc44) : (syncCcl x).iport = x.iport := keeps_iport (keeps_syncCcl x)
  simp only [answerCycle, afterAnswer, hfold]
  split
  · rw [hseq, hsync]
    rfl
  · rw [hsync]
    rfl

/-- The fault counters once a cycle is answered. -/
theorem faults_answerCycle (a : IAnswer) (d : Lc44) : (answerCycle a d).ccl.faults = d.ccl.faults := by
  have hfold (x : Lc44) : (foldReleased x).ccl = x.ccl := keeps_ccl (keeps_foldReleased x)
  have hseq (x : Lc44) : (sequenceAnswered x).ccl = x.ccl := keeps_ccl (keeps_sequenceAnswered x)
  have hsync (x : Lc44) : (syncCcl x).ccl.faults = x.ccl.faults := by
    unfold syncCcl
    split <;> rfl
  simp only [answerCycle, afterAnswer, hfold]
  split
  · rw [hseq, hsync]
    rfl
  · rw [hsync]
    rfl

/-- What is left of a refused cycle once the arbiter has decided. -/
theorem refused_after_arbitrate (c : FaultCause) (d : Lc44) :
    let e := arbitrate (faultCycle c d)
    e.iport = ⟨none, some (.fault (some c))⟩ ∧ e.ccl.faults = d.ccl.faults.count c ∧
      e.tru.journal.map JournalEntry.addr = d.tru.journal.map JournalEntry.addr ∧
      (d.tru.due = none → e.tru.outcome = d.tru.outcome) := by
  have hi : (faultCycle c d).iport = ⟨none, some (.fault (some c))⟩ := iport_answerCycle _ _
  have hk := keeps_arbitrate_idle (d := faultCycle c d) (by rw [hi])
  refine ⟨(keeps_iport hk).trans hi, ?_, ?_, fun hd => ?_⟩
  · rw [keeps_ccl hk]
    exact faults_answerCycle _ _
  · rw [keeps_tru hk]
    exact addrs_answerCycle _ _
  · rw [keeps_tru hk]
    exact outcome_answerCycle (d := countFault c d) _ hd

/-! ## Words under the hold -/

/-- The LC44 with FWD's next cycle presented under a hold, its stage in progress. -/
def Lc44.presents (x : ICycle) (r : MRequest) (granted : Nat) (d : Lc44) : Lc44 :=
  { d with iport := { d.iport with cycle := some x }, mpc := { d.mpc with cycle := some ⟨.fwd, r, granted⟩ } }

/-- Under the hold the cycle in progress is presented at the stage it goes on to, and the arbiter leaves the busy port. -/
theorem arbitrate_goOn_held {c : ICycle} {g : Stage} {granted : Nat} {r : MRequest} {d : Lc44}
    (hc : d.iport.cycle = some c) (hh : d.mpc.hold = some granted)
    (hp : presentStage (enterStage g d) = present .fwd r (enterStage g d)) :
    arbitrate (goOn g d) = d.presents { c with stage := g } r granted := by
  have hgo : goOn g d = d.presents { c with stage := g } r granted := by
    rw [goOn_held _ _ (by rw [hh]; rfl), hp]
    simp [present, enterStage, Lc44.onIport, Lc44.onMpc, hc, Lc44.presents, Mpc.grantTimeout, hh]
  rw [hgo]
  exact arbitrate_busy _ (Option.some_ne_none _)

/-- FWD's cycle has left the port, which its hold keeps. -/
def Lc44.freed (d : Lc44) : Lc44 := d.onMpc fun m => { m with cycle := none }

/-- A cycle of FWD ends OK: what it leads to is decided, and then the arbiter decides. -/
theorem memoryEnd_fwdOk {d : Lc44} {c : ICycle} {p : MCycle} (w : Word) (hc : d.iport.cycle = some c)
    (hp : d.mpc.cycle = some p) (hfwd : p.client = .fwd) : memoryEnd (.ok w) d = arbitrate (fwdOk c w d.freed) := by
  rw [memoryEnd_fwd _ _ _ hp hfwd]
  simp only [fwdEnded, Lc44.onMpc_iport, hc]
  rfl

/-- A cycle of FWD fails: the cycle in progress is refused, and then the arbiter decides. -/
theorem memoryEnd_fwdFailed {d : Lc44} {c : ICycle} {p : MCycle} (f : MFailure) (hc : d.iport.cycle = some c)
    (hp : d.mpc.cycle = some p) (hfwd : p.client = .fwd) :
    memoryEnd (.error f) d = arbitrate (fwdFailed c (d.onMpc (Mpc.ended p (.error f)))) := by
  rw [memoryEnd_fwd _ _ _ hp hfwd]
  simp only [fwdEnded, Lc44.onMpc_iport, hc]

/-- A word of the write-ahead is presented under the hold (R72). -/
theorem presentStage_writeAhead {c : ICycle} {g : GuardSeq} {k : Nat} {d : Lc44} (hc : d.iport.cycle = some c) :
    presentStage (enterStage (.writeAhead g k) d) =
      present .fwd (writeAheadRequest { c with stage := .writeAhead g k } g k d) (enterStage (.writeAhead g k) d) := by
  simp only [presentStage, enterStage, Lc44.onIport_iport, hc, Option.map_some]
  rfl

/-- Settles O21: each word is presented under the hold, and the last appends the entry. -/
theorem newAddressesAreWrittenAhead : Obligations.NewAddressesAreWrittenAhead := by
  refine ⟨?_, ?_⟩
  · intro s c g p granted pre hrun hc hs hnew hrules hp hfwd hh n
    have hok : exec (.memoryAnswer (.ok pre)) s = .next ⟨arbitrate (preReadOk g pre s.part.freed), s.pending⟩ := by
      rw [exec_ok pre s hrun, memoryEnd_fwdOk pre hc hp hfwd]
      simp [fwdOk, hs]
    refine ⟨fun hfull => ?_, fun hroom => ?_⟩
    · have hfault : preReadOk g pre s.part.freed = faultCycle .journalFull (countRefused s.part.freed) := by
        simp only [preReadOk, hnew, Bool.true_and, decide_eq_true_eq]
        exact if_pos hfull
      obtain ⟨hi, hf, hj, -⟩ := refused_after_arbitrate .journalFull (countRefused s.part.freed)
      refine ⟨_, hok, ?_, ?_, ?_⟩ <;> rw [hfault]
      · exact hi
      · exact congrArg FaultCounters.journalFull hf
      · exact (List.length_map ..).symm.trans ((congrArg List.length hj).trans (List.length_map ..))
    · have hgo : preReadOk g pre s.part.freed =
          goOn (.writeAhead { g with memWord := some pre, sample := s.part.txmute } 0) s.part.freed := by
        have hnot : ¬ Config.journalRoom ≤ s.part.freed.tru.journal.length := Nat.not_le.mpr hroom
        simp [preReadOk, hnot, guardRules, hnew, hrules, applyRules, countHits_nil]
        rfl
      rw [hok, hgo, arbitrate_goOn_held (d := s.part.freed) hc hh (presentStage_writeAhead hc)]
      rfl
  · intro s c g k p granted i pre w hrun hc hs hindex hpre hp hfwd hh n base word
    have hok : exec (.memoryAnswer (.ok w)) s = .next ⟨arbitrate (writeAheadOk c g k s.part.freed), s.pending⟩ := by
      rw [exec_ok w s hrun, memoryEnd_fwdOk w hc hp hfwd]
      simp [fwdOk, hs]
    refine ⟨fun hk => ?_, fun hk hmute => ?_, ?_⟩
    · have hgo : writeAheadOk c g k s.part.freed = goOn (.writeAhead g (k + 1)) s.part.freed := by
        simp [writeAheadOk, hk]
      have hword : writeAheadRequest { c with stage := .writeAhead g (k + 1) } g (k + 1) s.part.freed = word (k + 1) := by
        match k, hk with
        | 0, _ =>
          simp only [writeAheadRequest, hindex]
          rfl
        | 1, _ =>
          simp only [writeAheadRequest, hpre]
          rfl
        | 2, _ => rfl
      rw [hok, hgo, arbitrate_goOn_held (d := s.part.freed) hc hh (presentStage_writeAhead hc), hword]
      rfl
    · have hgo : writeAheadOk c g k s.part.freed = goOn (.guardForward g) (appendEntry c g s.part.freed) := by
        simp [writeAheadOk, hk]
      have hpresent : presentStage (enterStage (.guardForward g) (appendEntry c g s.part.freed)) =
          present .fwd ⟨c.cycle.addr, .write g.working⟩ (enterStage (.guardForward g) (appendEntry c g s.part.freed)) := by
        have hcyc : (enterStage (.guardForward g) (appendEntry c g s.part.freed)).iport.cycle =
            some { c with stage := .guardForward g } := congrArg (Option.map _) hc
        have hclear : (enterStage (.guardForward g) (appendEntry c g s.part.freed)).txmute = false := hmute
        simp only [presentStage, hcyc]
        rw [presentGuarded_sampled _ _ _ (fun h => absurd h (by rw [hclear]; decide)), hclear]
        exact congrArg (present _ _) (enterStage_same hcyc rfl)
      rw [hok, hgo, arbitrate_goOn_held (d := appendEntry c g s.part.freed) hc hh hpresent]
      simp only [appendEntry, hpre, hindex]
      rfl
    · refine ⟨_, exec_failure .fault s hrun, ?_⟩
      have hfault : memoryEnd (.error .fault) s.part =
          arbitrate (faultCycle .journalWrite (countRefused (s.part.onMpc (Mpc.ended p (.error .fault))))) := by
        rw [memoryEnd_fwdFailed .fault hc hp hfwd]
        simp [fwdFailed, hs, Stage.failCause]
      obtain ⟨hi, hf, hj, ho⟩ :=
        refused_after_arbitrate .journalWrite (countRefused (s.part.onMpc (Mpc.ended p (.error .fault))))
      rw [hfault]
      refine ⟨hi, congrArg FaultCounters.journalWrite hf, hj, fun hd => ?_⟩
      rw [ho hd]
      simp [countRefused, Tru.onOutcome, Option.map_map, Function.comp_def]
      rfl

end Sys2Proof.Machine
end

