-- ==== Sys2Proof/Proofs/TrialOpens.lean ====
section
/-! SUPPORT. The requests and marks of a trial: the header words they ask for, the open, the confirm and the extend. -/

namespace Sys2Proof.Machine

set_option Elab.async false

/-! ## Header words -/

/-- The journal header's state word CLOSED (R79). -/
theorem headerStateWord_closed (n : Nat) : headerStateWord n false = BitVec.ofNat 16 (n * 256) := by
  simp [headerStateWord]

/-- The journal header's state word OPEN (R79). -/
theorem headerStateWord_open (n : Nat) : headerStateWord n true = BitVec.ofNat 16 (n * 256 + 1) := by
  simp [headerStateWord]

/-- The state word CLOSED as it is requested (R79). -/
theorem headerRequest_closed {step : HeaderStep} (d : Lc44)
    (h : step = .staleState ∨ step = .closeState ∨ step = .endState) :
    headerRequest step d = d.profileWrite 0x010 (d.tru.number * 256) := by
  rcases h with rfl | rfl | rfl <;> simp only [headerRequest, headerStateWord_closed] <;> rfl

/-- The state word OPEN as it is requested (R79). -/
theorem headerRequest_open (d : Lc44) :
    headerRequest .openState d = d.profileWrite 0x010 (d.tru.number * 256 + 1) := by
  simp only [headerRequest, headerStateWord_open]
  rfl

/-- The count word as it is requested (R79). -/
theorem headerRequest_count {step : HeaderStep} (d : Lc44)
    (h : step = .staleCount ∨ step = .openCount ∨ step = .closeCount ∨ step = .endCount) :
    headerRequest step d = d.profileWrite 0x011 0 := by
  rcases h with rfl | rfl | rfl | rfl <;> rfl

/-- A header word requested: TRU waits for it, and its request joins the INT queue (R27, R79). -/
theorem requestHeader_eq (step : HeaderStep) (retry timedOut : Bool) (d : Lc44) :
    requestHeader step retry timedOut d =
      { d with
        tru := { d.tru with work := .header step retry timedOut }
        mpc := d.mpc.queuesTru (headerRequest step d) } := by
  cases step <;> rfl

/-- The first header word is requested at once, or waits for the sequence in flight (R59, R64). -/
theorem startHeader_eq (step : HeaderStep) (d : Lc44) :
    startHeader step d =
      { d with
        tru :=
          { d.tru with
            work := if d.iport.inFlight then .awaitSequence step else .header step false false }
        mpc := if d.iport.inFlight then d.mpc else d.mpc.queuesTru (headerRequest step d) } := by
  unfold startHeader
  cases d.iport.inFlight
  · exact requestHeader_eq _ _ _ _
  · rfl

/-! ## Confirms -/

/-- The trial unit when a confirm begins the close (R64). -/
def Lc44.closingTru (source : CloseSource) (d : Lc44) : Tru :=
  { d.tru with
    state := .closing
    closeSource := some source
    work := if d.iport.inFlight then .awaitSequence .closeState else .header .closeState false false }

/-- The port when a confirm begins the close: the state word CLOSED is requested, or waits (R64, R79). -/
def Lc44.closingMpc (d : Lc44) : Mpc :=
  if d.iport.inFlight then d.mpc else d.mpc.queuesTru (d.profileWrite 0x010 (d.tru.number * 256))

/-- A confirm begins the close. -/
theorem beginClosing_eq (source : CloseSource) (d : Lc44) :
    beginClosing source d = { d with tru := d.closingTru source, mpc := d.closingMpc } := by
  rw [beginClosing, startHeader_eq, headerRequest_closed _ (Or.inr (Or.inl rfl))]
  rfl

/-- The trial is OPEN with no rollback due. -/
theorem openUndue_iff (t : Tru) : t.openUndue = true ↔ t.state = .open ∧ t.due = none := by
  simp [Tru.openUndue]

/-- A request that its owner takes, followed by the arbiter. -/
theorem effect_arbitrate_request {r : Req} {body : List Byte} {s : State} (owner : List Byte → Lc44 → Lc44)
    (h : s.takes r body = true) :
    s.effect (fun d => arbitrate (request r owner body d)) =
      .next ⟨arbitrate (owner body (s.part.takeInHand r body)), s.pending⟩ := by
  rw [State.effect_running _ (State.takes_iff.mp h).1]
  exact next_congr (congrArg arbitrate (request_takes owner h))

/-- A request that its owner takes. -/
theorem effect_request {r : Req} {body : List Byte} {s : State} (owner : List Byte → Lc44 → Lc44)
    (h : s.takes r body = true) :
    s.effect (request r owner body) = .next ⟨owner body (s.part.takeInHand r body), s.pending⟩ := by
  rw [State.effect_running _ (State.takes_iff.mp h).1]
  exact next_congr (request_takes owner h)

/-- Settles O23: both confirms begin the close. -/
theorem confirmsBeginTheClose : Obligations.ConfirmsBeginTheClose := by
  intro s body hrun hopen hdue closed closing queued
  have hundue : s.part.tru.openUndue = true := (openUndue_iff _).mpr ⟨hopen, hdue⟩
  refine ⟨fun h => ?_, ?_⟩
  · have hown : ownTrialConfirm body (s.part.takeInHand .trialConfirm body) =
        beginClosing .service (s.part.takeInHand .trialConfirm body) := if_pos hundue
    rw [exec_trialConfirm, effect_arbitrate_request _ h, hown, beginClosing_eq]
    rfl
  · have hmark : (takenTru .confirm s.part).tru.openUndue = true := hundue
    rw [exec_markConfirm, State.effect_running _ hrun]
    simp only [hmark, if_true, beginClosing_eq]
    rfl

/-! ## The extend -/

/-- Settles O26: the time is checked first, then the state of the trial. -/
theorem trialExtendReloadsTheTimer : Obligations.TrialExtendReloadsTheTimer := by
  refine ⟨fun s hs => ?_, ?_⟩
  · rw [exec_trialTimerExpiry]
    exact State.effect_same (by simp [hs])
  intro s body h seconds
  have hown : exec (.trialExtend body) s =
      .next ⟨ownTrialExtend body (s.part.takeInHand .trialExtend body), s.pending⟩ := effect_request _ h
  have hdeny (status : Status) : deny status (s.part.takeInHand .trialExtend body) =
      s.part.reply .trialExtend body status [] := answer_takeInHand ..
  have htru : (s.part.takeInHand .trialExtend body).tru = s.part.tru := rfl
  refine ⟨fun hbad => ?_, fun hlo hhi => ?_⟩
  · have hrange : within 10 3600 (u16At body 0) = false := by simp [within]; omega
    rw [hown]
    simp [ownTrialExtend, hrange, hdeny]
  · have hrange : within 10 3600 (u16At body 0) = true := by simp [within]; omega
    refine ⟨fun hopen hdue => ?_, fun hlate => ?_, fun hidle => ?_⟩
    · have hundue : s.part.tru.openUndue = true := (openUndue_iff _).mpr ⟨hopen, hdue⟩
      rw [hown]
      simp only [ownTrialExtend, hrange, htru, hundue, Bool.not_true, Bool.false_eq_true, if_false, if_true]
      exact next_congr (answer_taken .trialExtend body .ok [] s.part _ rfl)
    · have hundue : s.part.tru.openUndue = false := by
        rw [Bool.eq_false_iff, Ne, openUndue_iff]
        rintro ⟨hopen, hdue⟩
        rcases hlate with h | ⟨-, h⟩
        · simp [hopen] at h
        · exact h hdue
      rw [hown]
      rcases hlate with h | ⟨h, -⟩ <;> simp [ownTrialExtend, hrange, htru, hundue, h, hdeny]
    · have hundue : s.part.tru.openUndue = false := by
        rw [Bool.eq_false_iff, Ne, openUndue_iff]
        rintro ⟨hopen, -⟩
        simp [hopen] at hidle
      rw [hown]
      rcases hidle with h | h | h <;> simp [ownTrialExtend, hrange, htru, hundue, h, hdeny]

/-! ## The open -/

/-- The trial unit renumbered by a TRIAL-OPEN (R57, R59). -/
def Tru.renewed (t : Tru) : Tru :=
  let number := if t.number < 255 then t.number + 1 else 1
  { t with number := number, journal := [], outcome := some (TrialOutcome.fresh number) }

/-- The value of one carrier, given as a function of the carrier. -/
theorem PerCarrier_get_ofFn {α : Type} (f : Carrier → α) (c : Carrier) : (PerCarrier.ofFn f).get c = f c := by
  fin_cases c <;> rfl

/-- A watch mask passes the checks of a TRIAL-OPEN (R58). -/
theorem watchOk_of {mask : Nat} {d : Lc44} (hm : mask ≤ 15)
    (h : ∀ c : Carrier, mask.testBit c.val = true →
      (d.rcu.records.get c).settings.enabled = true ∧ (d.rcu.records.get c).state = .track ∧
        (d.rcu.records.get c).lossRun < 3) : watchOk mask d = true := by
  simp only [watchOk, hm, decide_true, Bool.true_and, List.all_eq_true]
  intro c hc
  have hbit : mask.testBit c.val = true := by
    have hmem := (List.mem_filter.mp hc).2
    rwa [maskCarriers, PerCarrier_get_ofFn] at hmem
  obtain ⟨he, hs, hl⟩ := h c hbit
  simp [CaptureRecord.watchable, he, hs, hl]

/-- A TRIAL-OPEN taken with the stale flag set begins with the stale rewrite (R59). -/
theorem beginOpening_stale (r : OpenRequest) {d : Lc44} (h : d.tru.stale = true) :
    beginOpening r d =
      { d with
        tru :=
          { d.tru with
            state := .opening
            openRequest := some r
            work := if d.iport.inFlight then .awaitSequence .staleState else .header .staleState false false }
        mpc := if d.iport.inFlight then d.mpc else d.mpc.queuesTru (d.profileWrite 0x010 (d.tru.number * 256)) } := by
  have hbegin : beginOpening r d =
      startHeader .staleState (d.onTru fun t => { t with state := .opening, openRequest := some r }) := if_pos h
  rw [hbegin, startHeader_eq, headerRequest_closed _ (Or.inl rfl)]
  rfl

/-- A TRIAL-OPEN taken with the stale flag clear renumbers the trial and begins with the count word (R59). -/
theorem beginOpening_fresh (r : OpenRequest) {d : Lc44} (h : d.tru.stale = false) :
    beginOpening r d =
      { d with
        tru :=
          { d.tru.renewed with
            state := .opening
            openRequest := some r
            work := if d.iport.inFlight then .awaitSequence .openCount else .header .openCount false false }
        mpc := if d.iport.inFlight then d.mpc else d.mpc.queuesTru (d.profileWrite 0x011 0) } := by
  have hbegin : beginOpening r d =
      startHeader .openCount (renumber (d.onTru fun t => { t with state := .opening, openRequest := some r })) :=
    if_neg (by simp [h])
  rw [hbegin, startHeader_eq, headerRequest_count _ (Or.inr (Or.inl rfl))]
  rfl

/-- The LC44 once the state word OPEN is written, before the entry check: the trial is OPEN, and the request answered
(R59). -/
def Lc44.opened (r : OpenRequest) (d : Lc44) : Lc44 :=
  { d with
    tru :=
      { d.tru with
        state := .open
        timer := some r.ticks
        watch := r.watch
        opened := min 65535 (d.tru.opened + 1)
        work := .idle
        openRequest := none
        openTicks := 0 }
    sli := d.sli.sends [response .trialOpen .ok [BitVec.ofNat 8 d.tru.number]] }

/-- No TRIAL-ABORT waits while a response is sent. -/
theorem awaits_sending {s : Sli} (r : Req) (h : s.sending ≠ none) : s.awaits r = false := by
  cases hs : s.sending
  · exact absurd hs h
  · simp [Sli.awaits, hs]

/-- The trial opens and the entry check is made (R59, R61). -/
theorem enterOpen_eq {r : OpenRequest} {d : Lc44} (h : d.tru.openRequest = some r)
    (hin : d.sli.inHand = some Req.trialOpen.code) : enterOpen d = (d.opened r).checkedAtEntry := by
  have hanswer : enterOpen d = entryCheck (d.opened r) := by
    have hbytes (n : Nat) : bytesBE 1 n = [BitVec.ofNat 8 n] := by simp [bytesBE]
    simp only [enterOpen, Lc44.onTru, h, hbytes, Option.map_some, Option.getD_some]
    rw [answer_inHand (r := .trialOpen) _ _ (by exact hin)]
    rfl
  rw [hanswer, entryCheck_eq _ (awaits_sending _ (Option.some_ne_none _))]

/-- With no watched carrier lost the entry check changes nothing (R61). -/
theorem checkedAtEntry_kept {d : Lc44} (h : ∀ c : Carrier, d.tru.watch.get c = true → (d.rcu.records.get c).lost = false) :
    d.checkedAtEntry = d := by
  have hkept (c : Carrier) : (d.tru.watch.get c &&
      (decide ((d.rcu.records.get c).state = .stale) || decide (3 ≤ (d.rcu.records.get c).lossRun))) = false := by
    cases hw : d.tru.watch.get c
    · rfl
    · exact h c hw
  simp [Lc44.checkedAtEntry, hkept]

/-- An open that fails leaves the trial IDLE, and is answered NOMEM (R59). -/
theorem failOpen_eq (f : Tru → Tru) {d : Lc44} (hin : d.sli.inHand = some Req.trialOpen.code) :
    failOpen f d =
      { d with
        tru := f { d.tru with state := .idle, work := .idle, openRequest := none }
        sli := d.sli.sends [response .trialOpen .noMem []] } :=
  answer_inHand (d := d.onTru fun t => f { t with state := .idle, work := .idle, openRequest := none }) _ _ hin

/-- Settles O22: each header word that is written leads to the next, and one that fails twice ends the open. -/
theorem trialOpenWritesTheHeaderAndOpens : Obligations.TrialOpenWritesTheHeaderAndOpens := by
  refine ⟨?_, ?_⟩
  · intro s body h hidle hdur hmask hwatch stale waits ticks first word
    have hdurOk : durationOk (u16At body 0) = true := by simp [durationOk, within]; omega
    have hwatchOk : watchOk (byteAt body 2) (s.part.takeInHand .trialOpen body) = true := watchOk_of hmask hwatch
    have hstate : (s.part.takeInHand .trialOpen body).tru.state = .idle := hidle
    rw [exec_trialOpen, effect_arbitrate_request _ h]
    refine next_congr (congrArg arbitrate ?_)
    have hown : ownTrialOpen body (s.part.takeInHand .trialOpen body) =
        beginOpening ⟨ticks, maskCarriers (byteAt body 2)⟩ (s.part.takeInHand .trialOpen body) := by
      simp only [ownTrialOpen, hstate, hdurOk, hwatchOk, Bool.and_self, if_true, ne_eq, not_true_eq_false, if_false]
      rfl
    rw [hown]
    by_cases hs : stale = true
    · rw [beginOpening_stale (d := s.part.takeInHand .trialOpen body) _ hs]
      simp only [first, word, hs, if_true]
      rfl
    · have hs' : stale = false := by simpa using hs
      rw [beginOpening_fresh (d := s.part.takeInHand .trialOpen body) _ hs']
      simp only [first, word, hs', Bool.false_eq_true, if_false]
      rfl
  · intro s p retry timedOut w tru count asks
    refine ⟨fun h => ?_, fun h => ?_, fun h => ?_, ?_, ?_⟩
    · rw [exec_headerWritten w h, headerWritten, requestHeader_eq, headerRequest_count _ (Or.inl rfl)]
      rfl
    · rw [exec_headerWritten w h, headerWritten, requestHeader_eq, headerRequest_count _ (Or.inr (Or.inl rfl))]
      rfl
    · rw [exec_headerWritten w h, headerWritten, requestHeader_eq, headerRequest_open]
      rfl
    · intro o h ho hin opened
      have hexec : exec (.memoryAnswer (.ok w)) s = .next ⟨arbitrate opened.checkedAtEntry, s.pending⟩ := by
        rw [exec_headerWritten w h, headerWritten, enterOpen_eq (by exact ho) (by exact hin)]
        rfl
      exact ⟨hexec, fun hkept => by rw [hexec, checkedAtEntry_kept (d := opened) hkept]⟩
    · intro f step word hword failed
      simp only [List.mem_cons, List.not_mem_nil, or_false, Prod.mk.injEq] at hword
      have hrequest : ∀ d : Lc44, d.straps = s.part.straps → d.tru.number = tru.number → headerRequest step d = word := by
        intro d hs hn
        have hwrite (offset value : Nat) : d.profileWrite offset value = s.part.profileWrite offset value := by
          simp only [Lc44.profileWrite, hs]
        rcases hword with ⟨rfl, rfl⟩ | ⟨rfl, rfl⟩ | ⟨rfl, rfl⟩ | ⟨rfl, rfl⟩
        · rw [headerRequest_closed _ (Or.inl rfl), hwrite, hn]
        · rw [headerRequest_count _ (Or.inl rfl), hwrite]
        · rw [headerRequest_count _ (Or.inr (Or.inl rfl)), hwrite]
        · rw [headerRequest_open, hwrite, hn]
      refine ⟨fun h => ?_, fun h hin => ?_⟩
      · rw [exec_headerFailed f h]
        simp only [Bool.false_eq_true, if_false, requestHeader_eq]
        rw [hrequest { s.part with mpc := failed } rfl rfl]
      · rw [exec_headerFailed f h]
        refine next_congr (congrArg arbitrate ?_)
        simp only [if_true]
        rcases hword with ⟨rfl, rfl⟩ | ⟨rfl, rfl⟩ | ⟨rfl, rfl⟩ | ⟨rfl, rfl⟩
        · exact failOpen_eq id hin
        · exact failOpen_eq id hin
        · exact failOpen_eq (d := { s.part with mpc := failed }) _ hin
        · exact failOpen_eq (d := { s.part with mpc := failed }) _ hin

end Sys2Proof.Machine
end

