-- ==== Sys2Proof/Proofs/RollbackCauses.lean ====
section
/-! SUPPORT. The causes of a rollback: the notices, marks and expiries that TRU takes in OPEN, and what they do in every
other state. -/

namespace Sys2Proof.Machine

set_option Elab.async false

/-! ## Conditions -/

/-- Outside OPEN, or with a rollback due, no cause is taken. -/
theorem openUndue_eq_false {t : Tru} (h : t.state ≠ .open ∨ t.due ≠ none) : t.openUndue = false := by
  rw [Bool.eq_false_iff, Ne, openUndue_iff]
  rintro ⟨hs, hd⟩
  rcases h with h | h
  · exact h hs
  · exact h hd

/-- A TRIAL-ABORT that is not in hand waits for nothing. -/
theorem awaits_other {s : Sli} {r : Req} (h : s.inHand ≠ some r.code) : s.awaits r = false := by
  simp [Sli.awaits, h]

/-- A request taken finds no response being sent. -/
theorem sending_of_takes {r : Req} {body : List Byte} {s : State} (h : s.takes r body = true) :
    s.part.sli.sending = none := by
  obtain ⟨-, hdeaf, -⟩ := State.takes_iff.mp h
  simp only [Lc44.deaf, Bool.or_eq_false_iff] at hdeaf
  simpa using hdeaf.2

/-- A rollback that a TRIAL-ABORT waits for answers it, and then starts like any other (R67, R73). -/
theorem startRollback_awaited {body : List Byte} {d : Lc44} (cause : EndCause) (carrier : Option Carrier)
    (h : d.sli.sending = none) :
    startRollback cause carrier (d.takeInHand .trialAbort body) =
      (d.reply .trialAbort body .ok []).rollbackStarted cause carrier := by
  have hwait : (d.takeInHand .trialAbort body).sli.awaits .trialAbort = true := by
    simp [Sli.awaits, Lc44.takeInHand, Sli.holding, h]
  have hquiet : (d.reply .trialAbort body .ok []).sli.awaits .trialAbort = false :=
    awaits_sending _ (Option.some_ne_none _)
  rw [← startRollback_eq cause carrier _ hquiet]
  unfold startRollback
  have hwait' (f : Tru → Tru) : (raiseAcu .rollback ((d.takeInHand .trialAbort body).onTru f)).sli.awaits .trialAbort =
      true := hwait
  have hquiet' (f : Tru → Tru) : (raiseAcu .rollback ((d.reply .trialAbort body .ok []).onTru f)).sli.awaits
      .trialAbort = false := hquiet
  simp only [hwait', hquiet', if_true, Bool.false_eq_true, if_false]
  congr 1

/-- With no sequence in flight a cause starts the rollback (R68). -/
theorem causeTaken_started {cause : EndCause} {carrier : Option Carrier} {d : Lc44} (h : d.iport.inFlight = false) :
    d.causeTaken cause carrier = d.rollbackStarted cause carrier := by
  simp [Lc44.causeTaken, h]

/-! ## The events that bring a cause -/

/-- The LC44 once TRU has taken an event. -/
def Lc44.tookTru (x : TruEvent) (d : Lc44) : Lc44 :=
  { d with raised := { d.raised with tru := d.raised.tru.erase x } }

section Open
variable {s : State} (hrun : s.running = true)
include hrun

/-- A MARK abort taken in OPEN (R67). -/
theorem exec_markAbort_open (hu : s.part.tru.openUndue = true) :
    exec .markAbort s =
      .next ⟨arbitrate (takeRollbackCause .abortedMark none (s.part.tookTru .abort)), s.pending⟩ := by
  rw [exec_markAbort, State.effect_running _ hrun]
  exact next_congr (if_pos hu)

/-- The trial timer's expiry taken in OPEN (R62). -/
theorem exec_trialTimerExpiry_open (hu : s.part.tru.openUndue = true) (ht : s.part.tru.timer = some 0) :
    exec .trialTimerExpiry s = .next ⟨arbitrate (takeRollbackCause .expired none s.part), s.pending⟩ := by
  rw [exec_trialTimerExpiry, State.effect_running _ hrun]
  simp [ht, hu]

/-- A capture notice that brings a loss is taken in OPEN (R69). -/
theorem exec_truCaptureNotice_open {n : CaptureNotice} (hu : s.part.tru.openUndue = true)
    (hin : inOrder TruEvent.about (.capture n) s.part.raised.tru = true) (hw : s.part.tru.watch.get n.carrier = true)
    (hl : 3 ≤ n.lossRun) :
    exec (.truCaptureNotice n) s =
      .next ⟨arbitrate (takeRollbackCause .loss (some n.carrier) (s.part.tookTru (.capture n))), s.pending⟩ := by
  rw [exec_truCaptureNotice, State.effect_running _ hrun, deliverTru_inOrder hin]
  have hloss : (takenTru (.capture n) s.part).tru = s.part.tru := rfl
  simp only [if_pos hl, lossReport, hloss, hu, hw, Bool.and_self, if_true]
  rfl

/-- A stale notice of a watched carrier is taken in OPEN (R69). -/
theorem exec_truStaleNotice_open {c : Carrier} (hu : s.part.tru.openUndue = true)
    (hin : inOrder TruEvent.about (.stale c) s.part.raised.tru = true) (hw : s.part.tru.watch.get c = true) :
    exec (.truStaleNotice c) s =
      .next ⟨arbitrate (takeRollbackCause .loss (some c) (s.part.tookTru (.stale c))), s.pending⟩ := by
  rw [exec_truStaleNotice, State.effect_running _ hrun, deliverTru_inOrder hin]
  have hloss : (takenTru (.stale c) s.part).tru = s.part.tru := rfl
  simp only [lossReport, hloss, hu, hw, Bool.and_self, if_true]
  rfl

end Open

/-- A TRIAL-ABORT taken in OPEN (R67). -/
theorem exec_trialAbort_open {s : State} {body : List Byte} (hu : s.part.tru.openUndue = true)
    (h : s.takes .trialAbort body = true) :
    exec (.trialAbort body) s =
      .next
        ⟨arbitrate (takeRollbackCause .abortedService none (s.part.takeInHand .trialAbort body)), s.pending⟩ := by
  rw [exec_trialAbort, effect_arbitrate_request _ h]
  exact next_congr (congrArg arbitrate (if_pos hu))

/-- Settles O24: each event is taken with its cause, and the sequence in flight decides whether it is due. -/
theorem rollbackCausesAreTakenInOpen : Obligations.RollbackCausesAreTakenInOpen := by
  refine ⟨fun s => ⟨fun n hb => ?_, fun c hb => ?_⟩, ?_, ?_⟩
  · exact State.effect_same (deliverTru_behind hb)
  · exact State.effect_same (deliverTru_behind hb)
  · intro s hrun hopen hdue hflight started taken
    have hu : s.part.tru.openUndue = true := (openUndue_iff _).mpr ⟨hopen, hdue⟩
    have hstart (cause : EndCause) (carrier : Option Carrier) (d : Lc44) (hi : d.iport.inFlight = false)
        (ha : d.sli.awaits .trialAbort = false) :
        takeRollbackCause cause carrier d = d.rollbackStarted cause carrier :=
      (takeRollbackCause_eq _ _ _ ha).trans (causeTaken_started hi)
    refine ⟨fun hin => ⟨?_, fun ht => ?_, fun n ho hw hl => ?_, fun c ho hw => ?_⟩, fun body h => ?_⟩
    · rw [exec_markAbort_open hrun hu, hstart _ _ (s.part.tookTru .abort) hflight (awaits_other hin)]
      rfl
    · rw [exec_trialTimerExpiry_open hrun hu ht, hstart _ _ _ hflight (awaits_other hin)]
    · rw [exec_truCaptureNotice_open hrun hu ho hw hl,
        hstart _ _ (s.part.tookTru (.capture n)) hflight (awaits_other hin)]
      rfl
    · rw [exec_truStaleNotice_open hrun hu ho hw, hstart _ _ (s.part.tookTru (.stale c)) hflight (awaits_other hin)]
      rfl
    · have hnow : takeRollbackCause .abortedService none (s.part.takeInHand .trialAbort body) =
          startRollback .abortedService none (s.part.takeInHand .trialAbort body) := if_neg (ne_true_of_eq_false hflight)
      rw [exec_trialAbort_open hu h, hnow, startRollback_awaited _ _ (sending_of_takes h)]
  · intro s hrun hopen hdue hflight hset due taken
    have hu : s.part.tru.openUndue = true := (openUndue_iff _).mpr ⟨hopen, hdue⟩
    have hdefer (cause : EndCause) (carrier : Option Carrier) (d : Lc44) (hi : d.iport = s.part.iport)
        (hm : d.mpc = s.part.mpc) : arbitrate (takeRollbackCause cause carrier d) =
          { d with tru := { d.tru with due := some ⟨cause, carrier⟩, timer := none } } := by
      have hd : takeRollbackCause cause carrier d =
          { d with tru := { d.tru with due := some ⟨cause, carrier⟩, timer := none } } := if_pos (by rw [hi, hflight])
      rw [hd]
      exact arbitrate_of_settled _ (hm ▸ hset)
    refine ⟨?_, fun ht => ?_, fun n ho hw hl => ?_, fun c ho hw => ?_, fun body h => ?_⟩
    · rw [exec_markAbort_open hrun hu, hdefer _ _ (s.part.tookTru .abort) rfl rfl]
      rfl
    · rw [exec_trialTimerExpiry_open hrun hu ht, hdefer _ _ _ rfl rfl]
    · rw [exec_truCaptureNotice_open hrun hu ho hw hl, hdefer _ _ (s.part.tookTru (.capture n)) rfl rfl]
      rfl
    · rw [exec_truStaleNotice_open hrun hu ho hw, hdefer _ _ (s.part.tookTru (.stale c)) rfl rfl]
      rfl
    · rw [exec_trialAbort_open hu h, hdefer _ _ (s.part.takeInHand .trialAbort body) rfl rfl]
      rfl

/-! ## Outside OPEN -/

/-- A loss report changes nothing when no cause is taken (R69). -/
theorem lossReport_ignored {c : Carrier} {d : Lc44} (h : d.tru.openUndue = false) : lossReport c d = d := by
  simp [lossReport, h]

/-- Settles O25: without an open trial the events are ignored, counted, refused or held. -/
theorem eventsOutsideAnOpenTrial : Obligations.EventsOutsideAnOpenTrial := by
  intro s body hrun hstate hset ignored taken confirm
  have hu : s.part.tru.openUndue = false := openUndue_eq_false hstate
  have hu' : ¬ s.part.tru.openUndue = true := by simp [hu]
  refine ⟨?_, ?_, fun h => ?_, fun h => ?_, fun n ho => ?_, fun c ho => ?_, fun hs ht => ?_⟩
  · rw [exec_markConfirm, State.effect_running _ hrun]
    exact next_congr (if_neg hu')
  · rw [exec_markAbort, State.effect_running _ hrun]
    exact next_congr (if_neg hu')
  · have hown : ownTrialConfirm body (s.part.takeInHand .trialConfirm body) =
        deny confirm (s.part.takeInHand .trialConfirm body) := by
      refine (if_neg hu').trans ?_
      have hsame : (s.part.takeInHand .trialConfirm body).tru.state = s.part.tru.state := rfl
      simp only [hsame, confirm]
      cases s.part.tru.state <;> rfl
    have hreply : deny confirm (s.part.takeInHand .trialConfirm body) = s.part.reply .trialConfirm body confirm [] :=
      answer_takeInHand ..
    rw [exec_trialConfirm, effect_arbitrate_request _ h, hown, hreply]
    exact next_congr (arbitrate_of_settled _ hset)
  · have hown : ownTrialAbort body (s.part.takeInHand .trialAbort body) =
        deny (if s.part.tru.state = .idle then .badState else .busy) (s.part.takeInHand .trialAbort body) := by
      refine (if_neg hu').trans ?_
      have hsame : (s.part.takeInHand .trialAbort body).tru.state = s.part.tru.state := rfl
      simp only [hsame]
      cases s.part.tru.state <;> rfl
    have hreply (status : Status) : deny status (s.part.takeInHand .trialAbort body) =
        s.part.reply .trialAbort body status [] := answer_takeInHand ..
    rw [exec_trialAbort, effect_arbitrate_request _ h, hown, hreply]
    exact next_congr (arbitrate_of_settled _ hset)
  · rw [exec_truCaptureNotice, State.effect_running _ hrun, deliverTru_inOrder ho]
    refine next_congr ?_
    dsimp only
    split
    · exact lossReport_ignored hu
    · rfl
  · rw [exec_truStaleNotice, State.effect_running _ hrun, deliverTru_inOrder ho]
    exact next_congr (lossReport_ignored hu)
  · rw [exec_trialTimerExpiry, State.effect_running _ hrun]
    refine next_congr ?_
    have hdue : ¬ (!timerDue s.part.tru.timer) = true := by simp [ht]
    exact (if_neg hdue).trans ((if_neg hu').trans (if_pos hs))

end Sys2Proof.Machine
end

