-- ==== Sys2Proof/Proofs/TrialEnds.lean ====
section
/-! SUPPORT. The restores of a rollback, newest entry first, and the header words that end a trial. -/

namespace Sys2Proof.Machine

set_option Elab.async false

/-! ## Restores -/

/-- The newest waiting entry when no newer one waits. -/
theorem newestWaiting_of_newer (older newer : List JournalEntry) (e : JournalEntry) (he : e.mark = .waiting)
    (hn : ∀ x ∈ newer, x.mark ≠ .waiting) : newestWaiting (older ++ e :: newer) = some e := by
  have hnone : newer.reverse.find? (fun x => decide (x.mark = .waiting)) = none := by
    simpa [List.find?_eq_none] using hn
  simp [newestWaiting, List.find?_append, hnone, he]

/-- The newest waiting entry among older ones when no newer one waits. -/
theorem newestWaiting_of_older (older newer : List JournalEntry) (hn : ∀ x ∈ newer, x.mark ≠ .waiting) :
    newestWaiting (older ++ newer) = older.reverse.find? fun x => decide (x.mark = .waiting) := by
  have hnone : newer.reverse.find? (fun x => decide (x.mark = .waiting)) = none := by
    simpa [List.find?_eq_none] using hn
  simp [newestWaiting, List.find?_append, hnone]

/-- An entry whose address stands once in the journal differs in it from the others. -/
theorem addr_ne_of_nodup {older newer : List JournalEntry} {e : JournalEntry}
    (h : ((older ++ e :: newer).map JournalEntry.addr).Nodup) : ∀ x ∈ older ++ newer, x.addr ≠ e.addr := by
  intro x hx hxe
  rw [List.map_append, List.map_cons] at h
  have hout := (List.nodup_middle.mp h)
  obtain ⟨hnot, -⟩ := List.nodup_cons.mp hout
  exact hnot (by rw [← hxe, ← List.map_append]; exact List.mem_map_of_mem hx)

/-- A restored entry leaves the journal (R74). -/
theorem removeEntry_middle {older newer : List JournalEntry} {e : JournalEntry}
    (h : ((older ++ e :: newer).map JournalEntry.addr).Nodup) :
    removeEntry e.addr (older ++ e :: newer) = older ++ newer := by
  have hne := addr_ne_of_nodup h
  have ho : older.filter (fun x => decide (x.addr ≠ e.addr)) = older :=
    List.filter_eq_self.mpr fun x hx => by simpa using hne x (List.mem_append_left _ hx)
  have hn : newer.filter (fun x => decide (x.addr ≠ e.addr)) = newer :=
    List.filter_eq_self.mpr fun x hx => by simpa using hne x (List.mem_append_right _ hx)
  rw [removeEntry, List.filter_append, ho, List.filter_cons_of_neg (by simp), hn]

/-- An entry that failed twice stays, UNRESTORED (R74). -/
theorem markUnrestored_middle {older newer : List JournalEntry} {e : JournalEntry}
    (h : ((older ++ e :: newer).map JournalEntry.addr).Nodup) :
    markUnrestored e.addr (older ++ e :: newer) = older ++ { e with mark := .unrestored } :: newer := by
  have hne := addr_ne_of_nodup h
  have hkept {l : List JournalEntry} (hl : ∀ x ∈ l, x ∈ older ++ newer) : markUnrestored e.addr l = l :=
    (List.map_congr_left fun x hx => if_neg (hne x (hl x hx))).trans (List.map_id' l)
  have ho := hkept fun x (hx : x ∈ older) => List.mem_append_left _ hx
  have hn := hkept fun x (hx : x ∈ newer) => List.mem_append_right _ hx
  rw [markUnrestored] at ho hn ⊢
  rw [List.map_append, ho, List.map_cons, hn, if_pos rfl]

/-- The restore engine requests the newest waiting entry, or the state word CLOSED when none waits (R74, R78). -/
theorem restoreNext_eq (d : Lc44) :
    restoreNext d =
      match newestWaiting d.tru.journal with
      | some x =>
        { d with
          tru := { d.tru with work := .restore false }
          mpc := { d.mpc with rstWaiting := some ⟨x.addr, .write x.preImage⟩ } }
      | none =>
        { d with
          tru := { d.tru with work := .header .endState false false }
          mpc := d.mpc.queuesTru (d.profileWrite 0x010 (d.tru.number * 256)) } := by
  cases h : newestWaiting d.tru.journal with
  | some x =>
    simp only [restoreNext, h]
    rfl
  | none =>
    simp only [restoreNext, h]
    rw [requestHeader_eq, headerRequest_closed _ (Or.inr (Or.inr rfl))]

/-- Settles O27: the newest waiting entry is restored, retried once, and followed by the next. -/
theorem restoresGoNewestFirstWithOneRetry : Obligations.RestoresGoNewestFirstWithOneRetry := by
  intro s p older newer e retry w hrun hp hrst hwork hj he hn hnodup next counted
  rw [hj] at hnodup
  have hnewest : newestWaiting s.part.tru.journal = some e := by rw [hj, newestWaiting_of_newer older newer e he hn]
  have hfault : Mpc.ended p (.error .fault) s.part.mpc = { counted with cycle := none } := by
    simp [Mpc.ended, Mpc.failed, hrst, satInc, satAdd, Config.max32, counted]
  have hnext (j : List JournalEntry) (m : Mpc) (hj' : newestWaiting j = older.reverse.find? fun x =>
      decide (x.mark = .waiting)) :
      restoreNext { s.part with tru := { s.part.tru with journal := j }, mpc := { m with cycle := none } } =
        next j m := by
    rw [restoreNext_eq]
    simp only [hj', next]
    cases older.reverse.find? fun x => decide (x.mark = .waiting) <;> rfl
  refine ⟨?_, fun hr => ?_, fun hr => ?_⟩
  · have hend : restoreEnded none (s.part.onMpc (Mpc.ended p (.ok w))) = next (older ++ newer) s.part.mpc := by
      rw [← hnext _ _ (newestWaiting_of_older older newer hn), ← removeEntry_middle hnodup, ← hj]
      simp only [restoreEnded, Lc44.onMpc_tru, hwork, hnewest]
      rfl
    rw [exec_ok w s hrun, memoryEnd_rst _ _ _ hp hrst, ← hend]
    rfl
  · subst hr
    have hend : restoreEnded (some .fault) (s.part.onMpc (Mpc.ended p (.error .fault))) =
        { s.part with
          tru := { s.part.tru with work := .restore true }
          mpc := { counted with cycle := none, rstWaiting := some ⟨e.addr, .write e.preImage⟩ } } := by
      simp only [restoreEnded, Lc44.onMpc_tru, hwork, hnewest]
      simp only [requestRst, Lc44.onMpc, Lc44.onTru, hfault]
    refine (exec_failure .fault s hrun).trans ?_
    rw [memoryEnd_rst _ _ _ hp hrst, ← hend]
    rfl
  · subst hr
    have hend : restoreEnded (some .fault) (s.part.onMpc (Mpc.ended p (.error .fault))) =
        next (older ++ { e with mark := .unrestored } :: newer) counted := by
      have hnewer : ∀ x ∈ { e with mark := .unrestored } :: newer, x.mark ≠ .waiting := by
        simpa using hn
      rw [← hnext _ _ (newestWaiting_of_older older _ hnewer), ← markUnrestored_middle hnodup, ← hj]
      simp only [restoreEnded, Lc44.onMpc_tru, hwork, hnewest]
      simp only [Lc44.onMpc, Lc44.onTru, hfault]
      rfl
    refine (exec_failure .fault s hrun).trans ?_
    rw [memoryEnd_rst _ _ _ hp hrst, ← hend]
    rfl

/-! ## The header words that end a trial -/

/-- The LC44 once the request of a close is answered, if it was a TRIAL-CONFIRM (R64, R65). -/
def Lc44.answeredClose (source : CloseSource) (status : Status) (d : Lc44) : Lc44 :=
  if source = .service then d.answerInHand .trialConfirm status [] else d

/-- The answer of a close touches the service line alone. -/
theorem answeredClose_eq (source : CloseSource) (status : Status) (d : Lc44) :
    d.answeredClose source status = { d with sli := (d.answeredClose source status).sli } := by
  unfold Lc44.answeredClose Lc44.answerInHand
  split
  · split <;> rfl
  · rfl

/-- The trial unit once a close has succeeded (R64). -/
def Tru.closed (source : CloseSource) (t : Tru) : Tru :=
  { t with
    timer := none
    expiryHeld := false
    journal := []
    confirmed := min 65535 (t.confirmed + 1)
    outcome := t.outcome.map fun o =>
      { o with
        entriesAtEnd := some t.journal.length
        restored := some 0
        result := some .confirmed
        cause := some (if source = .service then .confirmedService else .confirmedMark) } }

/-- A close succeeds (R64). -/
theorem closeSucceeds_eq {source : CloseSource} {d : Lc44} (h : d.tru.closeSource = some source)
    (hin : source = .service → d.sli.inHand = some Req.trialConfirm.code) :
    closeSucceeds d = { d with tru := d.tru.closed source, sli := (d.answeredClose source .ok).sli } := by
  cases source with
  | mark =>
    simp only [closeSucceeds, h]
    rfl
  | service =>
    have hhand := hin rfl
    simp only [closeSucceeds, h, decide_true, if_true]
    rw [answer_inHand (r := .trialConfirm) _ _ (by exact hhand)]
    simp only [Lc44.answeredClose, Lc44.answerInHand, hhand, if_true]
    rfl

/-- The LC44 once a close has failed with both attempts FAULT: the trial is OPEN again (R65). -/
def Lc44.reopened (source : CloseSource) (d : Lc44) : Lc44 :=
  { d with
    sli := (d.answeredClose source .noMem).sli
    tru :=
      { d.tru with
        state := .open
        work := .idle
        closeSource := none
        expiryHeld := false
        outcome :=
          if source = .service then d.tru.outcome
          else d.tru.outcome.map fun o =>
            { o with confirmFailures := o.confirmFailures.map fun n => min 255 (n + 1) } } }

/-- A close that fails reopens the trial, and a held expiry is taken or the entry check made (R65). -/
theorem closeFails_eq {source : CloseSource} {d : Lc44} (h : d.tru.closeSource = some source)
    (hin : source = .service → d.sli.inHand = some Req.trialConfirm.code)
    (hab : source = .mark → d.sli.inHand ≠ some Req.trialAbort.code) :
    closeFails d =
      if d.tru.expiryHeld then (d.reopened source).causeTaken .expired none
      else (d.reopened source).checkedAtEntry := by
  have hquiet : (d.reopened source).sli.awaits .trialAbort = false := by
    cases source with
    | mark => exact awaits_other (hab rfl)
    | service =>
      have hhand := hin rfl
      simp only [Lc44.reopened, Lc44.answeredClose, Lc44.answerInHand, hhand, if_true]
      exact awaits_sending _ (Option.some_ne_none _)
  have hreopen : closeFails d =
      if d.tru.expiryHeld then takeRollbackCause .expired none (d.reopened source)
      else entryCheck (d.reopened source) := by
    cases source with
    | mark =>
      simp only [closeFails, h]
      rfl
    | service =>
      have hhand := hin rfl
      simp only [closeFails, h, decide_true, if_true]
      rw [answer_inHand (r := .trialConfirm) _ _ (by exact hhand)]
      simp only [Lc44.reopened, Lc44.answeredClose, Lc44.answerInHand, hhand, if_true]
      rfl
  rw [hreopen, takeRollbackCause_eq _ _ _ hquiet, entryCheck_eq _ hquiet]

/-- The trial unit once a rollback has ended (R78). -/
theorem endRollback_tru (t : Tru) (d : Lc44) (h : d.tru = t) :
    endRollback d =
      let lost := (t.journal.filter fun e => decide (e.mark = .unrestored)).map JournalEntry.addr
      { d with
        tru :=
          Tru.enterIdle
            { t with
              journal := []
              rolledBack := min 65535 (t.rolledBack + 1)
              outcome := t.outcome.map fun o =>
                { o with
                  unrestored := lost
                  restored := o.entriesAtEnd.map (· - lost.length)
                  result := some (if lost = [] then .rolledBack else .partly) } } } := by
  subst h
  simp only [endRollback, Lc44.onTru, List.isEmpty_iff]
  rfl

/-- Settles O28: each header word leads to the next, or to the end of the trial. -/
theorem headerWritesEndTheTrial : Obligations.HeaderWritesEndTheTrial := by
  intro s p retry timedOut w tru closed count freed failed idle confirmed answered rolledBack
  have hanswered (source : CloseSource) (status : Status) :
      answered source status = { s.part with sli := (s.part.answeredClose source status).sli } :=
    answeredClose_eq source status s.part
  refine ⟨?_, fun h => ⟨?_, fun f hr => ?_⟩, fun h => ⟨?_, fun f hr => ?_⟩, fun h => ⟨?_, fun f hr => ?_⟩, ?_⟩
  · intro source h hsource hin hab
    have hsucceeds (m : Mpc) : closeSucceeds { s.part with mpc := m } =
        { answered source .ok with tru := confirmed source, mpc := m } := by
      rw [closeSucceeds_eq (d := { s.part with mpc := m }) hsource hin, hanswered]
      simp only [Lc44.answeredClose, Lc44.answerInHand]
      cases source
      · simp only [hin rfl, if_true]
        rfl
      · rfl
    refine ⟨?_, fun f hr => ⟨fun hto => ?_, fun hto hf => ?_⟩⟩
    · rw [exec_headerWritten w h, headerWritten, hsucceeds, requestHeader_eq, headerRequest_count _ (by simp), hanswered]
      rfl
    · subst hr
      have htimed : (timedOut || decide (f = .timeout)) = true := by simpa using hto
      rw [exec_headerFailed f h]
      simp only [if_true, headerFailed, htimed, hsucceeds]
      rfl
    · subst hr
      have htimed : (timedOut || decide (f = .timeout)) = false := by simp [hto, hf]
      rw [exec_headerFailed f h]
      simp only [if_true, headerFailed, htimed, Bool.false_eq_true, if_false]
      have hreopened : ({ s.part with mpc := failed f } : Lc44).reopened source =
          { answered source .noMem with
            tru :=
              { tru with
                state := .open
                work := .idle
                closeSource := none
                expiryHeld := false
                outcome :=
                  if source = .service then tru.outcome
                  else tru.outcome.map fun o =>
                    { o with confirmFailures := o.confirmFailures.map fun n => min 255 (n + 1) } }
            mpc := failed f } := by
        rw [hanswered]
        simp only [Lc44.reopened, Lc44.answeredClose, Lc44.answerInHand]
        cases source
        · simp only [hin rfl, if_true]
          rfl
        · rfl
      rw [closeFails_eq (d := { s.part with mpc := failed f }) hsource hin hab, hreopened]
  · rw [exec_headerWritten w h]
    rfl
  · subst hr
    rw [exec_headerFailed f h]
    rfl
  · rw [exec_headerWritten w h, headerWritten, requestHeader_eq, headerRequest_count _ (by simp)]
    rfl
  · subst hr
    rw [exec_headerFailed f h]
    simp only [if_true, headerFailed]
    rw [endRollback_tru { tru with stale := true } _ rfl]
    rfl
  · rw [exec_headerWritten w h, headerWritten, endRollback_tru tru { s.part with mpc := freed } rfl]
    rfl
  · subst hr
    rw [exec_headerFailed f h]
    simp only [if_true, headerFailed]
    rw [endRollback_tru tru { s.part with mpc := failed f } rfl]
    rfl
  · intro f step word hword h
    simp only [List.mem_cons, List.not_mem_nil, or_false, Prod.mk.injEq] at hword
    have hrequest : headerRequest step { s.part with mpc := failed f } = word := by
      rcases hword with ⟨rfl, rfl⟩ | ⟨rfl, rfl⟩ | ⟨rfl, rfl⟩ | ⟨rfl, rfl⟩
      · exact headerRequest_closed _ (by simp)
      · exact headerRequest_count _ (by simp)
      · exact headerRequest_closed _ (by simp)
      · exact headerRequest_count _ (by simp)
    rw [exec_headerFailed f h]
    simp only [Bool.false_eq_true, if_false, requestHeader_eq]
    rw [hrequest]

end Sys2Proof.Machine
end

