-- ==== Sys2Proof/Proofs/Handover.lean ====
section
/-! SUPPORT. The readiness of a handover bit by bit, what its acceptance begins, and the fold word by word. -/

namespace Sys2Proof.Machine

set_option Elab.async false

/-! ## Sets of carriers -/

/-- The members of a set of carriers. -/
@[simp] theorem mem_membersOf {m : CarrierSet} {c : Carrier} : c ∈ membersOf m ↔ m.get c = true := by
  have hall : c ∈ carriers := by fin_cases c <;> decide
  simp [membersOf, hall]

/-- No carrier is a member. -/
theorem isEmpty_membersOf (m : CarrierSet) : (membersOf m).isEmpty = true ↔ ∀ c, m.get c = false := by
  simp [List.isEmpty_iff, List.eq_nil_iff_forall_not_mem]

/-- The mask of a set of carriers has their four bits. -/
theorem carriersMask_lt (m : CarrierSet) : carriersMask m < 16 := by
  have h0 := Bool.toNat_lt m.c0
  have h1 := Bool.toNat_lt m.c1
  have h2 := Bool.toNat_lt m.c2
  have h3 := Bool.toNat_lt m.c3
  unfold carriersMask
  omega

/-- Bit n of the mask stands for carrier n (R204). -/
theorem getLsbD_carriersMask (m : CarrierSet) (c : Carrier) :
    (BitVec.ofNat 8 (carriersMask m)).getLsbD c.val = m.get c := by
  obtain ⟨a, b, x, y⟩ := m
  fin_cases c <;> cases a <;> cases b <;> cases x <;> cases y <;> rfl

/-- One byte. -/
@[simp] theorem b1_eq (n : Nat) : b1 n = [BitVec.ofNat 8 n] := by simp [b1, bytesBE]

/-! ## The reason set (R173) -/

/-- Seven flags as the bits of a number. -/
theorem testBit_sevenFlags (a b c d e f g : Bool) :
    let n := bit a 0 + bit b 1 + bit c 2 + bit d 3 + bit e 4 + bit f 5 + bit g 6
    n < 128 ∧ n.testBit 0 = a ∧ n.testBit 1 = b ∧ n.testBit 2 = c ∧ n.testBit 3 = d ∧ n.testBit 4 = e ∧
      n.testBit 5 = f ∧ n.testBit 6 = g := by
  revert a b c d e f g
  decide

/-! ## What a handover begins -/

/-- The fold with nothing left to take. -/
theorem foldNext_of_none {d : Lc44} (h : d.foldPick = none) : foldNext d = foldDone d := by simp only [foldNext, h]

/-- The fold takes a word. -/
theorem foldNext_of_some {d : Lc44} {m : MapId} {k : Nat} {r : Region} {base : Addr}
    (h : d.foldPick = some (m, k, r, base)) :
    foldNext d =
      { d with
        ovu := { d.ovu with work := .reading m k }
        mpc :=
          { d.mpc with intQueue := d.mpc.intQueue ++ [⟨.ovu, ⟨base + BitVec.ofNat 20 k, .read⟩⟩] } } := by
  simp only [foldNext, h]
  rfl

/-- The link is handing over, and its operation record is that of a handover that runs. -/
def Phc.handsOver (p : Phc) : Prop :=
  p.phop.isHandingOver = true ∧ p.operation.operation = .handover ∧ p.operation.result = some .running ∧
    p.operation.writes = 0

/-- Starting the fold requests at most one word, of INT. -/
theorem startFold_mpc (d : Lc44) : ∃ q, (startFold d).mpc = { d.mpc with intQueue := q } := by
  have hnext (e : Lc44) : ∃ q, (foldNext e).mpc = { e.mpc with intQueue := q } := by
    cases h : e.foldPick with
    | none =>
      rw [foldNext_of_none h]
      exact ⟨_, rfl⟩
    | some w =>
      rw [foldNext_of_some (m := w.1) (k := w.2.1) (r := w.2.2.1) (base := w.2.2.2) h]
      exact ⟨_, rfl⟩
  unfold startFold
  dsimp only
  split
  · exact ⟨_, rfl⟩
  · exact hnext _

/-- Starting the fold leaves the handover running. -/
theorem startFold_handsOver {d : Lc44} (h : d.phc.handsOver) : (startFold d).phc.handsOver := by
  have hnext {e : Lc44} (h : e.phc.handsOver) : (foldNext e).phc.handsOver := by
    cases hp : e.foldPick with
    | none =>
      obtain ⟨-, hop, hresult, hwrites⟩ := h
      rw [foldNext_of_none hp]
      exact ⟨rfl, hop, hresult, hwrites⟩
    | some w =>
      rw [foldNext_of_some (m := w.1) (k := w.2.1) (r := w.2.2.1) (base := w.2.2.2) hp]
      exact h
  unfold startFold
  dsimp only
  split
  · exact h
  · exact hnext h

/-! ## The arbiter with nothing to grant to FWD -/

/-- A grant to any client but FWD changes the port alone, and FWD waits as before. -/
theorem keeps_grantTo_other {x : Client} (d : Lc44) (h : x ≠ .fwd) :
    d.keepsOutside [.mpc] (grantTo x d) ∧ (grantTo x d).mpc.fwdWaiting = d.mpc.fwdWaiting := by
  cases x with
  | fwd => exact absurd rfl h
  | rst =>
    simp only [grantTo]
    split
    · exact ⟨keeps_refl _ _, rfl⟩
    · exact ⟨keeps_trans (keeps_onMpc _ _) (keeps_present _ _ _), rfl⟩
  | int =>
    simp only [grantTo]
    split
    · exact ⟨keeps_refl _ _, rfl⟩
    · exact ⟨keeps_present _ _ _, rfl⟩
  | mir =>
    simp only [grantTo]
    split
    · exact ⟨keeps_refl _ _, rfl⟩
    · exact ⟨keeps_trans (keeps_onMpc _ _) (keeps_present _ _ _), rfl⟩

/-- Whether a client has a request at the arbiter. -/
def Mpc.waits (m : Mpc) (x : Client) : Prop :=
  match x with
  | .fwd => m.fwdWaiting = true
  | .rst => m.rstWaiting ≠ none
  | .int => m.intQueue ≠ []
  | .mir => m.mirWaiting ≠ none

/-- The arbiter chooses a client that waits. -/
theorem waits_of_choice {m : Mpc} {x : Client} (h : m.choice = some x) : m.waits x := by
  unfold Mpc.choice at h
  simp only [Bool.and_eq_true, Option.isSome_iff_ne_none, Bool.not_eq_true', List.isEmpty_eq_false_iff] at h
  split at h
  next hboth =>
    split at h
    · obtain rfl := Option.some.inj h
      exact hboth.2
    · obtain rfl := Option.some.inj h
      exact hboth.1
  next =>
    split at h
    next hw =>
      obtain rfl := Option.some.inj h
      exact hw
    next =>
      split at h
      next hw =>
        obtain rfl := Option.some.inj h
        exact hw
      next =>
        split at h
        next hw =>
          obtain rfl := Option.some.inj h
          exact hw
        next =>
          split at h
          next hw =>
            obtain rfl := Option.some.inj h
            exact hw
          next => cases h

/-- While FWD does not wait the arbiter does not choose it. -/
theorem choice_ne_fwd {m : Mpc} (h : m.fwdWaiting = false) : m.choice ≠ some .fwd :=
  fun hc => Bool.false_ne_true (h.symm.trans (waits_of_choice hc))

/-- While FWD does not wait a decision of the arbiter changes the port alone. -/
theorem keeps_arbitrateOnce_unforwarded {d : Lc44} (h : d.mpc.fwdWaiting = false) :
    d.keepsOutside [.mpc] (arbitrateOnce d) ∧ (arbitrateOnce d).mpc.fwdWaiting = false := by
  unfold arbitrateOnce
  split
  · split
    · exact ⟨keeps_refl _ _, h⟩
    · rename_i x hx
      obtain ⟨hkeeps, hwaits⟩ := keeps_grantTo_other d (x := x) fun hfwd => choice_ne_fwd h (hfwd ▸ hx)
      exact ⟨hkeeps, hwaits.trans h⟩
  · exact ⟨keeps_refl _ _, h⟩

/-- On a settled port to which only requests of INT or MIR are added, the arbiter changes the port alone. -/
theorem keeps_arbitrate_queued {d : Lc44} {m : Mpc} (h : m.settled = true) (hfree : d.mpc.free = m.free)
    (hfwd : d.mpc.fwdWaiting = m.fwdWaiting) : d.keepsOutside [.mpc] (arbitrate d) := by
  by_cases hf : m.free = true
  · have hn : m.choice = none := by simpa [Mpc.settled, hf] using h
    have hw : d.mpc.fwdWaiting = false := hfwd.trans ((choice_eq_none_iff m).mp hn).1
    obtain ⟨hkeeps, hwaits⟩ := keeps_arbitrateOnce_unforwarded hw
    exact keeps_trans hkeeps (keeps_arbitrateOnce_unforwarded hwaits).1
  · have hbusy : d.mpc.free = false := hfree.trans (Bool.eq_false_iff.mpr hf)
    rw [arbitrate_of_settled d (settled_of_busy _ hbusy)]
    exact keeps_refl _ _

/-- The LC44 that has taken a HANDOVER into PHC (R175). -/
def Lc44.handing (d : Lc44) : Lc44 :=
  { d with
    phc := { d.phc with phop := .handingOver .fold, operation := ⟨.handover, some .running, some .fold, none, 0, none, none⟩ } }

/-- Settles O31: the failing conditions are the bits of the reason set, and a ready link begins the fold. -/
theorem handoverNeedsReadiness : Obligations.HandoverNeedsReadiness := by
  intro s body h hset enabled reasons
  obtain ⟨hlt, h0, h1, h2, h3, h4, h5, h6⟩ := testBit_sevenFlags (decide (s.part.tru.state ≠ .idle)) s.part.tru.stale
    (decide (s.part.acu.runState ≠ .idle))
    (decide (s.part.acu.lastRun.outcome ≠ .pass) || decide (s.part.acu.lastRun.firstStep ≠ some 0))
    (membersOf s.part.rcu.enabled).isEmpty
    ((membersOf s.part.rcu.enabled).any fun c => (s.part.rcu.records.get c).settings.expected.isNone)
    (!(membersOf s.part.rcu.notMain).isEmpty)
  have hexec : exec (.handover body) s =
      .next ⟨arbitrate (ownHandover body (s.part.takeInHand .handover body)), s.pending⟩ := by
    rw [exec_handover, effect_arbitrate_request _ h]
  refine ⟨hlt, ?_, ?_, ?_, ?_, ?_, ?_, ?_, fun hr => ?_, fun hr => ?_⟩
  · rw [show reasons.testBit 0 = _ from h0, decide_eq_true_iff]
  · rw [show reasons.testBit 1 = _ from h1]
  · rw [show reasons.testBit 2 = _ from h2, decide_eq_true_iff]
  · rw [show reasons.testBit 3 = _ from h3, Bool.or_eq_true, decide_eq_true_iff, decide_eq_true_iff]
  · rw [show reasons.testBit 4 = _ from h4, isEmpty_membersOf]
    simp [Rcu.enabled, enabled, PerCarrier_get_ofFn]
  · rw [show reasons.testBit 5 = _ from h5]
    simp [Rcu.enabled, enabled, PerCarrier_get_ofFn]
  · rw [show reasons.testBit 6 = _ from h6, Bool.not_eq_true', Bool.eq_false_iff, ne_eq, isEmpty_membersOf]
    simp [Rcu.notMain, enabled, PerCarrier_get_ofFn]
  · refine ⟨BitVec.ofNat 8 (carriersMask s.part.rcu.notMain), fun c => ?_, ?_, ?_⟩
    · rw [getLsbD_carriersMask]
      simp [Rcu.notMain, enabled, PerCarrier_get_ofFn]
    · have hmask := carriersMask_lt s.part.rcu.notMain
      rw [BitVec.toNat_ofNat]
      omega
    · have hown : ownHandover body (s.part.takeInHand .handover body) =
          s.part.reply .handover body .notReady
            [BitVec.ofNat 8 reasons, BitVec.ofNat 8 (carriersMask s.part.rcu.notMain)] := by
        rw [← answer_takeInHand]
        refine (if_neg hr).trans ?_
        rw [setByte, b1_eq, b1_eq]
        rfl
      rw [hexec, hown]
      exact next_congr (arbitrate_of_settled _ hset)
  · have hown : ownHandover body (s.part.takeInHand .handover body) =
        answer .accepted [] (startFold (s.part.takeInHand .handover body).handing) := if_pos hr
    have hkeeps : (s.part.takeInHand .handover body).keepsOutside [.mpc, .ovu, .phc]
        (startFold (s.part.takeInHand .handover body).handing) := keeps_beginHandover _
    have hanswer := answer_taken .handover body .accepted [] s.part
      (startFold (s.part.takeInHand .handover body).handing) (keeps_sli hkeeps)
    obtain ⟨q, hq⟩ := startFold_mpc (s.part.takeInHand .handover body).handing
    obtain ⟨hphop, hop, hresult, hwrites⟩ :=
      startFold_handsOver (d := (s.part.takeInHand .handover body).handing) ⟨rfl, rfl, rfl, rfl⟩
    have hmpc : (answer .accepted [] (startFold (s.part.takeInHand .handover body).handing)).mpc =
        { s.part.mpc with intQueue := q } := by
      rw [hanswer]
      exact hq
    have harb := keeps_arbitrate_queued hset ((congrArg Mpc.free hmpc).trans rfl)
      ((congrArg Mpc.fwdWaiting hmpc).trans rfl)
    refine ⟨hexec.trans (next_congr (congrArg arbitrate hown)), _,
      hexec.trans (next_congr (congrArg arbitrate hown)), ?_, ?_, ?_⟩
    · rw [keeps_sli harb, hanswer]
    · have htaken : s.part.keepsOutside [.sli] (s.part.takeInHand .handover body) :=
        keeps_onSli (fun l => l.holding .handover body) _
      have hanswered : s.part.keepsOutside [.mpc, .ovu, .phc, .sli]
          (answer .accepted [] (startFold (s.part.takeInHand .handover body).handing)) :=
        keeps_trans (keeps_trans (l := [.mpc, .ovu, .phc, .sli]) htaken hkeeps) (keeps_answer _ _ _)
      exact keeps_trans hanswered harb
    · rw [keeps_phc harb, hanswer]
      exact ⟨hphop, hop, hresult, hwrites⟩

/-! ## The fold (R94 to R96) -/

/-- The lowest set offset of a referenced map. -/
theorem foldable_of_flag {d : Lc44} {m : MapId} {k : Nat} {l : List Nat} {i : Fin 16} {r : Region} {base : Addr}
    (hm : d.ovu.map m = k :: l) (he : d.ccl.mapEntry m = some (i, r, base)) :
    d.foldable m = some (m, k, r, base) := by simp only [Lc44.foldable, hm, he]

/-- A map without flags has nothing to fold. -/
theorem foldable_of_clear {d : Lc44} {m : MapId} (hm : d.ovu.map m = []) : d.foldable m = none := by
  simp only [Lc44.foldable, hm]

/-- Settles O32: the fold copies word by word, and stops at a reserved address or a fault. -/
theorem foldCopiesEachWordBack : Obligations.FoldCopiesEachWordBack := by
  refine ⟨?_, ?_⟩
  · intro s p q rest m k w i r base hrun hp hint hq howner hentry freed failed counted
    have hok : exec (.memoryAnswer (.ok w)) s =
        .next ⟨arbitrate (foldEnded (.ok w) { s.part with mpc := freed }), s.pending⟩ := by
      rw [exec_ok w s hrun, memoryEnd_int _ _ _ _ _ hp hint hq, howner]
      rfl
    have hfault : exec (.memoryAnswer .fault) s =
        .next ⟨arbitrate (foldEnded (.error .fault) { s.part with mpc := counted }), s.pending⟩ := by
      refine (exec_failure .fault s hrun).trans ?_
      rw [memoryEnd_int _ _ _ _ _ hp hint hq, howner]
      simp [Lc44.onMpc, Mpc.ended, Mpc.failed, Mpc.headOwner, satInc, satAdd, Config.max32, counted, freed, hint, hq,
        howner, intEnded]
    refine ⟨fun hw => ⟨fun hres => ?_, fun hres => ?_, ?_⟩, fun hw => ⟨?_, ?_⟩⟩
    · rw [hok]
      refine next_congr (congrArg arbitrate ?_)
      simp only [foldEnded, hw, foldWrite, hentry]
      exact if_neg (Bool.eq_false_iff.mp hres)
    · rw [hok]
      refine next_congr (congrArg arbitrate ?_)
      simp only [foldEnded, hw, foldWrite, hentry]
      exact if_pos hres
    · rw [hfault]
      refine next_congr (congrArg arbitrate ?_)
      simp only [foldEnded, hw]
      rfl
    · rw [hok]
      refine next_congr (congrArg arbitrate ?_)
      simp only [foldEnded, hw]
      cases m <;> rfl
    · rw [hfault]
      refine next_congr (congrArg arbitrate ?_)
      simp only [foldEnded, hw]
      rfl
  · intro d k l i r base
    refine ⟨fun hm he => ?_, fun h0 hm he => ?_, fun h0 h1 => ?_⟩
    · have hpick : d.foldPick = some (.map0, k, r, base) := by
        simp only [Lc44.foldPick, foldable_of_flag (m := .map0) hm he]
      exact foldNext_of_some hpick
    · have hpick : d.foldPick = some (.map1, k, r, base) := by
        simp only [Lc44.foldPick, foldable_of_clear (m := .map0) h0, foldable_of_flag (m := .map1) hm he]
      exact foldNext_of_some hpick
    · have hpick : d.foldPick = none := by
        simp only [Lc44.foldPick, foldable_of_clear (m := .map0) h0, foldable_of_clear (m := .map1) h1]
      rw [foldNext_of_none hpick]
      exact ⟨rfl, rfl, rfl⟩

end Sys2Proof.Machine
end

