-- ==== Sys2Proof/Proofs/Captures.lean ====
section
/-! SUPPORT. The capture of observed words, the report timeout of each carrier, and the requests that set captures. -/

namespace Sys2Proof.Machine

set_option Elab.async false

/-! ## Observed words (R98 to R109) -/

/-- A hand-off to no carrier, or under no layout with an RSL slot, only leaves the list. -/
theorem takeHandoff_ignored {h : Handoff} {d : Lc44}
    (hno : h.carrierCount ≤ h.offset / h.stride ∨ d.rcu.layout = none ∨
      ∃ l, d.rcu.layout = some l ∧ l.hasKind .rsl = false) : takeHandoff h d = d := by
  unfold takeHandoff
  split
  · rename_i c l hc hl
    rcases hno with hcount | hnone | ⟨l', hl', hrsl⟩
    · rw [handoffCarrier, if_neg (Nat.not_lt.mpr hcount)] at hc
      exact absurd hc (Option.some_ne_none _).symm
    · exact absurd (hl.symm.trans hnone) (Option.some_ne_none _)
    · obtain rfl : l' = l := Option.some.inj (hl'.symm.trans hl)
      rw [hrsl]
      rfl
  · rfl

/-- The carrier of a number below 4. -/
theorem carrierOf_val {n : Nat} {c : Carrier} (h : c.val = n) : carrierOf n = some c := by
  subst h
  exact dif_pos c.isLt

/-- A hand-off of a carrier's block is an OBSERVE word for it. -/
theorem takeHandoff_observed {h : Handoff} {d : Lc44} {c : Carrier} {l : Layout}
    (hcount : h.offset / h.stride < h.carrierCount) (hc : c.val = h.firstCarrier + h.offset / h.stride)
    (hl : d.rcu.layout = some l) (hrsl : l.hasKind .rsl = true) :
    takeHandoff h d = observeWord l c (h.offset % h.stride) h.data d := by
  have hcarrier : handoffCarrier h = some c := by rw [handoffCarrier, if_pos hcount, carrierOf_val hc]
  simp only [takeHandoff, hcarrier, hl, hrsl, if_true]

/-- The peak after a capture is present (R107). -/
theorem peakAfterCapture_eq (rsl : Int) (tick : BitVec 32) (p : Option Peak) :
    peakAfterCapture rsl tick p =
      some (match p with
        | none => ⟨rsl, tick⟩
        | some q => if q.rsl < rsl then ⟨rsl, tick⟩ else q) := by
  cases p with
  | none => rfl
  | some q =>
    simp only [peakAfterCapture]
    split <;> rfl

/-- A capture from a buffer with a fresh RSL (R105, R107, R109). -/
theorem captureAttempt_fresh {c : Carrier} {b : Buffer} {d : Lc44} {x : CaptureRecord} (hfresh : b.rsl.fresh = true)
    (hx : (d.rcu.records.get c).captured b d.rcu.tickCount d.rcu.reportTimeout d.rcu.lossFloor = x) :
    captureAttempt c b d =
      { d with
        rcu := { d.rcu with buffers := d.rcu.buffers.set c b.used, records := d.rcu.records.set c x }
        raised :=
          { d.raised with
            tru := d.raised.tru ++ [.capture (noticeOf c b x.lossRun)]
            acu := d.raised.acu ++ [.capture (noticeOf c b x.lossRun)]
            tmu := d.raised.tmu ++ [.capture (noticeOf c b x.lossRun)] } } := by
  subst hx
  exact if_pos hfresh

/-- Settles O33: a word that is not the closing word fills its slots, and the closing word attempts a capture. -/
theorem observedWordsAreCaptured : Obligations.ObservedWordsAreCaptured := by
  intro s h hrun taken
  have hexec {d : Lc44} (hd : takeHandoff h (takenRcu h s.part) = d) :
      exec (.observeHandoff h) s = .next ⟨d, s.pending⟩ := by
    rw [exec_observeHandoff, State.effect_running _ hrun]
    exact next_congr hd
  refine ⟨fun hno => hexec (takeHandoff_ignored (d := takenRcu h s.part) hno), ?_⟩
  intro c l hcount hc hl hrsl old index b fresh used rsl loss peak new notice
  have hobserve := takeHandoff_observed (d := takenRcu h s.part) hcount hc hl hrsl
  refine ⟨fun hindex => ?_, fun hindex hfresh => ?_, fun hindex hfresh => ?_⟩
  · exact hexec (hobserve.trans (if_neg hindex))
  · refine hexec (hobserve.trans ((if_pos hindex).trans ?_))
    exact if_neg (Bool.eq_false_iff.mp hfresh)
  · have hnew : old.captured b s.part.rcu.tickCount s.part.rcu.reportTimeout s.part.rcu.lossFloor = new := by
      simp only [CaptureRecord.captured, peakAfterCapture_eq]
      rfl
    exact hexec (hobserve.trans ((if_pos hindex).trans
      (captureAttempt_fresh (d := takenRcu h s.part) hfresh hnew)))

/-! ## Stale carriers (R109 to R111) -/

/-- An event that stands behind another about one of its carriers is out of order (R109). -/
theorem inOrder_behind {ε : Type} [DecidableEq ε] {about : ε → CarrierSet} {e y : ε} {before after : List ε}
    (habout : (membersOf (about e)).any (about y).get = true) (hne : y ≠ e) (hbefore : e ∉ before) :
    inOrder about e (before ++ y :: after) = false := by
  unfold inOrder
  cases hfind : before.find? (fun x => (membersOf (about e)).any (about x).get) with
  | none => simp [List.find?_append, hfind, habout, hne]
  | some x =>
    have hx : x ≠ e := fun hxe => hbefore (hxe ▸ List.mem_of_find?_eq_some hfind)
    simp [List.find?_append, hfind, hx]

/-- Two events about the same carrier have it in common. -/
theorem any_onlyCarrier (c : Carrier) : (membersOf (onlyCarrier c)).any (onlyCarrier c).get = true := by
  revert c
  decide

/-- A value put back where it stands. -/
theorem PerCarrier_set_get {α : Type} (p : PerCarrier α) (c : Carrier) : p.set c (p.get c) = p := by
  refine PerCarrier_ext fun k => ?_
  rw [PerCarrier_get_set]
  split
  · next h => rw [h]
  · rfl

/-- The ticks since the last capture of a record. -/
def CaptureRecord.elapsed (tick : BitVec 32) (r : CaptureRecord) : Nat := (tick - r.lastTick.getD tick).toNat

/-- A new report timeout leaves nothing to a carrier in TRACK (R111). -/
def CaptureRecord.timesOut (timeout : Nat) (tick : BitVec 32) (r : CaptureRecord) : Bool :=
  decide (r.state = .track) && decide (timeout ≤ r.elapsed tick)

/-- A capture record under a new report timeout (R111). -/
def CaptureRecord.retimed (timeout : Nat) (tick : BitVec 32) (r : CaptureRecord) : CaptureRecord :=
  if r.timesOut timeout tick then { r with state := .stale, timer := none }
  else if r.state = .track then { r with timer := some (timeout - r.elapsed tick) }
  else r

/-- The events raised with the stale notices of some carriers (R109). -/
def Raised.staled (l : List Carrier) (r : Raised) : Raised :=
  { r with tru := r.tru ++ l.map .stale, acu := r.acu ++ l.map .stale, tmu := r.tmu ++ l.map .stale }

/-- Stale notices raised one group after another. -/
theorem staled_append (k l : List Carrier) (r : Raised) : (r.staled k).staled l = r.staled (k ++ l) := by
  simp [Raised.staled]

/-- One carrier under a new report timeout. -/
theorem retimeCarrier_eq (timeout : Nat) (c : Carrier) (d : Lc44) :
    retimeCarrier timeout c d =
      { d with
        rcu :=
          { d.rcu with
            records := d.rcu.records.set c ((d.rcu.records.get c).retimed timeout d.rcu.tickCount) }
        raised := d.raised.staled ([c].filter fun k => (d.rcu.records.get k).timesOut timeout d.rcu.tickCount) } := by
  by_cases htrack : (d.rcu.records.get c).state = .track
  · by_cases hout : timeout ≤ (d.rcu.records.get c).elapsed d.rcu.tickCount
    · have hdue : (d.rcu.records.get c).timesOut timeout d.rcu.tickCount = true := by
        simp [CaptureRecord.timesOut, htrack, hout]
      have hlist : [c].filter (fun k => (d.rcu.records.get k).timesOut timeout d.rcu.tickCount) = [c] := by simp [hdue]
      rw [CaptureRecord.retimed, if_pos hdue, hlist]
      exact (if_pos htrack).trans ((if_pos hout).trans (if_pos htrack))
    · have hdue : ¬ (d.rcu.records.get c).timesOut timeout d.rcu.tickCount = true := by
        simp [CaptureRecord.timesOut, hout]
      have hlist : [c].filter (fun k => (d.rcu.records.get k).timesOut timeout d.rcu.tickCount) = [] := by simp [hdue]
      rw [CaptureRecord.retimed, if_neg hdue, if_pos htrack, hlist]
      refine (if_pos htrack).trans ((if_neg hout).trans ?_)
      simp [Raised.staled, setRecord, Lc44.onRcu, CaptureRecord.elapsed]
  · have hdue : ¬ (d.rcu.records.get c).timesOut timeout d.rcu.tickCount = true := by
      simp [CaptureRecord.timesOut, htrack]
    have hlist : [c].filter (fun k => (d.rcu.records.get k).timesOut timeout d.rcu.tickCount) = [] := by simp [hdue]
    rw [CaptureRecord.retimed, if_neg hdue, if_neg htrack, hlist, PerCarrier_set_get]
    refine (if_neg htrack).trans ?_
    simp [Raised.staled]

/-- Carriers under a new report timeout, one after another: each record is retimed, and the stale notices are raised in
the same order. -/
theorem foldl_retimeCarrier (timeout : Nat) (l : List Carrier) (hl : l.Nodup) (d : Lc44) :
    ∃ records : PerCarrier CaptureRecord,
      (∀ c, records.get c =
        if c ∈ l then (d.rcu.records.get c).retimed timeout d.rcu.tickCount else d.rcu.records.get c) ∧
      l.foldl (fun e c => retimeCarrier timeout c e) d =
        { d with
          rcu := { d.rcu with records := records }
          raised := d.raised.staled (l.filter fun k => (d.rcu.records.get k).timesOut timeout d.rcu.tickCount) } := by
  induction l generalizing d with
  | nil => exact ⟨d.rcu.records, fun c => by simp, by simp [Raised.staled]⟩
  | cons c l ih =>
    obtain ⟨hc, hl⟩ := List.nodup_cons.mp hl
    obtain ⟨records, hrecords, hfold⟩ := ih hl (retimeCarrier timeout c d)
    rw [retimeCarrier_eq] at hrecords hfold
    have hother {k : Carrier} (hk : k ∈ l) : k ≠ c := fun hkc => hc (hkc ▸ hk)
    refine ⟨records, fun k => ?_, ?_⟩
    · rw [hrecords k, PerCarrier_get_set]
      by_cases hkc : k = c
      · simp [hkc, hc]
      · simp [hkc]
    · rw [List.foldl_cons, retimeCarrier_eq, hfold, staled_append]
      have hfilter : (l.filter fun k => ((d.rcu.records.set c ((d.rcu.records.get c).retimed timeout
          d.rcu.tickCount)).get k).timesOut timeout d.rcu.tickCount) =
          l.filter fun k => (d.rcu.records.get k).timesOut timeout d.rcu.tickCount :=
        List.filter_congr fun k hk => by rw [PerCarrier_get_set, if_neg (hother hk)]
      rw [hfilter, ← List.filter_append]
      rfl

/-- Settles O34: a report timer that runs out makes its carrier stale, at its expiry or under a new timeout. -/
theorem staleCarriersAreReported : Obligations.StaleCarriersAreReported := by
  refine ⟨?_, ?_, ?_⟩
  · intro s c hrun old
    refine ⟨fun htrack hdue => ?_, fun hnot => ?_⟩
    · rw [exec_reportTimerExpiry, State.effect_running _ hrun]
      exact next_congr ((if_pos ((timerDue_iff _).mpr hdue)).trans (if_pos htrack))
    · refine State.effect_same ?_
      split
      · next hdue =>
        have hdue' : old.timer = some 0 := (timerDue_iff _).mp hdue
        exact if_neg (hnot.resolve_right (not_not_intro hdue'))
      · rfl
  · intro s body h d memory report holdoff floor ok elapsed
    have hcheck : (memoryTimeoutOk memory && reportTimeoutOk report && holdoffOk holdoff && lossFloorOk floor) = true ↔
        ok := by
      simp [memoryTimeoutOk, reportTimeoutOk, holdoffOk, lossFloorOk, within, withinInt, ok, and_assoc]
    have hexec : exec (.setTimes body) s = .next ⟨ownSetTimes body (s.part.takeInHand .setTimes body), s.pending⟩ := by
      rw [exec_setTimes, effect_request _ h]
    refine ⟨fun hbad => ?_, fun hok => ?_⟩
    · refine hexec.trans (next_congr ((if_neg (mt hcheck.mp hbad)).trans ?_))
      exact answer_takeInHand .setTimes body .badArg [] s.part
    · obtain ⟨records, hrecords, hfold⟩ := foldl_retimeCarrier report carriers (by decide)
        { s.part.takeInHand .setTimes body with
          mpc := { d.mpc with timeout := memory }
          tmu := { d.tmu with holdoffSetting := holdoff }
          rcu := { d.rcu with reportTimeout := report, lossFloor := floor } }
      have hall (c : Carrier) : c ∈ carriers := by
        revert c
        decide
      have hrecord (c : Carrier) :
          records.get c = (d.rcu.records.get c).retimed report d.rcu.tickCount := (hrecords c).trans (if_pos (hall c))
      have hown : ownSetTimes body (s.part.takeInHand .setTimes body) =
          answer .ok [] (carriers.foldl (fun e c => retimeCarrier report c e)
            { s.part.takeInHand .setTimes body with
              mpc := { d.mpc with timeout := memory }
              tmu := { d.tmu with holdoffSetting := holdoff }
              rcu := { d.rcu with reportTimeout := report, lossFloor := floor } }) := if_pos (hcheck.mpr hok)
      rw [hfold, answer_taken .setTimes body .ok [] s.part _ rfl] at hown
      have hkeeps : d.keepsOutside [.mpc, .tmu, .rcu, .raised, .sli]
          (ownSetTimes body (s.part.takeInHand .setTimes body)) :=
        keeps_trans (keeps_onSli (fun l => l.holding .setTimes body) d) (keeps_ownSetTimes body _)
      rw [hown] at hkeeps
      refine ⟨_, hexec.trans (next_congr hown), hkeeps, rfl, rfl, rfl, rfl, fun c => ⟨?_, ?_, ?_⟩, rfl⟩
      · intro hnot
        simp [hrecord, CaptureRecord.retimed, CaptureRecord.timesOut, hnot]
      · intro htrack hleft
        have hleft' : ¬ report ≤ (d.rcu.records.get c).elapsed d.rcu.tickCount := Nat.not_le.mpr hleft
        rw [hrecord, CaptureRecord.retimed, if_neg (by simp [CaptureRecord.timesOut, hleft']), if_pos htrack]
        rfl
      · intro htrack hout
        have hout' : report ≤ (d.rcu.records.get c).elapsed d.rcu.tickCount := hout
        rw [hrecord, CaptureRecord.retimed, if_pos (by simp [CaptureRecord.timesOut, htrack, hout'])]
  · intro s n
    refine ⟨fun before after hl hbefore => ?_, fun before after hl hbefore => ?_, fun before after hl hbefore => ?_⟩
    · refine State.effect_same (deliverTru_behind ?_)
      rw [hl]
      exact inOrder_behind (any_onlyCarrier n.carrier) (fun heq => TruEvent.noConfusion heq) hbefore
    · refine State.effect_same (deliverAcu_behind ?_)
      rw [hl]
      exact inOrder_behind (any_onlyCarrier n.carrier) (fun heq => AcuEvent.noConfusion heq) hbefore
    · refine State.effect_same (deliverTmu_behind ?_)
      rw [hl]
      exact inOrder_behind (any_onlyCarrier n.carrier) (fun heq => TmuEvent.noConfusion heq) hbefore

/-! ## The requests that set captures (R112 to R119) -/

/-- Settings within their ranges are those of the body (R116). -/
theorem RawCarrier_check_of_ok {r : RawCarrier} (henabled : r.enabled ≤ 1) (hpresent : r.present ≤ 1)
    (hexpected : r.present = 1 → -1500 ≤ signed16 r.expected ∧ signed16 r.expected ≤ 0) (htolerance : r.tolerance ≤ 500)
    (hlow : 1 ≤ r.margin) (hhigh : r.margin ≤ 1000) (hless : r.tolerance < r.margin) :
    r.check =
      some ⟨decide (r.enabled = 1), if r.present = 1 then some (signed16 r.expected) else none, r.tolerance, r.margin⟩ := by
  have hvalue : r.present = 0 ∨ (-1500 ≤ signed16 r.expected ∧ signed16 r.expected ≤ 0) := by
    rcases Nat.le_one_iff_eq_zero_or_eq_one.mp hpresent with h0 | h1
    · exact Or.inl h0
    · exact Or.inr (hexpected h1)
  exact if_pos (by simp [flagOk, within, withinInt, *])

/-- Settings that pass are within their ranges (R116). -/
theorem ok_of_RawCarrier_check {r : RawCarrier} (h : r.check ≠ none) :
    r.enabled ≤ 1 ∧ r.present ≤ 1 ∧
      (r.present = 1 → -1500 ≤ signed16 r.expected ∧ signed16 r.expected ≤ 0) ∧ r.tolerance ≤ 500 ∧ 1 ≤ r.margin ∧
      r.margin ≤ 1000 ∧ r.tolerance < r.margin := by
  have hcheck : (flagOk r.enabled && flagOk r.present &&
      (decide (r.present = 0) || withinInt (-1500) 0 (signed16 r.expected)) &&
      decide (r.tolerance ≤ 500) && within 1 1000 r.margin && decide (r.tolerance < r.margin)) = true :=
    of_not_not fun hno => h (if_neg hno)
  simp only [flagOk, within, withinInt, Bool.and_eq_true, Bool.or_eq_true, decide_eq_true_iff] at hcheck
  obtain ⟨⟨⟨⟨⟨henabled, hpresent⟩, hexpected⟩, htolerance⟩, hlow, hhigh⟩, hless⟩ := hcheck
  exact ⟨henabled, hpresent, fun h1 => hexpected.resolve_left (by omega), htolerance, hlow, hhigh, hless⟩

/-- A request whose owner answers nothing but a status. -/
theorem exec_denied {r : Req} {body : List Byte} {s : State} {owner : List Byte → Lc44 → Lc44} {status : Status}
    {c : Instr} (hc : exec c s = s.effect (request r owner body)) (h : s.takes r body = true)
    (hown : owner body (s.part.takeInHand r body) = deny status (s.part.takeInHand r body)) :
    exec c s = .next ⟨s.part.reply r body status [], s.pending⟩ := by
  rw [hc, effect_request _ h, hown]
  exact next_congr (answer_takeInHand r body status [] s.part)

/-- A request whose owner answers after an effect that leaves the service line. -/
theorem exec_answered {r : Req} {body : List Byte} {s : State} {owner : List Byte → Lc44 → Lc44} {status : Status}
    {data : List Byte} {c : Instr} {e : Lc44} (hc : exec c s = s.effect (request r owner body))
    (h : s.takes r body = true) (hown : owner body (s.part.takeInHand r body) = answer status data e)
    (hsli : e.sli = s.part.sli.holding r body) :
    exec c s = .next ⟨{ e with sli := (s.part.reply r body status data).sli }, s.pending⟩ := by
  rw [hc, effect_request _ h, hown]
  exact next_congr (answer_taken r body status data s.part e hsli)

/-- A mask of 1 to 15 names some of the carriers. -/
theorem within_mask_iff {n : Nat} : within 1 15 n = true ↔ 1 ≤ n ∧ n ≤ 15 := by simp [within]

/-- A mask of 0, or of more than the four carriers. -/
theorem not_within_mask {n : Nat} (h : n = 0 ∨ 15 < n) : ¬ within 1 15 n = true := by
  rw [within_mask_iff]
  omega

/-- The members of a mask. -/
theorem maskCarriers_get (n : Nat) (c : Carrier) : (maskCarriers n).get c = n.testBit c.val :=
  PerCarrier_get_ofFn _ c

/-- The groups and flags of SET-GROUPS (R119). -/
theorem groupsData_eq {a b x : Nat} : a ≤ 1 → b ≤ 1 → x ≤ 1 →
    groupsData (decide (a = 1)) (decide (b = 1)) (decide (x = 1)) =
      (match a, b, x with
        | 0, 0, 0 => [1, 2, 4, 8, 0, 0, 0]
        | 1, 0, 0 => [3, 4, 8, 1, 0, 0]
        | 0, 1, 0 => [1, 2, 12, 0, 1, 0]
        | 1, 1, 0 => [3, 12, 1, 1, 0]
        | 0, 0, _ => [1, 6, 8, 0, 0, 1]
        | 1, 0, _ => [7, 8, 1, 0, 1]
        | 0, 1, _ => [1, 14, 0, 1, 1]
        | _, _, _ => [15, 1, 1, 1]) := by
  intro ha hb hx
  interval_cases a <;> interval_cases b <;> interval_cases x <;> rfl

/-- A verdict's byte (section 11.4). -/
theorem b1_verdict (v : Verdict) :
    b1 v.code =
      [match v with
        | .none => 0
        | .main => 1
        | .low => 2
        | .side => 3] := by cases v <;> rfl

/-- SET-CARRIER within its ranges: the settings and the verdict they give (R112, R117). -/
theorem ownSetCarrier_ok {body : List Byte} {d : Lc44} {c : Carrier} {x : CarrierSettings}
    (hidle : d.acu.runState = .idle) (hc : c.val = byteAt body 0) (hx : (RawCarrier.ofBody body).check = some x) :
    ownSetCarrier body d =
      answer .ok (b1 (verdictOf x (d.rcu.records.get c).peak).code)
        { d with
          rcu :=
            { d.rcu with
              records :=
                d.rcu.records.set c
                  { d.rcu.records.get c with settings := x, verdict := verdictOf x (d.rcu.records.get c).peak } } } := by
  have hrecord : (storeCarrier c x d).rcu.records.get c =
      { d.rcu.records.get c with settings := x, verdict := verdictOf x (d.rcu.records.get c).peak } := by
    simp only [storeCarrier, setRecord, Lc44.onRcu, PerCarrier_get_set, if_true]
    rfl
  rw [ownSetCarrier, if_neg (not_not_intro hidle)]
  simp only [carrierOf_val hc, hx]
  rw [hrecord]
  rfl

/-- SET-CARRIER outside its ranges (R116). -/
theorem ownSetCarrier_bad {body : List Byte} {d : Lc44} (hidle : d.acu.runState = .idle)
    (hbad : byteAt body 0 ≤ 3 → (RawCarrier.ofBody body).check = none) : ownSetCarrier body d = deny .badArg d := by
  rw [ownSetCarrier, if_neg (not_not_intro hidle)]
  split
  · next c x hc hx =>
    have hnumber : byteAt body 0 ≤ 3 := by
      by_contra hgt
      rw [carrierOf, dif_neg (by omega)] at hc
      exact absurd hc (Option.some_ne_none _).symm
    exact absurd (hx.symm.trans (hbad hnumber)) (Option.some_ne_none _)
  · rfl

/-- The tables are held by a trial or a run. -/
theorem tablesFree_eq_false {d : Lc44} (h : d.tru.state ≠ .idle ∨ d.acu.runState ≠ .idle) : d.tablesFree = false := by
  simpa [Lc44.tablesFree, imp_iff_not_or] using h

/-- Neither a trial nor a run holds the tables. -/
theorem tablesFree_eq_true {d : Lc44} (ht : d.tru.state = .idle) (ha : d.acu.runState = .idle) :
    d.tablesFree = true := by simp [Lc44.tablesFree, ht, ha]

/-- CLEAR-CAPTURE without a trial or a run (R115). -/
theorem ownClearCapture_free {body : List Byte} {d : Lc44} (h : d.tablesFree = true) :
    ownClearCapture body d =
      if within 1 15 (byteAt body 0) then answer .ok [] (clearCaptures (maskCarriers (byteAt body 0)) d)
      else deny .badArg d := by simp [ownClearCapture, h]

/-- The flags of SET-GROUPS within their ranges (R119). -/
theorem flags_ok_iff {a b x : Nat} : (flagOk a && flagOk b && flagOk x) = true ↔ a ≤ 1 ∧ b ≤ 1 ∧ x ≤ 1 := by
  simp [flagOk, and_assoc]

/-- A record of the reset state keeps nothing but the settings it is given. -/
theorem reset_record_with (c : Carrier) (x : CarrierSettings) :
    { State.reset.part.rcu.records.get c with settings := x } = CaptureRecord.cleared x := by
  fin_cases c <;> rfl

/-- A buffer of the reset state. -/
theorem reset_buffer (c : Carrier) : State.reset.part.rcu.buffers.get c = Buffer.reset := by
  fin_cases c <;> rfl

/-- Settles O36: each request that sets captures has its effect, or is refused. -/
theorem captureRequestsTakeEffect : Obligations.CaptureRequestsTakeEffect := by
  intro s body d mask named
  refine ⟨fun h hrun => ?_, fun h hidle => ?_, fun h => ⟨fun hmask => ?_, fun hlow hhigh => ?_⟩,
    fun h => ⟨fun hrun => ?_, fun ht ha hmask => ?_, fun ht ha hlow hhigh => ?_⟩, fun h => ?_⟩
  · exact exec_denied (exec_setCarrier body s) h (if_pos hrun)
  · intro tolerance margin expected ok
    refine ⟨fun hbad => ?_, fun hok c hc => ?_⟩
    · refine exec_denied (exec_setCarrier body s) h (ownSetCarrier_bad hidle fun hnumber => ?_)
      by_contra hsome
      exact hbad ⟨hnumber, ok_of_RawCarrier_check hsome⟩
    · intro old new verdict
      obtain ⟨-, henabled, hpresent, hexpected, htolerance, hlow, hhigh, hless⟩ := hok
      have hcheck : (RawCarrier.ofBody body).check = some new :=
        RawCarrier_check_of_ok henabled hpresent hexpected htolerance hlow hhigh hless
      refine (exec_answered (exec_setCarrier body s) h
        (ownSetCarrier_ok (d := s.part.takeInHand .setCarrier body) hidle hc hcheck) rfl).trans ?_
      rw [b1_verdict]
      rfl
  · exact exec_denied (exec_peakReset body s) h (if_neg (not_within_mask hmask))
  · refine ⟨_, fun c => ⟨fun hc => ?_, fun hc => ?_⟩,
      exec_answered (exec_peakReset body s) h (if_pos (within_mask_iff.mpr ⟨hlow, hhigh⟩)) rfl⟩
    · rw [PerCarrier_get_mapAll, if_pos ((maskCarriers_get _ c).trans hc), CaptureRecord.judged,
        verdictOf_none (Or.inr rfl)]
      rfl
    · rw [PerCarrier_get_mapAll, if_neg (by rwa [maskCarriers_get])]
      rfl
  · refine exec_denied (exec_clearCapture body s) h (if_pos ?_)
    rw [tablesFree_eq_false (d := s.part.takeInHand .clearCapture body) hrun]
    rfl
  · refine exec_denied (exec_clearCapture body s) h ?_
    rw [ownClearCapture_free (tablesFree_eq_true (d := s.part.takeInHand .clearCapture body) ht ha)]
    exact if_neg (not_within_mask hmask)
  · refine ⟨d.rcu.records.mapAll fun c r =>
        if (maskCarriers mask).get c then CaptureRecord.cleared r.settings else r,
      d.rcu.buffers.mapAll fun c b => if (maskCarriers mask).get c then Buffer.reset else b,
      fun c => ⟨fun hc => ?_, fun hc => ?_⟩, (exec_answered (exec_clearCapture body s) h
      ((ownClearCapture_free (tablesFree_eq_true (d := s.part.takeInHand .clearCapture body) ht ha)).trans
        (if_pos (within_mask_iff.mpr ⟨hlow, hhigh⟩))) rfl).trans ?_⟩
    · rw [PerCarrier_get_mapAll, PerCarrier_get_mapAll, if_pos ((maskCarriers_get _ c).trans hc),
        if_pos ((maskCarriers_get _ c).trans hc), reset_record_with, reset_buffer]
      exact ⟨rfl, rfl⟩
    · rw [PerCarrier_get_mapAll, PerCarrier_get_mapAll, if_neg (by rwa [maskCarriers_get]),
        if_neg (by rwa [maskCarriers_get])]
      exact ⟨rfl, rfl⟩
    · simp only [clearCaptures, raiseTmu, Lc44.onRaised, List.append_assoc]
      rfl
  · intro a b x
    refine ⟨fun hbad => ?_, fun ha hb hx => ?_⟩
    · exact exec_denied (exec_setGroups body s) h (if_neg (by rw [flags_ok_iff]; omega))
    · refine (exec_answered (exec_setGroups body s) h (if_pos (flags_ok_iff.mpr ⟨ha, hb, hx⟩)) rfl).trans ?_
      rw [groupsData_eq ha hb hx]
      rfl

end Sys2Proof.Machine
end

