-- ==== Sys2Proof/Proofs/Tone.lean ====
section
/-! SUPPORT. The MAST level and the mute timers, the notices that reach the tone, and the recomputation of the tone. -/

namespace Sys2Proof.Machine

set_option Elab.async false

/-! ## The mute state (R123 to R127) -/

/-- A running LC44 is not in RESET. -/
theorem State.resetAsserted_of_running {s : State} (hrun : s.running = true) : s.part.resetAsserted = false := by
  simpa [State.running] using hrun

/-- Settles O37: a level change starts or cancels the debounce, and the hold-off's expiry releases TXMUTE. -/
theorem muteTimersAndLevels : Obligations.MuteTimersAndLevels := by
  refine ⟨fun s level hrun => ?_, fun s hrun => ?_⟩
  · have hreset := State.resetAsserted_of_running hrun
    refine ⟨fun hsame => ?_, fun hnew => ?_⟩
    · exact next_congr (congrArg (fun t => { s.part with tmu := t }) (if_pos hsame))
    · refine next_congr (congrArg (fun t => { s.part with tmu := t }) ((if_neg hnew).trans (if_neg ?_)))
      rw [hreset]
      decide
  · refine ⟨fun hmute hdue => ?_, fun hnot => State.effect_same ?_⟩
    · intro d
      refine ⟨?_, txmute_released (s := ⟨d, s.pending⟩) hrun rfl⟩
      rw [exec_holdOffExpiry, State.effect_running _ hrun]
      exact next_congr (congrArg (fun t => { s.part with tmu := t })
        (if_pos ⟨hmute, (timerDue_iff _).mpr hdue⟩))
    · refine congrArg (fun t => { s.part with tmu := t }) (if_neg ?_)
      rintro ⟨hmute, hdue⟩
      exact hnot.elim (· hmute) (· ((timerDue_iff _).mp hdue))

/-- Outside CLEAR TXMUTE is asserted (R124). -/
theorem txmute_asserted {d : Lc44} {m : MuteState} (hm : d.tmu.mute = m) (h : m ≠ .clear := by decide) :
    d.txmute = true := by simp [Lc44.txmute, hm, h]

/-- With the raw level RELEASED, accepting it is the MAST released event (R123). -/
theorem acceptLevel_released {d : Lc44} (h : d.tmu.mastRaw = false) :
    acceptLevel d = mastReleased (d.onTmu fun t => { t with mastAccepted := t.mastRaw, debounce := none }) :=
  if_neg (Bool.eq_false_iff.mp h)

/-- Settles O38: the accepted level moves the mute state. -/
theorem mastEventsMoveTheMuteState : Obligations.MastEventsMoveTheMuteState := by
  refine ⟨fun s hnot => State.effect_same (if_neg (mt (timerDue_iff _).mp hnot)), ?_⟩
  intro s hrun hdue t muted
  have hexec {d : Lc44} (hd : acceptLevel s.part = d) : exec .debounceTimerExpiry s = .next ⟨d, s.pending⟩ := by
    rw [exec_debounceTimerExpiry, State.effect_running _ hrun]
    exact next_congr ((if_pos ((timerDue_iff _).mpr hdue)).trans hd)
  refine ⟨fun hraw hmute => ⟨hexec ?_, ?_⟩, fun hraw hmute => ⟨hexec ?_, ?_, ?_⟩,
    fun hraw hmute hset => ⟨hexec ?_, ?_⟩, fun hraw hmute hset => ⟨hexec ?_, ?_⟩, fun hlaw => ?_⟩
  · rw [acceptLevel_asserted hraw]
    exact if_pos (decide_eq_true hmute)
  · exact txmute_asserted (m := .muted) rfl
  · rw [acceptLevel_asserted hraw]
    refine if_neg (decide_eq_true_iff.not.mpr ?_)
    show ¬ s.part.tmu.mute = .clear
    rw [hmute]
    decide
  · exact txmute_asserted hmute
  · exact txmute_asserted (m := .muted) rfl
  · rw [acceptLevel_released hraw]
    exact congrArg (fun t => { s.part with tmu := t }) ((if_pos hmute).trans (if_neg hset))
  · exact txmute_asserted (m := .holdoff) rfl
  · rw [acceptLevel_released hraw]
    exact congrArg (fun t => { s.part with tmu := t }) ((if_pos hmute).trans (if_pos hset))
  · exact txmute_released (s := ⟨{ s.part with tmu := { t with mute := .clear } }, s.pending⟩) hrun rfl
  · obtain ⟨hmuted, -, hdebounce⟩ := hlaw (State.resetAsserted_of_running hrun)
    have hdiffer : s.part.tmu.mastRaw ≠ s.part.tmu.mastAccepted := hdebounce.mp (by rw [hdue]; rfl)
    refine ⟨fun hraw hmute => hdiffer (hraw.trans (hmuted.mp hmute).symm), fun hraw => hmuted.mpr ?_⟩
    simpa [hraw] using hdiffer

/-! ## Notices to the tone (R131 to R134) -/

/-- A set names a member when it has a carrier of the source. -/
theorem namesMember_eq (t : Tmu) (m : CarrierSet) :
    t.namesMember m = decide (∃ c : Carrier, m.get c = true ∧ t.members.get c = true) := by
  rw [Bool.eq_iff_iff]
  simp [Tmu.namesMember]

/-- A new view of a carrier recomputes the tone of a member. -/
theorem changeView_eq (c : Carrier) (v : CarrierView) (d : Lc44) :
    changeView c v d =
      { d with
        tmu :=
          if d.tmu.members.get c then Tmu.recomputed d.phc.phase { d.tmu with view := d.tmu.view.set c v }
          else { d.tmu with view := d.tmu.view.set c v } } :=
  (apply_ite (fun t => ({ d with tmu := t } : Lc44)) _ _ _).symm

/-- Carriers that left TRACK recompute the tone when one is a member. -/
theorem leftTrack_eq (m : CarrierSet) (d : Lc44) :
    leftTrack m d =
      { d with
        tmu :=
          if d.tmu.namesMember m then
            Tmu.recomputed d.phc.phase
              { d.tmu with view := d.tmu.view.mapAll fun c v => if m.get c then ⟨false, none⟩ else v }
          else { d.tmu with view := d.tmu.view.mapAll fun c v => if m.get c then ⟨false, none⟩ else v } } :=
  (apply_ite (fun t => ({ d with tmu := t } : Lc44)) _ _ _).symm

/-- A peak reset that names a member takes the tone peak. -/
theorem tonePeakReset_eq (m : CarrierSet) (d : Lc44) :
    tonePeakReset m d =
      { d with
        tmu := if d.tmu.namesMember m then Tmu.recomputed d.phc.phase { d.tmu with peak := none } else d.tmu } :=
  (apply_ite (fun t => ({ d with tmu := t } : Lc44)) _ _ _).symm

/-- Settles O41: each notice changes the view or the peak, and recomputes the tone when a member is concerned. -/
theorem noticesReachTheTone : Obligations.NoticesReachTheTone := by
  intro s hrun taken heard member
  have hexec {x : Instr} {e : TmuEvent} {f : Lc44 → Lc44} {d : Lc44} (hx : exec x s = s.effect (deliverTmu e f))
      (ho : inOrder TmuEvent.about e s.part.raised.tmu = true) (hd : f (takenTmu e s.part) = d) :
      exec x s = .next ⟨d, s.pending⟩ := by
    rw [hx, State.effect_running _ hrun, deliverTmu_inOrder ho, hd]
  have hgroups {d : Lc44} (hd : changeGroups (takenTmu .groups s.part) = d) :
      exec .groupFlagsChange s = .next ⟨d, s.pending⟩ := by
    rw [exec_groupFlagsChange, State.effect_running _ hrun]
    exact next_congr hd
  refine ⟨fun n ho => ?_, fun c ho => ?_, fun m ho => ?_, fun m ho => ?_, fun n hb => ?_, fun c hb => ?_,
    fun m hb => ?_, fun m hb => ?_, fun hkind => ?_, fun hkind => ?_⟩
  · exact hexec (exec_tmuCaptureNotice n s) ho (changeView_eq n.carrier _ _)
  · exact hexec (exec_tmuStaleNotice c s) ho (changeView_eq c _ _)
  · refine ⟨_, fun c => PerCarrier_get_mapAll _ _ _, hexec (exec_leftTrackReport m s) ho ?_⟩
    rw [leftTrack_eq, namesMember_eq]
    rfl
  · refine hexec (exec_peakResetNotice m s) ho ?_
    rw [tonePeakReset_eq, namesMember_eq]
    rfl
  · exact State.effect_same (deliverTmu_behind hb)
  · exact State.effect_same (deliverTmu_behind hb)
  · exact State.effect_same (deliverTmu_behind hb)
  · exact State.effect_same (deliverTmu_behind hb)
  · refine hgroups (if_neg ?_)
    show ¬ s.part.tmu.settings.kind = .group
    rw [hkind]
    decide
  · intro m
    have hm : membersFor s.part.rcu s.part.tmu.settings = m := by simp only [membersFor, hkind, m]
    refine hgroups ((if_pos hkind).trans ?_)
    rw [← hm]
    rfl

/-! ## The recomputation of the tone (R134 to R136) -/

/-- An empty list has no least value. -/
theorem leastOf_eq_none {l : List Int} : leastOf l = none ↔ l = [] := by
  cases l with
  | nil => simp [leastOf]
  | cons x xs =>
    simp only [leastOf, reduceCtorEq, iff_false]
    split <;> simp

/-- The least value is one of the list, and no value lies below it. -/
theorem leastOf_eq_some {l : List Int} {v : Int} (h : leastOf l = some v) : v ∈ l ∧ ∀ x ∈ l, v ≤ x := by
  induction l generalizing v with
  | nil => exact absurd h.symm (Option.some_ne_none _)
  | cons x xs ih =>
    cases hxs : leastOf xs with
    | none =>
      obtain rfl : x = v := by simpa [leastOf, hxs] using h
      simp [leastOf_eq_none.mp hxs]
    | some y =>
      obtain rfl : min x y = v := by simpa [leastOf, hxs] using h
      obtain ⟨hmem, hle⟩ := ih hxs
      refine ⟨?_, fun z hz => ?_⟩
      · rcases min_choice x y with hx | hy
        · rw [hx]
          exact List.mem_cons_self
        · rw [hy]
          exact List.mem_cons_of_mem _ hmem
      · rcases List.mem_cons.mp hz with rfl | hz
        · exact min_le_left _ _
        · exact (min_le_right _ _).trans (hle z hz)

/-- A value is heard from a member that tracks and has it as its last RSL. -/
theorem mem_heard {t : Tmu} {v : Int} :
    v ∈ t.heard ↔
      ∃ c, (t.members.get c = true ∧ (t.view.get c).tracking = true) ∧ (t.view.get c).lastRsl = some v := by
  simp only [Tmu.heard, List.mem_filterMap, mem_membersOf]
  refine exists_congr fun c => ?_
  cases (t.view.get c).tracking <;> simp

/-- The pitch as an integer (R135). -/
theorem pitchOf_eq (s : ToneSettings) (v : Int) :
    (pitchOf s v : Int) = max 400 (min 3600 (400 + Int.tdiv ((v - s.floor) * 3200) s.span)) := by
  refine Int.toNat_of_nonneg ?_
  omega

/-- A tone that is off, or in TRANSPARENT, is silent (R135). -/
theorem toneStateOf_off {phase : Phase} {s : ToneSettings} (value peak : Option Int)
    (h : s.enabled = false ∨ phase = .transparent) : toneStateOf phase s value peak = .silent := if_pos (by simpa using h)

/-- A tone that is on follows its value and peak (R135). -/
theorem toneStateOf_on {phase : Phase} {s : ToneSettings} (value peak : Option Int) (hon : s.enabled = true)
    (hphase : phase ≠ .transparent) :
    toneStateOf phase s value peak =
      match value, peak with
      | none, _ => .noSignal
      | some _, none => .steady
      | some v, some p => if p - 5 ≤ v then .steady else .pulsed :=
  if_neg (by simp [hon, hphase])

/-- The tone settings of a SET-TONE body within their ranges (R132). -/
theorem toneOfBody_of_ok {b : List Byte} {c : Carrier} (hc : c.val = byteAt b 2) (h0 : byteAt b 0 ≤ 1)
    (h1 : byteAt b 1 ≤ 1) (hfloor : -1500 ≤ signed16 (u16At b 3) ∧ signed16 (u16At b 3) ≤ 0)
    (hspan : 100 ≤ u16At b 5 ∧ u16At b 5 ≤ 1200) :
    toneOfBody b =
      some ⟨decide (byteAt b 0 = 1), if byteAt b 1 = 1 then .group else .carrier, c, signed16 (u16At b 3), u16At b 5⟩ := by
  simp only [toneOfBody, carrierOf_val hc]
  exact if_pos (by simp [flagOk, floorOk, spanOk, within, withinInt, *])

/-- A SET-TONE body that passes lies within its ranges (R132). -/
theorem ok_of_toneOfBody {b : List Byte} (h : toneOfBody b ≠ none) :
    byteAt b 0 ≤ 1 ∧ byteAt b 1 ≤ 1 ∧ byteAt b 2 ≤ 3 ∧ -1500 ≤ signed16 (u16At b 3) ∧ signed16 (u16At b 3) ≤ 0 ∧
      100 ≤ u16At b 5 ∧ u16At b 5 ≤ 1200 := by
  by_cases hc : byteAt b 2 < 4
  · have hcarrier : carrierOf (byteAt b 2) = some ⟨byteAt b 2, hc⟩ := carrierOf_val rfl
    simp only [toneOfBody, hcarrier] at h
    have hok := of_not_not fun hno => h (if_neg hno)
    simp only [flagOk, floorOk, spanOk, within, withinInt, Bool.and_eq_true, decide_eq_true_iff] at hok
    obtain ⟨⟨⟨h0, h1⟩, hlow, hhigh⟩, hleast, hmost⟩ := hok
    exact ⟨h0, h1, by omega, hlow, hhigh, hleast, hmost⟩
  · simp only [toneOfBody, carrierOf, dif_neg hc] at h
    exact absurd rfl h

/-- Settles O42: the tone follows the least RSL heard, and SET-TONE replaces its settings. -/
theorem toneFollowsTheWeakestMember : Obligations.ToneFollowsTheWeakestMember := by
  refine ⟨?_, ?_⟩
  · intro t phase hview u heard
    have hvalue : u.value = leastOf t.heard := rfl
    have htone : u.tone = toneStateOf phase t.settings u.value u.peak := rfl
    refine ⟨?_, fun v hv => ⟨?_, ?_, ?_, ?_, ?_⟩, fun hv => ⟨?_, ?_⟩, fun hoff => ?_, fun hon hphase => ⟨?_, ?_⟩,
      rfl, rfl⟩
    · rw [hvalue, leastOf_eq_none, List.eq_nil_iff_forall_not_mem]
      refine ⟨fun hno c hc => ?_, fun hno v hv => ?_⟩
      · obtain ⟨v, hv⟩ := Option.ne_none_iff_exists'.mp (hview c hc.2)
        exact hno v (mem_heard.mpr ⟨c, hc, hv⟩)
      · obtain ⟨c, hc, -⟩ := mem_heard.mp hv
        exact hno c hc
    · exact mem_heard.mp (leastOf_eq_some (hvalue ▸ hv)).1
    · exact fun c x hc hx => (leastOf_eq_some (hvalue ▸ hv)).2 x (mem_heard.mpr ⟨c, hc, hx⟩)
    · intro p hp
      have hpeak : u.peak = peakAfter u.value t.peak := rfl
      rw [hpeak, hv, hp, max_comm]
      rfl
    · intro hp
      have hpeak : u.peak = peakAfter u.value t.peak := rfl
      rw [hpeak, hv, hp]
      rfl
    · have hpitch : u.pitch = match u.value with
        | none => t.pitch
        | some v => pitchOf t.settings v := rfl
      rw [hpitch, hv]
      exact pitchOf_eq t.settings v
    · have hpeak : u.peak = peakAfter u.value t.peak := rfl
      rw [hpeak, hv]
      rfl
    · have hpitch : u.pitch = match u.value with
        | none => t.pitch
        | some v => pitchOf t.settings v := rfl
      rw [hpitch, hv]
    · rw [htone, toneStateOf_off _ _ hoff]
    · intro hv
      rw [htone, toneStateOf_on _ _ hon hphase, hv]
    · intro v p hv hp
      rw [htone, toneStateOf_on _ _ hon hphase, hv, hp]
      exact ⟨fun hle => if_pos hle, fun hlt => if_neg (Int.not_le.mpr hlt)⟩
  · intro s body h floor span ok
    refine ⟨fun hbad => ?_, fun hok c hc => ?_⟩
    · have hnone : toneOfBody body = none := of_not_not fun hsome => hbad (ok_of_toneOfBody hsome)
      refine exec_denied (exec_setTone body s) h ?_
      simp only [ownSetTone, hnone]
    · obtain ⟨h0, h1, -, hlow, hhigh, hleast, hmost⟩ := hok
      intro old new members t
      have hsome : toneOfBody body = some new := toneOfBody_of_ok hc h0 h1 ⟨hlow, hhigh⟩ ⟨hleast, hmost⟩
      have hmembers : membersFor s.part.rcu new = members := by
        simp only [membersFor, members]
        cases new.kind <;> rfl
      have hstore : storeTone new (s.part.takeInHand .setTone body) = { s.part.takeInHand .setTone body with tmu := t } := by
        simp only [storeTone, Lc44.onTmu]
        rw [show membersFor (s.part.takeInHand .setTone body).rcu new = members from hmembers]
        rfl
      have hown : ownSetTone body (s.part.takeInHand .setTone body) =
          answer .ok (toneData t) { s.part.takeInHand .setTone body with tmu := t } := by
        simp only [ownSetTone, hsome, hstore]
      exact exec_answered (exec_setTone body s) h hown rfl

end Sys2Proof.Machine
end

