-- ==== Sys2Proof/Proofs/Acceptance.lean ====
section
/-! SUPPORT. The Acceptance Unit's events: marks and settle timers, steps that end early, the evaluation, and the
aggregates of a step. -/

namespace Sys2Proof.Machine

set_option Elab.async false

/-! ## The step in hand -/

/-- The current step is the plan step at the current index. -/
theorem currentStep_eq {a : Acu} {i : Nat} {p : PlanStep} (hi : a.current = some i) (hp : a.stepAt i = some p) :
    a.currentStep = some p := by rw [Acu.currentStep, hi, Option.bind_some, hp]

/-- A step is muted when it needs the transmitter and TXMUTE is asserted (R145, R147). -/
theorem mutedFor_iff {p : PlanStep} {d : Lc44} : mutedFor p d = true ↔ p.needsTransmit = true ∧ d.txmute = true := by
  simp [mutedFor]

/-- A step that is not muted. -/
theorem mutedFor_eq_false {p : PlanStep} {d : Lc44} (h : ¬ (p.needsTransmit = true ∧ d.txmute = true)) :
    mutedFor p d = false := Bool.eq_false_iff.mpr (mt mutedFor_iff.mp h)

/-- A step is in SETTLING or MEASURING. -/
theorem settled_iff {a : Acu} : a.settled = true ↔ a.runState = .settling ∨ a.runState = .measuring := by
  simp [Acu.settled]

/-- Every carrier's cleared aggregates (R149, R150). -/
theorem clearedFor_get (mask : CarrierSet) (c : Carrier) :
    (clearedFor mask).get c =
      if mask.get c then some ⟨0, none, none, none, none, 0, false, 0, 0, false, false⟩ else none :=
  PerCarrier_get_mapAll _ _ _

/-- An event of ACU in its order leaves the list and has its effect. -/
theorem exec_deliverAcu {x : Instr} {e : AcuEvent} {f : Lc44 → Lc44} {s : State} (hrun : s.running = true)
    (hx : exec x s = s.effect (deliverAcu e f)) (ho : inOrder AcuEvent.about e s.part.raised.acu = true) :
    exec x s = .next ⟨f (takenAcu e s.part), s.pending⟩ := by
  rw [hx, State.effect_running _ hrun, deliverAcu_inOrder ho]

/-! ## Marks and settle timers (R146 to R149) -/

/-- A STEP mark outside ARMED is stray (R147). -/
theorem takeStep_stray {d : Lc44} (h : d.acu.runState ≠ .armed) :
    takeStep d =
      { d with
        acu := { d.acu with lastRun := { d.acu.lastRun with stray := min 65535 (d.acu.lastRun.stray + 1) } } } := by
  unfold takeStep
  split
  · next harmed _ => exact absurd harmed h
  · rfl

/-- A STEP mark in ARMED under a step that is muted ends it (R147). -/
theorem takeStep_muted {d : Lc44} {p : PlanStep} (h : d.acu.runState = .armed) (hp : d.acu.currentStep = some p)
    (hm : mutedFor p d = true) : takeStep d = endStep ⟨.aborted, .mute⟩ none d := by
  simp only [takeStep, h, hp, hm, if_true]

/-- A STEP mark in ARMED with a carrier of its step not in TRACK ends the step (R146, R147). -/
theorem takeStep_lost {d : Lc44} {p : PlanStep} (h : d.acu.runState = .armed) (hp : d.acu.currentStep = some p)
    (hm : mutedFor p d = false) (ht : ¬ ∀ c, p.mask.get c = true → (d.rcu.records.get c).state = .track) :
    takeStep d =
      endStep ⟨.fail, .stale⟩ none
        { d with acu := { d.acu with timer := none, aggregates := d.lossMarked p d.acu.aggregates } } := by
  unfold takeStep
  split
  case h_2 hno => exact absurd hp (hno p h)
  next q _ hq =>
    obtain rfl : q = p := Option.some.inj (hq.symm.trans hp)
    rw [hm, enterSettling_lost q (d.onAcu _) ht]
    rfl

/-- A STEP mark in ARMED with its carriers in TRACK moves the step on (R146, R147). -/
theorem takeStep_tracking {d : Lc44} {p : PlanStep} (h : d.acu.runState = .armed) (hp : d.acu.currentStep = some p)
    (hm : mutedFor p d = false) (ht : ∀ c, p.mask.get c = true → (d.rcu.records.get c).state = .track) :
    takeStep d =
      { d with
        acu :=
          if p.settle = 0 then d.acu.enterMeasuring p
          else { d.acu with runState := .settling, timer := some (p.settle * 1000) } } := by
  unfold takeStep
  split
  case h_2 hno => exact absurd hp (hno p h)
  next q _ hq =>
    obtain rfl : q = p := Option.some.inj (hq.symm.trans hp)
    rw [hm, enterSettling_tracking q (d.onAcu _) ht]
    rfl

/-- The settle timer's expiry begins the measurement (R149). -/
theorem settleExpired_due {d : Lc44} {p : PlanStep} (h : d.acu.runState = .settling)
    (hp : d.acu.currentStep = some p) (hdue : d.acu.timer = some 0) :
    settleExpired d = { d with acu := d.acu.enterMeasuring p } := by
  simp only [settleExpired, h, hp]
  exact if_pos ((timerDue_iff _).mpr hdue)

/-- Elsewhere, or with ticks left, the settle timer's expiry changes nothing. -/
theorem settleExpired_same {d : Lc44} (h : d.acu.runState ≠ .settling ∨ d.acu.timer ≠ some 0) : settleExpired d = d := by
  unfold settleExpired
  split
  · next hsettling _ => exact if_neg (mt (timerDue_iff _).mp (h.resolve_left (not_not_intro hsettling)))
  · rfl

/-- Settles O43: a STEP mark moves an armed step on, and the settle timer begins its measurement. -/
theorem marksAndSettleTimersMoveTheRun : Obligations.MarksAndSettleTimersMoveTheRun := by
  have hstep {s : State} {d : Lc44} (hrun : s.running = true) (hd : takeStep (takenAcu .step s.part) = d) :
      exec .stepSignal s = .next ⟨d, s.pending⟩ := by
    rw [exec_stepSignal, State.effect_running _ hrun]
    exact next_congr hd
  refine ⟨fun s hrun hnot => hstep hrun (takeStep_stray (d := takenAcu .step s.part) hnot),
    fun s hnot => State.effect_same (settleExpired_same hnot), ?_⟩
  intro s i p hrun hi hp taken a muted tracking measuring cleared
  have hcurrent : s.part.acu.currentStep = some p := currentStep_eq hi hp
  refine ⟨fun harmed => ?_, fun hsettling hdue => ?_⟩
  · refine ⟨fun hm => hstep hrun ?_, fun hm hlost => hstep hrun ?_, fun hm htracking => ?_⟩
    · rw [takeStep_muted (d := takenAcu .step s.part) harmed hcurrent (mutedFor_iff.mpr hm)]
      exact endStep_aborted .mute (takenAcu .step s.part) i hi
    · rw [takeStep_lost (d := takenAcu .step s.part) harmed hcurrent (mutedFor_eq_false hm) hlost]
      exact endStep_fail .stale
        { s.part with
          acu := { a with timer := none, aggregates := s.part.lossMarked p a.aggregates }
          raised := taken } i hi
    · have hgo := takeStep_tracking (d := takenAcu .step s.part) harmed hcurrent (mutedFor_eq_false hm) htracking
      refine ⟨fun hsettle => hstep hrun (hgo.trans ?_), fun hsettle => ⟨_, clearedFor_get p.mask, hstep hrun (hgo.trans ?_)⟩⟩
      · rw [if_neg hsettle]
        rfl
      · rw [if_pos hsettle]
        rfl
  · refine ⟨_, clearedFor_get p.mask, ?_⟩
    rw [exec_settleTimerExpiry, State.effect_running _ hrun, settleExpired_due hsettling hcurrent hdue]
    rfl

/-! ## Steps that end early (R148, R153 to R156) -/

/-- The arm timeout ends an armed step (R148). -/
theorem armExpired_due {d : Lc44} (h : d.acu.runState = .armed) (hdue : d.acu.timer = some 0) :
    armExpired d = endStep ⟨.fail, .noMark⟩ none d := if_pos ⟨h, (timerDue_iff _).mpr hdue⟩

/-- Elsewhere, or with ticks left, the arm timeout changes nothing. -/
theorem armExpired_same {d : Lc44} (h : d.acu.runState ≠ .armed ∨ d.acu.timer ≠ some 0) : armExpired d = d := by
  refine if_neg ?_
  rintro ⟨harmed, hdue⟩
  exact h.elim (· harmed) (· ((timerDue_iff _).mp hdue))

/-- A stale notice of a carrier measured ends the step (R153). -/
theorem takeAcuStale_measured {c : Carrier} {d : Lc44} {g : Aggregate} (h : d.acu.settled = true)
    (hg : d.acu.aggregates.get c = some g) :
    takeAcuStale c d =
      endStep ⟨.fail, .stale⟩ none
        { d with acu := { d.acu with aggregates := d.acu.aggregates.set c (some { g with stale := true }) } } := by
  refine (if_pos (by simp [h, hg])).trans ?_
  simp only [Lc44.onAcu, Acu.markStale, Acu.onAggregate, hg]
  rfl

/-- Elsewhere a stale notice changes nothing. -/
theorem takeAcuStale_same {c : Carrier} {d : Lc44}
    (h : ¬ (d.acu.runState = .settling ∨ d.acu.runState = .measuring) ∨ d.acu.aggregates.get c = none) :
    takeAcuStale c d = d := by
  refine if_neg ?_
  rw [Bool.and_eq_true, settled_iff]
  rintro ⟨hsettled, hsome⟩
  rcases h with hnot | hnone
  · exact hnot hsettled
  · rw [hnone] at hsome
    exact absurd hsome (by decide)

/-- A mute notice of a step that needs the transmitter ends it (R154). -/
theorem takeMute_needed {d : Lc44} {p : PlanStep} (hp : d.acu.currentStep = some p) (h : d.acu.settled = true)
    (hneeds : p.needsTransmit = true) : takeMute d = endStep ⟨.aborted, .mute⟩ none d := by
  simp only [takeMute, hp, h, hneeds, Bool.and_self, if_true]

/-- Outside SETTLING and MEASURING a mute notice changes nothing. -/
theorem takeMute_unsettled {d : Lc44} (h : ¬ d.acu.settled = true) : takeMute d = d := by
  unfold takeMute
  split
  · rfl
  · exact if_neg (by simp [h])

/-- A step that does not need the transmitter is not ended by a mute notice. -/
theorem takeMute_unneeded {d : Lc44} {p : PlanStep} (hp : d.acu.currentStep = some p)
    (hneeds : p.needsTransmit = false) : takeMute d = d := by
  simp only [takeMute, hp, hneeds, Bool.and_false]
  rfl

/-- A rollback notice without a run makes a PASS void (R155). -/
theorem takeRollback_idle {d : Lc44} (h : d.acu.runState = .idle) :
    takeRollback d = { d with acu := { d.acu with lastRun := d.acu.lastRun.voidPass } } := by
  simp only [takeRollback, if_pos h]
  rfl

/-- A rollback notice in a run aborts it (R155). -/
theorem takeRollback_run {d : Lc44} {i : Nat} (h : d.acu.runState ≠ .idle) (hi : d.acu.current = some i) :
    takeRollback d =
      { d with acu := (d.acu.stepEnded i .aborted .rollback d.acu.aggregates).runEnded .aborted } := by
  simp only [takeRollback, if_neg h, endStep_aborted .rollback d i hi]
  rfl

/-- Settles O44: each event ends its step, logs it, and decides the run; and how a step begins. -/
theorem stepsEndEarlyAndAreLogged : Obligations.StepsEndEarlyAndAreLogged := by
  intro s hrun a taken settled
  have hmute {d : Lc44} (hd : takeMute (takenAcu .mute s.part) = d) : exec .muteNotice s = .next ⟨d, s.pending⟩ := by
    rw [exec_muteNotice, State.effect_running _ hrun]
    exact next_congr hd
  have hrollback {d : Lc44} (hd : takeRollback (takenAcu .rollback s.part) = d) :
      exec .rollbackNotice s = .next ⟨d, s.pending⟩ := by
    rw [exec_rollbackNotice, State.effect_running _ hrun]
    exact next_congr hd
  refine ⟨fun hnot => State.effect_same (armExpired_same hnot), fun c hb => State.effect_same (deliverAcu_behind hb),
    fun c ho hnot => ?_, fun hnot => hmute (takeMute_unsettled (mt settled_iff.mp hnot)),
    fun hidle => hrollback (takeRollback_idle (d := takenAcu .rollback s.part) hidle), fun body h hidle => ?_,
    fun i p hi hp => ?_, fun fuel j p hp => ?_⟩
  · rw [exec_deliverAcu hrun (exec_acuStaleNotice c s) ho]
    exact next_congr (takeAcuStale_same hnot)
  · exact exec_denied (exec_runAbort body s) h (if_pos hidle)
  · intro aborted
    have hcurrent : s.part.acu.currentStep = some p := currentStep_eq hi hp
    refine ⟨fun harmed hdue => ?_, fun c g ho hset hg => ?_,
      fun hneeds => hmute (takeMute_unneeded (d := takenAcu .mute s.part) hcurrent hneeds),
      fun hset hneeds => hmute ?_, fun hbusy => hrollback (takeRollback_run (d := takenAcu .rollback s.part) hbusy hi),
      fun body h hbusy => ?_⟩
    · rw [exec_armTimeoutExpiry, State.effect_running _ hrun, armExpired_due harmed hdue, endStep_fail .noMark s.part i hi]
    · rw [exec_deliverAcu hrun (exec_acuStaleNotice c s) ho,
        takeAcuStale_measured (d := takenAcu (.stale c) s.part) (settled_iff.mpr hset) hg]
      exact next_congr (endStep_fail .stale
        { s.part with
          acu := { a with aggregates := a.aggregates.set c (some { g with stale := true }) }
          raised := taken (.stale c) } i hi)
    · rw [takeMute_needed (d := takenAcu .mute s.part) hcurrent (settled_iff.mpr hset) hneeds]
      exact endStep_aborted .mute (takenAcu .mute s.part) i hi
    · have hown : ownRunAbort body (s.part.takeInHand .runAbort body) =
          answer .ok [BitVec.ofNat 8 (a.nextSequence / 256), BitVec.ofNat 8 a.nextSequence]
            { s.part.takeInHand .runAbort body with acu := aborted .operator } := by
        refine (if_neg hbusy).trans ?_
        rw [endStep_aborted .operator (s.part.takeInHand .runAbort body) i hi, b2_eq]
        rfl
      exact exec_answered (exec_runAbort body s) h hown rfl
  · intro x begun muted tracking enters
    refine ⟨fun hm => beginStep_muted fuel j p s.part hp (mutedFor_iff.mpr hm),
      fun hm hs => beginStep_armed fuel j p s.part hp (mutedFor_eq_false hm) hs, fun hm hs ht => ?_,
      fun hm hs ht => beginStep_lost fuel j p s.part hp (mutedFor_eq_false hm) hs ht⟩
    rw [beginStep_tracking fuel j p s.part hp (mutedFor_eq_false hm) hs ht]
    by_cases h0 : p.settle = 0
    · simp only [if_pos h0]
      rfl
    · simp only [if_neg h0]
      rfl

end Sys2Proof.Machine
end

