-- ==== Sys2Proof/Proofs/Evaluation.lean ====
section
/-! SUPPORT. The aggregates of a step as capture notices feed them, and the evaluation at its end. -/

namespace Sys2Proof.Machine

set_option Elab.async false

/-! ## The aggregates (R150) -/

/-- Aggregates changed where a carrier has none stay as they are. -/
theorem onAggregate_none {a : Acu} {c : Carrier} (f : Aggregate → Aggregate) (h : a.aggregates.get c = none) :
    a.onAggregate c f = a := by
  rw [Acu.onAggregate, h, Option.map_none, ← h, PerCarrier_set_get]

/-- A capture notice feeds the aggregates of its carrier (R150). -/
theorem takeAcuCapture_measuring {n : CaptureNotice} {d : Lc44} {p : PlanStep} (h : d.acu.runState = .measuring)
    (hp : d.acu.currentStep = some p) :
    takeAcuCapture n d =
      { d with acu := d.acu.onAggregate n.carrier (Aggregate.gather p.modstepMin n) } := by
  unfold takeAcuCapture
  split
  case h_2 hno => exact absurd hp (hno p h)
  next q _ hq =>
    obtain rfl : q = p := Option.some.inj (hq.symm.trans hp)
    rfl

/-- A capture notice outside MEASURING, or for a carrier outside the mask, changes nothing. -/
theorem takeAcuCapture_same {n : CaptureNotice} {d : Lc44}
    (h : d.acu.runState ≠ .measuring ∨ d.acu.aggregates.get n.carrier = none) : takeAcuCapture n d = d := by
  unfold takeAcuCapture
  split
  case h_2 => rfl
  next q hmeasuring _ =>
    have hnone := h.resolve_left (not_not_intro hmeasuring)
    simp only [Lc44.onAcu, onAggregate_none _ hnone]

/-- A sum below its limit, with nothing added. -/
theorem satAdd_zero {limit n : Nat} (h : n ≤ limit) : satAdd limit n 0 = n := min_eq_right h

/-- Settles O46: a capture notice in MEASURING feeds its carrier's aggregates. -/
theorem captureNoticesFeedTheAggregates : Obligations.CaptureNoticesFeedTheAggregates := by
  refine ⟨fun s n hrun => ⟨fun hb => State.effect_same (deliverAcu_behind hb), fun ho hnot => ?_⟩, ?_⟩
  · rw [exec_deliverAcu hrun (exec_acuCaptureNotice n s) ho,
      takeAcuCapture_same (d := takenAcu (.capture n) s.part) hnot]
    rfl
  · intro s n p hrun hp ho a taken g hmeasuring hg
    refine ⟨g.gather p.modstepMin n, ?_, rfl, ?_, ?_, ?_, ?_, ?_, ?_, ?_, ?_, ?_, ?_, ?_, ?_, rfl⟩
    · rw [exec_deliverAcu hrun (exec_acuCaptureNotice n s) ho,
        takeAcuCapture_measuring (d := takenAcu (.capture n) s.part) hmeasuring hp]
      refine next_congr ?_
      show { s.part with acu := a.onAggregate n.carrier (Aggregate.gather p.modstepMin n), raised := taken } = _
      rw [Acu.onAggregate, hg]
      rfl
    · simp only [Aggregate.gather]
      cases g.rslLeast <;> rfl
    · simp only [Aggregate.gather]
      cases g.rslGreatest <;> rfl
    · intro hmse
      simp only [Aggregate.gather, hmse]
      cases g.mseWorst <;> rfl
    · intro x hx
      simp only [Aggregate.gather, hx]
      cases g.mseWorst <;> rfl
    · intro hxpd
      simp only [Aggregate.gather, hxpd]
      cases g.xpdLeast <;> rfl
    · intro x hx
      simp only [Aggregate.gather, hx]
      cases g.xpdLeast <;> rfl
    · intro hle hnone
      simp only [Aggregate.gather, hnone]
      exact ⟨satAdd_zero hle, Bool.or_false _⟩
    · intro x hx
      simp only [Aggregate.gather, hx]
      exact ⟨rfl, Bool.or_true _⟩
    · intro hle hnone
      simp only [Aggregate.gather, hnone]
      exact satAdd_zero hle
    · intro x hx
      simp only [Aggregate.gather, hx]
      rfl
    · intro hnone
      simp only [Aggregate.gather, hnone]
      exact ⟨by cases p.modstepMin <;> rfl, Bool.or_false _⟩
    · intro x hx
      refine ⟨?_, fun b hb hlt => ?_, fun hall => ?_⟩
      · simp only [Aggregate.gather, hx]
        exact Bool.or_true _
      · simp only [Aggregate.gather, hx, hb, isDownshift, decide_eq_true hlt, if_true]
        rfl
      · simp only [Aggregate.gather, hx]
        cases hb : p.modstepMin with
        | none => rfl
        | some b => exact if_neg (by simpa [isDownshift] using hall b hb)

/-! ## The evaluation (R151) -/

/-- A criterion of a step is in the failed set when it does not pass. -/
theorem mem_failedSet {p : PlanStep} {g : Aggregate} {k : Criterion} :
    k ∈ p.failedSet g ↔ p.evaluate g k ≠ .passes := by
  have hall : k ∈ allCriteria := by cases k <;> decide
  simp [PlanStep.failedSet, hall]

/-- A criterion of a step is in the no-data set when it has no data. -/
theorem mem_noDataSet {p : PlanStep} {g : Aggregate} {k : Criterion} :
    k ∈ p.noDataSet g ↔ p.evaluate g k = .noData := by
  have hall : k ∈ allCriteria := by cases k <;> decide
  simp [PlanStep.noDataSet, hall]

/-- A bound against a value gathered. -/
theorem testBound_some {α : Type} {bound value : Option α} {bad : α → α → Bool} {b v : α} (hb : bound = some b)
    (hv : value = some v) : testBound bound value bad = if bad v b then .fails else .passes := by
  subst hb hv
  rfl

/-- A bound without a value. -/
theorem testBound_noData {α : Type} {bound value : Option α} {bad : α → α → Bool} {b : α} (hb : bound = some b)
    (hv : value = none) : testBound bound value bad = .noData := by
  subst hb hv
  rfl

/-- A criterion the step does not have. -/
theorem testBound_unbounded {α : Type} {bound value : Option α} {bad : α → α → Bool} (hb : bound = none) :
    testBound bound value bad = .passes := by
  subst hb
  rfl

/-- The aggregates of a step as a PASS or a FAIL records them (R158). -/
def PlanStep.resultsOf (p : PlanStep) (a : Acu) : List CarrierResult :=
  carriers.filterMap fun c => (a.aggregates.get c).map fun g => ⟨c, g, p.failedSet g, p.noDataSet g⟩

/-- How an evaluated step ends: PASS when every failed set is empty (R151). -/
def PlanStep.verdictOn (p : PlanStep) (a : Acu) : StepEnd :=
  if (p.resultsOf a).any fun r => !r.failed.isEmpty then ⟨.fail, .criteria⟩ else ⟨.pass, .none⟩

/-- The evaluation passes when every failed set is empty. -/
theorem verdictOn_pass {p : PlanStep} {a : Acu} (h : ∀ r ∈ p.resultsOf a, r.failed = []) :
    p.verdictOn a = ⟨.pass, .none⟩ := if_neg (by simpa using h)

/-- The evaluation fails when a failed set is not empty. -/
theorem verdictOn_fail {p : PlanStep} {a : Acu} (h : ¬ ∀ r ∈ p.resultsOf a, r.failed = []) :
    p.verdictOn a = ⟨.fail, .criteria⟩ := if_pos (by simpa using h)

/-- The last-run record after a step's end (R159). -/
def Acu.stepLogged (i : Nat) (p : PlanStep) (o : StepOutcome) (c : StepCause) (passed : Nat) (a : Acu) : Acu :=
  { a with
    timer := none
    measured := p.measure * 1000
    log := a.log ++ [⟨a.nextSequence, i, o, c, p.measure * 1000, p.resultsOf a⟩]
    nextSequence := a.nextSequence + 1
    lastRun :=
      { a.lastRun with
        passed := passed
        firstSequence := some (a.lastRun.firstSequence.getD a.nextSequence)
        lastSequence := some a.nextSequence } }

/-- The record of an evaluated step (R152, R158, R159). -/
theorem logStep_evaluated {a : Acu} {i : Nat} {p : PlanStep} (hi : a.current = some i) (o : StepOutcome) (c : StepCause) :
    Acu.logStep ⟨o, c⟩ (some p) { a with measured := p.measure * 1000 } =
      a.stepLogged i p o c (if o = .pass then a.lastRun.passed + 1 else a.lastRun.passed) := by
  simp only [Acu.logStep, Acu.recordOf, Acu.results, Acu.stepLogged, hi]
  cases a.lastRun.firstSequence <;> rfl

/-- What follows the end of a step. -/
def Lc44.afterStep (i : Nat) (n : RunNext) (d : Lc44) : Lc44 :=
  match n with
  | .ends run => { d with acu := d.acu.runEnded run }
  | .goesOn j => beginStep i j d

/-- The measure timer's expiry logs the evaluated step and decides the run (R149, R152). -/
theorem exec_measureTimerExpiry_due {s : State} {i : Nat} {p : PlanStep} (hrun : s.running = true)
    (h : s.part.acu.runState = .measuring) (hdue : s.part.acu.timer = some 0) (hi : s.part.acu.current = some i)
    (hp : s.part.acu.stepAt i = some p) {o : StepOutcome} {c : StepCause} {passed : Nat}
    (hend : p.verdictOn s.part.acu = ⟨o, c⟩)
    (hpassed : passed = if o = .pass then s.part.acu.lastRun.passed + 1 else s.part.acu.lastRun.passed) :
    exec .measureTimerExpiry s =
      .next
        ⟨Lc44.afterStep 32 ((s.part.acu.stepLogged i p o c passed).runNext o)
            { s.part with acu := s.part.acu.stepLogged i p o c passed },
          s.pending⟩ := by
  rw [exec_measureTimerExpiry, State.effect_running _ hrun]
  refine next_congr ?_
  have hexpired : measureExpired s.part = measurementEnded p s.part := by
    simp only [measureExpired, h, currentStep_eq hi hp]
    exact if_pos ((timerDue_iff _).mpr hdue)
  have hmeasured : measurementEnded p s.part =
      endStep (p.verdictOn s.part.acu) (some p)
        { s.part with acu := { s.part.acu with measured := p.measure * 1000 } } := rfl
  rw [hexpired, hmeasured, hend, hpassed, ← logStep_evaluated hi o c]
  simp only [endStep]
  show (match (Acu.logStep ⟨o, c⟩ (some p) { s.part.acu with measured := p.measure * 1000 }).runNext o with
    | .ends _ => _
    | .goesOn j => _) = _
  cases (Acu.logStep ⟨o, c⟩ (some p) { s.part.acu with measured := p.measure * 1000 }).runNext o <;> rfl

/-- Beginning a step only appends to the log. -/
theorem log_beginStep (k i : Nat) (d : Lc44) : ∃ more, (beginStep k i d).acu.log = d.acu.log ++ more := by
  induction k generalizing i d with
  | zero => exact ⟨[], (List.append_nil _).symm⟩
  | succ k ih =>
    cases hp : d.acu.stepAt i with
    | none =>
      simp only [beginStep, hp]
      exact ⟨[], (List.append_nil _).symm⟩
    | some p =>
      by_cases hm : mutedFor p d = true
      · rw [beginStep_muted k i p d hp hm]
        exact ⟨_, rfl⟩
      · rw [Bool.not_eq_true] at hm
        cases hs : p.start with
        | onMark =>
          rw [beginStep_armed k i p d hp hm hs]
          exact ⟨[], (List.append_nil _).symm⟩
        | immediate =>
          by_cases ht : ∀ c, p.mask.get c = true → (d.rcu.records.get c).state = .track
          · rw [beginStep_tracking k i p d hp hm hs ht]
            exact ⟨[], (List.append_nil _).symm⟩
          · rw [beginStep_lost k i p d hp hm hs ht]
            unfold Lc44.afterFail
            split
            · exact ⟨_, rfl⟩
            · split
              · exact ⟨_, rfl⟩
              · obtain ⟨more, hmore⟩ := ih (i + 1) { d with
                  acu :=
                    ({ d.acu with current := some i, aggregates := clearedFor p.mask, measured := 0 } : Acu).stepEnded i
                      .fail .stale (d.lossMarked p (clearedFor p.mask)) }
                exact ⟨_ :: more, hmore.trans (List.append_assoc _ _ _)⟩

/-- What follows the end of a step only appends to the log. -/
theorem log_afterStep (i : Nat) (n : RunNext) (d : Lc44) : ∃ more, (d.afterStep i n).acu.log = d.acu.log ++ more := by
  cases n with
  | ends run => exact ⟨[], (List.append_nil _).symm⟩
  | goesOn j => exact log_beginStep i j d

/-- A FAIL under stop-on-fail ends the run (R152). -/
theorem runNext_stop {a : Acu} (h : a.stopOnFail = true) : a.runNext .fail = .ends .fail := by simp [Acu.runNext, h]

/-- At the plan's last step the run ends by its count of passes (R152). -/
theorem runNext_last {a : Acu} {i : Nat} {o : StepOutcome} (hi : a.current = some i) (ho : o ≠ .aborted)
    (hgo : ¬ (o = .fail ∧ a.stopOnFail = true)) (hlast : i + 1 = a.planLength) : a.runNext o = .ends a.finalOutcome := by
  cases o with
  | aborted => exact absurd rfl ho
  | pass => simp [Acu.runNext, hi, hlast]
  | fail =>
    have hstop : a.stopOnFail = false := by simpa using hgo
    simp [Acu.runNext, hi, hlast, hstop]

/-- Before the plan's last step the run goes on (R152). -/
theorem runNext_goesOn {a : Acu} {i : Nat} {o : StepOutcome} (hi : a.current = some i) (ho : o ≠ .aborted)
    (hgo : ¬ (o = .fail ∧ a.stopOnFail = true)) (hmore : i + 1 < a.planLength) : a.runNext o = .goesOn (i + 1) := by
  have hle : ¬ a.planLength ≤ i + 1 := Nat.not_le.mpr hmore
  cases o with
  | aborted => exact absurd rfl ho
  | pass => simp [Acu.runNext, hi, hle]
  | fail =>
    have hstop : a.stopOnFail = false := by simpa using hgo
    simp [Acu.runNext, hi, hle, hstop]

/-- Elsewhere, or with ticks left, the measure timer's expiry changes nothing. -/
theorem measureExpired_same {d : Lc44} (h : d.acu.runState ≠ .measuring ∨ d.acu.timer ≠ some 0) :
    measureExpired d = d := by
  unfold measureExpired
  split
  · next hmeasuring _ => exact if_neg (mt (timerDue_iff _).mp (h.resolve_left (not_not_intro hmeasuring)))
  · rfl

/-- A log that grew past a record. -/
theorem log_after_record {l more all : List LogRecord} {r : LogRecord} (h : all = (l ++ [r]) ++ more) :
    all = l ++ r :: more := by rw [h, List.append_assoc, List.singleton_append]

/-- How each criterion turns out (R151). -/
theorem evaluate_criteria (p : PlanStep) (g : Aggregate) :
    let at_ := p.evaluate g
    (at_ .reportsMin = if g.reports < p.reportsMin then .fails else .passes) ∧
    (∀ b, p.rslMin = some b → (g.rslLeast = none → at_ .rslMin = .noData) ∧
      ∀ v, g.rslLeast = some v → at_ .rslMin = if v < b then .fails else .passes) ∧
    (∀ b, p.rslMax = some b → (g.rslGreatest = none → at_ .rslMax = .noData) ∧
      ∀ v, g.rslGreatest = some v → at_ .rslMax = if v > b then .fails else .passes) ∧
    (∀ b, p.mseMax = some b → (g.mseWorst = none → at_ .mseMax = .noData) ∧
      ∀ v, g.mseWorst = some v → at_ .mseMax = if v > b then .fails else .passes) ∧
    (∀ b, p.xpdMin = some b → (g.xpdLeast = none → at_ .xpdMin = .noData) ∧
      ∀ v, g.xpdLeast = some v → at_ .xpdMin = if v < b then .fails else .passes) ∧
    (∀ b, p.uncorrMax = some b → (g.uncorrSeen = false → at_ .uncorrMax = .noData) ∧
      (g.uncorrSeen = true → at_ .uncorrMax = if g.uncorrSum > b then .fails else .passes)) ∧
    ∀ b, p.modstepMin = some b → (g.modstepSeen = false → at_ .modstepMin = .noData) ∧
      (g.modstepSeen = true → at_ .modstepMin = if g.downshifts ≥ 1 then .fails else .passes) := by
  have hless {α : Type} (bad : Prop) [Decidable bad] (x y : α) :
      (if decide bad = true then x else y) = if bad then x else y := by simp only [decide_eq_true_iff]
  refine ⟨rfl, fun b hb => ⟨testBound_noData hb, fun v hv => (testBound_some hb hv).trans (hless _ _ _)⟩,
    fun b hb => ⟨testBound_noData hb, fun v hv => (testBound_some hb hv).trans (hless _ _ _)⟩,
    fun b hb => ⟨testBound_noData hb, fun v hv => (testBound_some hb hv).trans (hless _ _ _)⟩,
    fun b hb => ⟨testBound_noData hb, fun v hv => (testBound_some hb hv).trans (hless _ _ _)⟩,
    fun b hb => ⟨fun hno => testBound_noData hb ?_, fun hyes => (testBound_some hb ?_).trans (hless _ _ _)⟩,
    fun b hb => ⟨fun hno => testBound_noData hb ?_, fun hyes => (testBound_some hb ?_).trans (hless _ _ _)⟩⟩
  · exact if_neg (Bool.eq_false_iff.mp hno)
  · exact if_pos hyes
  · exact if_neg (Bool.eq_false_iff.mp hno)
  · exact if_pos hyes

/-- Settles O45: the evaluation decides the step, its record and the run. -/
theorem evaluationDecidesTheStep : Obligations.EvaluationDecidesTheStep := by
  refine ⟨⟨fun s hnot => State.effect_same (measureExpired_same hnot), ?_, fun p g => ?_⟩, ?_⟩
  · intro s i p hrun hmeasuring hdue hi hp a results
    have hexec {o : StepOutcome} {c : StepCause} (hend : p.verdictOn a = ⟨o, c⟩) :=
      exec_measureTimerExpiry_due hrun hmeasuring hdue hi hp hend rfl
    have hkeeps {n : RunNext} {b : Acu} : s.part.keepsOutside [.acu] (Lc44.afterStep 32 n { s.part with acu := b }) := by
      have hafter : Lc44.keepsOutside [.acu] { s.part with acu := b }
          (Lc44.afterStep 32 n { s.part with acu := b }) := by
        cases n with
        | ends run => exact keeps_onAcu (fun x => x.runEnded run) _
        | goesOn j => exact keeps_beginStep 32 j _
      exact keeps_trans (keeps_onAcu (fun _ => b) s.part) hafter
    by_cases hpass : ∀ r ∈ results, r.failed = []
    · obtain ⟨more, hmore⟩ := log_afterStep 32 ((a.stepLogged i p .pass .none (a.lastRun.passed + 1)).runNext .pass)
        { s.part with acu := a.stepLogged i p .pass .none (a.lastRun.passed + 1) }
      refine ⟨_, more, hexec (verdictOn_pass hpass), hkeeps, fun _ => log_after_record hmore, fun hfail => ?_⟩
      obtain ⟨r, hr, hne⟩ := hfail
      exact absurd (hpass r hr) hne
    · obtain ⟨more, hmore⟩ := log_afterStep 32 ((a.stepLogged i p .fail .criteria a.lastRun.passed).runNext .fail)
        { s.part with acu := a.stepLogged i p .fail .criteria a.lastRun.passed }
      exact ⟨_, more, hexec (verdictOn_fail hpass), hkeeps, fun hall => absurd hall hpass,
        fun _ => log_after_record hmore⟩
  · intro at_
    obtain ⟨hreports, hrslMin, hrslMax, hmse, hxpd, huncorr, hmodstep⟩ := evaluate_criteria p g
    exact ⟨hreports, hrslMin, hrslMax, hmse, hxpd, huncorr, hmodstep, testBound_unbounded, testBound_unbounded,
      testBound_unbounded, testBound_unbounded, testBound_unbounded, testBound_unbounded,
      fun k => ⟨mem_failedSet, mem_noDataSet⟩⟩
  · intro s i p hrun hmeasuring hdue hi hp a results pass o c passed hpass hfail logged
    have hend : p.verdictOn a = ⟨o, c⟩ ∧ o ≠ .aborted ∧ (o = .fail ↔ ¬ pass) ∧
        passed = if o = .pass then a.lastRun.passed + 1 else a.lastRun.passed := by
      by_cases h : pass
      · obtain ⟨rfl, rfl, rfl⟩ := hpass h
        exact ⟨verdictOn_pass h, by decide, by simp [h], rfl⟩
      · obtain ⟨rfl, rfl, rfl⟩ := hfail h
        exact ⟨verdictOn_fail h, by decide, by simp [h], rfl⟩
    obtain ⟨hverdict, ho, hfails, hpassed⟩ := hend
    have hexec {n : RunNext} (hn : logged.runNext o = n) :
        exec .measureTimerExpiry s = .next ⟨Lc44.afterStep 32 n { s.part with acu := logged }, s.pending⟩ := by
      rw [← hn]
      exact exec_measureTimerExpiry_due hrun hmeasuring hdue hi hp hverdict hpassed
    have hgoes : (pass ∨ a.stopOnFail = false) → ¬ (o = .fail ∧ logged.stopOnFail = true) := by
      rintro hor ⟨hof, hstop⟩
      exact hor.elim (hfails.mp hof) fun hno => Bool.noConfusion (hno.symm.trans hstop)
    have hstops : ¬ (pass ∨ a.stopOnFail = false) → logged.runNext o = .ends .fail := by
      intro hnot
      obtain ⟨hnpass, hstop⟩ := not_or.mp hnot
      rw [hfails.mpr hnpass]
      exact runNext_stop (Bool.of_not_eq_false hstop)
    refine ⟨fun run hlast hrun' hiff => ?_, fun hmore hnpass hstop => ?_, fun hmore hor => ?_⟩
    · by_cases hor : pass ∨ a.stopOnFail = false
      · have hfinal : logged.finalOutcome = run := by
          by_cases hall : passed = a.planLength - a.lastRun.firstStep.getD 0
          · exact (if_pos hall).trans (hiff.mpr ⟨hall, hor⟩).symm
          · exact (if_neg hall).trans (hrun'.resolve_left fun hp => hall (hiff.mp hp).1).symm
        exact hfinal ▸ hexec (runNext_last hi ho (hgoes hor) hlast)
      · have hfail' : run = .fail := hrun'.resolve_left fun hp => hor (hiff.mp hp).2
        exact hfail' ▸ hexec (hstops hor)
    · exact hexec (hstops (not_or.mpr ⟨hnpass, Bool.eq_false_iff.not.mpr (not_not_intro hstop)⟩))
    · exact hexec (runNext_goesOn hi ho (hgoes hor) hmore)

end Sys2Proof.Machine
end

