-- ==== Sys2Proof/Proofs/PlanRequests.lean ====
section
/-! SUPPORT. The requests that change the plan, start a run and clear the log. -/

namespace Sys2Proof.Machine

set_option Elab.async false

/-- The slot of a LOAD-STEP body that passes (R140). -/
theorem checkStepBody_of_ok {b : List Byte} {slot : Option PlanStep} (hlow : 1 ≤ byteAt b 1) (hhigh : byteAt b 1 ≤ 32)
    (hflag : byteAt b 2 ≤ 1)
    (hslot : byteAt b 3 = 1 ∧ slot = none ∨
      byteAt b 3 = 0 ∧ (RawStep.ofBody b).ok = true ∧ slot = some (RawStep.ofBody b).toStep) :
    checkStepBody b = some slot := by
  rw [checkStepBody, if_pos (by simp [within, flagOk, hlow, hhigh, hflag])]
  rcases hslot with ⟨hclear, rfl⟩ | ⟨hset, hok, rfl⟩
  · rw [hclear]
    rfl
  · rw [hset]
    simp [RawStep.check, hok]

/-- LOAD-STEP with a body that passes replaces the slot (R140, R141). -/
theorem ownLoadStep_ok {b : List Byte} {d : Lc44} {i : Fin 32} {slot : Option PlanStep} (hidle : d.acu.runState = .idle)
    (hi : i.val = byteAt b 0) (hslot : checkStepBody b = some slot) :
    ownLoadStep b d =
      answer .ok [BitVec.ofNat 8 (byteAt b 1), BitVec.ofNat 8 (byteAt b 2)]
        (storeStep i (byteAt b 1) (decide (byteAt b 2 = 1)) slot d) := by
  have hlt : byteAt b 0 < 32 := hi ▸ i.isLt
  have hfin : i = ⟨byteAt b 0, hlt⟩ := Fin.ext hi
  subst hfin
  simp only [ownLoadStep, hidle, ne_eq, not_true_eq_false, if_false, dif_pos hlt, hslot, b1_eq]
  rfl

/-- The steps of a run's reach are ready (R143). -/
theorem stepsReady_of {f : Nat} {d : Lc44}
    (h : ∀ j, f ≤ j → j < d.acu.planLength → ∃ q, d.acu.stepAt j = some q ∧
      ∀ c, q.mask.get c = true → (d.rcu.records.get c).settings.enabled = true) : stepsReady f d = true := by
  refine List.all_eq_true.mpr fun k hk => ?_
  have hlt : k < d.acu.planLength - f := List.mem_range.mp hk
  obtain ⟨q, hq, henabled⟩ := h (f + k) (Nat.le_add_right f k) (by omega)
  simp only [hq]
  exact List.all_eq_true.mpr fun c hc => (PerCarrier_get_ofFn _ c).trans (henabled c (mem_membersOf.mp hc))

/-- The log has room and numbers for a run (R143). -/
theorem runFits_of {f : Nat} {a : Acu} (hroom : a.log.length + (a.planLength - f) ≤ 64)
    (hnumbers : a.nextSequence + (a.planLength - f) - 1 ≤ 65535) : a.runFits f = true := by
  rw [Acu.runFits, Bool.and_eq_true, decide_eq_true_iff, decide_eq_true_iff]
  exact ⟨hroom, by simp only [Config.max16]; omega⟩

/-- RUN-START with its checks passed begins a run (R143, R144). -/
theorem ownRunStart_ready {b : List Byte} {d e : Lc44} (hidle : d.acu.runState = .idle)
    (hf : byteAt b 0 < d.acu.planLength) (hlength : d.acu.planLength ≤ 32) (hready : stepsReady (byteAt b 0) d = true)
    (hfits : d.acu.runFits (byteAt b 0) = true)
    (hbegin : beginStep 32 (byteAt b 0)
      { d with acu := { d.acu with lastRun := ⟨.none, some (byteAt b 0), none, none, 0, 0⟩ } } = e) :
    ownRunStart b d = answer .ok (b1 e.acu.runState.code) e := by
  subst hbegin
  have hrange : ¬ (d.acu.planLength ≤ byteAt b 0 ∨ 32 ≤ byteAt b 0 ∨ (!stepsReady (byteAt b 0) d) = true) := by
    simp only [hready, Bool.not_true, Bool.false_eq_true, or_false]
    omega
  refine (if_neg (not_not_intro hidle)).trans ((if_neg hrange).trans ((if_neg ?_).trans rfl))
  rw [hfits]
  decide

/-- LOG-CLEAR without a run empties the log (R161). -/
theorem ownLogClear_idle {b : List Byte} {d : Lc44} (hidle : d.acu.runState = .idle) :
    ownLogClear b d =
      answer .ok [BitVec.ofNat 8 d.acu.log.length]
        { d with acu := { d.acu with log := [], lastRun := d.acu.lastRun.void } } := by
  rw [← b1_eq]
  exact if_neg (not_not_intro hidle)

/-- Settles O48: the requests of the plan and the log take effect without a run, and are BUSY in one. -/
theorem planRequestsTakeEffect : Obligations.PlanRequestsTakeEffect := by
  intro s body a voided
  refine ⟨fun hrun => ⟨fun h => ?_, fun h => ?_, fun h => ?_⟩, fun hidle => ⟨fun h i slot hi hlow hhigh hflag hslot => ?_,
    fun h p => ?_, fun h => ?_⟩⟩
  · exact exec_denied (exec_loadStep body s) h (if_pos hrun)
  · exact exec_denied (exec_runStart body s) h (if_pos hrun)
  · exact exec_denied (exec_logClear body s) h (if_pos hrun)
  · exact exec_answered (exec_loadStep body s) h (ownLoadStep_ok (d := s.part.takeInHand .loadStep body) hidle hi
      (checkStepBody_of_ok hlow hhigh hflag hslot)) rfl
  · intro f hf hlength hready hroom hnumbers hp hstart htransmit
    have hmuted : ¬ (p.needsTransmit = true ∧ s.part.txmute = true) := by
      rintro ⟨hneeds, hasserted⟩
      exact Bool.noConfusion ((htransmit hneeds).symm.trans hasserted)
    refine ⟨clearedFor p.mask, clearedFor_get p.mask, ?_⟩
    have hbegin := beginStep_armed 31 f p
      { s.part.takeInHand .runStart body with acu := { a with lastRun := ⟨.none, some f, none, none, 0, 0⟩ } } hp
      (mutedFor_eq_false hmuted) hstart
    have hown := ownRunStart_ready (d := s.part.takeInHand .runStart body) hidle hf hlength
      (stepsReady_of (d := s.part.takeInHand .runStart body) hready) (runFits_of hroom hnumbers) hbegin
    refine (exec_answered (exec_runStart body s) h hown rfl).trans ?_
    rw [b1_eq]
    rfl
  · exact exec_answered (exec_logClear body s) h (ownLogClear_idle (d := s.part.takeInHand .logClear body) hidle) rfl

end Sys2Proof.Machine
end

