-- ==== Sys2Proof/Proofs/Line.lean ====
section
/-! SUPPORT. The receiver byte by byte, and the events of the service line that are answered or counted. -/

namespace Sys2Proof.Machine

set_option Elab.async false

/-! ## The line's events while it listens -/

/-- A line that listens takes a byte. -/
theorem exec_byteReceived_heard {s : State} {b : Byte} {l : Sli} (hrun : s.running = true)
    (hdeaf : s.part.deaf = false) (hl : s.part.sli.receive b = l) :
    exec (.byteReceived b) s = .next ⟨{ s.part with sli := l }, s.pending⟩ := by
  rw [exec_byteReceived, State.effect_running _ hrun, receiveByte, if_neg (Bool.eq_false_iff.mp hdeaf), ← hl]
  rfl

/-- A line that listens takes an error. -/
theorem exec_lineError_heard {s : State} {l : Sli} (hrun : s.running = true) (hdeaf : s.part.deaf = false)
    (hl : s.part.sli.dropPartial = l) :
    exec .lineError s = .next ⟨{ s.part with sli := l }, s.pending⟩ := by
  rw [exec_lineError, State.effect_running _ hrun, lineFailed, if_neg (Bool.eq_false_iff.mp hdeaf), ← hl]
  rfl

/-- The gap timer's expiry when it is not that of a bad length to answer. -/
theorem exec_gapTimerExpiry_heard {s : State} {l : Sli} (hrun : s.running = true) (hdeaf : s.part.deaf = false)
    (hdue : s.part.sli.gap = some 0) (hplain : ¬ (s.part.sli.rx = .badLength ∧ s.part.sli.inHand = none))
    (hl : s.part.sli.dropPartial = l) :
    exec .gapTimerExpiry s = .next ⟨{ s.part with sli := l }, s.pending⟩ := by
  rw [exec_gapTimerExpiry, State.effect_running _ hrun, gapExpired,
    if_neg (by simp [hdeaf, (timerDue_iff _).mpr hdue]), if_neg hplain, ← hl]
  rfl

/-- A gap timer that has not counted down to 0 does not expire. -/
theorem gapExpired_undue {d : Lc44} (h : d.deaf = true ∨ d.sli.gap ≠ some 0) : gapExpired d = d := by
  refine if_pos ?_
  rcases h with hdeaf | hgap
  · simp [hdeaf]
  · have hnot : timerDue d.sli.gap = false := Bool.eq_false_iff.mpr (mt (timerDue_iff _).mp hgap)
    simp [hnot]

/-- Outside HUNT an unfinished frame is dropped and counted (R187). -/
theorem dropPartial_partial {l : Sli} (h : l.rx ≠ .hunt) :
    l.dropPartial = { l with rx := .hunt, gap := none, discarded := min 65535 (l.discarded + 1) } := if_neg h

/-- In HUNT nothing is dropped. -/
theorem dropPartial_hunt {l : Sli} (h : l.rx = .hunt) : l.dropPartial = l := if_pos h

/-- A byte other than the start byte in HUNT is ignored. -/
theorem receive_hunt_other {l : Sli} {b : Byte} (h : l.rx = .hunt) (hb : b ≠ 0xC3) : l.receive b = l := by
  simp only [Sli.receive, h]
  exact if_neg hb

/-- The byte after a bad length is the code of a bad frame (R188). -/
theorem receive_badLength {l : Sli} {b : Byte} (h : l.rx = .badLength) : l.receive b = l.complete (.bad (some b)) := by
  simp only [Sli.receive, h]

/-- Settles O53: the receiver moves byte by byte, and drops an unfinished frame at a gap or an error. -/
theorem receiverMovesByteByByte : Obligations.ReceiverMovesByteByByte := by
  refine ⟨⟨rfl, rfl, rfl⟩, ?_⟩
  intro s b hrun l next done dropped
  refine ⟨fun hstart => ?_, fun hdeaf => ?_⟩
  · have hdeaf : s.part.deaf = true := by simp [Lc44.deaf, hstart]
    exact ⟨State.effect_same (if_pos hdeaf), State.effect_same (if_pos hdeaf),
      State.effect_same (gapExpired_undue (Or.inl hdeaf))⟩
  have heard {r : Sli} (hr : l.receive b = r) : exec (.byteReceived b) s = .next ⟨{ s.part with sli := r }, s.pending⟩ :=
    exec_byteReceived_heard hrun hdeaf hr
  refine ⟨fun h hb => ?_, fun h hb => heard (receive_hunt_other h hb), fun h hlow hhigh => heard ?_,
    fun h hbad => heard ?_, fun h => heard ?_, fun len h hlen => heard ?_,
    fun len code held h => ⟨fun hmore => heard ?_, fun hlast => heard ?_⟩,
    fun len code held h => ⟨fun hsum => heard ?_, fun hsum => heard ?_⟩, fun h => heard (receive_badLength h),
    fun h => ⟨?_, ?_⟩, fun hrx hbad => ⟨?_, fun hdue => ?_⟩,
    fun hgap => State.effect_same (gapExpired_undue (Or.inr hgap))⟩
  · subst hb
    exact heard (receive_hunt h)
  · rw [receive_length h, if_pos ⟨hlow, hhigh⟩]
    rfl
  · rw [receive_length h, if_neg (by omega)]
    rfl
  · rw [receive_code h]
    rfl
  · rw [receive_code h, RxState.gathering, if_pos (by simpa using hlen)]
    rfl
  · rw [receive_body h, RxState.gathering, if_pos (by simpa using hmore)]
    rfl
  · rw [receive_body h, RxState.gathering, if_neg (by simpa using hlast)]
    rfl
  · rw [receive_check h, completedFrame_eq_good_iff.mpr hsum]
    rfl
  · rw [receive_check h, completedFrame_bad hsum]
    rfl
  · exact exec_lineError_heard hrun hdeaf (dropPartial_hunt h)
  · by_cases hdue : l.gap = some 0
    · refine exec_gapTimerExpiry_heard hrun hdeaf hdue ?_ (dropPartial_hunt h)
      rintro ⟨hbad, -⟩
      exact RxState.noConfusion (hbad.symm.trans h)
    · exact State.effect_same (gapExpired_undue (Or.inr hdue))
  · exact exec_lineError_heard hrun hdeaf (dropPartial_partial hrx)
  · exact exec_gapTimerExpiry_heard hrun hdeaf hdue (fun hboth => hbad hboth.1) (dropPartial_partial hrx)

/-! ## Events that are answered or counted (R188, R189, R193) -/

/-- The answer to a bad frame begins on the line (R188). -/
theorem answerBadFrame_eq (code : Option Byte) (d : Lc44) :
    answerBadFrame code d =
      { d with
        sli := { d.sli with badFrames := min 65535 (d.sli.badFrames + 1) }.sends
          [frame (match code with
            | none => 0xFF
            | some c => if 1 ≤ c.toNat ∧ c.toNat ≤ 0x7F then c + 0x80 else 0xFF) [0x0B]] } := by
  unfold answerBadFrame
  rw [startSending_eq]
  cases code <;> rfl

/-- A bad frame with no request in hand is answered (R188). -/
theorem exec_badFrame_free {s : State} {code : Option Byte} {l : Sli} (hrun : s.running = true)
    (hdeaf : s.part.deaf = false) (hfree : s.part.sli.inHand = none)
    (hl : { s.part.sli with
      completed := s.part.sli.completed.erase (.bad code)
      badFrames := min 65535 (s.part.sli.badFrames + 1) }.sends
        [frame (match code with
          | none => 0xFF
          | some c => if 1 ≤ c.toNat ∧ c.toNat ≤ 0x7F then c + 0x80 else 0xFF) [0x0B]] = l) :
    exec (.badFrame code) s = .next ⟨{ s.part with sli := l }, s.pending⟩ := by
  have hno : ¬ (s.part.sli.inHand.isSome = true) := by rw [hfree]; decide
  rw [exec_badFrame, State.effect_running _ hrun, takeBadFrame, if_neg (Bool.eq_false_iff.mp hdeaf), ← hl]
  refine next_congr ((if_neg hno).trans ?_)
  rw [answerBadFrame_eq]
  rfl

/-- An event with a request in hand. -/
theorem inHand_isSome {l : Sli} (h : l.inHand ≠ none) : l.inHand.isSome = true := Option.isSome_iff_ne_none.mpr h

/-- A code that no request has. -/
theorem namesRequest_eq_false {code : Byte} (h : ∀ r : Req, r.code ≠ code) : namesRequest code = false := by
  simpa [namesRequest] using fun r _ => h r

/-- Settles O55: the line's other events are answered, or counted. -/
theorem lineEventsAreAnsweredOrCounted : Obligations.LineEventsAreAnsweredOrCounted := by
  intro s hrun l
  refine ⟨fun hdeaf hfree => ⟨fun code => exec_badFrame_free hrun hdeaf hfree rfl, fun b h => ?_, fun h hdue => ?_,
    fun code body hno => ?_⟩, fun hdeaf h => ?_, fun hdeaf hheld => ⟨fun code => ?_, ?_⟩, fun hsending => ?_⟩
  · refine ⟨_, exec_byteReceived_heard hrun hdeaf (receive_badLength h), ?_⟩
    refine exec_badFrame_free (s := ⟨{ s.part with sli := l.complete (.bad (some b)) }, s.pending⟩) hrun hdeaf hfree ?_
    have hlength : ((l.completed ++ [RxFrame.bad (some b)]).erase (.bad (some b))).length = l.completed.length := by
      rw [List.length_erase_of_mem (by simp), List.length_append]
      rfl
    simp only [Sli.sends, Sli.complete, hlength, if_true, Nat.add_zero]
  · have hdue' : s.part.sli.gap = some 0 := hdue
    rw [exec_gapTimerExpiry, State.effect_running _ hrun, gapExpired,
      if_neg (by simp [hdeaf, (timerDue_iff _).mpr hdue']), if_pos ⟨h, hfree⟩, answerBadFrame_eq]
    rfl
  · rw [exec_unknownRequest_taken body hrun hdeaf hfree (namesRequest_eq_false hno)]
    rfl
  · have hdrop := dropPartial_partial (l := l) (by rw [h]; decide)
    exact ⟨exec_lineError_heard hrun hdeaf hdrop,
      fun hheld hdue => exec_gapTimerExpiry_heard hrun hdeaf hdue (fun hboth => hheld hboth.2) hdrop⟩
  · rw [exec_badFrame, State.effect_running _ hrun, takeBadFrame, if_neg (Bool.eq_false_iff.mp hdeaf)]
    exact next_congr (if_pos (inHand_isSome hheld))
  · have hheld' : s.part.sli.inHand ≠ none := hheld
    rw [exec_frameDiscarded, State.effect_running _ hrun, discardFrame, if_neg (by simp [hdeaf, hheld'])]
    rfl
  · rw [exec_responseSent, State.effect_running _ hrun, responseEnded, if_neg (by simpa using hsending)]
    rfl

end Sys2Proof.Machine
end

