-- ==== Sys2Proof/Proofs/Reports.lean ====
section
/-! SUPPORT. The requests that only report. -/

namespace Sys2Proof.Machine

set_option Elab.async false

/-- A request whose owner answers at once and does nothing else. -/
theorem exec_reported {r : Req} {body : List Byte} {s : State} {owner : List Byte → Lc44 → Lc44} {status : Status}
    {data : List Byte} {x : Instr} (hx : exec x s = s.effect (request r owner body)) (h : s.takes r body = true)
    (hown : owner body (s.part.takeInHand r body) = answer status data (s.part.takeInHand r body)) :
    exec x s = .next ⟨s.part.reply r body status data, s.pending⟩ := by
  rw [hx, effect_request _ h, hown, answer_takeInHand]

/-- A request whose owner answers at once by a chain and does nothing else. -/
theorem exec_reportedChain {r : Req} {body : List Byte} {s : State} {owner : List Byte → Lc44 → Lc44}
    {data : List Byte} {x : Instr} (hx : exec x s = s.effect (request r owner body)) (h : s.takes r body = true)
    (hown : owner body (s.part.takeInHand r body) = answerChain .ok data (s.part.takeInHand r body)) :
    exec x s = .next ⟨s.part.replyChain r body data, s.pending⟩ := by
  rw [hx, effect_request _ h, hown, answerChain_takeInHand]

/-- The two maps' codes. -/
theorem mapId_ofCode_code (m : MapId) : MapId.ofCode m.code = some m := by cases m <;> rfl

/-- A number above 1 names no map. -/
theorem mapId_ofCode_none {n : Nat} (h : 1 < n) : MapId.ofCode n = none := by
  match n, h with
  | n + 2, _ => rfl

/-- IDENT's data (R196). -/
theorem identData_eq (d : Lc44) :
    identData d =
      [0x4C, 0x43, 0x34, 0x34, 0x01] ++ bytesBE 3 (0xFF000 - 0x1000 * d.straps.psel.toNat) ++
        [if d.straps.commission then 1 else 0, if d.straps.depol then 1 else 0,
          BitVec.ofNat 8 d.phc.phase.code, BitVec.ofNat 8 d.phc.phop.code] := by
  simp only [identData, b1_eq, List.append_assoc]
  cases d.straps.commission <;> cases d.straps.depol <;> rfl

/-- READ-TRIAL's data by its part (R83). -/
theorem ownReadTrial_ok {b : List Byte} {d : Lc44} (hpart : byteAt b 0 ≤ 1) (hpage : byteAt b 1 ≤ 5) :
    ownReadTrial b d =
      answerTrial
        (if byteAt b 0 = 0 then journalData (byteAt b 1) d.tru else outcomeData (byteAt b 1) d.tru.outcome) d := by
  rw [ownReadTrial, if_pos hpage]
  rcases Nat.le_one_iff_eq_zero_or_eq_one.mp hpart with h0 | h1
  · simp only [h0, if_true]
  · simp only [h1, one_ne_zero, if_false]

/-- READ-TRIAL of another part or page (R83). -/
theorem ownReadTrial_bad {b : List Byte} {d : Lc44} (h : 1 < byteAt b 0 ∨ 5 < byteAt b 1) :
    ownReadTrial b d = deny .badArg d := by
  unfold ownReadTrial
  split
  · next hpage =>
    have hpart : 1 < byteAt b 0 := h.resolve_right (Nat.not_lt.mpr hpage)
    split
    · omega
    · omega
    · rfl
  · rfl

/-- READ-OVERLAY of a map (R93). -/
theorem ownReadOverlay_ok {b : List Byte} {d : Lc44} {m : MapId} (hm : m.code = byteAt b 0) (hpage : byteAt b 1 ≤ 1) :
    ownReadOverlay b d = answer .ok (overlayData m (byteAt b 1) d) d := by
  simp only [ownReadOverlay, ← hm, mapId_ofCode_code, if_pos hpage]

/-- READ-OVERLAY of another map or page (R93). -/
theorem ownReadOverlay_bad {b : List Byte} {d : Lc44} (h : 1 < byteAt b 0 ∨ 1 < byteAt b 1) :
    ownReadOverlay b d = deny .badArg d := by
  unfold ownReadOverlay
  split
  · rfl
  · next m hm =>
    refine if_neg (Nat.not_le.mpr (h.resolve_left fun hmap => ?_))
    rw [mapId_ofCode_none hmap] at hm
    exact absurd hm (Option.some_ne_none _).symm

/-- Settles O57: the reports are answered with their data, and change nothing else. -/
theorem reportsChangeNothing : Obligations.ReportsChangeNothing := by
  intro s body d n
  refine ⟨fun h => ?_, fun h => exec_reportedChain (exec_status body s) h rfl,
    fun h => ⟨fun i hi => ?_, fun hn => ?_⟩, fun h => ⟨fun i hi => ?_, fun hn => ?_⟩,
    fun h => exec_reported (exec_readLayout body s) h rfl, fun h => ⟨fun c hc => ?_, fun hn => ?_⟩, fun h => ?_,
    fun h => ⟨fun m hm hpage => ?_, fun hbad => ?_⟩, fun h => ⟨fun i hi => ?_, fun hn => ?_⟩,
    fun h => ⟨fun hn => ?_, fun hn => ?_⟩⟩
  · rw [← identData_eq]
    exact exec_reported (exec_ident body s) h rfl
  · have hlt : byteAt body 0 < 16 := lt_of_eq_of_lt hi.symm i.isLt
    have hfin : i = ⟨byteAt body 0, hlt⟩ := Fin.ext hi
    subst hfin
    exact exec_reported (exec_readRegion body s) h (dif_pos hlt)
  · exact exec_reported (exec_readRegion body s) h (dif_neg (Nat.not_lt.mpr hn))
  · have hlt : byteAt body 0 < 64 := lt_of_eq_of_lt hi.symm i.isLt
    have hfin : i = ⟨byteAt body 0, hlt⟩ := Fin.ext hi
    subst hfin
    exact exec_reported (exec_readRule body s) h (dif_pos hlt)
  · exact exec_reported (exec_readRule body s) h (dif_neg (Nat.not_lt.mpr hn))
  · refine exec_reported (exec_readCarrier body s) h ?_
    have hcarrier : carrierOf (byteAt body 0) = some c := carrierOf_val hc
    simp only [ownReadCarrier, hcarrier]
    rfl
  · refine exec_reported (exec_readCarrier body s) h ?_
    have hnone : carrierOf (byteAt body 0) = none := dif_neg (Nat.not_lt.mpr hn)
    simp only [ownReadCarrier, hnone]
    rfl
  · intro data
    refine ⟨fun page => ?_, fun due hdue => ?_, fun hpart hpage hshort => ?_, fun hpart hpage hlong => ?_, fun hbad => ?_⟩
    · simp only [journalData, b1_eq]
      rfl
    · simp only [trialGroup, b1_eq, Tru.reported, hdue]
      rfl
    · exact exec_reported (exec_readTrial body s) h ((ownReadTrial_ok hpart hpage).trans (if_pos hshort))
    · exact exec_reportedChain (exec_readTrial body s) h
        ((ownReadTrial_ok hpart hpage).trans (if_neg (Nat.not_le.mpr hlong)))
    · exact exec_reported (exec_readTrial body s) h (ownReadTrial_bad hbad)
  · exact exec_reported (exec_readOverlay body s) h (ownReadOverlay_ok hm hpage)
  · exact exec_reported (exec_readOverlay body s) h (ownReadOverlay_bad hbad)
  · have hlt : byteAt body 0 < 32 := lt_of_eq_of_lt hi.symm i.isLt
    have hfin : i = ⟨byteAt body 0, hlt⟩ := Fin.ext hi
    subst hfin
    exact exec_reported (exec_readStep body s) h (dif_pos hlt)
  · exact exec_reported (exec_readStep body s) h (dif_neg (Nat.not_lt.mpr hn))
  · exact exec_reportedChain (exec_readLog body s) h (if_pos hn)
  · exact exec_reported (exec_readLog body s) h (if_neg (Nat.not_le.mpr hn))

end Sys2Proof.Machine
end

