-- ==== Sys2Proof/Proofs/Tables.lean ====
section
/-! SUPPORT. The loads of the Region Table, the field rules and the report layout. -/

namespace Sys2Proof.Machine

set_option Elab.async false

/-! ## What the tables hold -/

/-- The entries of the Region Table are its non-empty slots. -/
theorem mem_entries {c : Ccl} {j : Fin 16} {q : Region} : (j, q) ∈ c.entries ↔ c.table[j] = some q := by
  rw [Ccl.entries, List.mem_filterMap]
  constructor
  · rintro ⟨k, -, hk⟩
    obtain ⟨r, hr, hpair⟩ := Option.map_eq_some_iff.mp hk
    obtain ⟨rfl, rfl⟩ := Prod.mk.inj hpair
    exact hr
  · intro hq
    exact ⟨j, List.mem_finRange j, by rw [hq]; rfl⟩

/-- A map is taken when an entry at another index references it (R15). -/
theorem mapTaken_iff {c : Ccl} {i : Fin 16} {m : MapId} :
    c.mapTaken i.val m = true ↔ ∃ (j : Fin 16) (q : Region), j ≠ i ∧ c.table[j] = some q ∧ q.map = some m := by
  simp only [Ccl.mapTaken, List.any_eq_true, Prod.exists, mem_entries, Bool.and_eq_true, decide_eq_true_iff]
  refine exists_congr fun j => exists_congr fun q => ?_
  rw [← and_assoc, and_comm (a := c.table[j] = some q), and_assoc, ne_eq, ne_eq, Fin.ext_iff]

/-- The check of a load sees the maps taken by the other entries. -/
theorem mapTaken_eq {c : Ccl} {i : Fin 16} {taken : MapId → Bool}
    (h : ∀ m, taken m = true ↔ ∃ (j : Fin 16) (q : Region), j ≠ i ∧ c.table[j] = some q ∧ q.map = some m) :
    c.mapTaken i.val = taken :=
  funext fun m => Bool.eq_iff_iff.mpr (mapTaken_iff.trans (h m).symm)

/-- The closing index lies below every OBSERVE stride (R101). -/
theorem stridesAllow_iff {c : Ccl} {closing : Nat} :
    c.stridesAllow closing = true ↔
      ∀ (j : Fin 16) (q : Region) (first count stride : Nat), c.table[j] = some q →
        q.treatment = .observe first count stride → closing < stride := by
  simp only [Ccl.stridesAllow, List.all_eq_true, Prod.forall, mem_entries]
  refine forall_congr' fun j => forall_congr' fun q => ?_
  constructor
  · intro h first count stride hq ht
    simpa [ht] using h hq
  · intro h hq
    cases ht : q.treatment with
    | observe first count stride => simpa using h first count stride hq ht
    | pass | barred | guarded | redirect | mark => rfl

/-- The rules at other indexes. -/
theorem mem_others {f : Fgd} {i : Fin 64} {q : Rule} :
    q ∈ f.others i.val ↔ ∃ j : Fin 64, j ≠ i ∧ f.rules[j] = some q := by
  simp only [Fgd.others, List.mem_filterMap, List.mem_finRange, true_and]
  refine exists_congr fun j => ?_
  by_cases hj : j = i
  · simp [hj]
  · have hv : ¬ j.val = i.val := fun hv => hj (Fin.ext hv)
    simp [hj, hv]

/-- A rule's definition is good when its shape and bounds are, and no other rule's lock conflicts with it (R42). -/
theorem defOk_iff {f : Fgd} {i : Fin 64} {r : Rule} :
    r.defOk (f.others i.val) = true ↔
      r.field.shapeOk = true ∧ r.boundsOk = true ∧
        ∀ (j : Fin 64) (q : Rule), j ≠ i → f.rules[j] = some q → r.lockConflict q = false := by
  simp only [Rule.defOk, Bool.and_eq_true, Bool.not_eq_true', List.any_eq_false, mem_others, and_assoc,
    Bool.not_eq_true]
  refine and_congr_right fun _ => and_congr_right fun _ => ?_
  constructor
  · exact fun h j q hj hq => h q ⟨j, hj, hq⟩
  · rintro h q ⟨j, hj, hq⟩
    exact h j q hj hq

/-! ## The void mark of a redirected write (R89) -/

/-- A redirected write to a cleared map is marked void. -/
theorem voided_write {cleared : MapId → Bool} {c : ICycle} {void : Bool} {data : Word} {m : MapId} {base : Addr}
    (hs : c.stage = .redirected void) (ho : c.cycle.op = .write data) (ht : c.record.treatment = .redirect m base)
    (hm : cleared m = true) : c.voided cleared = { c with stage := .redirected true } := by
  simp only [ICycle.voided, hs, ho, ht, hm, if_true]

/-- A cycle that is not redirected to a cleared map stays. -/
theorem voided_other {cleared : MapId → Bool} {c : ICycle}
    (h : ∀ m base, c.record.treatment = .redirect m base → cleared m = false) : c.voided cleared = c := by
  unfold ICycle.voided
  split
  · next ht => exact if_neg (Bool.eq_false_iff.mp (h _ _ ht))
  · rfl

/-- The maps after a clearance. -/
theorem map_clearMaps (cleared : MapId → Bool) (d : Lc44) (m : MapId) :
    (clearMaps cleared d).ovu.map m = if cleared m then [] else d.ovu.map m := by
  cases m <;> rfl

/-! ## The loads (R14 to R16, R41 to R43, R100 to R102) -/

/-- LOAD-REGION outside a trial and a run, by the check of its body. -/
theorem ownLoadRegion_free {b : List Byte} {d : Lc44} {i : Fin 16} (hfree : d.tablesFree = true)
    (hi : i.val = byteAt b 0) :
    (checkRegionBody b d = none → ownLoadRegion b d = deny .badArg d) ∧
      ∀ new, checkRegionBody b d = some new → ownLoadRegion b d = answer .ok [] (storeRegion i new d) := by
  have hlt : byteAt b 0 < 16 := lt_of_eq_of_lt hi.symm i.isLt
  obtain rfl : i = ⟨byteAt b 0, hlt⟩ := Fin.ext hi
  refine ⟨fun hnone => ?_, fun new hsome => ?_⟩
  · simp only [ownLoadRegion, hfree, Bool.not_true, Bool.false_eq_true, if_false, dif_pos hlt, hnone]
  · simp only [ownLoadRegion, hfree, Bool.not_true, Bool.false_eq_true, if_false, dif_pos hlt, hsome]

/-- LOAD-REGION of an index outside the table, or with a flag above 1. -/
theorem ownLoadRegion_bad {b : List Byte} {d : Lc44} (hfree : d.tablesFree = true)
    (hbad : 16 ≤ byteAt b 0 ∨ 1 < byteAt b 1) : ownLoadRegion b d = deny .badArg d := by
  by_cases hlt : byteAt b 0 < 16
  · refine (ownLoadRegion_free (i := ⟨byteAt b 0, hlt⟩) hfree rfl).1 ?_
    have hflag : 1 < byteAt b 1 := hbad.resolve_left (Nat.not_le.mpr hlt)
    unfold checkRegionBody
    split
    · omega
    · omega
    · rfl
  · simp only [ownLoadRegion, hfree, Bool.not_true, Bool.false_eq_true, if_false, dif_neg hlt]

/-- The entry a LOAD-REGION body gives (R15). -/
theorem checkRegionBody_eq {b : List Byte} {d : Lc44} {i : Fin 16} {new : Option Region} (hi : i.val = byteAt b 0)
    (h : byteAt b 1 = 1 ∧ new = none ∨
      byteAt b 1 = 0 ∧ new ≠ none ∧
        (RawRegion.ofBody b).check d.straps.psel (d.rcu.layout.map Layout.closing) (d.ccl.mapTaken i.val) = new) :
    checkRegionBody b d = some new := by
  rcases h with ⟨hclear, rfl⟩ | ⟨hset, hnew, hcheck⟩
  · simp only [checkRegionBody, hclear]
  · obtain ⟨r, rfl⟩ := Option.ne_none_iff_exists'.mp hnew
    simp only [checkRegionBody, hset, ← hi, hcheck, Option.map_some]

/-- LOAD-RULE outside a trial and a run. -/
theorem ownLoadRule_free {b : List Byte} {d : Lc44} {i : Fin 64} (hfree : d.tablesFree = true) (hi : i.val = byteAt b 0) :
    ownLoadRule b d =
      if byteAt b 1 = 1 then answer .ok [] (storeRule i none d)
      else if byteAt b 1 ≠ 0 ∨ (!(RawRule.ofBody b).argsOk) = true then deny .badArg d
      else if (RawRule.ofBody b).toRule.defOk (d.fgd.others i.val) then
        answer .ok [] (storeRule i (some (RawRule.ofBody b).toRule) d)
      else deny .badRule d := by
  have hlt : byteAt b 0 < 64 := lt_of_eq_of_lt hi.symm i.isLt
  obtain rfl : i = ⟨byteAt b 0, hlt⟩ := Fin.ext hi
  simp only [ownLoadRule, hfree, Bool.not_true, Bool.false_eq_true, if_false, dif_pos hlt]

/-- LOAD-RULE of an index outside the table, with a flag above 1, or with bad arguments. -/
theorem ownLoadRule_bad {b : List Byte} {d : Lc44} (hfree : d.tablesFree = true)
    (hbad : 64 ≤ byteAt b 0 ∨ 1 < byteAt b 1 ∨ byteAt b 1 = 0 ∧ (RawRule.ofBody b).argsOk = false) :
    ownLoadRule b d = deny .badArg d := by
  by_cases hlt : byteAt b 0 < 64
  · have hrest := hbad.resolve_left (Nat.not_le.mpr hlt)
    rw [ownLoadRule_free (i := ⟨byteAt b 0, hlt⟩) hfree rfl, if_neg (by omega), if_pos]
    rcases hrest with hflag | ⟨-, hargs⟩
    · exact Or.inl (by omega)
    · exact Or.inr (by rw [hargs]; rfl)
  · simp only [ownLoadRule, hfree, Bool.not_true, Bool.false_eq_true, if_false, dif_neg hlt]

/-- LOAD-LAYOUT outside a trial and a run, by the check of its body. -/
theorem ownLoadLayout_free {b : List Byte} {d : Lc44} (hfree : d.tablesFree = true) :
    (checkLayoutBody b d = none → ownLoadLayout b d = deny .badArg d) ∧
      ∀ new, checkLayoutBody b d = some new → ownLoadLayout b d = answer .ok [] (storeLayout new d) := by
  refine ⟨fun hnone => ?_, fun new hsome => ?_⟩
  · simp only [ownLoadLayout, hfree, Bool.not_true, Bool.false_eq_true, if_false, hnone]
  · simp only [ownLoadLayout, hfree, Bool.not_true, Bool.false_eq_true, if_false, hsome]

/-- Settles O59: each load replaces one item, or is refused with the tables as they were. -/
theorem tableLoadsReplaceOneItem : Obligations.TableLoadsReplaceOneItem := by
  intro s body d free
  have hbusy (hnot : ¬ free) : d.tablesFree = false := tablesFree_eq_false (not_and_or.mp hnot)
  have hopen (hfree : free) : d.tablesFree = true := tablesFree_eq_true hfree.1 hfree.2
  refine ⟨fun hnot => ⟨fun h => ?_, fun h => ?_, fun h => ?_⟩,
    fun hfree h => ⟨fun i new taken hi htaken hcheck => ?_, fun i taken hi htaken hflag hcheck => ?_, fun hbad => ?_⟩,
    fun hfree h => ⟨fun i new hi hcheck => ?_, fun i hi hflag hargs hbad => ?_, fun hbad => ?_⟩,
    fun hfree h => ⟨fun new hcheck => ?_, fun hflag hbad => ?_, fun hflag => ?_⟩⟩
  · exact exec_denied (exec_loadRegion body s) h (if_pos (by
      rw [show (s.part.takeInHand .loadRegion body).tablesFree = false from hbusy hnot]; rfl))
  · exact exec_denied (exec_loadRule body s) h (if_pos (by
      rw [show (s.part.takeInHand .loadRule body).tablesFree = false from hbusy hnot]; rfl))
  · exact exec_denied (exec_loadLayout body s) h (if_pos (by
      rw [show (s.part.takeInHand .loadLayout body).tablesFree = false from hbusy hnot]; rfl))
  · intro cleared
    rw [← mapTaken_eq htaken] at hcheck
    have hown := (ownLoadRegion_free (d := s.part.takeInHand .loadRegion body) (hopen hfree) hi).2 new
      (checkRegionBody_eq hi hcheck)
    have hkeeps : d.keepsOutside [.iport, .ccl, .ovu, .sli] (ownLoadRegion body (s.part.takeInHand .loadRegion body)) :=
      keeps_trans (keeps_onSli (fun l => l.holding .loadRegion body) d) (keeps_ownLoadRegion body _)
    rw [hown, answer_taken .loadRegion body .ok [] s.part _ rfl] at hkeeps
    have hcleared (m : MapId) : (decide (d.ccl.table[i].bind Region.map = some m) ||
        decide (new.bind Region.map = some m)) = true ↔ cleared m := by simp [cleared]
    have hmaps := map_clearMaps (fun m => decide (d.ccl.table[i].bind Region.map = some m) ||
      decide (new.bind Region.map = some m)) d
    refine ⟨_, exec_answered (exec_loadRegion body s) h hown rfl, hkeeps, rfl, rfl, rfl,
      fun m => ⟨fun hm => ?_, fun hm => ?_⟩, rfl, fun hnone => ?_, fun c hc => ⟨?_, fun hother => ?_⟩⟩
    · exact (hmaps m).trans (if_pos ((hcleared m).mpr hm))
    · exact (hmaps m).trans (if_neg (mt (hcleared m).mp hm))
    · exact congrArg (Option.map _) hnone
    · intro void data m base hs ho ht hm
      exact (congrArg (Option.map _) hc).trans (congrArg some (voided_write hs ho ht ((hcleared m).mpr hm)))
    · exact (congrArg (Option.map _) hc).trans (congrArg some (voided_other fun m base ht =>
        Bool.eq_false_iff.mpr (mt (hcleared m).mp (hother m base ht))))
  · rw [← mapTaken_eq htaken] at hcheck
    refine exec_denied (exec_loadRegion body s) h
      ((ownLoadRegion_free (d := s.part.takeInHand .loadRegion body) (hopen hfree) hi).1 ?_)
    have hcheck' : (RawRegion.ofBody body).check (s.part.takeInHand .loadRegion body).straps.psel
        ((s.part.takeInHand .loadRegion body).rcu.layout.map Layout.closing)
        ((s.part.takeInHand .loadRegion body).ccl.mapTaken i.val) = none := hcheck
    simp only [checkRegionBody, hflag, ← hi, hcheck', Option.map_none]
  · exact exec_denied (exec_loadRegion body s) h
      (ownLoadRegion_bad (d := s.part.takeInHand .loadRegion body) (hopen hfree) hbad)
  · have hown := ownLoadRule_free (d := s.part.takeInHand .loadRule body) (hopen hfree) hi
    rcases hcheck with ⟨hclear, rfl⟩ | ⟨hset, hargs, rfl, hshape, hbounds, hlocks⟩
    · exact exec_answered (exec_loadRule body s) h (hown.trans (if_pos hclear)) rfl
    · have hflag : ¬ byteAt body 1 = 1 := by omega
      have hgood : ¬ (byteAt body 1 ≠ 0 ∨ (!(RawRule.ofBody body).argsOk) = true) := by simp [hset, hargs]
      exact exec_answered (exec_loadRule body s) h (hown.trans ((if_neg hflag).trans ((if_neg hgood).trans
        (if_pos (defOk_iff.mpr ⟨hshape, hbounds, hlocks⟩))))) rfl
  · have hown := ownLoadRule_free (d := s.part.takeInHand .loadRule body) (hopen hfree) hi
    have hone : ¬ byteAt body 1 = 1 := by omega
    have hgood : ¬ (byteAt body 1 ≠ 0 ∨ (!(RawRule.ofBody body).argsOk) = true) := by simp [hflag, hargs]
    refine exec_denied (exec_loadRule body s) h (hown.trans ((if_neg hone).trans ((if_neg hgood).trans (if_neg ?_))))
    rw [defOk_iff]
    rintro ⟨hshape, hbounds, hlocks⟩
    rcases hbad with hno | hno | ⟨j, q, hj, hq, hconflict⟩
    · exact Bool.noConfusion (hno.symm.trans hshape)
    · exact Bool.noConfusion (hno.symm.trans hbounds)
    · exact Bool.noConfusion ((hlocks j q hj hq).symm.trans hconflict)
  · exact exec_denied (exec_loadRule body s) h
      (ownLoadRule_bad (d := s.part.takeInHand .loadRule body) (hopen hfree) hbad)
  · have hbody : checkLayoutBody body (s.part.takeInHand .loadLayout body) = some new := by
      rcases hcheck with ⟨hclear, rfl⟩ | ⟨hset, hnew, hlayout, hstrides⟩
      · simp only [checkLayoutBody, hclear]
      · obtain ⟨l, rfl⟩ := Option.ne_none_iff_exists'.mp hnew
        have hallow : (s.part.takeInHand .loadLayout body).ccl.stridesAllow (byteAt body 1) = true :=
          stridesAllow_iff.mpr hstrides
        simp only [checkLayoutBody, hset, hallow, if_true, hlayout, Option.map_some]
    exact exec_answered (exec_loadLayout body s) h
      ((ownLoadLayout_free (d := s.part.takeInHand .loadLayout body) (hopen hfree)).2 new hbody) rfl
  · refine exec_denied (exec_loadLayout body s) h
      ((ownLoadLayout_free (d := s.part.takeInHand .loadLayout body) (hopen hfree)).1 ?_)
    rcases hbad with hlayout | ⟨j, q, first, count, stride, hq, ht, hle⟩
    · simp [checkLayoutBody, hflag, hlayout]
    · have hallow : ¬ (s.part.takeInHand .loadLayout body).ccl.stridesAllow (byteAt body 1) = true := fun hall =>
        Nat.not_lt.mpr hle (stridesAllow_iff.mp hall j q first count stride hq ht)
      simp only [checkLayoutBody, hflag, if_neg hallow]
  · refine exec_denied (exec_loadLayout body s) h
      ((ownLoadLayout_free (d := s.part.takeInHand .loadLayout body) (hopen hfree)).1 ?_)
    unfold checkLayoutBody
    split
    · omega
    · omega
    · rfl

end Sys2Proof.Machine
end

