-- ==== Sys2Proof/Proofs/Mirror.lean ====
section
/-! SUPPORT. The status mirror: its settings, its refreshes and their words. -/

namespace Sys2Proof.Machine

set_option Elab.async false

/-! ## Mirror settings (R198) -/

/-- The service line with a refresh abandoned and new mirror settings (R198, R200). -/
def Lc44.mirrorSet (enabled : Bool) (addr : Addr) (d : Lc44) : Sli :=
  { d.sli with
    refresh := none
    orphan := d.mpc.carriesMir
    mirrorEnabled := enabled
    mirrorAddress := addr
    refreshTimer := none }

/-- What CCL has in force once a mirror range is reported to it (R3, R4). -/
def Lc44.cclWith (mirror : Option Addr) (d : Lc44) : Ccl :=
  if d.iport.cycle = none then { d.ccl with phase := d.phc.phase, mirror := mirror } else d.ccl

/-- The mirror switched off. -/
theorem setMirror_off (addr : Addr) (d : Lc44) :
    setMirror false addr d =
      { d with
        mpc := { d.mpc with mirWaiting := none }
        ccl := d.cclWith none
        sli := d.mirrorSet false 0 } := by
  have hsync : setMirror false addr d =
      syncCcl { d with mpc := { d.mpc with mirWaiting := none }, sli := d.mirrorSet false 0 } := rfl
  rw [hsync]
  by_cases hc : d.iport.cycle = none
  · rw [Lc44.cclWith, if_pos hc]
    exact syncCcl_free { d with mpc := { d.mpc with mirWaiting := none }, sli := d.mirrorSet false 0 } hc
  · rw [Lc44.cclWith, if_neg hc]
    exact syncCcl_busy { d with mpc := { d.mpc with mirWaiting := none }, sli := d.mirrorSet false 0 } hc

/-- The mirror switched on: a refresh begins. -/
theorem setMirror_on (addr : Addr) (d : Lc44) :
    ∃ (r : Refresh) (w : MRequest),
      setMirror true addr d =
        { d with
          mpc := { d.mpc with mirWaiting := some w }
          ccl := d.cclWith (some addr)
          sli :=
            { d.mirrorSet true addr with
              refreshNumber := nextRefreshNumber d.sli.refreshNumber
              refresh := some r
              refreshTimer := some 250 } } := by
  have hsync : setMirror true addr d =
      startMirror (syncCcl { d with mpc := { d.mpc with mirWaiting := none }, sli := d.mirrorSet true addr }) := rfl
  rw [hsync]
  by_cases hc : d.iport.cycle = none
  · rw [Lc44.cclWith, if_pos hc,
      syncCcl_free { d with mpc := { d.mpc with mirWaiting := none }, sli := d.mirrorSet true addr } hc]
    exact ⟨_, _, rfl⟩
  · rw [Lc44.cclWith, if_neg hc,
      syncCcl_busy { d with mpc := { d.mpc with mirWaiting := none }, sli := d.mirrorSet true addr } hc]
    exact ⟨_, _, rfl⟩

/-- An enabled mirror's range is good when it lies in the address space, outside the profile block (R198). -/
theorem mirrorOk_iff {psel : BitVec 2} {addr : Nat} :
    mirrorOk psel addr = true ↔
      addr + 16 ≤ 0x100000 ∧
        (addr + 16 ≤ 0xFF000 - 0x1000 * psel.toNat ∨ 0xFF000 - 0x1000 * psel.toNat + 4096 ≤ addr) := by
  change (decide (addr + 16 ≤ 0x100000) && (decide (addr + 16 ≤ 0xFF000 - 0x1000 * psel.toNat) ||
    decide (0xFF000 - 0x1000 * psel.toNat + 4096 ≤ addr))) = true ↔ _
  simp only [Bool.and_eq_true, Bool.or_eq_true, decide_eq_true_iff]

/-- The check of a SET-MIRROR body. -/
theorem setMirror_check_iff {b : List Byte} {psel : BitVec 2} :
    (flagOk (byteAt b 0) && (decide (byteAt b 0 = 0) || mirrorOk psel (u24At b 1))) = true ↔
      byteAt b 0 = 0 ∨ byteAt b 0 = 1 ∧ mirrorOk psel (u24At b 1) = true := by
  simp only [flagOk, Bool.and_eq_true, Bool.or_eq_true, decide_eq_true_iff]
  constructor
  · rintro ⟨hflag, hoff | hok⟩
    · exact Or.inl hoff
    · exact (Nat.le_one_iff_eq_zero_or_eq_one.mp hflag).imp_right fun hon => ⟨hon, hok⟩
  · rintro (hoff | ⟨hon, hok⟩)
    · exact ⟨by omega, Or.inl hoff⟩
    · exact ⟨by omega, Or.inr hok⟩

/-- A good SET-MIRROR is answered OK under the new settings (R198). -/
theorem exec_setMirror_ok {s : State} {body : List Byte} {e : Lc44} (h : s.takes .setMirror body = true)
    (hset : s.part.mpc.settled = true)
    (hcheck : byteAt body 0 = 0 ∨ byteAt body 0 = 1 ∧ mirrorOk s.part.straps.psel (u24At body 1) = true)
    (he : setMirror (decide (byteAt body 0 = 1)) (BitVec.ofNat 20 (u24At body 1)) (s.part.takeInHand .setMirror body) = e)
    (hhand : e.sli.inHand = some Req.setMirror.code) (hfree : e.mpc.free = s.part.mpc.free)
    (hfwd : e.mpc.fwdWaiting = s.part.mpc.fwdWaiting) :
    ∃ d, exec (.setMirror body) s = .next ⟨d, s.pending⟩ ∧ s.part.keepsOutside [.mpc, .ccl, .sli] d ∧
      d.sli = e.sli.sends [response .setMirror .ok []] ∧ d.ccl = e.ccl ∧
      (e.mpc.settled = true → d.mpc = e.mpc) := by
  have hown : ownSetMirror body (s.part.takeInHand .setMirror body) =
      { e with sli := e.sli.sends [response .setMirror .ok []] } := by
    rw [← answer_inHand .ok [] hhand, ← he]
    exact if_pos (setMirror_check_iff.mpr hcheck)
  have hkeeps : s.part.keepsOutside [.mpc, .ccl, .sli] (ownSetMirror body (s.part.takeInHand .setMirror body)) :=
    keeps_trans (keeps_onSli (fun l => l.holding .setMirror body) _) (keeps_ownSetMirror _ _)
  rw [hown] at hkeeps
  have harb := keeps_arbitrate_queued (d := { e with sli := e.sli.sends [response .setMirror .ok []] }) hset hfree hfwd
  have hccl := keeps_ccl harb
  refine ⟨_, ?_, keeps_trans hkeeps harb, keeps_sli harb, hccl, fun hs => ?_⟩
  · rw [exec_setMirror, effect_arbitrate_request _ h, hown]
  · rw [arbitrate_of_settled { e with sli := e.sli.sends [response .setMirror .ok []] } hs]

/-! ## The refresh timer (R199, R200) -/

/-- A refresh begins with its number, its values, its first word and its timer. -/
theorem startMirror_eq {n : Nat} {values : List Word} {d : Lc44} (hn : nextRefreshNumber d.sli.refreshNumber = n)
    (hv : mirrorValues n d = values) :
    startMirror d =
      { d with
        sli := { d.sli with refreshNumber := n, refresh := some ⟨n, values, 0⟩, refreshTimer := some 250 }
        mpc := { d.mpc with mirWaiting := some ⟨d.sli.mirrorAddress, .write (values.getD 0 0)⟩ } } := by
  subst hn hv
  have haddr : addrPlus d.sli.mirrorAddress 0 = d.sli.mirrorAddress := BitVec.add_zero _
  simp only [startMirror, startRefresh, requestMirrorWord, requestMir, Lc44.onSli, Lc44.onMpc, haddr]
  rfl

/-- The refresh timer's expiry begins the next refresh, abandoning one in progress. -/
theorem refreshExpired_due {n : Nat} {values : List Word} {d : Lc44} (h : d.sli.refreshTimer = some 0)
    (hn : nextRefreshNumber d.sli.refreshNumber = n) (hv : mirrorValues n d = values) :
    refreshExpired d =
      { d with
        sli :=
          { d.sli with
            refreshNumber := n
            refresh := some ⟨n, values, 0⟩
            refreshTimer := some 250
            mirrorAbandons :=
              if d.sli.refresh = none then d.sli.mirrorAbandons else min 65535 (d.sli.mirrorAbandons + 1)
            orphan := if d.sli.refresh = none then d.sli.orphan else d.mpc.carriesMir }
        mpc := { d.mpc with mirWaiting := some ⟨d.sli.mirrorAddress, .write (values.getD 0 0)⟩ } } := by
  refine (if_neg (by simp [(timerDue_iff _).mpr h])).trans ?_
  by_cases hr : d.sli.refresh = none
  · rw [if_neg (by simp [hr]), if_pos hr, if_pos hr, startMirror_eq hn hv]
  · rw [if_pos (Option.isSome_iff_ne_none.mpr hr), if_neg hr, if_neg hr]
    exact startMirror_eq (d := (abandonRefresh d).onSli fun s =>
      { s with mirrorAbandons := satInc Config.max16 s.mirrorAbandons }) hn hv

/-- The port carries a mirror word. -/
theorem carriesMir_eq (m : Mpc) [Decidable (∃ p, m.cycle = some p ∧ p.client = .mir)] :
    m.carriesMir = decide (∃ p, m.cycle = some p ∧ p.client = .mir) := by
  rw [Bool.eq_iff_iff, decide_eq_true_iff]
  unfold Mpc.carriesMir
  cases m.cycle <;> simp

/-! ## The words of a refresh (R200) -/

/-- A mirror word's end is given to SLI. -/
theorem memoryEnd_mir (e : MEnd) (d : Lc44) (p : MCycle) (h : d.mpc.cycle = some p) (hc : p.client = .mir) :
    memoryEnd e d = arbitrate (mirrorEnded (failureOf e) { d with mpc := Mpc.ended p e d.mpc }) := by
  simp only [memoryEnd, h, dispatchEnd, hc]
  rfl

/-- A mirror word that failed moves MPC's counters and record (R33, R34). -/
theorem ended_mir {p : MCycle} (hc : p.client = .mir) (f : MFailure) (m : Mpc) :
    Mpc.ended p (.error f) m = Mpc.failing p none f { m with cycle := none } := by
  simp [Mpc.ended, Mpc.failed, Mpc.failing, hc, satInc, satAdd, Config.max32]

/-- The word of an abandoned refresh is discarded. -/
theorem mirrorEnded_orphan {d : Lc44} (f : Option MFailure) (h : d.sli.orphan = true) :
    mirrorEnded f d = { d with sli := { d.sli with orphan := false } } := if_pos h

/-- A word that failed ends its refresh. -/
theorem mirrorEnded_failed {d : Lc44} {r : Refresh} (f : MFailure) (h : d.sli.orphan = false)
    (hr : d.sli.refresh = some r) :
    mirrorEnded (some f) d =
      { d with sli := { d.sli with refresh := none, mirrorFaults := min 65535 (d.sli.mirrorFaults + 1) } } := by
  refine (if_neg (Bool.eq_false_iff.mp h)).trans ?_
  simp only [hr]
  rfl

/-- A word written OK is followed by the next, and the last completes the refresh. -/
theorem mirrorEnded_ok {d : Lc44} {r : Refresh} (h : d.sli.orphan = false) (hr : d.sli.refresh = some r) :
    mirrorEnded none d =
      if r.index + 1 < 16 then
        { d with
          sli := { d.sli with refresh := some { r with index := r.index + 1 } }
          mpc :=
            { d.mpc with
              mirWaiting :=
                some ⟨d.sli.mirrorAddress + BitVec.ofNat 20 (r.index + 1), .write (r.values.getD (r.index + 1) 0)⟩ } }
      else { d with sli := { d.sli with refresh := none, lastCompleted := r.number } } := by
  refine (if_neg (Bool.eq_false_iff.mp h)).trans ?_
  simp only [hr]
  rfl

/-! ## The values of a refresh (R199, R203) -/

/-- The bits of one carrier in the verdict word. -/
theorem verdictBits_eq (c : Carrier) (r : CaptureRecord) :
    verdictBits c.val r =
      (match r.verdict with
        | .none => 0
        | .main => 1
        | .low => 2
        | .side => 3) * 4 ^ c.val +
      (if r.lastRsl = none then 0 else 2 ^ (8 + c.val)) + (if r.peak = none then 0 else 2 ^ (12 + c.val)) := by
  have hpow : 2 ^ (2 * c.val) = 4 ^ c.val := by rw [pow_mul]; norm_num
  have hbit {α : Type} (v : Option α) (n : Nat) : bit v.isSome n = if v = none then 0 else 2 ^ n := by
    cases v <;> rfl
  rw [verdictBits, hpow, hbit, hbit]
  cases r.verdict <;> rfl

/-- A refresh has 16 values. -/
theorem length_mirrorValues (number : Nat) (d : Lc44) : (mirrorValues number d).length = 16 := rfl

/-- Settles O60: mirror settings, refreshes, their words and their values. -/
theorem mirrorRefreshes : Obligations.MirrorRefreshes := by
  refine ⟨?_, ?_, ?_, ?_⟩
  · intro s body h hset address base
    refine ⟨fun hoff => ?_, fun hon hspace hprofile => ?_, fun hbad => ?_⟩
    · have hflag : decide (byteAt body 0 = 1) = false := by
        rw [hoff]
        rfl
      obtain ⟨d, hexec, hkeeps, hsli, hccl, hmpc⟩ := exec_setMirror_ok h hset (Or.inl hoff)
        ((congrArg (fun b => setMirror b _ _) hflag).trans (setMirror_off _ _)) rfl rfl rfl
      have hmir : d.mpc = { s.part.mpc with mirWaiting := none } := hmpc (by
        by_cases hf : s.part.mpc.free = true
        · have hn : s.part.mpc.choice = none := by simpa [Mpc.settled, hf] using hset
          obtain ⟨hfwd, hrst, hint, -⟩ := (choice_eq_none_iff _).mp hn
          exact settled_of_choice_none ((choice_eq_none_iff _).mpr ⟨hfwd, hrst, hint, rfl⟩)
        · exact settled_of_busy _ (Bool.eq_false_iff.mpr hf))
      refine ⟨d, hexec, hkeeps, ?_, ?_, ?_, ?_, ?_, ?_, ?_, fun hc => ?_, fun hc => ?_⟩
      iterate 6
        rw [hsli]
        rfl
      · rw [hmir]
      · rw [hccl]
        exact congrArg Ccl.mirror (if_pos hc)
      · rw [hccl]
        exact if_neg hc
    · obtain ⟨r, w, hr⟩ := setMirror_on (BitVec.ofNat 20 (u24At body 1)) (s.part.takeInHand .setMirror body)
      have hflag : decide (byteAt body 0 = 1) = true := by
        rw [hon]
        rfl
      obtain ⟨d, hexec, hkeeps, hsli, hccl, -⟩ := exec_setMirror_ok h hset
        (Or.inr ⟨hon, mirrorOk_iff.mpr ⟨hspace, hprofile⟩⟩)
        ((congrArg (fun b => setMirror b _ _) hflag).trans hr) rfl rfl rfl
      refine ⟨d, hexec, hkeeps, ?_, ?_, ?_, ?_, ?_, ?_, fun hc => ?_, fun hc => ?_⟩
      iterate 6
        rw [hsli]
        rfl
      · rw [hccl]
        exact congrArg Ccl.mirror (if_pos hc)
      · rw [hccl]
        exact if_neg hc
    · have hown : ownSetMirror body (s.part.takeInHand .setMirror body) = s.part.reply .setMirror body .badArg [] := by
        rw [← answer_takeInHand]
        refine if_neg (fun hcheck => ?_)
        rcases setMirror_check_iff.mp hcheck with hoff | ⟨hon, hok⟩
        · omega
        · have hrange := mirrorOk_iff.mp hok
          change address + 16 ≤ 0x100000 ∧ (address + 16 ≤ base ∨ base + 4096 ≤ address) at hrange
          omega
      rw [exec_setMirror, effect_arbitrate_request _ h, hown]
      exact next_congr (arbitrate_of_settled _ hset)
  · intro s hrun hset
    refine ⟨fun hnot => ?_, fun hdue => ?_⟩
    · have hnot' : timerDue s.part.sli.refreshTimer = false := Bool.eq_false_iff.mpr (mt (timerDue_iff _).mp hnot)
      rw [exec_refreshTimerExpiry, State.effect_running _ hrun, refreshExpired, if_pos (by rw [hnot']; rfl),
        arbitrate_of_settled _ hset]
    · intro l number values
      refine ⟨length_mirrorValues _ _, ?_⟩
      rw [exec_refreshTimerExpiry, State.effect_running _ hrun, refreshExpired_due hdue rfl rfl, carriesMir_eq]
      rfl
  · intro s p w hrun hp hc l freed ends
    have hok {d : Lc44} (hd : mirrorEnded none { s.part with mpc := freed } = d) :
        exec (.memoryAnswer (.ok w)) s = .next ⟨arbitrate d, s.pending⟩ := by
      rw [exec_ok w s hrun, memoryEnd_mir _ _ p hp hc, ← hd]
      rfl
    have hfail {d : Lc44} (f : MFailure)
        (hd : mirrorEnded (some f) { s.part with mpc := freed.failing p none f } = d) :
        exec f.command s = .next ⟨arbitrate d, s.pending⟩ := by
      rw [exec_failure f s hrun, memoryEnd_mir _ _ p hp hc, ended_mir hc, ← hd]
      rfl
    refine ⟨fun horphan => ⟨hok (mirrorEnded_orphan (d := { s.part with mpc := freed }) none horphan),
      fun f => hfail f (mirrorEnded_orphan (d := { s.part with mpc := freed.failing p none f }) (some f) horphan)⟩,
      fun r horphan hr => ⟨fun hlt => ?_, fun hge => ?_, fun f => ?_⟩⟩
    · exact hok ((mirrorEnded_ok (d := { s.part with mpc := freed }) horphan hr).trans (if_pos (by omega)))
    · exact hok ((mirrorEnded_ok (d := { s.part with mpc := freed }) horphan hr).trans (if_neg (by omega)))
    · exact hfail f (mirrorEnded_failed (d := { s.part with mpc := freed.failing p none f }) f horphan hr)
  · intro d number r phase phop trial run mute verdict last peak
    have hphase : d.phc.phase.code = phase := by cases hp : d.phc.phase <;> simp only [phase, hp] <;> rfl
    have hphop : d.phc.phop.code = phop := by cases hp : d.phc.phop <;> simp only [phop, hp] <;> rfl
    have hrun : d.acu.runState.code = run := by cases hr : d.acu.runState <;> simp only [run, hr] <;> rfl
    have hmute : d.tmu.mute.code = mute := by cases hm : d.tmu.mute <;> simp only [mute, hm] <;> rfl
    have htrial : d.tru.reported.code = trial := by
      cases hdue : d.tru.due with
      | some x => simp [Tru.reported, trial, hdue, TrialState.code]
      | none => cases ht : d.tru.state <;> simp [Tru.reported, trial, hdue, ht, TrialState.code]
    have hseconds : secondsLeft d.tru.timer = (d.tru.timer.getD 0 + 999) / 1000 := by
      cases d.tru.timer <;> rfl
    have hlast (c : Carrier) : optWord (r c).lastRsl = last c := by
      cases hr : (r c).lastRsl <;> simp only [last, hr] <;> rfl
    have hpeak (c : Carrier) : optWord ((r c).peak.map Peak.rsl) = peak c := by
      cases hr : (r c).peak <;> simp only [peak, hr] <;> rfl
    have hverdict (c : Carrier) : verdictBits c.val (r c) = verdict c := verdictBits_eq c (r c)
    have hvalues : mirrorValues number d =
        [natWord (d.phc.phase.code + d.phc.phop.code * 4), natWord (d.tru.reported.code + secondsLeft d.tru.timer * 16),
          natWord (d.acu.runState.code + d.acu.current.getD 0 * 256), natWord d.tmu.mute.code,
          optWord (r 0).lastRsl, optWord (r 1).lastRsl, optWord (r 2).lastRsl, optWord (r 3).lastRsl,
          optWord ((r 0).peak.map Peak.rsl), optWord ((r 1).peak.map Peak.rsl), optWord ((r 2).peak.map Peak.rsl),
          optWord ((r 3).peak.map Peak.rsl),
          natWord (verdictBits (0 : Carrier).val (r 0) + verdictBits (1 : Carrier).val (r 1) +
            verdictBits (2 : Carrier).val (r 2) + verdictBits (3 : Carrier).val (r 3)),
          natWord d.acu.log.length, satWord (d.mpc.faults + d.mpc.timeouts), natWord number] := rfl
    rw [hvalues, hphase, hphop, hrun, hmute, htrial, hseconds, hlast, hlast, hlast, hlast, hpeak, hpeak, hpeak, hpeak,
      hverdict, hverdict, hverdict, hverdict, Nat.mul_comm phop, Nat.mul_comm _ 16, Nat.mul_comm _ 256]
    rfl

end Sys2Proof.Machine
end

