-- ==== Sys2Proof/Proofs/RoundTrips.lean ====
section
/-! SUPPORT. The reports of tables as bodies of the loads that would reload them. -/

namespace Sys2Proof.Machine

set_option Elab.async false

/-! ## Bytes of a body (R204) -/

/-- The first byte of a body. -/
theorem byteAt_zero (x : Byte) (l : List Byte) : byteAt (x :: l) 0 = x.toNat := rfl

/-- A later byte of a body. -/
theorem byteAt_succ (x : Byte) (l : List Byte) (i : Nat) : byteAt (x :: l) (i + 1) = byteAt l i := by
  simp [byteAt]

/-- A byte is below 256. -/
theorem byteAt_lt (b : List Byte) (i : Nat) : byteAt b i < 256 := (b.getD i 0).isLt

/-- Two bytes are below 65,536. -/
theorem u16At_lt (b : List Byte) (i : Nat) : u16At b i < 65536 := by
  have h0 := byteAt_lt b i
  have h1 := byteAt_lt b (i + 1)
  unfold u16At
  omega

/-- Four bytes are below 2^32. -/
theorem u32At_lt (b : List Byte) (i : Nat) : u32At b i < 4294967296 := by
  have h0 := u16At_lt b i
  have h1 := u16At_lt b (i + 2)
  unfold u32At
  omega

/-- A number in three bytes. -/
theorem bytesBE_three (n : Nat) :
    bytesBE 3 n = [BitVec.ofNat 8 (n / 65536), BitVec.ofNat 8 (n / 256), BitVec.ofNat 8 n] := by simp [bytesBE]

/-- A number in four bytes. -/
theorem b4_eq (n : Nat) :
    b4 n =
      [BitVec.ofNat 8 (n / 16777216), BitVec.ofNat 8 (n / 65536), BitVec.ofNat 8 (n / 256), BitVec.ofNat 8 n] := by
  simp [b4, bytesBE]

/-- A word in two bytes. -/
theorem wordBytes_eq (w : Word) : wordBytes w = [BitVec.ofNat 8 (w.toNat / 256), BitVec.ofNat 8 w.toNat] :=
  b2_eq w.toNat

/-! ## Region Table entries -/

/-- The raw definition of an entry, as its report carries it (log 11). -/
def Region.carried (r : Region) : RawRegion :=
  { base := r.base.toNat
    length := r.length
    initiators := bit r.ctl 0 + bit r.rpt 1
    treatment := r.treatment.code
    firstRule := match r.treatment with | .guarded first _ => first | _ => 0
    ruleCount := match r.treatment with | .guarded _ count => count | _ => 0
    firstCarrier := match r.treatment with | .observe first _ _ => first | _ => 0
    carrierCount := match r.treatment with | .observe _ count _ => count | _ => 0
    stride := match r.treatment with | .observe _ _ stride => stride | _ => 0
    map := match r.treatment with | .redirect m _ => m.code | _ => 0
    overlayBase := match r.treatment with | .redirect _ base => base.toNat | _ => 0
    value := match r.treatment with | .mark value _ _ => value.toNat | _ => 0
    mask := match r.treatment with | .mark _ mask _ => mask.toNat | _ => 0
    signal := match r.treatment with | .mark _ _ signal => signal.code | _ => 0 }

/-- The numbers of a treatment fit their bytes. -/
def Treatment.fits (t : Treatment) : Prop :=
  match t with
  | .guarded first count => first < 256 ∧ count < 256
  | .observe first count stride => first < 256 ∧ count < 256 ∧ stride < 256
  | _ => True

/-- A number of two bytes, put together again. -/
theorem two_bytes {n : Nat} (h : n < 65536) : n / 256 % 2 ^ 8 * 256 + n % 2 ^ 8 = n := by omega

/-- A number of three bytes, put together again. -/
theorem three_bytes {n : Nat} (h : n < 16777216) :
    (n / 65536 % 2 ^ 8 * 256 + n / 256 % 2 ^ 8) * 256 + n % 2 ^ 8 = n := by omega

/-- Three bytes of 0. -/
theorem u24At_zero {b : List Byte} {i : Nat} (h0 : byteAt b i = 0) (h1 : byteAt b (i + 1) = 0) (h2 : byteAt b (i + 2) = 0) :
    u24At b i = 0 := by rw [u24At, u16At, h0, h1, h2]

/-- Two bytes of 0. -/
theorem u16At_zero {b : List Byte} {i : Nat} (h0 : byteAt b i = 0) (h1 : byteAt b (i + 1) = 0) : u16At b i = 0 := by
  rw [u16At, h0, h1]

/-- The report of an entry, byte by byte up to its treatment (log 11). -/
theorem regionData_eq (i : Nat) (r : Region) :
    regionData i (some r) =
      BitVec.ofNat 8 i :: 0 :: BitVec.ofNat 8 (r.base.toNat / 65536) :: BitVec.ofNat 8 (r.base.toNat / 256) ::
        BitVec.ofNat 8 r.base.toNat :: BitVec.ofNat 8 (r.length / 65536) :: BitVec.ofNat 8 (r.length / 256) ::
        BitVec.ofNat 8 r.length :: BitVec.ofNat 8 (bit r.ctl 0 + bit r.rpt 1) :: BitVec.ofNat 8 r.treatment.code ::
        r.treatment.bytes := by
  simp only [regionData, addrBytes, bytesBE_three, b1_eq]
  rfl

/-- The report of an entry, read as a body, carries it. -/
theorem ofBody_regionData {i : Nat} {r : Region} (hlength : r.length < 16777216) (hfits : r.treatment.fits) :
    RawRegion.ofBody (regionData i (some r)) = r.carried := by
  obtain ⟨base, length, ctl, rpt, treatment⟩ := r
  have hb := three_bytes (Nat.lt_trans base.isLt (by decide))
  have hl := three_bytes hlength
  have hi : (bit ctl 0 + bit rpt 1) % 2 ^ 8 = bit ctl 0 + bit rpt 1 := by cases ctl <;> cases rpt <;> rfl
  rw [regionData_eq]
  cases treatment with
  | pass | barred =>
    exact (RawRegion.mk.injEq ..).mpr
      ⟨hb, hl, hi, rfl, rfl, rfl, rfl, rfl, rfl, rfl, u24At_zero rfl rfl rfl, u16At_zero rfl rfl, u16At_zero rfl rfl, rfl⟩
  | guarded first count =>
    obtain ⟨hfirst, hcount⟩ := hfits
    simp only [Treatment.bytes, b1_eq]
    exact (RawRegion.mk.injEq ..).mpr
      ⟨hb, hl, hi, rfl, Nat.mod_eq_of_lt hfirst, Nat.mod_eq_of_lt hcount, rfl, rfl, rfl, rfl,
        u24At_zero rfl rfl rfl, u16At_zero rfl rfl, u16At_zero rfl rfl, rfl⟩
  | observe first count stride =>
    obtain ⟨hfirst, hcount, hstride⟩ := hfits
    simp only [Treatment.bytes, b1_eq]
    exact (RawRegion.mk.injEq ..).mpr
      ⟨hb, hl, hi, rfl, rfl, rfl, Nat.mod_eq_of_lt hfirst, Nat.mod_eq_of_lt hcount, Nat.mod_eq_of_lt hstride, rfl,
        u24At_zero rfl rfl rfl, u16At_zero rfl rfl, u16At_zero rfl rfl, rfl⟩
  | redirect m target =>
    have hmap : m.code % 2 ^ 8 = m.code := by cases m <;> rfl
    simp only [Treatment.bytes, b1_eq, addrBytes, bytesBE_three]
    exact (RawRegion.mk.injEq ..).mpr
      ⟨hb, hl, hi, rfl, rfl, rfl, rfl, rfl, rfl, hmap, three_bytes (Nat.lt_trans target.isLt (by decide)),
        u16At_zero rfl rfl, u16At_zero rfl rfl, rfl⟩
  | mark value mask signal =>
    have hsignal : signal.code % 2 ^ 8 = signal.code := by cases signal <;> rfl
    simp only [Treatment.bytes, b1_eq, wordBytes_eq]
    exact (RawRegion.mk.injEq ..).mpr
      ⟨hb, hl, hi, rfl, rfl, rfl, rfl, rfl, rfl, rfl, u24At_zero rfl rfl rfl, two_bytes value.isLt, two_bytes mask.isLt, hsignal⟩

/-- The frame of an accepted definition is within R15. -/
theorem frameOk_iff {raw : RawRegion} :
    raw.frameOk = true ↔
      raw.base ≤ 0xFFFFF ∧ (1 ≤ raw.length ∧ raw.length ≤ 65536) ∧ raw.base + raw.length ≤ 0x100000 ∧
        1 ≤ raw.initiators ∧ raw.initiators ≤ 3 := by
  simp [RawRegion.frameOk, within, and_assoc]

/-- The two initiator bits are the initiators byte (R15). -/
theorem initiators_bits {n : Nat} (h : n ≤ 3) : bit (n.testBit 0) 0 + bit (n.testBit 1) 1 = n := by
  interval_cases n <;> rfl

/-- An accepted definition with its parts. -/
theorem regionCheck_parts {psel : BitVec 2} {closing : Option Nat} {taken : MapId → Bool} {raw : RawRegion} {r : Region}
    (h : raw.check psel closing taken = some r) :
    raw.frameOk = true ∧ ∃ t, raw.treatmentOf psel closing taken = some t ∧
      r = ⟨BitVec.ofNat 20 raw.base, raw.length, raw.initiators.testBit 0, raw.initiators.testBit 1, t⟩ := by
  unfold RawRegion.check at h
  split at h
  · next hframe =>
    obtain ⟨t, ht, hr⟩ := Option.map_eq_some_iff.mp h
    exact ⟨hframe, t, ht, hr.symm⟩
  · exact absurd h (Option.some_ne_none _).symm

/-- A treatment accepted from a definition is accepted again from the entry it makes, and fits its bytes. -/
theorem treatmentOf_carried {psel : BitVec 2} {closing : Option Nat} {taken : MapId → Bool} {raw : RawRegion}
    {t : Treatment} {r : Region} (hframe : raw.frameOk = true) (h : raw.treatmentOf psel closing taken = some t)
    (hr : r = ⟨BitVec.ofNat 20 raw.base, raw.length, raw.initiators.testBit 0, raw.initiators.testBit 1, t⟩) :
    r.carried.treatmentOf psel closing taken = some t ∧ t.fits := by
  obtain ⟨hbase, -, hend, -⟩ := frameOk_iff.mp hframe
  have hbaseNat : (BitVec.ofNat 20 raw.base).toNat = raw.base := by
    rw [BitVec.toNat_ofNat, Nat.mod_eq_of_lt (by omega)]
  subst hr
  unfold RawRegion.treatmentOf at h
  split at h
  · obtain rfl := Option.some.inj h
    exact ⟨rfl, trivial⟩
  · obtain rfl := Option.some.inj h
    exact ⟨rfl, trivial⟩
  · split at h
    · next hok =>
      obtain rfl := Option.some.inj h
      refine ⟨if_pos hok, ?_⟩
      simp only [within, Bool.and_eq_true, decide_eq_true_iff] at hok
      obtain ⟨⟨⟨⟨hfirst, -, hcount⟩, -⟩, -, hstride⟩, -⟩ := hok
      exact ⟨by omega, by omega, by omega⟩
    · exact absurd h (Option.some_ne_none _).symm
  · split at h
    · next hok =>
      obtain rfl := Option.some.inj h
      refine ⟨if_pos hok, ?_⟩
      simp only [Bool.and_eq_true, decide_eq_true_iff] at hok
      obtain ⟨⟨hfirst, hcount⟩, -⟩ := hok
      exact ⟨by omega, by omega⟩
    · exact absurd h (Option.some_ne_none _).symm
  · split at h
    · exact absurd h (Option.some_ne_none _).symm
    · next m hm =>
      split at h
      · next hok =>
        obtain rfl := Option.some.inj h
        refine ⟨?_, trivial⟩
        have hover : (BitVec.ofNat 20 raw.overlayBase).toNat = raw.overlayBase := by
          simp only [RawRegion.redirectOk, Bool.and_eq_true, decide_eq_true_iff] at hok
          obtain ⟨hlength, -⟩ := frameOk_iff.mp hframe |>.2
          rw [BitVec.toNat_ofNat, Nat.mod_eq_of_lt (by omega)]
        simp only [RawRegion.treatmentOf, Region.carried, Treatment.code, mapId_ofCode_code, hover]
        refine if_pos ?_
        simpa only [RawRegion.redirectOk, hbaseNat] using hok
      · exact absurd h (Option.some_ne_none _).symm
  · obtain ⟨signal, hsignal, rfl⟩ := Option.map_eq_some_iff.mp h
    have hcode : MarkSignal.ofCode signal.code = some signal := by cases signal <;> rfl
    refine ⟨?_, trivial⟩
    simp only [RawRegion.treatmentOf, Region.carried, Treatment.code, hcode, Option.map_some, BitVec.ofNat_toNat,
      BitVec.setWidth_eq]
  · exact absurd h (Option.some_ne_none _).symm

/-- An accepted entry is accepted again from its report. -/
theorem check_regionData {psel : BitVec 2} {closing : Option Nat} {taken : MapId → Bool} {raw : RawRegion} {r : Region}
    (i : Nat) (h : raw.check psel closing taken = some r) :
    (RawRegion.ofBody (regionData i (some r))).check psel closing taken = some r := by
  obtain ⟨hframe, t, ht, hr⟩ := regionCheck_parts h
  obtain ⟨hagain, hfits⟩ := treatmentOf_carried hframe ht hr
  obtain ⟨hbase, ⟨hlow, hhigh⟩, hend, hinit⟩ := frameOk_iff.mp hframe
  have hbaseNat : (BitVec.ofNat 20 raw.base).toNat = raw.base := by
    rw [BitVec.toNat_ofNat, Nat.mod_eq_of_lt (by omega)]
  have hbits := initiators_bits hinit.2
  rw [ofBody_regionData (by rw [hr]; exact Nat.lt_of_le_of_lt hhigh (by decide)) (by rw [hr]; exact hfits)]
  have hcarried : r.carried.base = raw.base ∧ r.carried.length = raw.length ∧ r.carried.initiators = raw.initiators := by
    subst hr
    exact ⟨hbaseNat, rfl, hbits⟩
  obtain ⟨hb, hl, hi⟩ := hcarried
  have hframe' : r.carried.frameOk = true := by
    rw [frameOk_iff, hb, hl, hi]
    exact ⟨hbase, ⟨hlow, hhigh⟩, hend, hinit⟩
  rw [RawRegion.check, if_pos hframe', hagain, hb, hl, hi, hr]
  rfl

/-! ## Field rules -/

/-- The raw definition of a rule without the fields its kind does not use (log 11). -/
def RawRule.used (raw : RawRule) : RawRule :=
  { raw with
    lo := if raw.kind = 2 then 0 else raw.lo
    hi := if raw.kind ≤ 1 then raw.hi else 0
    step := if raw.kind = 1 then raw.step else 0 }

/-- A 16-bit value in its two bytes. -/
theorem toNat_signedWord_value16 (signed : Bool) {n : Nat} (h : n < 65536) :
    (signedWord (value16 signed n)).toNat = n := by
  cases signed with
  | false => simp [signedWord, value16, Nat.mod_eq_of_lt h]
  | true => simp [signedWord, value16, signed16, BitVec.ofInt_toInt, Nat.mod_eq_of_lt h]

/-- The numbers of a raw rule fit their bytes. -/
def RawRule.fits (raw : RawRule) : Prop :=
  raw.word < 65536 ∧ raw.width < 256 ∧ raw.offset < 256 ∧ raw.lo < 65536 ∧ raw.hi < 65536 ∧ raw.step < 65536

/-- The numbers of a body's rule fit their bytes. -/
theorem ofBody_fits (b : List Byte) : (RawRule.ofBody b).fits :=
  ⟨u16At_lt _ _, byteAt_lt _ _, byteAt_lt _ _, u16At_lt _ _, u16At_lt _ _, u16At_lt _ _⟩

/-- The arguments of an accepted rule (R42). -/
theorem argsOk_iff {raw : RawRule} : raw.argsOk = true ↔ raw.kind ≤ 3 ∧ raw.action ≤ 2 ∧ raw.signed ≤ 1 := by
  simp [RawRule.argsOk, flagOk, and_assoc]

/-- The action of an accepted code. -/
theorem actionCode_of_le {n : Nat} (h : n ≤ 2) : ((RuleAction.ofCode n).getD .note).code = n := by
  interval_cases n <;> rfl

/-- The report of a rule, byte by byte up to its kind. -/
theorem ruleData_eq (i : Nat) (r : Rule) (count : Nat) :
    ruleData i (some r) count =
      BitVec.ofNat 8 i :: 0 :: BitVec.ofNat 8 (r.word / 256) :: BitVec.ofNat 8 r.word :: BitVec.ofNat 8 r.field.width ::
        BitVec.ofNat 8 r.field.offset :: (if r.field.signed then 1 else 0) ::
        (r.kind.bytes ++ (BitVec.ofNat 8 r.action.code :: [BitVec.ofNat 8 count])) := by
  simp only [ruleData, flagByte, b1_eq, b2_eq]
  simp

/-- The report of a rule, read as a body, carries the fields its kind uses. -/
theorem ofBody_ruleData {raw : RawRule} {i count : Nat} (hfits : raw.fits) (hargs : raw.argsOk = true) :
    RawRule.ofBody (ruleData i (some raw.toRule) count) = raw.used := by
  obtain ⟨hkind, haction, hsigned⟩ := argsOk_iff.mp hargs
  obtain ⟨hword, hwidth, hoffset, hlo, hhi, hstep⟩ := hfits
  have hcode : ((RuleAction.ofCode raw.action).getD .note).code % 2 ^ 8 = raw.action := by
    rw [actionCode_of_le haction]
    exact Nat.mod_eq_of_lt (by omega)
  have hflag : (if decide (raw.signed = 1) = true then (1 : Byte) else 0).toNat = raw.signed := by
    interval_cases hs : raw.signed <;> rfl
  have hw := two_bytes hword
  have hwi : raw.width % 2 ^ 8 = raw.width := Nat.mod_eq_of_lt hwidth
  have ho : raw.offset % 2 ^ 8 = raw.offset := Nat.mod_eq_of_lt hoffset
  have hlo' := toNat_signedWord_value16 (decide (raw.signed = 1)) hlo
  have hhi' := toNat_signedWord_value16 (decide (raw.signed = 1)) hhi
  have hl := (two_bytes (hlo'.symm ▸ hlo)).trans hlo'
  have hh := (two_bytes (hhi'.symm ▸ hhi)).trans hhi'
  have hs := two_bytes hstep
  obtain ⟨word, width, offset, signed, kind, lo, hi, step, action⟩ := raw
  dsimp only at *
  rw [ruleData_eq]
  interval_cases kind
  all_goals
    simp only [RawRule.toRule, RawRule.kindOf, RuleKind.bytes, signedBytes, wordBytes_eq, b1_eq, b2_eq]
  · exact (RawRule.mk.injEq ..).mpr ⟨hw, hwi, ho, hflag, rfl, hl, hh, u16At_zero rfl rfl, hcode⟩
  · exact (RawRule.mk.injEq ..).mpr ⟨hw, hwi, ho, hflag, rfl, hl, hh, hs, hcode⟩
  · exact (RawRule.mk.injEq ..).mpr
      ⟨hw, hwi, ho, hflag, rfl, u16At_zero rfl rfl, u16At_zero rfl rfl, u16At_zero rfl rfl, hcode⟩
  · exact (RawRule.mk.injEq ..).mpr ⟨hw, hwi, ho, hflag, rfl, hl, u16At_zero rfl rfl, u16At_zero rfl rfl, hcode⟩

/-- The fields its kind does not use make no difference to a rule. -/
theorem used_toRule (raw : RawRule) : raw.used.toRule = raw.toRule ∧ raw.used.argsOk = raw.argsOk := by
  refine ⟨?_, rfl⟩
  have hkind : raw.used.kindOf = raw.kindOf := by
    obtain ⟨word, width, offset, signed, kind, lo, hi, step, action⟩ := raw
    match kind with
    | 0 | 1 | 2 => rfl
    | n + 3 => simp [RawRule.kindOf, RawRule.used]
  simp only [RawRule.toRule, hkind]
  rfl

/-! ## The report layout -/

/-- A byte of a list of pieces of five bytes. -/
theorem byteAt_flatMap {α : Type} {f : α → List Byte} (hf : ∀ x, (f x).length = 5) (l : List α) {j : Nat} (hj : j < 5)
    {k : Nat} (hk : k < l.length) : byteAt (l.flatMap f) (j + 5 * k) = byteAt (f l[k]) j := by
  induction l generalizing k with
  | nil => exact absurd hk (Nat.not_lt_zero k)
  | cons x l ih =>
    have hx := hf x
    rw [List.flatMap_cons]
    cases k with
    | zero => exact congrArg BitVec.toNat (List.getD_append _ _ _ _ (hx.symm ▸ hj))
    | succ k =>
      have hskip : byteAt (f x ++ l.flatMap f) (j + 5 * (k + 1)) = byteAt (l.flatMap f) (j + 5 * k) := by
        rw [byteAt, List.getD_append_right _ _ _ _ (by omega), hx, byteAt]
        congr 2
      rw [hskip, ih (Nat.lt_of_succ_lt_succ hk)]
      rfl

/-- A slot of a layout as its report carries it. -/
def slotCarried (s : Option LayoutSlot) : RawSlot :=
  { wordIndex := byteAt (slotBytes s) 0
    kind := byteAt (slotBytes s) 1
    width := byteAt (slotBytes s) 2
    offset := byteAt (slotBytes s) 3
    signed := byteAt (slotBytes s) 4 }

/-- The report of a layout, read as a body, carries its slots. -/
theorem rawSlots_layoutData (l : Layout) : rawSlotsOfBody (layoutData (some l)) = l.slots.map slotCarried := by
  refine Vector.ext fun k hk => ?_
  have hlen : k < l.slots.toList.length := by simpa using hk
  have hbyte {j : Nat} (hj : j < 5) : byteAt (layoutData (some l)) (2 + j + 5 * k) = byteAt (slotBytes l.slots[k]) j := by
    have h := byteAt_flatMap (f := slotBytes) length_slotBytes l.slots.toList hj hlen
    rw [show 2 + j + 5 * k = j + 5 * k + 1 + 1 by omega]
    simp only [layoutData, b1_eq, List.cons_append, List.nil_append, byteAt_succ]
    rw [h]
    rfl
  simp only [rawSlotsOfBody, Vector.getElem_ofFn, Vector.getElem_map, slotCarried]
  rw [← hbyte (j := 0) (by omega), ← hbyte (j := 1) (by omega), ← hbyte (j := 2) (by omega),
    ← hbyte (j := 3) (by omega), ← hbyte (j := 4) (by omega)]

/-- A kind's code names it. -/
theorem kindOfCode {n : Nat} {k : ReportKind} (h : ReportKind.ofCode n = some k) (i : Nat) (f : Field) :
    slotKindCode (some ⟨i, k, f⟩) = n := by
  unfold ReportKind.ofCode at h
  split at h
  all_goals cases h
  all_goals rfl

/-- An accepted slot is accepted again, as the same slot of the same kind, from a form that gives every slot in use back
and an unused one with kind 0. -/
theorem slot_again {closing : Nat} {s : RawSlot} {form : Option LayoutSlot → RawSlot} (hnone : (form none).kind = 0)
    (hsome : ∀ k, ReportKind.ofCode s.kind = some k → form s.toSlot = s) (h : s.ok closing = true) :
    (form s.toSlot).ok closing = true ∧ (form s.toSlot).toSlot = s.toSlot ∧ (form s.toSlot).kind = s.kind := by
  cases hcode : ReportKind.ofCode s.kind with
  | none =>
    have hslot : s.toSlot = none := by rw [RawSlot.toSlot, hcode]; rfl
    have hkind : s.kind = 0 := by
      rw [RawSlot.ok, hcode] at h
      exact of_decide_eq_true h
    rw [hslot, RawSlot.ok, RawSlot.toSlot, hnone, hkind]
    exact ⟨rfl, rfl, rfl⟩
  | some k =>
    rw [hsome k hcode]
    exact ⟨h, rfl, rfl⟩

/-- A slot in use of an accepted layout (R101). -/
theorem slotOk_iff {closing : Nat} {s : RawSlot} {k : ReportKind} (hk : ReportKind.ofCode s.kind = some k) :
    s.ok closing = true ↔
      s.wordIndex ≤ closing ∧ (1 ≤ s.width ∧ s.offset ≤ 15 ∧ s.width + s.offset ≤ 16) ∧ s.signed ≤ 1 ∧
        kindFieldOk k s.field = true := by
  have hshape : s.field.shapeOk = true ↔ 1 ≤ s.width ∧ s.offset ≤ 15 ∧ s.width + s.offset ≤ 16 := shapeOk_iff
  rw [← hshape, RawSlot.ok, hk]
  simp only [flagOk, Bool.and_eq_true, decide_eq_true_iff, and_assoc]

/-- The report of an accepted slot in use carries it. -/
theorem slotCarried_toSlot {closing : Nat} {s : RawSlot} {k : ReportKind} (hclosing : closing ≤ 63)
    (hk : ReportKind.ofCode s.kind = some k) (h : s.ok closing = true) : slotCarried s.toSlot = s := by
  obtain ⟨hindex, ⟨hlow, hoffset, hfit⟩, hsigned, -⟩ := (slotOk_iff hk).mp h
  have hslot : s.toSlot = some ⟨s.wordIndex, k, s.field⟩ := by rw [RawSlot.toSlot, hk]; rfl
  have hcode := kindOfCode hk s.wordIndex s.field
  have hkind : s.kind < 7 := by
    rw [← hcode]
    cases k <;> simp [slotKindCode]
  obtain ⟨index, kind, width, offset, signed⟩ := s
  rw [hslot]
  simp only [RawSlot.field] at *
  simp [slotCarried, slotBytes, b1_eq, flagByte, byteAt_zero, byteAt_succ, hcode]
  refine ⟨by omega, by omega, by omega, by omega, ?_⟩
  interval_cases signed <;> rfl

/-- An accepted layout with its parts. -/
theorem checkLayout_parts {closing : Nat} {slots : Vector RawSlot 8} {l : Layout} (h : checkLayout closing slots = some l) :
    closing ≤ 63 ∧ (∀ s ∈ slots.toList, s.ok closing = true) ∧
      ((slots.toList.map RawSlot.kind).filter (· ≠ 0)).Nodup ∧ l = ⟨closing, slots.map RawSlot.toSlot⟩ := by
  unfold checkLayout at h
  split at h
  · next hok =>
    simp only [Bool.and_eq_true, decide_eq_true_iff, List.all_eq_true] at hok
    obtain ⟨⟨hclosing, hslots⟩, hnodup⟩ := hok
    exact ⟨hclosing, hslots, hnodup, (Option.some.inj h).symm⟩
  · exact absurd h (Option.some_ne_none _).symm

/-- An accepted layout is accepted again from a form that gives every slot in use back. -/
theorem checkLayout_again {closing : Nat} {slots : Vector RawSlot 8} {l : Layout} {form : Option LayoutSlot → RawSlot}
    (h : checkLayout closing slots = some l) (hnone : (form none).kind = 0)
    (hsome : ∀ s k, ReportKind.ofCode s.kind = some k → s.ok closing = true → form s.toSlot = s) :
    checkLayout closing (l.slots.map form) = some l := by
  obtain ⟨hclosing, hslots, hnodup, hl⟩ := checkLayout_parts h
  have hagain (s : RawSlot) (hs : s ∈ slots.toList) :=
    slot_again hnone (fun k hk => hsome s k hk (hslots s hs)) (hslots s hs)
  have hforms : l.slots.map form = slots.map fun s => form s.toSlot := by
    rw [hl, Vector.map_map]
    rfl
  have hkinds : ((slots.map fun s => form s.toSlot).toList.map RawSlot.kind) = slots.toList.map RawSlot.kind := by
    rw [Vector.toList_map, List.map_map]
    exact List.map_congr_left fun s hs => (hagain s hs).2.2
  have hsame : (slots.map fun s => form s.toSlot).map RawSlot.toSlot = slots.map RawSlot.toSlot := by
    rw [Vector.map_map]
    exact Vector.map_congr_left fun s hs => (hagain s (by simpa using hs)).2.1
  rw [hforms, checkLayout, hkinds, hsame, if_pos, hl]
  simp only [Bool.and_eq_true, decide_eq_true_iff, List.all_eq_true]
  refine ⟨⟨hclosing, fun x hx => ?_⟩, hnodup⟩
  rw [Vector.toList_map] at hx
  obtain ⟨s, hs, rfl⟩ := List.mem_map.mp hx
  exact (hagain s hs).1

/-- An accepted layout is accepted again from its report. -/
theorem check_layoutData {closing : Nat} {slots : Vector RawSlot 8} {l : Layout} (h : checkLayout closing slots = some l) :
    checkLayout (byteAt (layoutData (some l)) 1) (rawSlotsOfBody (layoutData (some l))) = some l := by
  obtain ⟨hclosing, -, -, hl⟩ := checkLayout_parts h
  have hbyte : byteAt (layoutData (some l)) 1 = closing := by
    rw [hl]
    simp only [layoutData, b1_eq, List.cons_append, List.nil_append, byteAt_succ, byteAt_zero, BitVec.toNat_ofNat]
    omega
  rw [hbyte, rawSlots_layoutData]
  exact checkLayout_again h rfl fun s k hk hs => slotCarried_toSlot hclosing hk hs

/-! ## Plan steps -/

/-- An optional criterion without a value that is not present. -/
def criterionUsed (p : Nat × Nat) : Nat × Nat := (p.1, if p.1 = 1 then p.2 else 0)

/-- A raw step without the fields it does not use (R139, log 11). -/
def RawStep.used (raw : RawStep) : RawStep :=
  { raw with
    arm := if raw.start = 1 then raw.arm else 0
    reportsMin := if raw.reportsMin = 0 then 1 else raw.reportsMin
    rslMin := criterionUsed raw.rslMin
    rslMax := criterionUsed raw.rslMax
    mseMax := criterionUsed raw.mseMax
    xpdMin := criterionUsed raw.xpdMin
    uncorrMax := criterionUsed raw.uncorrMax
    modstepMin := criterionUsed raw.modstepMin }

/-- A signed criterion without an unused value is the same. -/
theorem rawSigned_used (p : Nat × Nat) : rawSigned (criterionUsed p) = rawSigned p := by
  by_cases h : p.1 = 1
  · simp [rawSigned, criterionUsed, h]
  · simp [rawSigned, criterionUsed, h]

/-- An unsigned criterion without an unused value is the same. -/
theorem rawUnsigned_used (p : Nat × Nat) : rawUnsigned (criterionUsed p) = rawUnsigned p := by
  by_cases h : p.1 = 1
  · simp [rawUnsigned, criterionUsed, h]
  · simp [rawUnsigned, criterionUsed, h]

/-- The fields a step does not use make no difference to it. -/
theorem used_toStep (raw : RawStep) : raw.used.toStep = raw.toStep := by
  simp only [RawStep.toStep, RawStep.used, rawSigned_used, rawUnsigned_used]
  by_cases hs : raw.start = 1 <;> by_cases hr : raw.reportsMin = 0 <;> simp [hs, hr] <;> rfl

/-- The conditions R140 puts on a step, one by one. -/
theorem stepOk_iff {raw : RawStep} :
    raw.ok = true ↔
      (1 ≤ raw.mask ∧ raw.mask ≤ 15) ∧ raw.start ≤ 1 ∧ (raw.start = 0 ∨ 1 ≤ raw.arm ∧ raw.arm ≤ 3600) ∧
        raw.settle ≤ 600 ∧ (1 ≤ raw.measure ∧ raw.measure ≤ 86400) ∧ raw.needsTransmit ≤ 1 ∧ raw.rslMin.1 ≤ 1 ∧
        raw.rslMax.1 ≤ 1 ∧ raw.mseMax.1 ≤ 1 ∧ raw.xpdMin.1 ≤ 1 ∧ raw.uncorrMax.1 ≤ 1 ∧ raw.modstepMin.1 ≤ 1 ∧
        (raw.modstepMin.1 = 0 ∨ raw.modstepMin.2 ≤ 15) ∧
        ∀ lo hi, rawSigned raw.rslMin = some lo → rawSigned raw.rslMax = some hi → lo ≤ hi := by
  have hbounds : (match rawSigned raw.rslMin, rawSigned raw.rslMax with
      | some lo, some hi => decide (lo ≤ hi)
      | _, _ => true) = true ↔
      ∀ lo hi, rawSigned raw.rslMin = some lo → rawSigned raw.rslMax = some hi → lo ≤ hi := by
    cases rawSigned raw.rslMin <;> cases rawSigned raw.rslMax <;> simp
  rw [← hbounds]
  simp only [RawStep.ok, within, flagOk, Bool.and_eq_true, Bool.or_eq_true, decide_eq_true_iff, and_assoc] <;> rfl

/-- A step that passes still passes without the fields it does not use. -/
theorem used_ok {raw : RawStep} (h : raw.ok = true) : raw.used.ok = true := by
  obtain ⟨hmask, hstart, harm, hsettle, hmeasure, hneeds, h1, h2, h3, h4, h5, h6, hmodstep, hbounds⟩ := stepOk_iff.mp h
  refine stepOk_iff.mpr ⟨hmask, hstart, ?_, hsettle, hmeasure, hneeds, h1, h2, h3, h4, h5, h6, ?_, ?_⟩
  · by_cases hs : raw.start = 1
    · simpa [RawStep.used, hs] using harm
    · exact Or.inl (show raw.start = 0 by omega)
  · by_cases hp : raw.modstepMin.1 = 1
    · simpa [RawStep.used, criterionUsed, hp] using hmodstep
    · exact Or.inl (show raw.modstepMin.1 = 0 by omega)
  · intro lo hi hlo hhi
    exact hbounds lo hi ((rawSigned_used _).symm.trans hlo) ((rawSigned_used _).symm.trans hhi)

/-- A signed criterion's bytes. -/
theorem optSigned_rawSigned {p : Nat × Nat} (hp : p.1 ≤ 1) (hv : p.2 < 65536) :
    optSigned (rawSigned p) =
      [BitVec.ofNat 8 (criterionUsed p).1, BitVec.ofNat 8 ((criterionUsed p).2 / 256),
        BitVec.ofNat 8 (criterionUsed p).2] := by
  obtain ⟨present, v⟩ := p
  have hword : (signedWord (signed16 v)).toNat = v := toNat_signedWord_value16 true hv
  rcases Nat.le_one_iff_eq_zero_or_eq_one.mp hp with h | h <;> dsimp only at h <;> subst h
  · simp [optSigned, optBytes, rawSigned, criterionUsed]
  · simp [optSigned, optBytes, rawSigned, criterionUsed, signedBytes, wordBytes_eq, hword]

/-- An unsigned criterion's bytes, of four. -/
theorem opt4_rawUnsigned {p : Nat × Nat} (hp : p.1 ≤ 1) :
    opt4 (rawUnsigned p) =
      [BitVec.ofNat 8 (criterionUsed p).1, BitVec.ofNat 8 ((criterionUsed p).2 / 16777216),
        BitVec.ofNat 8 ((criterionUsed p).2 / 65536), BitVec.ofNat 8 ((criterionUsed p).2 / 256),
        BitVec.ofNat 8 (criterionUsed p).2] := by
  obtain ⟨present, v⟩ := p
  rcases Nat.le_one_iff_eq_zero_or_eq_one.mp hp with h | h <;> dsimp only at h <;> subst h
  · simp [opt4, optBytes, rawUnsigned, criterionUsed]
  · simp [opt4, optBytes, rawUnsigned, criterionUsed, b4_eq]

/-- An unsigned criterion's bytes, of one. -/
theorem opt1_rawUnsigned {p : Nat × Nat} (hp : p.1 ≤ 1) :
    opt1 (rawUnsigned p) = [BitVec.ofNat 8 (criterionUsed p).1, BitVec.ofNat 8 (criterionUsed p).2] := by
  obtain ⟨present, v⟩ := p
  rcases Nat.le_one_iff_eq_zero_or_eq_one.mp hp with h | h <;> dsimp only at h <;> subst h
  · simp [opt1, optBytes, rawUnsigned, criterionUsed]
  · simp [opt1, optBytes, rawUnsigned, criterionUsed, b1_eq]

/-- The mask of the carriers of a mask. -/
theorem carriersMask_maskCarriers {n : Nat} (h : n ≤ 15) : carriersMask (maskCarriers n) = n := by
  interval_cases n <;> rfl

/-- A flag of at most 1 as its byte. -/
theorem flagByte_decide {n : Nat} (h : n ≤ 1) : flagByte (decide (n = 1)) = [BitVec.ofNat 8 n] := by
  interval_cases n <;> rfl

/-- A start of at most 1 as its code. -/
theorem startCode_of_le {n : Nat} (h : n ≤ 1) : (if n = 1 then StepStart.onMark else .immediate).code = n := by
  interval_cases n <;> rfl

/-- The numbers of a raw step fit their bytes. -/
def RawStep.fits (raw : RawStep) : Prop :=
  raw.arm < 65536 ∧ raw.reportsMin < 65536 ∧ raw.rslMin.2 < 65536 ∧ raw.rslMax.2 < 65536 ∧ raw.mseMax.2 < 65536 ∧
    raw.xpdMin.2 < 65536 ∧ raw.uncorrMax.2 < 4294967296 ∧ raw.modstepMin.2 < 256

/-- The numbers of a body's step fit their bytes. -/
theorem stepOfBody_fits (b : List Byte) : (RawStep.ofBody b).fits :=
  ⟨u16At_lt _ _, u16At_lt _ _, u16At_lt _ _, u16At_lt _ _, u16At_lt _ _, u16At_lt _ _, u32At_lt _ _, byteAt_lt _ _⟩

/-- The values of a criterion that is used fit as before. -/
theorem criterionUsed_lt {p : Nat × Nat} {n : Nat} (hn : 0 < n) (h : p.2 < n) : (criterionUsed p).2 < n := by
  unfold criterionUsed
  dsimp only
  split
  · exact h
  · exact hn

/-- A number of four bytes, put together again. -/
theorem four_bytes {n : Nat} (h : n < 4294967296) :
    (n / 16777216 % 2 ^ 8 * 256 + n / 65536 % 2 ^ 8) * 65536 + (n / 256 % 2 ^ 8 * 256 + n % 2 ^ 8) = n := by omega

/-- The report of a step, read as a body, carries the fields it uses. -/
theorem ofBody_stepData {raw : RawStep} {i : Nat} {a : Acu} (hfits : raw.fits) (hok : raw.ok = true) :
    RawStep.ofBody (stepData i a (some raw.toStep)) = raw.used := by
  obtain ⟨hmask, hstart, -, hsettle, hmeasure, hneeds, h1, h2, h3, h4, h5, h6, -, -⟩ := stepOk_iff.mp hok
  obtain ⟨harm, hreports, hv1, hv2, hv3, hv4, hv5, hv6⟩ := hfits
  have harm' : (if raw.start = 1 then raw.arm else 0) < 65536 := by split <;> omega
  have hreports' : (if raw.reportsMin = 0 then 1 else raw.reportsMin) < 65536 := by split <;> omega
  have hu1 := criterionUsed_lt (by decide) hv1
  have hu2 := criterionUsed_lt (by decide) hv2
  have hu3 := criterionUsed_lt (by decide) hv3
  have hu4 := criterionUsed_lt (by decide) hv4
  have hu5 := criterionUsed_lt (by decide) hv5
  have hu6 := criterionUsed_lt (by decide) hv6
  have hbytes : stepData i a (some raw.toStep) =
      BitVec.ofNat 8 i :: BitVec.ofNat 8 a.planLength :: (if a.stopOnFail then 1 else 0) :: 0 ::
        ([BitVec.ofNat 8 raw.mask, BitVec.ofNat 8 raw.start] ++
          b2 (if raw.start = 1 then raw.arm else 0) ++ b2 raw.settle ++ b4 raw.measure ++
          [BitVec.ofNat 8 raw.needsTransmit] ++ b2 (if raw.reportsMin = 0 then 1 else raw.reportsMin) ++
          optSigned (rawSigned raw.rslMin) ++ optSigned (rawSigned raw.rslMax) ++ optSigned (rawSigned raw.mseMax) ++
          optSigned (rawSigned raw.xpdMin) ++ opt4 (rawUnsigned raw.uncorrMax) ++
          opt1 (rawUnsigned raw.modstepMin)) := by
    simp only [stepData, PlanStep.bytes, RawStep.toStep, setByte, carriersMask_maskCarriers hmask.2, b1_eq,
      startCode_of_le hstart, flagByte_decide hneeds]
    rfl
  rw [hbytes, optSigned_rawSigned h1 hv1, optSigned_rawSigned h2 hv2, optSigned_rawSigned h3 hv3,
    optSigned_rawSigned h4 hv4, opt4_rawUnsigned h5, opt1_rawUnsigned h6, b2_eq, b2_eq, b2_eq, b4_eq]
  have hbyte {n : Nat} (hn : n < 256) : n % 2 ^ 8 = n := Nat.mod_eq_of_lt hn
  have hpresent {p : Nat × Nat} (hp : p.1 ≤ 1) : (criterionUsed p).1 % 2 ^ 8 = (criterionUsed p).1 :=
    hbyte (Nat.lt_of_le_of_lt hp (by decide))
  simp only [RawStep.ofBody, RawStep.used, u16At, u32At, List.cons_append, List.nil_append, byteAt_succ, byteAt_zero,
    BitVec.toNat_ofNat]
  exact (RawStep.mk.injEq ..).mpr
    ⟨hbyte (by omega), hbyte (by omega), two_bytes harm', two_bytes (by omega), four_bytes (by omega), hbyte (by omega),
      two_bytes hreports', Prod.ext (hpresent h1) (two_bytes hu1), Prod.ext (hpresent h2) (two_bytes hu2),
      Prod.ext (hpresent h3) (two_bytes hu3), Prod.ext (hpresent h4) (two_bytes hu4),
      Prod.ext (hpresent h5) (four_bytes hu5), Prod.ext (hpresent h6) (hbyte hu6)⟩

/-- An accepted step with its parts. -/
theorem stepCheck_parts {raw : RawStep} {p : PlanStep} (h : raw.check = some p) : raw.ok = true ∧ p = raw.toStep := by
  unfold RawStep.check at h
  split at h
  · next hok => exact ⟨hok, (Option.some.inj h).symm⟩
  · exact absurd h (Option.some_ne_none _).symm

/-- The header of a step's report, as the header of a load (R141). -/
theorem stepData_header {i : Nat} {a : Acu} {p : PlanStep} (hi : i < 256) (hplan : a.planLength < 256) :
    byteAt (stepData i a (some p)) 0 = i ∧ byteAt (stepData i a (some p)) 1 = a.planLength ∧
      byteAt (stepData i a (some p)) 2 ≤ 1 ∧ byteAt (stepData i a (some p)) 3 = 0 := by
  have hbytes : stepData i a (some p) =
      BitVec.ofNat 8 i :: BitVec.ofNat 8 a.planLength :: (if a.stopOnFail then 1 else 0) :: 0 :: p.bytes := by
    simp only [stepData, b1_eq]
    rfl
  rw [hbytes]
  refine ⟨Nat.mod_eq_of_lt hi, Nat.mod_eq_of_lt hplan, ?_, rfl⟩
  show (if a.stopOnFail then (1 : Byte) else 0).toNat ≤ 1
  cases a.stopOnFail <;> decide

/-- Settles O58: each accepted item is carried by its report, field by field, and its check reads the same fields; the
fields that it does not use change neither the check nor the item. -/
theorem reportsReloadTheirItems : Obligations.ReportsReloadTheirItems := by
  refine ⟨?_, ?_, ?_, ?_⟩
  · intro psel closing taken b r i h
    refine ⟨length_regionData _ _, ?_, rfl, check_regionData _ h⟩
    simp only [regionData, b1_eq, List.cons_append, byteAt_zero, BitVec.toNat_ofNat]
    omega
  · intro others b i count hcount hargs _ r data
    have hreload : RawRule.ofBody data = (RawRule.ofBody b).used := ofBody_ruleData (ofBody_fits b) hargs
    obtain ⟨hrule, hsame⟩ := used_toRule (RawRule.ofBody b)
    refine ⟨length_ruleData _ _ _, ?_, rfl, ?_, ?_, ?_⟩
    · simp only [data, ruleData, b1_eq, List.cons_append, byteAt_zero, BitVec.toNat_ofNat]
      omega
    · show byteAt (ruleData i.val (some r) count) 15 = count
      cases hr : r.kind <;>
        simp [ruleData, hr, RuleKind.bytes, signedBytes, wordBytes_eq, b2_eq, b1_eq, flagByte, byteAt_zero,
          byteAt_succ] <;> omega
    · rw [hreload, hsame, hargs]
    · rw [hreload, hrule]
  · intro b l h
    exact ⟨length_layoutData _, rfl, check_layoutData h⟩
  · intro b p a i h hlow hhigh
    obtain ⟨hok, rfl⟩ := stepCheck_parts h
    obtain ⟨hindex, hplan, hflag, hset⟩ :=
      stepData_header (p := (RawStep.ofBody b).toStep) (Nat.lt_trans i.isLt (by decide))
        (Nat.lt_of_le_of_lt hhigh (by decide))
    have hreload := ofBody_stepData (i := i.val) (a := a) (stepOfBody_fits b) hok
    refine ⟨length_stepData _ _ _, hindex, ?_⟩
    refine checkStepBody_of_ok (hplan ▸ hlow) (hplan ▸ hhigh) hflag (Or.inr ⟨hset, ?_, ?_⟩)
    · rw [hreload]
      exact used_ok hok
    · rw [hreload, used_toStep]

end Sys2Proof.Machine
end

