-- ==== Sys2Proof/Proofs/ProfileWrites.lean ====
section
/-! SUPPORT. The stored image of the profile, the order of its writes, and the ends of PHC's cycles. -/

namespace Sys2Proof.Machine

set_option Elab.async false

/-! ## The ends of PHC's cycles (R27) -/

/-- A cycle of PHC that ended OK. -/
theorem exec_phcOk {s : State} {p : MCycle} {q : IntRequest} {rest : List IntRequest} (w : Word) (hrun : s.running = true)
    (hp : s.part.mpc.cycle = some p) (hint : p.client = .int) (hq : s.part.mpc.intQueue = q :: rest)
    (howner : q.owner = .phc) :
    exec (.memoryAnswer (.ok w)) s =
      .next
        ⟨arbitrate (phcEnded (.ok w) { s.part with mpc := { s.part.mpc with cycle := none, intQueue := rest } }),
          s.pending⟩ := by
  rw [exec_ok w s hrun, memoryEnd_int _ _ _ _ _ hp hint hq, howner]
  rfl

/-- A cycle of PHC that memory answered FAULT. -/
theorem exec_phcFault {s : State} {p : MCycle} {q : IntRequest} {rest : List IntRequest} (hrun : s.running = true)
    (hp : s.part.mpc.cycle = some p) (hint : p.client = .int) (hq : s.part.mpc.intQueue = q :: rest)
    (howner : q.owner = .phc) :
    exec (.memoryAnswer .fault) s =
      .next
        ⟨arbitrate
            (phcEnded (.error .fault)
              { s.part with
                mpc :=
                  { s.part.mpc with
                    cycle := none
                    intQueue := rest
                    faults := min 4294967295 (s.part.mpc.faults + 1)
                    lastFailure := some ⟨.int, some .phc, p.request, .fault⟩ } }),
          s.pending⟩ := by
  refine (exec_failure .fault s hrun).trans ?_
  rw [memoryEnd_int _ _ _ _ _ hp hint hq, howner]
  refine next_congr (congrArg arbitrate (congrArg (fun m => phcEnded (.error .fault) { s.part with mpc := m }) ?_))
  simp [Mpc.ended, Mpc.failed, Mpc.headOwner, satInc, satAdd, Config.max32, hint, hq, howner]

/-! ## The writes of an image (R170) -/

/-- A write of an image that ended OK, with writes after it. -/
theorem imageWriteEnded_next {d : Lc44} {image : List Word} {k : Nat} (hw : d.phc.work = .writing image k)
    (hk : k < 3696) :
    imageWriteEnded none d =
      { d with
        phc :=
          { d.phc with
            work := .writing image (k + 1), operation := { d.phc.operation with writes := d.phc.operation.writes + 1 } }
        mpc :=
          { d.mpc with
            intQueue := d.mpc.intQueue ++
              [⟨.phc, ⟨d.profileAddr (imageWrite image (k + 1)).1, .write (imageWrite image (k + 1)).2⟩⟩] } } := by
  have hn : k + 1 < Config.imageWrites := by
    simp only [Config.imageWrites]
    omega
  simp only [imageWriteEnded, hw, if_pos hn]
  rfl

/-- The last write of an image ended OK. -/
theorem imageWriteEnded_last {d : Lc44} {image : List Word} (hw : d.phc.work = .writing image 3696) :
    imageWriteEnded none d =
      writingDone (d.onPhc (Phc.onRecord fun r => { r with writes := r.writes + 1 })) := by
  simp only [imageWriteEnded, hw]
  rfl

/-- PHC's phase is told to CCL, which takes it with no cycle in progress, and to TMU (R164). -/
theorem setPhase_eq (p : Phase) (d : Lc44) :
    setPhase p d =
      { d with
        phc := { d.phc with phase := p }
        ccl :=
          if d.iport.cycle = none then
            { d.ccl with
              phase := p
              mirror := if d.sli.mirrorEnabled then some d.sli.mirrorAddress else none }
          else d.ccl
        tmu := d.tmu.recomputed p } := by
  by_cases hc : d.iport.cycle = none
  · rw [if_pos hc]
    exact congrArg recomputeTone (syncCcl_free (d.onPhc fun x => { x with phase := p }) hc)
  · rw [if_neg hc]
    exact congrArg recomputeTone (syncCcl_busy (d.onPhc fun x => { x with phase := p }) hc)

/-- A SAVE is done. -/
theorem writingDone_saving {d : Lc44} (h : d.phc.phop.isHandingOver = false) :
    writingDone d =
      { d with
        phc := { d.phc with phop := .none, work := .idle, operation := { d.phc.operation with result := some .done } } } := by
  rw [writingDone, h]
  rfl

/-- A handover is done, and the phase is SERVICE. -/
theorem writingDone_handingOver {d : Lc44} (h : d.phc.phop.isHandingOver = true) :
    writingDone d =
      { d with
        phc :=
          { d.phc with
            phop := .none, work := .idle, phase := .service, operation := { d.phc.operation with result := some .done } }
        ccl :=
          if d.iport.cycle = none then
            { d.ccl with
              phase := .service
              mirror := if d.sli.mirrorEnabled then some d.sli.mirrorAddress else none }
          else d.ccl
        tmu := d.tmu.recomputed .service } := by
  rw [writingDone, h]
  exact setPhase_eq _ _

/-- A write of an image failed. -/
theorem imageWriteEnded_failed {d : Lc44} {image : List Word} {k : Nat} (f : MFailure)
    (hw : d.phc.work = .writing image k) :
    imageWriteEnded (some f) d =
      { d with
        phc :=
          { d.phc with
            phop := .none
            work := .idle
            operation :=
              { d.phc.operation with
                writes := d.phc.operation.writes + 1
                result := some .failed
                cause := if d.phc.phop.isHandingOver then some .write else none
                failOffset := some (imageWrite image k).1
                failOutcome := some f } } } := by
  simp only [imageWriteEnded, hw]
  rfl

/-- What SAVE begins (R169, R170). -/
theorem beginSave_eq {d : Lc44} {image : List Word} (himage : saveImage d = image) :
    beginSave d =
      { d with
        phc :=
          { d.phc with
            phop := .saving
            operation := ⟨.save, some .running, none, none, 0, none, none⟩
            work := .writing image 0 }
        mpc := { d.mpc with intQueue := d.mpc.intQueue ++ [⟨.phc, ⟨d.profileAddr 0, .write 0⟩⟩] } } := by
  subst himage
  rfl

/-- The states of the trial in which a SAVE is taken. -/
theorem letsSave_iff (t : Tru) : t.letsSave = true ↔ t.state = .idle ∨ t.state = .open ∧ t.due = none := by
  cases hs : t.state <;> cases hd : t.due <;> simp [Tru.letsSave, Tru.openUndue, hs, hd]

/-! ## The lengths of the stored forms (section 11.1) -/

/-- The length of a list of pieces of one length. -/
theorem length_flatMap_const {α β : Type} {f : α → List β} {n : Nat} {l : List α} (h : ∀ x ∈ l, (f x).length = n) :
    (l.flatMap f).length = n * l.length := by
  rw [List.length_flatMap, List.map_congr_left h, List.map_const', List.sum_replicate, smul_eq_mul, Nat.mul_comm]

theorem length_treatmentWords (t : Treatment) : t.words.length = 3 := by cases t <;> rfl

theorem length_regionWords (r : Option Region) : (regionWords r).length = 6 := by
  cases r with
  | none => rfl
  | some r => simp [regionWords, length_treatmentWords]

theorem length_ruleKindWords (k : RuleKind) : k.words.length = 3 := by cases k <;> rfl

theorem length_ruleWords (r : Option Rule) : (ruleWords r).length = 5 := by
  cases r with
  | none => rfl
  | some r => simp [ruleWords, length_ruleKindWords]

theorem length_layoutWords (l : Option Layout) : (layoutWords l).length = 11 := by
  cases l with
  | none => rfl
  | some l => simp [layoutWords]

theorem length_carrierWords (s : CarrierSettings) : (carrierWords s).length = 4 := rfl

theorem length_planWords (p : Option PlanStep) : (planWords p).length = 12 := by cases p <;> rfl

theorem length_resultWords (r : CarrierResult) : (resultWords r).length = 10 := rfl

theorem length_logWords {r : LogRecord} (h : r.results.length ≤ 4) : (logWords r).length = 44 := by
  have hresults := length_flatMap_const (l := r.results) fun x _ => length_resultWords x
  simp only [logWords, words32, List.length_append, hresults, List.length_cons, List.length_nil, List.length_replicate]
  omega

theorem length_handoverRecord (d : Lc44) : (handoverRecord d).length = 32 := rfl

theorem length_headerWords (phase : Phase) (d : Lc44) : (headerWords phase d).length = 15 := rfl

/-- The body of a profile whose log fits its room (section 11.1). -/
theorem length_profileBody {record : List Word} {d : Lc44} (hrecord : record.length = 32) (hlog : d.acu.log.length ≤ 64)
    (hresults : ∀ r ∈ d.acu.log, r.results.length ≤ 4) : (profileBody record d).length = 3680 := by
  have hregions := length_flatMap_const (l := d.ccl.table.toList) fun x _ => length_regionWords x
  have hrules := length_flatMap_const (l := d.fgd.rules.toList) fun x _ => length_ruleWords x
  have hplan := length_flatMap_const (l := d.acu.plan.toList) fun x _ => length_planWords x
  have hcarriers := length_flatMap_const (l := d.rcu.records.toList) fun x _ => length_carrierWords x.settings
  have hrecords := length_flatMap_const (l := d.acu.log) fun x hx => length_logWords (hresults x hx)
  have hfour : d.rcu.records.toList.length = 4 := rfl
  simp only [profileBody, List.length_append, hregions, hrules, hplan, hcarriers, hrecords, length_layoutWords, hrecord,
    List.length_replicate, Vector.length_toList, hfour, Config.logRoom]
  omega

/-! ## The sum of an image (R169) -/

/-- The sum of two parts. -/
theorem wordSum_append (l m : List Word) : wordSum (l ++ m) = wordSum l + wordSum m := by
  have hfrom (l : List Word) (w : Word) : l.foldl (· + ·) w = w + wordSum l := by
    induction l generalizing w with
    | nil => exact (BitVec.add_zero w).symm
    | cons x l ih => 
      rw [wordSum, List.foldl_cons, List.foldl_cons, ih, ih (0 + x), show (0 : Word) + x = x from BitVec.zero_add x,
        BitVec.add_assoc]
  rw [wordSum, List.foldl_append, hfrom]
  rfl

/-- An image sums to 0. -/
theorem wordSum_profileImage (phase : Phase) (record : List Word) (d : Lc44) :
    wordSum (profileImage phase record d) = 0 := by
  have hone (w : Word) : wordSum [w] = w := BitVec.zero_add w
  rw [profileImage, wordSum_append, wordSum_append, hone]
  generalize wordSum (headerWords phase d) = h
  generalize wordSum (profileBody record d) = b
  bv_omega

/-- The first words of an image, and its length. -/
theorem profileImage_facts {phase : Phase} {record : List Word} {d : Lc44} (hrecord : record.length = 32)
    (hlog : d.acu.log.length ≤ 64) (hresults : ∀ r ∈ d.acu.log, r.results.length ≤ 4) :
    (profileImage phase record d).length = 3696 ∧ wordSum (profileImage phase record d) = 0 ∧
      (profileImage phase record d)[0]? = some 0x5A4B ∧ (profileImage phase record d)[1]? = some 1 ∧
      ((profileImage phase record d)[2]?.map fun w => w.toNat % 4) = some phase.code := by
  refine ⟨?_, wordSum_profileImage _ _ _, rfl, rfl, ?_⟩
  · simp only [profileImage, List.length_append, length_profileBody hrecord hlog hresults, length_headerWords,
      List.length_cons, List.length_nil]
  · change some ((natWord (phase.code + d.sli.mirrorAddress.toNat / 65536 * 256 + bit d.sli.mirrorEnabled 15)).toNat % 4)
      = some phase.code
    have hcode : phase.code < 4 := by cases phase <;> decide
    have hbit : bit d.sli.mirrorEnabled 15 % 4 = 0 := by cases d.sli.mirrorEnabled <;> rfl
    rw [natWord, BitVec.toNat_ofNat]
    congr 1
    omega

/-! ## The order of the writes (R170) -/

/-- The writes of an image, one by one. -/
theorem imageWrite_facts (image : List Word) :
    imageWrite image 0 = (0, 0) ∧
    (∀ k, 1 ≤ k → k ≤ 3680 → imageWrite image k = (0x0AF + k, image.getD (15 + k) 0)) ∧
    (∀ k, 3681 ≤ k → k ≤ 3695 → imageWrite image k = (k - 3680, image.getD (k - 3680) 0)) ∧
    imageWrite image 3696 = (0, image.getD 0 0) := by
  refine ⟨rfl, fun k hlow hhigh => ?_, fun k hlow hhigh => ?_, rfl⟩
  · rw [imageWrite, if_neg (by omega), if_pos (show k ≤ Config.bodyWords from hhigh), includedOffset,
      if_neg (by simp only [Config.headerWords]; omega),
      Nat.add_comm k 15]
    congr 1
    simp only [Config.headerWords, Config.bodyStart]
    omega
  · rw [imageWrite, if_neg (by omega), if_neg (by simp only [Config.bodyWords]; omega),
      if_pos (by simp only [Config.imageWrites]; omega)]
    rfl

/-! ## The statement -/

/-- Settles O51: the writes of the state in hand, and the lengths and the sum of the stored forms. -/
theorem savesWriteImagesThatSumToZero : Obligations.SavesWriteImagesThatSumToZero := by
  refine ⟨⟨?_, ?_⟩, ⟨fun d hlog hresults => ⟨?_, ?_⟩, imageWrite_facts⟩⟩
  · intro s body h
    refine ⟨fun hlets => ?_, fun hset hstate => ?_⟩
    · have hown : ownSave body (s.part.takeInHand .save body) =
          answer .accepted [] (beginSave (s.part.takeInHand .save body)) := if_pos ((letsSave_iff _).mpr hlets)
      rw [exec_save, effect_arbitrate_request _ h, hown,
        beginSave_eq (d := s.part.takeInHand .save body) (image := saveImage s.part) rfl,
        answer_taken .save body .accepted [] s.part _ rfl]
      rfl
    · have hnot : ¬ s.part.tru.letsSave = true := by
        rw [letsSave_iff]
        rcases hstate with h | h | h | ⟨h, hdue⟩ <;> simp [h]
        exact hdue
      have hown : ownSave body (s.part.takeInHand .save body) = s.part.reply .save body .busy [] := by
        rw [← answer_takeInHand]
        exact if_neg hnot
      rw [exec_save, effect_arbitrate_request _ h, hown]
      exact next_congr (arbitrate_of_settled _ hset)
  · intro s p q rest image k w hrun hp hint hq howner hwork hphop freed op offset
    have hok {d : Lc44} (hd : imageWriteEnded none { s.part with mpc := freed } = d) :
        exec (.memoryAnswer (.ok w)) s = .next ⟨arbitrate d, s.pending⟩ := by
      rw [exec_phcOk w hrun hp hint hq howner, ← hd]
      simp only [phcEnded, hwork]
      rfl
    refine ⟨fun hk => ?_, ?_⟩
    · exact hok (imageWriteEnded_next hwork hk)
    · intro done
      refine ⟨fun hk hsaving => ?_, fun hk hover => ?_, ?_⟩
      · subst hk
        exact hok ((imageWriteEnded_last (d := { s.part with mpc := freed }) hwork).trans
          (writingDone_saving (congrArg Phop.isHandingOver hsaving)))
      · subst hk
        exact hok ((imageWriteEnded_last (d := { s.part with mpc := freed }) hwork).trans
          (writingDone_handingOver (congrArg Phop.isHandingOver hover)))
      · rw [exec_phcFault hrun hp hint hq howner]
        refine next_congr (congrArg arbitrate ?_)
        simp only [phcEnded, hwork]
        refine (imageWriteEnded_failed .fault (by exact hwork)).trans ?_
        rcases hphop with hphop | hphop
        · simp only [hphop]
          rfl
        · simp only [hphop]
          rfl
  · exact profileImage_facts rfl hlog hresults
  · exact profileImage_facts (length_handoverRecord d) hlog hresults

end Sys2Proof.Machine
end

