-- ==== Sys2Proof/Proofs/Begin.lean ====
section
/-! SUPPORT. BEGIN and WIPE: what they leave of each block. -/

namespace Sys2Proof.Machine

set_option Elab.async false

/-! ## What BEGIN and WIPE have in common (R166, R167) -/

/-- The cycle in progress once rules and maps are gone: a redirected write is void (R43, R91). -/
def ICycle.afresh (c : ICycle) : ICycle :=
  ICycle.voided (fun _ => true) { c with stage := c.stage.unlive fun _ => true }

/-- The LC44 with every block but PHC and SLI in its starting state. -/
def Lc44.cleared (next : Nat) (d : Lc44) : Lc44 :=
  { d with
    iport := { d.iport with cycle := d.iport.cycle.map ICycle.afresh }
    mpc := { d.mpc with timeout := 20, faults := 0, timeouts := 0, lastFailure := none }
    ccl := { d.ccl with table := Vector.replicate 16 none, faults := .zero }
    fgd := .reset
    tru := { d.tru with opened := 0, confirmed := 0, rolledBack := 0, ignoredMarks := 0 }
    ovu := { d.ovu with map0 := [], map1 := [], fold := .reset }
    rcu := d.rcu.toReset
    tmu := d.tmu.toDefaults
    acu := { Acu.reset with nextSequence := next } }

/-- The blocks are cleared, and then the mirror and the operation record. -/
theorem commonReset_cleared (next : Nat) (d : Lc44) :
    commonReset next d = (mirrorToDefaults (d.cleared next)).onPhc fun p => { p with operation := .reset } := by
  have hcycle : (d.iport.cycle.map fun c => { c with stage := c.stage.unlive fun _ => true }).map
      (ICycle.voided fun _ => true) = d.iport.cycle.map ICycle.afresh := Option.map_map _ _ _
  refine congrArg (fun e => (mirrorToDefaults e).onPhc fun p => { p with operation := .reset }) ?_
  rw [Lc44.cleared, ← hcycle]
  simp only [clearMaps, unliveRules, Lc44.onMpc, Lc44.onCcl, Lc44.onFgd, Lc44.onTru, Lc44.onOvu, Lc44.onRcu, Lc44.onTmu,
    Lc44.onAcu, Lc44.onIport, if_true]
  rfl

/-- The LC44 with every block but PHC's phase in its starting state. -/
def Lc44.afresh (next : Nat) (d : Lc44) : Lc44 :=
  { d.cleared next with
    mpc := { (d.cleared next).mpc with mirWaiting := none }
    ccl := (d.cleared next).cclWith none
    phc := { d.phc with operation := .reset }
    sli :=
      { d.mirrorSet false 0 with mirrorFaults := 0, mirrorAbandons := 0, refreshNumber := 0, lastCompleted := 0 } }

/-- What BEGIN and WIPE have in common. -/
theorem commonReset_eq (next : Nat) (d : Lc44) : commonReset next d = d.afresh next := by
  rw [commonReset_cleared, mirrorToDefaults, setMirror_off]
  rfl

/-- CCL's table and counters once the LC44 starts afresh. -/
theorem afresh_ccl (next : Nat) (d : Lc44) :
    (d.afresh next).ccl.table = Vector.replicate 16 none ∧ (d.afresh next).ccl.faults = .zero ∧
      (d.iport.cycle ≠ none → (d.afresh next).ccl.phase = d.ccl.phase) := by
  have hcycle : (d.cleared next).iport.cycle = d.iport.cycle.map ICycle.afresh := rfl
  show ((d.cleared next).cclWith none).table = _ ∧ ((d.cleared next).cclWith none).faults = _ ∧
    (_ → ((d.cleared next).cclWith none).phase = _)
  unfold Lc44.cclWith
  rw [hcycle]
  cases hc : d.iport.cycle with
  | none => exact ⟨rfl, rfl, fun h => absurd rfl h⟩
  | some c => exact ⟨rfl, rfl, fun _ => rfl⟩

/-- TMU in its defaults under a phase (R137; log 26). -/
def Tmu.afresh (p : Phase) (t : Tmu) : Tmu :=
  { t.toDefaults with
    value := none
    tone := if p = .transparent then .silent else .noSignal
    cadence := if (if p = .transparent then .silent else .noSignal) = t.tone then t.cadence else 0 }

/-- TMU hears no carrier once it is in its defaults. -/
theorem recomputed_toDefaults (t : Tmu) (p : Phase) : t.toDefaults.recomputed p = t.afresh p := by cases p <;> rfl

/-- No carrier is heard afresh. -/
theorem afresh_view (t : Tmu) (p : Phase) (c : Carrier) : (t.afresh p).view.get c = ⟨false, none⟩ :=
  PerCarrier_get_all _ c

/-- The LC44 afresh in a phase, with PHC as it is given. -/
theorem setPhase_afresh (next : Nat) (p : Phase) (d : Lc44) (x : Phc) :
    ∃ c : Ccl,
      setPhase p { d.afresh next with phc := x } =
          { d.afresh next with phc := { x with phase := p }, ccl := c, tmu := d.tmu.afresh p } ∧
        c.table = Vector.replicate 16 none ∧ c.faults = .zero ∧
        (d.iport.cycle = none → c.phase = p ∧ c.mirror = none) ∧ (d.iport.cycle ≠ none → c.phase = d.ccl.phase) := by
  obtain ⟨htable, hfaults, hphase⟩ := afresh_ccl next d
  have hcycle : ({ d.afresh next with phc := x } : Lc44).iport.cycle = d.iport.cycle.map ICycle.afresh := rfl
  rw [setPhase_eq, hcycle, ← recomputed_toDefaults]
  refine ⟨_, rfl, ?_⟩
  cases hc : d.iport.cycle with
  | none => exact ⟨htable, hfaults, fun _ => ⟨rfl, rfl⟩, fun h => absurd rfl h⟩
  | some c => exact ⟨htable, hfaults, nofun, fun _ => hphase (by rw [hc]; nofun)⟩

/-- The carriers of a WIPE's cycle: a redirected write is void. -/
theorem afresh_redirected {c : ICycle} {void : Bool} {data : Word} {m : MapId} {base : Addr}
    (hs : c.stage = .redirected void) (ho : c.cycle.op = .write data) (ht : c.record.treatment = .redirect m base) :
    c.afresh = { c with stage := .redirected true } := by
  obtain ⟨cycle, record, stage⟩ := c
  dsimp only at hs ho ht
  subst hs
  unfold ICycle.afresh
  rw [voided_write (void := void) (data := data) (m := m) (base := base) rfl ho ht]
  rfl

/-! ## The statement -/

/-- The probe ended with its failure or not. -/
theorem probeEnded_ok (d : Lc44) :
    probeEnded none d = answer .ok [] (beginEffect { d with phc := { d.phc with work := .idle } }) := rfl

/-- Tables may be written: the trial and the run are IDLE (R15). -/
theorem tablesFree_iff (d : Lc44) : d.tablesFree = true ↔ d.tru.state = .idle ∧ d.acu.runState = .idle := by
  simp [Lc44.tablesFree]

/-- Settles O50: what BEGIN and WIPE have in common, followed by what each sets. -/
theorem beginAndWipeStartAfresh : Obligations.BeginAndWipeStartAfresh := by
  refine ⟨⟨?_, ?_⟩, ?_⟩
  · intro s body h
    rw [exec_beginReq, effect_arbitrate_request _ h]
    rfl
  · intro s p q w hrun hp hint hq howner hfwd hrst hmir hwork hhand
    have hsettled {d : Lc44} (hf : d.mpc.fwdWaiting = false) (hr : d.mpc.rstWaiting = none) (hi : d.mpc.intQueue = [])
        (hm : d.mpc.mirWaiting = none) : arbitrate d = d :=
      arbitrate_of_settled d (settled_of_choice_none ((choice_eq_none_iff _).mpr ⟨hf, hr, hi, hm⟩))
    refine ⟨?_, ?_⟩
    · rw [exec_phcFault hrun hp hint hq howner]
      simp only [phcEnded, hwork, failureOf, probeEnded]
      rw [answer_inHand (r := .begin) _ _ (by exact hhand), Lc44.answerInHand, if_pos hhand]
      exact next_congr (hsettled hfwd hrst rfl hmir)
    · let idle : Lc44 :=
        { s.part with
          mpc := { s.part.mpc with cycle := none, intQueue := [] }
          phc := { s.part.phc with work := .idle } }
      obtain ⟨c, he, htable, hfaults, hfree, hbusy⟩ :=
        setPhase_afresh 1 .commissioning idle { (idle.afresh 1).phc with seconds := 0, accumulator := 0 }
      have hbegin :=
        (congrArg (fun d => setPhase .commissioning (d.onPhc fun p => { p with seconds := 0, accumulator := 0 }))
          (commonReset_eq 1 idle)).trans he
      have hexec := exec_phcOk w hrun hp hint hq howner
      simp only [phcEnded, hwork, failureOf, probeEnded_ok] at hexec
      rw [show beginEffect _ = _ from hbegin, answer_inHand (r := .begin) _ _ (by exact hhand)] at hexec
      exact ⟨_, hexec.trans (next_congr (hsettled hfwd hrst rfl rfl)), State.resetAsserted_of_running hrun, rfl, rfl, rfl,
        rfl, rfl, rfl, rfl, htable, hfaults, hfree, hbusy, rfl, rfl, rfl, rfl, rfl, ⟨rfl, rfl, rfl, rfl, rfl⟩, rfl, rfl,
        afresh_view _ _, rfl, rfl, rfl, rfl, rfl⟩
  · intro s body h
    have hown : exec (.wipe body) s = .next ⟨ownWipe body (s.part.takeInHand .wipe body), s.pending⟩ := by
      rw [exec_wipe, effect_request _ h]
    refine ⟨fun hnot => ?_, fun hidle hrun => ?_⟩
    · rw [hown, ← answer_takeInHand]
      refine next_congr (if_neg fun hfree => ?_)
      obtain ⟨htrial, hrun⟩ := (tablesFree_iff _).mp hfree
      exact hnot.elim (· htrial) (· hrun)
    · obtain ⟨c, he, htable, hfaults, -⟩ :=
        setPhase_afresh s.part.acu.nextSequence .transparent (s.part.takeInHand .wipe body)
          ((s.part.takeInHand .wipe body).afresh s.part.acu.nextSequence).phc
      have hwipe : ownWipe body (s.part.takeInHand .wipe body) = _ :=
        (if_pos ((tablesFree_iff _).mpr ⟨hidle, hrun⟩)).trans
          (congrArg (fun d => answer .ok [] (raiseTmu (.peakReset allCarriers) (raiseTmu (.leftTrack allCarriers) d)))
            ((congrArg (setPhase .transparent) (commonReset_eq _ _)).trans he))
      rw [answer_inHand (r := .wipe) _ _ rfl] at hwipe
      refine ⟨_, hown.trans (next_congr hwipe), State.resetAsserted_of_running (State.takes_iff.mp h).1, rfl, rfl, rfl,
        htable, hfaults, rfl, rfl, rfl, rfl, rfl, rfl, rfl, rfl, rfl, rfl, afresh_view _ _, rfl, rfl, rfl,
        List.append_assoc _ _ _, rfl, rfl, rfl, rfl, rfl, rfl, rfl, ?_⟩
      intro i void data m base hcycle hstage hop htreatment
      exact (congrArg (Option.map ICycle.afresh) hcycle).trans
        (congrArg some (afresh_redirected hstage hop htreatment))

end Sys2Proof.Machine
end

