-- ==== Sys2Proof/Proofs/StartupLoad.lean ====
section
/-! SUPPORT. Start-up on the M-port: LOAD word by word, the profile put in force, and RECOVER by the journal header. -/

namespace Sys2Proof.Machine

set_option Elab.async false

/-! ## LOAD (R180) -/

/-- The LC44 in which PHC has asked for a read of the profile block (R180). -/
def Lc44.reading (x : Phc) (offset : Nat) (d : Lc44) : Lc44 :=
  { d with
    phc := x
    mpc := { d.mpc with intQueue := d.mpc.intQueue ++ [⟨.phc, ⟨d.profileAddr offset, .read⟩⟩] } }

/-- The next word of LOAD. -/
theorem loadNext_eq (words : List Word) (d : Lc44) :
    loadNext words d =
      d.reading { d.phc with work := .loading words }
        (if words.length < 16 then words.length else 0x0A0 + words.length) := by
  have hoffset : includedOffset words.length = if words.length < 16 then words.length else 0x0A0 + words.length := by
    by_cases h : words.length < 16
    · rw [if_pos h]
      exact if_pos h
    · rw [if_neg h]
      refine (if_neg h).trans ?_
      simp only [Config.headerWords, Config.bodyStart]
      omega
  rw [← hoffset]
  rfl

/-- LOAD goes on while the header is good and words are missing. -/
theorem loadWordRead_next {words : List Word} {d : Lc44}
    (h : words.length < 16 ∨ 16 ≤ words.length ∧ words.length < 3696 ∧
      ¬ (words.getD 0 0 ≠ 0x5A4B ∨ words.getD 1 0 ≠ 1)) : loadWordRead words d = loadNext words d := by
  rcases h with h | ⟨hlow, hhigh, hgood⟩
  · exact if_pos h
  · exact (if_neg (Nat.not_lt.mpr hlow)).trans ((if_neg hgood).trans (if_pos hhigh))

/-- A wrong signature or format (log 40). -/
theorem loadWordRead_bad {words : List Word} {d : Lc44} (hlow : 16 ≤ words.length)
    (hbad : words.getD 0 0 ≠ 0x5A4B ∨ words.getD 1 0 ≠ 1) : loadWordRead words d = loadEndsWith .absent d :=
  (if_neg (Nat.not_lt.mpr hlow)).trans (if_pos hbad)

/-- The sum decides once all words are read. -/
theorem loadWordRead_last {words : List Word} {d : Lc44} (hall : words.length = 3696)
    (hgood : ¬ (words.getD 0 0 ≠ 0x5A4B ∨ words.getD 1 0 ≠ 1)) :
    loadWordRead words d =
      if wordSum words = 0 then loadEndsWith .valid (putInForce words d) else loadEndsWith .badSum d := by
  refine (if_neg ?_).trans ((if_neg hgood).trans (if_neg ?_))
  · rw [hall]
    decide
  · rw [hall]
    decide

/-! ## The profile put in force (R181) -/

/-- Loading rules changes no count. -/
theorem counts_loadRules (staged : List Word) (l : List (Fin 64)) (f : Fgd) :
    (l.foldl (loadRuleAt staged) f).counts = f.counts := by
  induction l generalizing f with
  | nil => rfl
  | cons i l ih => exact (ih (loadRuleAt staged f i)).trans rfl

/-- The phase a valid profile leaves (R181). -/
theorem loadedPhase_eq (staged : List Word) (commission : Bool) :
    loadedPhase staged commission =
      if (staged.getD 2 0).toNat % 4 = 2 ∧ commission = false then .service else .commissioning := by
  have hbits : bits 1 0 (stagedWord staged 0x002) = (staged.getD 2 0).toNat % 4 := by
    show (staged.getD 2 0).toNat / 1 % 4 = _
    rw [Nat.div_one]
  unfold loadedPhase
  rw [hbits]
  simp

/-- What is in force before LOAD turns to the memory timeout (R181, orders 1 to 5). -/
def loadedTables (staged : List Word) (d : Lc44) : Lc44 :=
  loadTmu staged (loadAcu staged (loadFgd staged (loadCcl staged (loadRcu staged d))))

/-- What is in force before LOAD turns to the phase (R181, orders 1 to 8). -/
def loadedItems (staged : List Word) (d : Lc44) : Lc44 :=
  loadSeconds staged (loadSli staged (loadMpc staged (loadedTables staged d)))

/-- The phase is put in force last. -/
theorem putInForce_eq (staged : List Word) (d : Lc44) :
    putInForce staged d = setPhase (loadedPhase staged (loadedItems staged d).straps.commission) (loadedItems staged d) :=
  rfl

theorem keeps_loadedTables (staged : List Word) (d : Lc44) :
    d.keepsOutside [.rcu, .ccl, .ovu, .fgd, .acu, .tmu] (loadedTables staged d) := by
  refine keeps_trans (l₁ := [.rcu, .ccl, .ovu, .fgd, .acu]) ?_ (keeps_loadTmu _ _)
  refine keeps_trans (l₁ := [.rcu, .ccl, .ovu, .fgd]) ?_ (keeps_onAcu _ _)
  refine keeps_trans (l₁ := [.rcu, .ccl, .ovu]) ?_ (keeps_onFgd _ _)
  exact keeps_trans (keeps_onRcu _ _) (keeps_loadCcl _ _)

theorem keeps_loadedItems (staged : List Word) (d : Lc44) :
    (loadedTables staged d).keepsOutside [.mpc, .sli, .ccl, .phc] (loadedItems staged d) :=
  keeps_trans (l₁ := [.mpc, .sli, .ccl]) (keeps_trans (keeps_onMpc _ _) (keeps_loadSli _ _)) (keeps_onPhc _ _)

theorem phc_loadSeconds (staged : List Word) (d : Lc44) :
    (loadSeconds staged d).phc =
      { d.phc with
        seconds := (staged.getD 13 0).toNat + (staged.getD 14 0).toNat * 65536
        accumulator := 0 } := rfl

theorem phc_setPhase (p : Phase) (d : Lc44) : (setPhase p d).phc = { d.phc with phase := p } :=
  congrArg Lc44.phc (setPhase_eq p d)

/-- PHC once a valid profile is in force. -/
theorem putInForce_phc (staged : List Word) (d : Lc44) :
    (putInForce staged d).phc =
      { d.phc with
        phase :=
          if (staged.getD 2 0).toNat % 4 = 2 ∧ d.straps.commission = false then .service else .commissioning
        seconds := (staged.getD 13 0).toNat + (staged.getD 14 0).toNat * 65536
        accumulator := 0 } := by
  have hstraps : (loadedItems staged d).straps = d.straps :=
    (keeps_loadedItems staged d).2.1.trans (keeps_loadedTables staged d).2.1
  have hphc : (loadSli staged (loadMpc staged (loadedTables staged d))).phc = d.phc :=
    (keeps_phc (keeps_loadSli _ _)).trans ((keeps_phc (keeps_onMpc _ _)).trans (keeps_phc (keeps_loadedTables _ _)))
  have hitems : (loadedItems staged d).phc =
      { d.phc with
        seconds := (staged.getD 13 0).toNat + (staged.getD 14 0).toNat * 65536
        accumulator := 0 } := (phc_loadSeconds staged _).trans (by rw [hphc])
  rw [putInForce_eq, phc_setPhase, hstraps, hitems, loadedPhase_eq]

/-- MPC's timeout is that of before: the one loaded waits for the end of start-up (R25). -/
theorem putInForce_timeout (staged : List Word) (d : Lc44) : (putInForce staged d).mpc.timeout = d.mpc.timeout := by
  have hmpc : (putInForce staged d).mpc = (loadMpc staged (loadedTables staged d)).mpc :=
    (keeps_mpc (keeps_setPhase _ _)).trans ((keeps_mpc (keeps_onPhc _ _)).trans (keeps_mpc (keeps_loadSli _ _)))
  rw [hmpc, ← keeps_mpc (keeps_loadedTables staged d)]
  rfl

/-- Both maps are cleared (R91). -/
theorem putInForce_maps (staged : List Word) (d : Lc44) :
    (putInForce staged d).ovu.map0 = [] ∧ (putInForce staged d).ovu.map1 = [] := by
  have hovu : (putInForce staged d).ovu = (loadCcl staged (loadRcu staged d)).ovu :=
    (keeps_ovu (keeps_setPhase _ _)).trans ((keeps_ovu (keeps_loadedItems _ _)).trans
      ((keeps_ovu (keeps_loadTmu _ _)).trans ((keeps_ovu (keeps_onAcu _ _)).trans (keeps_ovu (keeps_onFgd _ _)))))
  rw [hovu]
  exact ⟨rfl, rfl⟩

theorem counts_loadFgd (staged : List Word) (d : Lc44) : (loadFgd staged d).fgd.counts = d.fgd.counts :=
  counts_loadRules staged (List.finRange 64) d.fgd

/-- No violation count changes. -/
theorem putInForce_counts (staged : List Word) (d : Lc44) : (putInForce staged d).fgd.counts = d.fgd.counts := by
  have hfgd : (putInForce staged d).fgd = (loadFgd staged (loadCcl staged (loadRcu staged d))).fgd :=
    (keeps_fgd (keeps_setPhase _ _)).trans ((keeps_fgd (keeps_loadedItems _ _)).trans
      ((keeps_fgd (keeps_loadTmu _ _)).trans (keeps_fgd (keeps_onAcu _ _))))
  rw [hfgd]
  exact (counts_loadFgd _ _).trans
    (congrArg Fgd.counts ((keeps_fgd (keeps_loadCcl _ _)).trans (keeps_fgd (keeps_onRcu _ _))))

theorem mute_loadTmu (staged : List Word) (d : Lc44) : (loadTmu staged d).tmu.mute = d.tmu.mute := rfl

/-- The mute state is left. -/
theorem putInForce_mute (staged : List Word) (d : Lc44) : (putInForce staged d).tmu.mute = d.tmu.mute := by
  have hloaded : (loadedTables staged d).tmu.mute = d.tmu.mute := (mute_loadTmu _ _).trans <|
    congrArg Tmu.mute ((keeps_tmu (keeps_onAcu _ _)).trans ((keeps_tmu (keeps_onFgd _ _)).trans
      ((keeps_tmu (keeps_loadCcl _ _)).trans (keeps_tmu (keeps_onRcu _ _)))))
  rw [putInForce_eq, setPhase_eq, ← hloaded, ← keeps_tmu (keeps_loadedItems staged d)]
  rfl

/-! ## The arbiter without a cycle -/

/-- Without a cycle at the I-port a grant changes the M-port alone, and not its timeout. -/
theorem arbitrateOnce_noCycle {d : Lc44} (h : d.iport.cycle = none) :
    ∃ m : Mpc, arbitrateOnce d = { d with mpc := m } ∧ m.timeout = d.mpc.timeout := by
  unfold arbitrateOnce
  split
  · split
    · exact ⟨d.mpc, rfl, rfl⟩
    · next c _ =>
      unfold grantTo
      cases c with
      | fwd =>
        simp only [presentStage, Lc44.onMpc_iport, h]
        exact ⟨_, rfl, rfl⟩
      | rst =>
        dsimp only
        split
        · exact ⟨d.mpc, rfl, rfl⟩
        · exact ⟨_, rfl, rfl⟩
      | int =>
        dsimp only
        split
        · exact ⟨d.mpc, rfl, rfl⟩
        · exact ⟨_, rfl, rfl⟩
      | mir =>
        dsimp only
        split
        · exact ⟨d.mpc, rfl, rfl⟩
        · exact ⟨_, rfl, rfl⟩
  · exact ⟨d.mpc, rfl, rfl⟩

/-- Without a cycle at the I-port the arbiter changes the M-port alone, and not its timeout. -/
theorem arbitrate_noCycle {d : Lc44} (h : d.iport.cycle = none) :
    ∃ m : Mpc, arbitrate d = { d with mpc := m } ∧ m.timeout = d.mpc.timeout := by
  obtain ⟨m, hm, ht⟩ := arbitrateOnce_noCycle h
  obtain ⟨n, hn, ht'⟩ := arbitrateOnce_noCycle (d := { d with mpc := m }) h
  refine ⟨n, ?_, ht'.trans ht⟩
  rw [arbitrate, hm, hn]

/-! ## RECOVER (R182 to R184) -/

/-- Start-up ends with the mirror off. -/
theorem endStartup_off {status : ProfileStatus} {x : RecoverySummary} {close : HeaderClose} {d : Lc44}
    (h : d.sli.mirrorEnabled = false) :
    endStartup status x close d =
      { d with
        phc :=
          { d.phc with
            phop := .none
            work := .idle
            startup :=
              some ⟨status, d.straps.commission, d.phc.phase, x.result, x.recovered, x.unrestored, close⟩ }
        mpc := { d.mpc with timeout := d.mpc.loadedTimeout.getD 20, loadedTimeout := none } } :=
  if_neg (by simpa using h)

/-- The low byte of the state word. -/
theorem bits_low (w : Word) : bits 7 0 w = w.toNat % 256 := by
  show w.toNat / 1 % 256 = _
  rw [Nat.div_one]

/-- The high byte of the state word. -/
theorem bits_high (w : Word) : bits 15 8 w = w.toNat / 256 := by
  have h := w.isLt
  show w.toNat / 256 % 256 = _
  omega

/-- A closed header (R182). -/
theorem recoverBy_closed {status : ProfileStatus} {state count : Word} {d : Lc44} (h : state.toNat % 256 = 0) :
    recoverBy status state count d =
      endStartup status ⟨.closed, 0, 0⟩ .notWritten
        { d with tru := { d.tru with number := state.toNat / 256 } } := by
  unfold recoverBy
  rw [bits_low, bits_high, h]
  rfl

/-- An open header (R182). -/
theorem recoverBy_open {status : ProfileStatus} {state count : Word} {d e : Lc44} (h : state.toNat % 256 = 1)
    (he : e = { d with tru := { d.tru with number := state.toNat / 256 } }) :
    recoverBy status state count d =
      if count.toNat = 0 then enterRecover status (.closeState (state.toNat / 256) ⟨.empty, 0, 0⟩ false) e
      else if count.toNat ≤ 48 then enterRecover status (.readRecord (state.toNat / 256) count.toNat [] [] false) e
      else recoverBad status (state.toNat / 256) 0 [] e := by
  unfold recoverBy
  rw [bits_low, bits_high, h, he]
  rfl

/-- Any other header is a bad journal (R182). -/
theorem recoverBy_other {status : ProfileStatus} {state count : Word} {d : Lc44} (h : 1 < state.toNat % 256) :
    recoverBy status state count d =
      recoverBad status (state.toNat / 256) 0 [] { d with tru := { d.tru with number := state.toNat / 256 } } := by
  unfold recoverBy
  rw [bits_low, bits_high]
  obtain ⟨n, hn⟩ : ∃ n, state.toNat % 256 = n + 2 := ⟨state.toNat % 256 - 2, by omega⟩
  rw [hn]
  rfl

/-- RECOVER writes the closed header (R183). -/
theorem enterRecover_closeState (status : ProfileStatus) (number : Nat) (x : RecoverySummary) (retry : Bool) (d : Lc44) :
    enterRecover status (.closeState number x retry) d =
      { d with
        phc := { d.phc with work := .recovering status (.closeState number x retry) }
        mpc :=
          { d.mpc with
            intQueue := d.mpc.intQueue ++
              [⟨.phc, ⟨d.profileAddr 0x010, .write (BitVec.ofNat 16 (number * 256))⟩⟩] } } := by
  have hword : BitVec.ofNat 16 (number * 256) = headerStateWord number false := by simp [headerStateWord]
  rw [hword]
  rfl

/-! ## The statement -/

/-- Settles O49: each end of PHC's cycle goes on to the next read or write of LOAD and RECOVER. -/
theorem startupLoadsThenRecovers : Obligations.StartupLoadsThenRecovers := by
  intro s p q rest w hrun hp hint hq howner hstarting base read freed counted asks
  have hok {d : Lc44} (hd : phcEnded (.ok w) { s.part with mpc := freed } = d) :
      exec (.memoryAnswer (.ok w)) s = .next ⟨arbitrate d, s.pending⟩ := by
    rw [exec_phcOk w hrun hp hint hq howner, ← hd]
  have hfault {d : Lc44} (hd : phcEnded (.error .fault) { s.part with mpc := counted } = d) :
      exec (.memoryAnswer .fault) s = .next ⟨arbitrate d, s.pending⟩ := by
    rw [exec_phcFault hrun hp hint hq howner, ← hd]
  refine ⟨?_, ?_, ?_, ?_⟩
  · intro staged hwork hphop words bad recover
    have hword : phcEnded (.ok w) { s.part with mpc := freed } = loadWordRead words { s.part with mpc := freed } := by
      simp only [phcEnded, hwork]
      rfl
    refine ⟨hfault ?_, fun h => hok ?_, fun hlow hbad => hok ?_, fun hall hgood hsum => hok ?_,
      fun hall hgood hsum hcycle => ?_⟩
    · simp only [phcEnded, hwork]
      rfl
    · exact hword.trans ((loadWordRead_next h).trans (loadNext_eq _ _))
    · exact hword.trans (loadWordRead_bad hlow hbad)
    · exact hword.trans ((loadWordRead_last hall hgood).trans (if_neg hsum))
    · have hend := hword.trans ((loadWordRead_last hall hgood).trans (if_pos hsum))
      have hphc := putInForce_phc words { s.part with mpc := freed }
      have htimeout := putInForce_timeout words { s.part with mpc := freed }
      have htru := keeps_tru (keeps_putInForce words { s.part with mpc := freed })
      have hiport := keeps_iport (keeps_putInForce words { s.part with mpc := freed })
      obtain ⟨hmap0, hmap1⟩ := putInForce_maps words { s.part with mpc := freed }
      have hcounts := putInForce_counts words { s.part with mpc := freed }
      have hmute := putInForce_mute words { s.part with mpc := freed }
      generalize putInForce words { s.part with mpc := freed } = e at *
      obtain ⟨m, hm, hmt⟩ := arbitrate_noCycle (d := loadEndsWith .valid e) ((congrArg IPort.cycle hiport).trans hcycle)
      refine ⟨_, (hok hend).trans (next_congr hm), ?_, hmt.trans htimeout, htru, hmap0, hmap1, hcounts, hmute⟩
      show ({ e.phc with phop := .starting .recover, work := .recovering .valid (.readState false) } : Phc) = _
      rw [hphc]
  · intro status retry hwork
    refine ⟨hok ?_, fun hretry => hfault ?_, fun hretry hoff => hfault ?_⟩
    · simp only [phcEnded, hwork]
      rfl
    · subst hretry
      simp only [phcEnded, hwork]
      rfl
    · subst hretry
      simp only [phcEnded, hwork]
      exact endStartup_off hoff
  · intro status state retry hwork number low count t closed stage
    have hby : phcEnded (.ok w) { s.part with mpc := freed } = recoverBy status state w { s.part with mpc := freed } := by
      simp only [phcEnded, hwork]
      rfl
    refine ⟨fun hlow hoff => ?_, fun hlow hcount => hok ?_, fun hlow hone hfew => hok ?_, fun hbad => hok ?_⟩
    · intro d
      refine ⟨hok (hby.trans ((recoverBy_closed hlow).trans (endStartup_off hoff))), ?_⟩
      simp [Lc44.holdLine, d, State.resetAsserted_of_running hrun, Phop.isStarting]
    · rw [hby, recoverBy_open hlow rfl, if_pos hcount]
      exact enterRecover_closeState _ _ _ _ _
    · rw [hby, recoverBy_open hlow rfl, if_neg (show ¬ w.toNat = 0 by omega), if_pos (show w.toNat ≤ 48 from hfew)]
      rfl
    · have hbad' : phcEnded (.ok w) { s.part with mpc := freed } =
          recoverBad status number 0 [] { s.part with mpc := freed, tru := t } := by
        rcases hbad with hlow | ⟨hlow, hmany⟩
        · exact hby.trans (recoverBy_other hlow)
        · rw [hby, recoverBy_open hlow rfl, if_neg (show ¬ w.toNat = 0 by omega),
            if_neg (show ¬ w.toNat ≤ 48 by omega)]
      exact hbad'.trans (enterRecover_closeState _ _ _ _ _)
  · intro status number count restored r x older unrestored retry hwork stage
    refine ⟨hok ?_, ?_⟩
    · simp only [phcEnded, hwork]
      rfl
    · cases retry with
      | true =>
        refine hfault ?_
        simp only [phcEnded, hwork]
        rfl
      | false =>
        refine hfault ?_
        simp only [phcEnded, hwork]
        rfl

end Sys2Proof.Machine
end

