-- ==== Sys2Proof/Proofs/StoredForms.lean ====
section
/-! SUPPORT. The stored forms of a save image, and the items start-up LOAD reads back from them. -/

namespace Sys2Proof.Machine

set_option Elab.async false

/-! ## Words of the image (section 11.1) -/

/-- A word of a list of pieces of one length. -/
theorem getD_flatMap {α : Type} {f : α → List Word} {n : Nat} (hf : ∀ x, (f x).length = n) (l : List α) {j k : Nat}
    (hj : j < n) (hk : k < l.length) : (l.flatMap f).getD (n * k + j) 0 = (f l[k]).getD j 0 := by
  induction l generalizing k with
  | nil => exact absurd hk (Nat.not_lt_zero k)
  | cons x l ih =>
    have hx := hf x
    rw [List.flatMap_cons]
    cases k with
    | zero =>
      rw [Nat.mul_zero, Nat.zero_add, List.getD_append _ _ _ _ (hx.symm ▸ hj)]
      rfl
    | succ k =>
      rw [List.getD_append_right _ _ _ _ (by rw [hx, Nat.mul_succ]; omega), hx,
        show n * (k + 1) + j - n = n * k + j by rw [Nat.mul_succ]; omega, ih (Nat.lt_of_succ_lt_succ hk)]
      rfl

/-- A staged word of a save image's body. -/
theorem stagedWord_save {d : Lc44} (offset : Nat) :
    stagedWord (saveImage d) (0x0B0 + offset) = (profileBody (List.replicate 32 0) d).getD offset 0 := by
  have hnot : ¬ 0x0B0 + offset < Config.headerWords := by
    simp only [Config.headerWords]
    omega
  rw [stagedWord, if_neg hnot]
  unfold saveImage profileImage
  have hindex : 0x0B0 + offset - Config.bodyStart + Config.headerWords = 16 + offset := by
    simp only [Config.headerWords, Config.bodyStart]
    omega
  rw [hindex, List.getD_append_right]
  · congr 1
    simp only [List.length_append, length_headerWords, List.length_cons, List.length_nil]
    omega
  · simp only [List.length_append, length_headerWords, List.length_cons, List.length_nil]
    omega

/-- The sections of a body, with what follows them left aside. -/
theorem profileBody_sections (record : List Word) (d : Lc44) :
    ∃ tail, profileBody record d =
      d.ccl.table.toList.flatMap regionWords ++ (d.fgd.rules.toList.flatMap ruleWords ++ (layoutWords d.rcu.layout ++
        (List.replicate 5 0 ++ (d.rcu.records.toList.flatMap (fun r => carrierWords r.settings) ++
          (d.acu.plan.toList.flatMap planWords ++ tail))))) := by
  refine ⟨record ++ (d.acu.log.flatMap logWords ++ List.replicate (44 * (Config.logRoom - d.acu.log.length)) 0), ?_⟩
  simp only [profileBody, List.append_assoc]

/-- A word behind a first part of known length. -/
theorem getD_behind {a b : List Word} {n : Nat} (ha : a.length = n) (i : Nat) : (a ++ b).getD (n + i) 0 = b.getD i 0 := by
  rw [List.getD_append_right _ _ _ _ (by omega), ha, Nat.add_sub_cancel_left]

/-- The stored rules. -/
theorem stagedWord_rule (d : Lc44) (i : Fin 64) {j : Nat} (hj : j < 5) :
    stagedWord (saveImage d) (0x110 + 5 * i.val + j) = (ruleWords d.fgd.rules[i]).getD j 0 := by
  obtain ⟨tail, htail⟩ := profileBody_sections (List.replicate 32 0) d
  have hregions : (d.ccl.table.toList.flatMap regionWords).length = 96 := by
    rw [length_flatMap_const fun x _ => length_regionWords x, Vector.length_toList]
  have hrules : (d.fgd.rules.toList.flatMap ruleWords).length = 320 := by
    rw [length_flatMap_const fun x _ => length_ruleWords x, Vector.length_toList]
  rw [show 0x110 + 5 * i.val + j = 0x0B0 + (96 + (5 * i.val + j)) by omega, stagedWord_save, htail, getD_behind hregions,
    List.getD_append _ _ _ _ (by omega), getD_flatMap length_ruleWords _ hj (by simp)]
  simp

/-- The words after the rules. -/
theorem stagedWord_afterRules (d : Lc44) (i : Nat) :
    ∃ tail, stagedWord (saveImage d) (0x250 + i) =
      (layoutWords d.rcu.layout ++ (List.replicate 5 (0 : Word) ++
        (d.rcu.records.toList.flatMap (fun r : CaptureRecord => carrierWords r.settings) ++
          (d.acu.plan.toList.flatMap planWords ++ tail)))).getD i 0 := by
  obtain ⟨tail, htail⟩ := profileBody_sections (List.replicate 32 0) d
  have hregions : (d.ccl.table.toList.flatMap regionWords).length = 96 := by
    rw [length_flatMap_const fun x _ => length_regionWords x, Vector.length_toList]
  have hrules : (d.fgd.rules.toList.flatMap ruleWords).length = 320 := by
    rw [length_flatMap_const fun x _ => length_ruleWords x, Vector.length_toList]
  refine ⟨tail, ?_⟩
  rw [show 0x250 + i = 0x0B0 + (96 + (320 + i)) by omega, stagedWord_save, htail, getD_behind hregions,
    getD_behind hrules]

/-- The stored layout. -/
theorem stagedWord_layout (d : Lc44) {j : Nat} (hj : j < 11) :
    stagedWord (saveImage d) (0x250 + j) = (layoutWords d.rcu.layout).getD j 0 := by
  obtain ⟨tail, htail⟩ := stagedWord_afterRules d j
  rw [htail, List.getD_append _ _ _ _ (by rw [length_layoutWords]; exact hj)]

/-- The stored carrier settings. -/
theorem stagedWord_carrier (d : Lc44) (c : Carrier) {j : Nat} (hj : j < 4) :
    stagedWord (saveImage d) (0x260 + 4 * c.val + j) = (carrierWords (d.rcu.records.get c).settings).getD j 0 := by
  obtain ⟨tail, htail⟩ := stagedWord_afterRules d (16 + (4 * c.val + j))
  have hfour : d.rcu.records.toList.length = 4 := rfl
  have hcarriers : (d.rcu.records.toList.flatMap fun r => carrierWords r.settings).length = 16 := by
    rw [length_flatMap_const fun x _ => length_carrierWords x.settings, hfour]
  rw [show 0x260 + 4 * c.val + j = 0x250 + (16 + (4 * c.val + j)) by omega, htail,
    show 16 + (4 * c.val + j) = 11 + (5 + (4 * c.val + j)) by omega, getD_behind (length_layoutWords _),
    getD_behind List.length_replicate, List.getD_append _ _ _ _ (by omega),
    getD_flatMap (f := fun r : CaptureRecord => carrierWords r.settings) (fun r => length_carrierWords r.settings) _ hj
      (by omega)]
  match c with
  | 0 | 1 | 2 | 3 => rfl

/-- The stored plan. -/
theorem stagedWord_step (d : Lc44) (i : Fin 32) {j : Nat} (hj : j < 12) :
    stagedWord (saveImage d) (0x270 + 12 * i.val + j) = (planWords d.acu.plan[i]).getD j 0 := by
  obtain ⟨tail, htail⟩ := stagedWord_afterRules d (32 + (12 * i.val + j))
  have hfour : d.rcu.records.toList.length = 4 := rfl
  have hcarriers : (d.rcu.records.toList.flatMap fun r => carrierWords r.settings).length = 16 := by
    rw [length_flatMap_const fun x _ => length_carrierWords x.settings, hfour]
  have hplan : (d.acu.plan.toList.flatMap planWords).length = 384 := by
    rw [length_flatMap_const fun x _ => length_planWords x, Vector.length_toList]
  rw [show 0x270 + 12 * i.val + j = 0x250 + (32 + (12 * i.val + j)) by omega, htail,
    show 32 + (12 * i.val + j) = 11 + (5 + (16 + (12 * i.val + j))) by omega, getD_behind (length_layoutWords _),
    getD_behind List.length_replicate, getD_behind hcarriers, List.getD_append _ _ _ _ (by omega),
    getD_flatMap length_planWords _ hj (by simp)]
  simp

/-! ## Words from numbers -/

/-- A number as a word. -/
theorem toNat_natWord {n : Nat} (h : n < 65536) : (natWord n).toNat = n := by
  rw [natWord, BitVec.toNat_ofNat, Nat.mod_eq_of_lt h]

/-- Bit 15 of a word that marks its item as defined. -/
theorem wordBit_defined {n : Nat} (h : n < 32768) : wordBit (natWord (n + bit true 15)) 15 = true := by
  have hbit : bit true 15 = 2 ^ 15 := rfl
  rw [wordBit, toNat_natWord (by rw [hbit]; omega), hbit, Nat.testBit_eq_decide_div_mod_eq, decide_eq_true_iff]
  omega

/-- Bits of a word from a number. -/
theorem bits_natWord {hi lo n : Nat} (h : n < 65536) : bits hi lo (natWord n) = n / 2 ^ lo % 2 ^ (hi + 1 - lo) := by
  rw [bits, toNat_natWord h]

/-! ## Fields of a word -/

/-- A field below the part added last. -/
theorem field_below {a b k lo w : Nat} (h : lo + w ≤ k) : (a + b * 2 ^ k) / 2 ^ lo % 2 ^ w = a / 2 ^ lo % 2 ^ w := by
  obtain ⟨j, rfl⟩ := Nat.exists_eq_add_of_le h
  rw [show b * 2 ^ (lo + w + j) = 2 ^ lo * (2 ^ w * (b * 2 ^ j)) by rw [Nat.pow_add, Nat.pow_add]; ring,
    Nat.add_mul_div_left _ _ (Nat.two_pow_pos lo), Nat.add_mul_mod_self_left]

/-- The field added last. -/
theorem field_last {a b k w : Nat} (ha : a < 2 ^ k) (hb : b < 2 ^ w) : (a + b * 2 ^ k) / 2 ^ k % 2 ^ w = b := by
  rw [Nat.add_mul_div_right _ _ (Nat.two_pow_pos k), Nat.div_eq_of_lt ha, Nat.zero_add, Nat.mod_eq_of_lt hb]

/-- A sum of fields stays within its bits. -/
theorem fields_lt {a b k w n : Nat} (ha : a < 2 ^ k) (hb : b < 2 ^ w) (hn : k + w ≤ n) : a + b * 2 ^ k < 2 ^ n := by
  refine Nat.lt_of_lt_of_le ?_ (Nat.pow_le_pow_right Nat.two_pos hn)
  rw [Nat.add_comm k w, Nat.pow_add]
  have h := Nat.mul_le_mul_right (2 ^ k) (Nat.succ_le_of_lt hb)
  rw [Nat.succ_mul] at h
  omega

/-- A flag of at most 1 as a bit. -/
theorem bit_decide {n : Nat} (h : n ≤ 1) (k : Nat) : bit (decide (n = 1)) k = n * 2 ^ k := by
  interval_cases n
  · exact (Nat.zero_mul _).symm
  · exact (Nat.one_mul _).symm

/-! ## Field rules (R45) -/

/-- The fields packed in a stored rule's second word. -/
theorem unpack_rule {offset width signed kind action n : Nat} (ho : offset < 2 ^ 4) (hw : width < 2 ^ 5)
    (hs : signed < 2 ^ 1) (hk : kind < 2 ^ 2) (ha : action < 2 ^ 2)
    (hn : n = offset + width * 2 ^ 4 + signed * 2 ^ 9 + kind * 2 ^ 10 + action * 2 ^ 12 + 1 * 2 ^ 15) :
    n < 2 ^ 16 ∧ n / 2 ^ 4 % 2 ^ 5 = width ∧ n / 2 ^ 0 % 2 ^ 4 = offset ∧ n / 2 ^ 9 % 2 ^ 1 = signed ∧
      n / 2 ^ 10 % 2 ^ 2 = kind ∧ n / 2 ^ 12 % 2 ^ 2 = action := by
  have b9 := fields_lt ho hw (n := 9) (by decide)
  have b10 := fields_lt b9 hs (n := 10) (by decide)
  have b12 := fields_lt b10 hk (n := 12) (by decide)
  have b15 := fields_lt b12 ha (n := 15) (by decide)
  subst hn
  refine ⟨fields_lt b15 (w := 1) (by decide) (by decide), ?_⟩
  iterate 5 rw [field_below (k := 15) (by decide)]
  rw [field_last b12 ha]
  iterate 4 rw [field_below (k := 12) (by decide)]
  rw [field_last b10 hk]
  iterate 3 rw [field_below (k := 10) (by decide)]
  rw [field_last b9 hs]
  iterate 2 rw [field_below (k := 9) (by decide)]
  rw [field_last ho hw, field_below (k := 4) (by decide), Nat.pow_zero, Nat.div_one]
  exact ⟨rfl, Nat.mod_eq_of_lt ho, rfl, rfl, rfl⟩

/-- The bounds of a stored rule that its kind uses. -/
theorem ofStored_bounds {raw : RawRule} {w : Nat → Word} (hfits : raw.fits) (hkind : raw.kind ≤ 3)
    (hw : ∀ j < 5, w j = (ruleWords (some raw.toRule)).getD j 0) :
    (w 2).toNat = raw.used.lo ∧ (w 3).toNat = raw.used.hi ∧ (w 4).toNat = raw.used.step := by
  obtain ⟨-, -, -, hlo, hhi, hstep⟩ := hfits
  have hlo' := toNat_signedWord_value16 (decide (raw.signed = 1)) hlo
  have hhi' := toNat_signedWord_value16 (decide (raw.signed = 1)) hhi
  have hs := toNat_natWord hstep
  rw [hw 2 (by decide), hw 3 (by decide), hw 4 (by decide)]
  obtain ⟨word, width, offset, signed, kind, lo, hi, step, action⟩ := raw
  dsimp only at *
  interval_cases kind
  · exact ⟨hlo', hhi', rfl⟩
  · exact ⟨hlo', hhi', hs⟩
  · exact ⟨rfl, rfl, rfl⟩
  · exact ⟨hlo', rfl, rfl⟩

/-- A stored rule reads back without the fields its kind does not use. -/
theorem ofStored_ruleWords {raw : RawRule} {w : Nat → Word} (hfits : raw.fits) (hargs : raw.argsOk = true)
    (hshape : raw.toRule.field.shapeOk = true) (hw : ∀ j < 5, w j = (ruleWords (some raw.toRule)).getD j 0) :
    RawRule.ofStored w = raw.used ∧ wordBit (w 1) 15 = true := by
  obtain ⟨hkind, haction, hsigned⟩ := argsOk_iff.mp hargs
  obtain ⟨hlo, hhi, hstep⟩ := ofStored_bounds hfits hkind hw
  obtain ⟨hlow, hoff, hfit⟩ : 1 ≤ raw.width ∧ raw.offset ≤ 15 ∧ raw.width + raw.offset ≤ 16 := shapeOk_iff.mp hshape
  have hcodes : raw.kindOf.code = raw.kind := by
    unfold RawRule.kindOf
    interval_cases raw.kind <;> rfl
  have h0 : (w 0).toNat = raw.word := (congrArg BitVec.toNat (hw 0 (by decide))).trans (toNat_natWord hfits.1)
  have h1 : w 1 = natWord (raw.offset + raw.width * 16 + raw.signed * 2 ^ 9 + raw.kind * 1024 + raw.action * 4096 +
      bit true 15) := by
    rw [hw 1 (by decide)]
    simp only [ruleWords, RawRule.toRule, hcodes, actionCode_of_le haction, bit_decide hsigned]
    rfl
  obtain ⟨hlt, hwidth, hoffset, hsign, hk, ha⟩ :=
    unpack_rule (Nat.lt_succ_of_le hoff) (show raw.width < 2 ^ 5 by omega) (Nat.lt_succ_of_le hsigned)
      (Nat.lt_succ_of_le hkind) (Nat.lt_of_le_of_lt haction (by decide)) rfl
  have hbits (hi lo : Nat) := (congrArg (bits hi lo) h1).trans (bits_natWord hlt)
  refine ⟨(RawRule.mk.injEq ..).mpr ⟨h0, (hbits 8 4).trans hwidth, (hbits 3 0).trans hoffset, (hbits 9 9).trans hsign,
    (hbits 11 10).trans hk, hlo, hhi, hstep, (hbits 13 12).trans ha⟩, ?_⟩
  rw [h1]
  exact wordBit_defined (Nat.lt_of_add_lt_add_right (n := 32768) hlt)

/-- An item that is not defined has bit 15 clear. -/
theorem wordBit_zero (n : Nat) : wordBit 0 n = false := Nat.zero_testBit n

/-- A stored rule that its load accepts is loaded. -/
theorem loadRuleAt_some {d : Lc44} {i : Fin 64} {raw : RawRule} {f : Fgd} (hfits : raw.fits) (hargs : raw.argsOk = true)
    (hdef : raw.toRule.defOk (f.others i.val) = true) (hi : d.fgd.rules[i] = some raw.toRule) :
    loadRuleAt (saveImage d) f i = { f with rules := f.rules.set i (some raw.toRule) } := by
  have hshape : raw.toRule.field.shapeOk = true := by
    simp only [Rule.defOk, Bool.and_eq_true] at hdef
    exact hdef.1.1
  obtain ⟨hstored, hbit⟩ := ofStored_ruleWords hfits hargs hshape
    fun j hj => (stagedWord_rule d i hj).trans (by rw [hi])
  obtain ⟨hrule, hsame⟩ := used_toRule raw
  have hok : (wordBit (stagedWord (saveImage d) (0x110 + 5 * i.val + 1)) 15 && raw.used.argsOk &&
      raw.used.toRule.defOk (f.others i.val)) = true := by
    rw [hbit, hsame, hargs, hrule, hdef]
    rfl
  unfold loadRuleAt
  simp only [hstored]
  rw [if_pos hok, hrule]

/-- An empty index is loaded empty. -/
theorem loadRuleAt_none {d : Lc44} {i : Fin 64} {f : Fgd} (hi : d.fgd.rules[i] = none) :
    loadRuleAt (saveImage d) f i = { f with rules := f.rules.set i none } := by
  have hword : stagedWord (saveImage d) (0x110 + 5 * i.val + 1) = 0 := by
    rw [stagedWord_rule d i (by decide), hi]
    rfl
  unfold loadRuleAt
  simp only [hword, wordBit_zero]
  rfl

/-! ## Carrier settings (R120) -/

/-- The stored settings of a carrier. -/
def RawCarrier.ofStored (w : Nat → Word) : RawCarrier where
  enabled := bits 0 0 (w 0)
  present := bits 1 1 (w 0)
  expected := (w 1).toNat
  tolerance := (w 2).toNat
  margin := (w 3).toNat

/-- LOAD takes stored settings that pass. -/
theorem loadCarrierFrom_eq (staged : List Word) (c : Carrier) :
    loadCarrierFrom staged c =
      (RawCarrier.ofStored fun k => stagedWord staged (0x260 + 4 * c.val + k)).check.getD .default := rfl

/-- The conditions R116 puts on carrier settings, and what they give. -/
theorem carrierCheck_iff {raw : RawCarrier} {x : CarrierSettings} :
    raw.check = some x ↔
      raw.enabled ≤ 1 ∧ raw.present ≤ 1 ∧ (raw.present = 0 ∨ withinInt (-1500) 0 (signed16 raw.expected) = true) ∧
        raw.tolerance ≤ 500 ∧ (1 ≤ raw.margin ∧ raw.margin ≤ 1000) ∧ raw.tolerance < raw.margin ∧
        x = ⟨decide (raw.enabled = 1), if raw.present = 1 then some (signed16 raw.expected) else none, raw.tolerance,
          raw.margin⟩ := by
  rw [RawCarrier.check, Option.ite_none_right_eq_some]
  simp only [flagOk, within, Bool.and_eq_true, Bool.or_eq_true, decide_eq_true_eq, and_assoc, Option.some_inj]
  rw [@eq_comm _ x]

/-- Stored settings of a carrier that pass pass again, as the same settings. -/
theorem ofStored_carrierWords {raw : RawCarrier} {x : CarrierSettings} {w : Nat → Word} (hexpected : raw.expected < 65536)
    (h : raw.check = some x) (hw : ∀ j < 4, w j = (carrierWords x).getD j 0) :
    (RawCarrier.ofStored w).check = some x := by
  obtain ⟨henabled, hpresent, hvalue, htolerance, hmargin, hless, hx⟩ := carrierCheck_iff.mp h
  have hsome : x.expected.isSome = decide (raw.present = 1) := by
    rw [hx]
    by_cases hp : raw.present = 1 <;> simp [hp]
  have hvalue' : raw.present = 1 → (w 1).toNat = raw.expected := by
    intro hp
    rw [hw 1 (by decide), hx]
    simp only [carrierWords, List.getD_cons_succ, List.getD_cons_zero, hp, if_true, optWord, Option.getD_some]
    exact toNat_signedWord_value16 true hexpected
  have hfirst : w 0 = natWord (raw.enabled * 2 ^ 0 + raw.present * 2 ^ 1) := by
    rw [hw 0 (by decide), ← bit_decide henabled 0, ← bit_decide hpresent 1, ← hsome]
    have henable : x.enabled = decide (raw.enabled = 1) := by rw [hx]
    rw [← henable]
    rfl
  have htol : (w 2).toNat = raw.tolerance := by
    rw [hw 2 (by decide), hx]
    exact toNat_natWord (show raw.tolerance < 65536 by omega)
  have hmar : (w 3).toNat = raw.margin := by
    rw [hw 3 (by decide), hx]
    exact toNat_natWord (show raw.margin < 65536 by omega)
  have hstored : RawCarrier.ofStored w = ⟨raw.enabled, raw.present, (w 1).toNat, raw.tolerance, raw.margin⟩ := by
    unfold RawCarrier.ofStored
    rw [hfirst, bits_natWord (by omega), bits_natWord (by omega), htol, hmar]
    exact RawCarrier.mk.injEq .. |>.mpr ⟨by omega, by omega, rfl, rfl, rfl⟩
  rw [hstored, carrierCheck_iff, hx]
  by_cases hp : raw.present = 1
  · rw [hvalue' hp]
    exact ⟨henabled, hpresent, hvalue, htolerance, hmargin, hless, rfl⟩
  · refine ⟨henabled, hpresent, Or.inl (show raw.present = 0 by omega), htolerance, hmargin, hless, ?_⟩
    simp only [hp, if_false]

/-- The stored settings of a carrier that their load accepts are loaded. -/
theorem loadCarrierFrom_save {d : Lc44} {c : Carrier} {raw : RawCarrier} (hexpected : raw.expected < 65536)
    (h : raw.check = some (d.rcu.records.get c).settings) :
    loadCarrierFrom (saveImage d) c = (d.rcu.records.get c).settings := by
  rw [loadCarrierFrom_eq, ofStored_carrierWords hexpected h fun j hj => stagedWord_carrier d c hj]
  rfl

/-! ## Plan steps (R162) -/

/-- A stored plan slot. -/
def RawStep.ofStored (w : Nat → Word) : RawStep where
  mask := bits 3 0 (w 0)
  start := bits 4 4 (w 0)
  arm := bits 11 0 (w 1)
  settle := (w 2).toNat
  measure := (w 3).toNat + (w 4).toNat * 65536
  needsTransmit := bits 5 5 (w 0)
  reportsMin := (w 5).toNat
  rslMin := (bits 8 8 (w 0), (w 6).toNat)
  rslMax := (bits 9 9 (w 0), (w 7).toNat)
  mseMax := (bits 10 10 (w 0), (w 8).toNat)
  xpdMin := (bits 11 11 (w 0), (w 9).toNat)
  uncorrMax := (bits 12 12 (w 0), (w 10).toNat + (w 11).toNat * 65536)
  modstepMin := (bits 13 13 (w 0), bits 15 12 (w 1))

/-- LOAD takes a stored slot that is defined and passes. -/
theorem loadStepFrom_eq (staged : List Word) (i : Nat) :
    loadStepFrom staged i =
      if wordBit (stagedWord staged (0x270 + 12 * i + 0)) 15 then
        (RawStep.ofStored fun k => stagedWord staged (0x270 + 12 * i + k)).check
      else none := rfl

/-- A signed criterion as stored. -/
theorem toNat_optWord_rawSigned {p : Nat × Nat} (hp : p.1 ≤ 1) (hv : p.2 < 65536) :
    (optWord (rawSigned p)).toNat = (criterionUsed p).2 ∧ (rawSigned p).isSome = decide (p.1 = 1) := by
  obtain ⟨present, v⟩ := p
  have hword : (signedWord (signed16 v)).toNat = v := toNat_signedWord_value16 true hv
  rcases Nat.le_one_iff_eq_zero_or_eq_one.mp hp with h | h <;> dsimp only at h <;> subst h
  · exact ⟨rfl, rfl⟩
  · exact ⟨hword, rfl⟩

/-- An unsigned criterion as stored. -/
theorem getD_rawUnsigned {p : Nat × Nat} (hp : p.1 ≤ 1) :
    (rawUnsigned p).getD 0 = (criterionUsed p).2 ∧ (rawUnsigned p).isSome = decide (p.1 = 1) := by
  obtain ⟨present, v⟩ := p
  rcases Nat.le_one_iff_eq_zero_or_eq_one.mp hp with h | h <;> dsimp only at h <;> subst h
  · exact ⟨rfl, rfl⟩
  · exact ⟨rfl, rfl⟩

/-- Two words of a number of 32 bits. -/
theorem toNat_words32 {n : Nat} (h : n < 4294967296) :
    (natWord n).toNat + (natWord (n / 65536)).toNat * 65536 = n := by
  simp only [natWord, BitVec.toNat_ofNat]
  omega

/-- The fields packed in a stored step's first word. -/
theorem unpack_flags {mask start needs c1 c2 c3 c4 c5 c6 n : Nat} (hm : mask < 2 ^ 4) (hs : start < 2 ^ 1)
    (hd : needs < 2 ^ 1) (h1 : c1 < 2 ^ 1) (h2 : c2 < 2 ^ 1) (h3 : c3 < 2 ^ 1) (h4 : c4 < 2 ^ 1) (h5 : c5 < 2 ^ 1)
    (h6 : c6 < 2 ^ 1)
    (hn : n = mask + start * 2 ^ 4 + needs * 2 ^ 5 + c1 * 2 ^ 8 + c2 * 2 ^ 9 + c3 * 2 ^ 10 + c4 * 2 ^ 11 + c5 * 2 ^ 12 +
      c6 * 2 ^ 13 + 1 * 2 ^ 15) :
    n < 2 ^ 16 ∧ n / 2 ^ 0 % 2 ^ 4 = mask ∧ n / 2 ^ 4 % 2 ^ 1 = start ∧ n / 2 ^ 5 % 2 ^ 1 = needs ∧
      n / 2 ^ 8 % 2 ^ 1 = c1 ∧ n / 2 ^ 9 % 2 ^ 1 = c2 ∧ n / 2 ^ 10 % 2 ^ 1 = c3 ∧ n / 2 ^ 11 % 2 ^ 1 = c4 ∧
      n / 2 ^ 12 % 2 ^ 1 = c5 ∧ n / 2 ^ 13 % 2 ^ 1 = c6 := by
  have b5 := fields_lt hm hs (n := 5) (by decide)
  have b8 := fields_lt b5 hd (n := 8) (by decide)
  have b9 := fields_lt b8 h1 (n := 9) (by decide)
  have b10 := fields_lt b9 h2 (n := 10) (by decide)
  have b11 := fields_lt b10 h3 (n := 11) (by decide)
  have b12 := fields_lt b11 h4 (n := 12) (by decide)
  have b13 := fields_lt b12 h5 (n := 13) (by decide)
  have b15 := fields_lt b13 h6 (n := 15) (by decide)
  subst hn
  refine ⟨fields_lt b15 (w := 1) (by decide) (by decide), ?_⟩
  iterate 9 rw [field_below (k := 15) (by decide)]
  rw [field_last b13 h6]
  iterate 8 rw [field_below (k := 13) (by decide)]
  rw [field_last b12 h5]
  iterate 7 rw [field_below (k := 12) (by decide)]
  rw [field_last b11 h4]
  iterate 6 rw [field_below (k := 11) (by decide)]
  rw [field_last b10 h3]
  iterate 5 rw [field_below (k := 10) (by decide)]
  rw [field_last b9 h2]
  iterate 4 rw [field_below (k := 9) (by decide)]
  rw [field_last b8 h1]
  iterate 3 rw [field_below (k := 8) (by decide)]
  rw [field_last b5 hd]
  iterate 2 rw [field_below (k := 5) (by decide)]
  rw [field_last hm hs, field_below (k := 4) (by decide), Nat.pow_zero, Nat.div_one]
  exact ⟨Nat.mod_eq_of_lt hm, rfl, rfl, rfl, rfl, rfl, rfl, rfl, rfl⟩

/-- The fields packed in a stored step's second word. -/
theorem unpack_arm {arm modstep : Nat} (ha : arm < 4096) (hm : modstep ≤ 15) :
    arm + modstep * 4096 < 65536 ∧ (arm + modstep * 4096) / 2 ^ 0 % 2 ^ 12 = arm ∧
      (arm + modstep * 4096) / 2 ^ 12 % 2 ^ 4 = modstep := by
  omega

/-- A stored step reads back without the fields it does not use. -/
theorem ofStored_planWords {raw : RawStep} {w : Nat → Word} (hfits : raw.fits) (hok : raw.ok = true)
    (hw : ∀ j < 12, w j = (planWords (some raw.toStep)).getD j 0) :
    RawStep.ofStored w = raw.used ∧ wordBit (w 0) 15 = true := by
  obtain ⟨hmask, hstart, harm, hsettle, hmeasure, hneeds, h1, h2, h3, h4, h5, h6, hmodstep, -⟩ := stepOk_iff.mp hok
  obtain ⟨-, hreports, hv1, hv2, hv3, hv4, hv5, hv6⟩ := hfits
  obtain ⟨hw1, hs1⟩ := toNat_optWord_rawSigned h1 hv1
  obtain ⟨hw2, hs2⟩ := toNat_optWord_rawSigned h2 hv2
  obtain ⟨hw3, hs3⟩ := toNat_optWord_rawSigned h3 hv3
  obtain ⟨hw4, hs4⟩ := toNat_optWord_rawSigned h4 hv4
  obtain ⟨hw5, hs5⟩ := getD_rawUnsigned h5
  obtain ⟨hw6, hs6⟩ := getD_rawUnsigned h6
  have hfirst : w 0 = natWord (raw.mask + raw.start * 16 + raw.needsTransmit * 2 ^ 5 + raw.rslMin.1 * 2 ^ 8 +
      raw.rslMax.1 * 2 ^ 9 + raw.mseMax.1 * 2 ^ 10 + raw.xpdMin.1 * 2 ^ 11 + raw.uncorrMax.1 * 2 ^ 12 +
      raw.modstepMin.1 * 2 ^ 13 + bit true 15) := by
    rw [hw 0 (by decide), ← bit_decide hneeds, ← bit_decide h1, ← bit_decide h2, ← bit_decide h3, ← bit_decide h4,
      ← bit_decide h5, ← bit_decide h6, ← hs1, ← hs2, ← hs3, ← hs4, ← hs5, ← hs6]
    simp only [planWords, RawStep.toStep, carriersMask_maskCarriers hmask.2, startCode_of_le hstart]
    rfl
  have harm' : (if raw.start = 1 then raw.arm else 0) < 4096 := by
    clear hv5 hmeasure
    split <;> omega
  have hmod : (criterionUsed raw.modstepMin).2 ≤ 15 := by
    unfold criterionUsed
    dsimp only
    split
    · exact hmodstep.resolve_left (by omega)
    · exact Nat.zero_le _
  have hsecond : w 1 = natWord ((if raw.start = 1 then raw.arm else 0) + (criterionUsed raw.modstepMin).2 * 4096) := by
    rw [hw 1 (by decide), ← hw6]
    rfl
  have hreports' : (natWord (if raw.reportsMin = 0 then 1 else raw.reportsMin)).toNat =
      if raw.reportsMin = 0 then 1 else raw.reportsMin := toNat_natWord (by split <;> omega)
  have hsettle' := toNat_natWord (Nat.lt_of_le_of_lt hsettle (by decide))
  have hmeasure' := toNat_words32 (Nat.lt_of_le_of_lt hmeasure.2 (by decide))
  have huncorr := toNat_words32 (criterionUsed_lt (by decide) hv5)
  obtain ⟨hlt, hm, hst, hn, hc1, hc2, hc3, hc4, hc5, hc6⟩ := 
    unpack_flags (Nat.lt_succ_of_le hmask.2) (Nat.lt_succ_of_le hstart) (Nat.lt_succ_of_le hneeds) (Nat.lt_succ_of_le h1)
      (Nat.lt_succ_of_le h2) (Nat.lt_succ_of_le h3) (Nat.lt_succ_of_le h4) (Nat.lt_succ_of_le h5) (Nat.lt_succ_of_le h6) rfl
  obtain ⟨hlt', ha, hmo⟩ := unpack_arm harm' hmod
  have hlow (hi lo : Nat) := (congrArg (bits hi lo) hfirst).trans (bits_natWord hlt)
  have hhigh (hi lo : Nat) := (congrArg (bits hi lo) hsecond).trans (bits_natWord hlt')
  have h10 : w 10 = natWord (criterionUsed raw.uncorrMax).2 := by
    rw [← hw5]
    exact hw 10 (by decide)
  have h11 : w 11 = natWord ((criterionUsed raw.uncorrMax).2 / 65536) := by
    rw [← hw5]
    exact hw 11 (by decide)
  have hword {j : Nat} (hj : j < 12) : (w j).toNat = ((planWords (some raw.toStep)).getD j 0).toNat :=
    congrArg BitVec.toNat (hw j hj)
  refine ⟨(RawStep.mk.injEq ..).mpr ⟨(hlow 3 0).trans hm, (hlow 4 4).trans hst, (hhigh 11 0).trans ha,
    (hword (j := 2) (by decide)).trans hsettle', ?_, (hlow 5 5).trans hn, (hword (j := 5) (by decide)).trans hreports',
    Prod.ext ((hlow 8 8).trans hc1) ((hword (j := 6) (by decide)).trans hw1),
    Prod.ext ((hlow 9 9).trans hc2) ((hword (j := 7) (by decide)).trans hw2),
    Prod.ext ((hlow 10 10).trans hc3) ((hword (j := 8) (by decide)).trans hw3),
    Prod.ext ((hlow 11 11).trans hc4) ((hword (j := 9) (by decide)).trans hw4),
    Prod.ext ((hlow 12 12).trans hc5) ?_, Prod.ext ((hlow 13 13).trans hc6) ((hhigh 15 12).trans hmo)⟩, ?_⟩
  · rw [hw 3 (by decide), hw 4 (by decide)]
    exact hmeasure'
  · dsimp only
    rw [h10, h11]
    exact huncorr
  · rw [hfirst]
    exact wordBit_defined (Nat.lt_of_add_lt_add_right (n := 32768) hlt)

/-- A stored step that its load accepts is loaded. -/
theorem loadStepFrom_some {d : Lc44} {i : Fin 32} {raw : RawStep} {p : PlanStep} (hfits : raw.fits)
    (h : raw.check = some p) (hi : d.acu.plan[i] = some p) : loadStepFrom (saveImage d) i.val = some p := by
  obtain ⟨hok, rfl⟩ := stepCheck_parts h
  obtain ⟨hstored, hbit⟩ := ofStored_planWords (w := fun k => stagedWord (saveImage d) (0x270 + 12 * i.val + k)) hfits hok
    fun j hj => (stagedWord_step d i hj).trans (by rw [hi])
  rw [loadStepFrom_eq, if_pos hbit, hstored, RawStep.check, if_pos (used_ok hok), used_toStep]

/-- An empty slot is loaded empty. -/
theorem loadStepFrom_none {d : Lc44} {i : Fin 32} (hi : d.acu.plan[i] = none) :
    loadStepFrom (saveImage d) i.val = none := by
  have hword : stagedWord (saveImage d) (0x270 + 12 * i.val + 0) = 0 := by
    rw [stagedWord_step d i (by decide), hi]
    rfl
  rw [loadStepFrom_eq, hword, wordBit_zero]
  rfl

/-! ## The report layout (R120) -/

/-- A slot as it reads back: an empty one with the least width. -/
def slotStored (s : Option LayoutSlot) : RawSlot :=
  match s with
  | none => ⟨0, 0, 1, 0, 0⟩
  | some s => ⟨s.wordIndex, slotKindCode (some s), s.field.width, s.field.offset, bit s.field.signed 0⟩

/-- A slot in use of an accepted layout reads back. -/
theorem slotStored_toSlot {closing : Nat} {s : RawSlot} {k : ReportKind} (hk : ReportKind.ofCode s.kind = some k)
    (h : s.ok closing = true) : slotStored s.toSlot = s := by
  obtain ⟨-, -, hsigned, -⟩ := (slotOk_iff hk).mp h
  have hslot : s.toSlot = some ⟨s.wordIndex, k, s.field⟩ := by rw [RawSlot.toSlot, hk]; rfl
  have hcode := kindOfCode hk s.wordIndex s.field
  rw [hslot]
  show (⟨s.wordIndex, slotKindCode (some ⟨s.wordIndex, k, s.field⟩), s.width, s.offset, bit (decide (s.signed = 1)) 0⟩ :
    RawSlot) = s
  rw [hcode, bit_decide hsigned, Nat.pow_zero, Nat.mul_one]

/-- The fields packed in a stored slot's word. -/
theorem unpack_slot {index offset width signed n : Nat} (hi : index < 2 ^ 6) (ho : offset < 2 ^ 4) (hw : width < 2 ^ 4)
    (hs : signed < 2 ^ 1) (hn : n = index + offset * 2 ^ 6 + width * 2 ^ 10 + signed * 2 ^ 14) :
    n < 2 ^ 16 ∧ n / 2 ^ 0 % 2 ^ 6 = index ∧ n / 2 ^ 10 % 2 ^ 4 = width ∧ n / 2 ^ 6 % 2 ^ 4 = offset ∧
      n / 2 ^ 14 % 2 ^ 1 = signed := by
  have b10 := fields_lt hi ho (n := 10) (by decide)
  have b14 := fields_lt b10 hw (n := 14) (by decide)
  subst hn
  refine ⟨fields_lt b14 hs (by decide), ?_⟩
  rw [field_last b14 hs]
  iterate 3 rw [field_below (k := 14) (by decide)]
  rw [field_last b10 hw]
  iterate 2 rw [field_below (k := 10) (by decide)]
  rw [field_last hi ho, field_below (k := 6) (by decide), Nat.pow_zero, Nat.div_one]
  exact ⟨Nat.mod_eq_of_lt hi, rfl, rfl, rfl⟩

/-- The word of an accepted slot reads back. -/
theorem bits_slotWord {closing : Nat} {s : RawSlot} (hclosing : closing ≤ 63) (h : s.ok closing = true) :
    bits 5 0 (slotWord s.toSlot) = (slotStored s.toSlot).wordIndex ∧
      bits 13 10 (slotWord s.toSlot) + 1 = (slotStored s.toSlot).width ∧
      bits 9 6 (slotWord s.toSlot) = (slotStored s.toSlot).offset ∧
      bits 14 14 (slotWord s.toSlot) = (slotStored s.toSlot).signed := by
  cases hcode : ReportKind.ofCode s.kind with
  | none =>
    have hslot : s.toSlot = none := by rw [RawSlot.toSlot, hcode]; rfl
    rw [hslot]
    exact ⟨rfl, rfl, rfl, rfl⟩
  | some k =>
    obtain ⟨hindex, ⟨hlow, hoffset, hfit⟩, hsigned, -⟩ := (slotOk_iff hcode).mp h
    have hslot : s.toSlot = some ⟨s.wordIndex, k, s.field⟩ := by rw [RawSlot.toSlot, hcode]; rfl
    have hword : slotWord s.toSlot =
        natWord (s.wordIndex + s.offset * 64 + (s.width - 1) * 1024 + s.signed * 2 ^ 14) := by
      rw [hslot, ← bit_decide hsigned]
      rfl
    obtain ⟨hlt, hi, hw, ho, hs⟩ :=
      unpack_slot (Nat.lt_succ_of_le (Nat.le_trans hindex hclosing)) (Nat.lt_succ_of_le hoffset)
        (show s.width - 1 < 2 ^ 4 by omega) (Nat.lt_succ_of_le hsigned) rfl
    rw [slotStored_toSlot hcode h, hword]
    exact ⟨(bits_natWord hlt).trans hi, (congrArg (· + 1) ((bits_natWord hlt).trans hw)).trans (Nat.sub_add_cancel hlow),
      (bits_natWord hlt).trans ho, (bits_natWord hlt).trans hs⟩

/-- The code of a slot's kind fits four bits. -/
theorem slotKindCode_lt (s : Option LayoutSlot) : slotKindCode s < 16 := by
  obtain _ | ⟨_, k, _⟩ := s
  · decide
  · cases k <;> simp [slotKindCode]

/-- A stored slot's kind. -/
theorem slotStored_kind (s : Option LayoutSlot) : (slotStored s).kind = slotKindCode s := by cases s <;> rfl

/-- The codes packed in a stored word of kinds. -/
theorem unpack_kinds {a b c d n : Nat} (ha : a < 2 ^ 4) (hb : b < 2 ^ 4) (hc : c < 2 ^ 4) (hd : d < 2 ^ 4)
    (hn : n = a + b * 2 ^ 4 + c * 2 ^ 8 + d * 2 ^ 12) :
    n < 2 ^ 16 ∧ n / 2 ^ 0 % 2 ^ 4 = a ∧ n / 2 ^ 4 % 2 ^ 4 = b ∧ n / 2 ^ 8 % 2 ^ 4 = c ∧ n / 2 ^ 12 % 2 ^ 4 = d := by
  have b8 := fields_lt ha hb (n := 8) (by decide)
  have b12 := fields_lt b8 hc (n := 12) (by decide)
  subst hn
  refine ⟨fields_lt b12 hd (by decide), ?_⟩
  rw [field_last b12 hd]
  iterate 3 rw [field_below (k := 12) (by decide)]
  rw [field_last b8 hc]
  iterate 2 rw [field_below (k := 8) (by decide)]
  rw [field_last ha hb, field_below (k := 4) (by decide), Nat.pow_zero, Nat.div_one]
  exact ⟨Nat.mod_eq_of_lt ha, rfl, rfl, rfl⟩

/-- The kinds of four slots read back. -/
theorem bits_kindsWord (a b c d : Option LayoutSlot) :
    bits 3 0 (kindsWord a b c d) = slotKindCode a ∧ bits 7 4 (kindsWord a b c d) = slotKindCode b ∧
      bits 11 8 (kindsWord a b c d) = slotKindCode c ∧ bits 15 12 (kindsWord a b c d) = slotKindCode d := by
  have ha := slotKindCode_lt a
  have hb := slotKindCode_lt b
  have hc := slotKindCode_lt c
  have hd := slotKindCode_lt d
  obtain ⟨hlt, h0, h1, h2, h3⟩ := unpack_kinds ha hb hc hd rfl
  exact ⟨(bits_natWord hlt).trans h0, (bits_natWord hlt).trans h1, (bits_natWord hlt).trans h2, (bits_natWord hlt).trans h3⟩

/-- The raw slots that LOAD reads from the stored layout. -/
def rawSlotsStored (staged : List Word) : Vector RawSlot 8 :=
  Vector.ofFn fun k =>
    let w := stagedWord staged (0x251 + k.val)
    let kinds := stagedWord staged (if k.val < 4 then 0x259 else 0x25A)
    { wordIndex := bits 5 0 w
      kind := bits (4 * (k.val % 4) + 3) (4 * (k.val % 4)) kinds
      width := bits 13 10 w + 1
      offset := bits 9 6 w
      signed := bits 14 14 w }

/-- LOAD takes a stored layout that is defined and passes. -/
theorem loadLayoutFrom_eq (staged : List Word) :
    loadLayoutFrom staged =
      if wordBit (stagedWord staged 0x250) 15 then
        checkLayout (bits 5 0 (stagedWord staged 0x250)) (rawSlotsStored staged)
      else none := rfl

/-- The stored slots of an accepted layout. -/
theorem rawSlotsStored_save {d : Lc44} {closing : Nat} {slots : Vector RawSlot 8} {l : Layout}
    (h : checkLayout closing slots = some l) (hl : d.rcu.layout = some l) :
    rawSlotsStored (saveImage d) = l.slots.map slotStored := by
  obtain ⟨hclosing, hslots, -, hparts⟩ := checkLayout_parts h
  have hword (k : Nat) (hk : k < 8) : stagedWord (saveImage d) (0x251 + k) = slotWord l.slots[k] := by
    rw [show 0x251 + k = 0x250 + (k + 1) by omega, stagedWord_layout d (by omega), hl]
    simp only [layoutWords, List.cons_append, List.getD_cons_succ]
    rw [List.getD_append _ _ _ _ (by simpa using hk), List.getD_eq_getElem _ _ (by simpa using hk)]
    simp
  have hbits (k : Nat) (hk : k < 8) := bits_slotWord (s := slots[k]) hclosing (hslots _ (by simp))
  have hslot (k : Nat) (hk : k < 8) : l.slots[k] = slots[k].toSlot := by
    subst hparts
    simp
  have hnine : (natWord (l.closing + bit true 15) :: l.slots.toList.map slotWord).length = 9 := by simp
  have hkinds1 : stagedWord (saveImage d) 0x259 = kindsWord l.slots[0] l.slots[1] l.slots[2] l.slots[3] := by
    rw [show 0x259 = 0x250 + (9 + 0) from rfl, stagedWord_layout d (by decide), hl]
    exact getD_behind hnine 0
  have hkinds2 : stagedWord (saveImage d) 0x25A = kindsWord l.slots[4] l.slots[5] l.slots[6] l.slots[7] := by
    rw [show 0x25A = 0x250 + (9 + 1) from rfl, stagedWord_layout d (by decide), hl]
    exact getD_behind hnine 1
  have hkind (k : Nat) (hk : k < 8) :
      bits (4 * (k % 4) + 3) (4 * (k % 4)) (stagedWord (saveImage d) (if k < 4 then 0x259 else 0x25A)) =
        slotKindCode l.slots[k] := by
    obtain ⟨h0, h1, h2, h3⟩ := bits_kindsWord l.slots[0] l.slots[1] l.slots[2] l.slots[3]
    obtain ⟨h4, h5, h6, h7⟩ := bits_kindsWord l.slots[4] l.slots[5] l.slots[6] l.slots[7]
    by_cases hlow : k < 4
    · rw [if_pos hlow, hkinds1]
      interval_cases k
      · exact h0
      · exact h1
      · exact h2
      · exact h3
    · rw [if_neg hlow, hkinds2]
      have hlow' : 4 ≤ k := by omega
      interval_cases k
      · exact h4
      · exact h5
      · exact h6
      · exact h7
  refine Vector.ext fun k hk => ?_
  obtain ⟨hindex, hwidth, hoffset, hsigned⟩ := hbits k hk
  simp only [rawSlotsStored, Vector.getElem_ofFn, Vector.getElem_map, hword k hk, hkind k hk]
  rw [hslot k hk, hindex, hwidth, hoffset, hsigned, ← slotStored_kind]

/-- The stored layout that its load accepts is loaded. -/
theorem loadLayoutFrom_some {d : Lc44} {closing : Nat} {slots : Vector RawSlot 8} {l : Layout}
    (h : checkLayout closing slots = some l) (hl : d.rcu.layout = some l) :
    loadLayoutFrom (saveImage d) = some l := by
  obtain ⟨hclosing, -, -, hparts⟩ := checkLayout_parts h
  have hbit : bit true 15 = 32768 := rfl
  have hhead : stagedWord (saveImage d) 0x250 = natWord (closing + bit true 15) := by
    rw [show 0x250 = 0x250 + 0 from rfl, stagedWord_layout d (by decide), hl, hparts]
    rfl
  have hclose : bits 5 0 (natWord (closing + bit true 15)) = closing := by
    rw [bits_natWord (by omega)]
    omega
  rw [loadLayoutFrom_eq, hhead, if_pos (wordBit_defined (by omega)), hclose, rawSlotsStored_save h hl]
  exact checkLayout_again h rfl fun s k hk hs => slotStored_toSlot hk hs

/-- Without a layout none is loaded. -/
theorem loadLayoutFrom_none {d : Lc44} (hl : d.rcu.layout = none) : loadLayoutFrom (saveImage d) = none := by
  have hhead : stagedWord (saveImage d) 0x250 = 0 := by
    rw [show 0x250 = 0x250 + 0 from rfl, stagedWord_layout d (by decide), hl]
    rfl
  rw [loadLayoutFrom_eq, hhead, wordBit_zero]
  rfl

/-! ## The statement -/

/-- Settles O52: the words of each item's section read back as the raw definition without the fields it does not use. -/
theorem savedDefinitionsLoadAsTheyWere : Obligations.SavedDefinitionsLoadAsTheyWere := by
  intro d _ _ staged
  refine ⟨fun i b f hargs hdef hi => loadRuleAt_some (ofBody_fits b) hargs hdef hi, fun i f hi => loadRuleAt_none hi,
    fun i b p hcheck hi => loadStepFrom_some (stepOfBody_fits b) hcheck hi, fun i hi => loadStepFrom_none hi,
    fun c b hcheck => loadCarrierFrom_save (u16At_lt b 3) hcheck, fun b h => ?_⟩
  cases hl : d.rcu.layout with
  | none => exact loadLayoutFrom_none hl
  | some l => exact loadLayoutFrom_some (h.trans hl) hl

end Sys2Proof.Machine
end

