-- ==== Sys2Proof/Proofs/Startup.lean ====
section
/-! SUPPORT. Start-up and the operations of PHC (R164, R179, R184): what keeps HOLD from coming about and LOAD from
reading outside start-up, the steps of RECOVER, and how a request relates a state to its outcome. -/

namespace Sys2Proof.Machine

set_option Elab.async false

/-! ## RECOVER -/

/-- A property that RECOVER's steps keep: a change of TRU, a stage entered, and the end of start-up (R182 to R184). -/
structure Recovers (R : Lc44 → Prop) : Prop where
  tru : ∀ f d, R d → R (d.onTru f)
  enter : ∀ status g d, R d → R (enterRecover status g d)
  ends : ∀ status x close d, R d → R (endStartup status x close d)

section
variable {R : Lc44 → Prop} (hR : Recovers R) {d : Lc44}
include hR

theorem Recovers.close (status : ProfileStatus) (result : RecoveryResult) (o : TrialOutcome) (g : R d) :
    R (recoverClose status result o d) := hR.enter _ _ _ (hR.tru _ _ g)

theorem Recovers.restore (status : ProfileStatus) (number count : Nat) (todo : List JournalRecord) (restored : Nat)
    (unrestored : List Addr) (g : R d) : R (recoverRestore status number count todo restored unrestored d) := by
  cases todo with
  | nil => exact hR.close _ _ _ g
  | cons r todo => exact hR.enter _ _ _ g

theorem Recovers.recoverOk (status : ProfileStatus) (stage : RecoverStage) (w : Word) (g : R d) :
    R (recoverOk status stage w d) := by
  cases stage with
  | readState retry => exact hR.enter _ _ _ g
  | readCount state retry =>
    have gt := hR.tru (fun t => { t with number := bits 15 8 state }) _ g
    show R (recoverBy status state w d)
    unfold recoverBy
    dsimp only
    split
    · exact hR.ends _ _ _ _ gt
    · split
      · exact hR.enter _ _ _ gt
      · split
        · exact hR.enter _ _ _ gt
        · exact hR.close _ _ _ gt
    · exact hR.close _ _ _ gt
  | readRecord number count good part retry =>
    show R (recordWordRead status number count good part w d)
    unfold recordWordRead
    split
    · dsimp only
      split
      · exact hR.close _ _ _ g
      · split
        · exact hR.enter _ _ _ g
        · exact hR.restore _ _ _ _ _ _ g
    · exact hR.enter _ _ _ g
  | restore number count todo restored unrestored retry => exact hR.restore _ _ _ _ _ _ g
  | closeState number x retry => exact hR.enter _ _ _ g
  | closeCount x retry => exact hR.ends _ _ _ _ g

theorem Recovers.recoverFailed (status : ProfileStatus) (stage : RecoverStage) (g : R d) :
    R (recoverFailed status stage d) := by
  have again (f : RecoverStage) : R (enterRecover status f d) := hR.enter _ _ _ g
  have ends (x : RecoverySummary) (c : HeaderClose) (f : Tru → Tru) : R (endStartup status x c (d.onTru f)) :=
    hR.ends _ _ _ _ (hR.tru _ _ g)
  cases stage with
  | readState retry =>
    cases retry with
    | false => exact again _
    | true => exact ends _ _ _
  | readCount state retry =>
    cases retry with
    | false => exact again _
    | true => exact ends _ _ _
  | readRecord number count good part retry =>
    cases retry with
    | false => exact again _
    | true => exact hR.close _ _ _ g
  | restore number count todo restored unrestored retry =>
    cases retry with
    | false => exact again _
    | true => exact hR.restore _ _ _ _ _ _ g
  | closeState number x retry =>
    cases retry with
    | false => exact again _
    | true => exact ends _ _ _
  | closeCount x retry =>
    cases retry with
    | false => exact again _
    | true => exact hR.ends _ _ _ _ g

end

/-! ## The relation -/

/-- LOAD reads words only while PHOP is STARTING (R180). -/
def Lc44.loadsInStartup (d : Lc44) : Prop := ∀ staged, d.phc.work = .loading staged → d.phc.phop.isStarting = true

/-- HOLD does not come about, and LOAD goes on to read only during start-up. -/
structure Lc44.startupCalm (d e : Lc44) : Prop where
  hold : e.holdLine = true → d.holdLine = true
  loading : d.loadsInStartup → e.loadsInStartup

theorem startupCalm_refl (d : Lc44) : d.startupCalm d := ⟨id, id⟩

section
variable {d e f : Lc44}

theorem Lc44.startupCalm.trans (h : d.startupCalm e) (k : e.startupCalm f) : d.startupCalm f :=
  ⟨fun hf => h.hold (k.hold hf), fun hd => k.loading (h.loading hd)⟩

/-- A change of PHC that leaves PHOP and its work as they are. -/
theorem startupCalm_of_eq (hr : e.resetAsserted = d.resetAsserted) (hp : e.phc.phop = d.phc.phop)
    (hw : e.phc.work = d.phc.work) : d.startupCalm e := by
  refine ⟨fun h => ?_, fun h staged hl => ?_⟩
  · simpa [Lc44.holdLine, hr, hp] using h
  · rw [hp]
    exact h staged (hw ▸ hl)

/-- PHC turns to other work than LOAD, and does not begin start-up. -/
theorem startupCalm_of_work (hr : e.resetAsserted = d.resetAsserted)
    (hp : e.phc.phop.isStarting = true → d.phc.phop.isStarting = true) (hw : ∀ staged, e.phc.work ≠ .loading staged) :
    d.startupCalm e := by
  refine ⟨fun h => ?_, fun _ staged hl => absurd hl (hw staged)⟩
  simp only [Lc44.holdLine, Bool.or_eq_true, hr] at h ⊢
  exact h.imp id hp

/-- PHC ends what it was at. -/
theorem startupCalm_ended (f : Phc → Phc) (d : Lc44) (hp : (f d.phc).phop = .none := by rfl)
    (hw : (f d.phc).work = .idle := by rfl) : d.startupCalm (d.onPhc f) :=
  startupCalm_of_work rfl (fun h => by simp [Lc44.onPhc, hp, Phop.isStarting] at h)
    (fun _ h => by simp [Lc44.onPhc, hw] at h)

/-- An operation that leaves PHC alone. -/
theorem startupCalm_of_keeps {l : List Block} (h : d.keepsOutside l e) (hl : Block.phc ∉ l := by decide) :
    d.startupCalm e := by
  have hphc := keeps_phc h hl
  exact startupCalm_of_eq h.1 (by rw [hphc]) (by rw [hphc])

/-! ## Folds and cycles -/

theorem startupCalm_foldDone (d : Lc44) : d.startupCalm (foldDone d) :=
  startupCalm_of_work rfl nofun nofun

theorem startupCalm_foldFailed (w : FoldFailure) (d : Lc44) : d.startupCalm (foldFailed w d) :=
  startupCalm_of_work rfl nofun nofun

/-- What happens on the way of a bus cycle, a trial or a fold keeps start-up calm. -/
theorem startupCalm_stable (d : Lc44) : Stable (d.startupCalm ·) where
  iport _ _ h := h.trans (startupCalm_of_keeps (keeps_onIport _ _))
  mpc _ _ h := h.trans (startupCalm_of_keeps (keeps_onMpc _ _))
  ccl _ _ h := h.trans (startupCalm_of_keeps (keeps_onCcl _ _))
  fgd _ _ h := h.trans (startupCalm_of_keeps (keeps_onFgd _ _))
  tru _ _ h := h.trans (startupCalm_of_keeps (keeps_onTru _ _))
  ovu _ _ h := h.trans (startupCalm_of_keeps (keeps_onOvu _ _))
  answer _ _ _ _ h := h.trans (startupCalm_of_keeps (keeps_answer _ _ _))
  raised _ _ h := h.trans (startupCalm_of_keeps (keeps_onRaised _ _))
  foldDone _ h := h.trans (startupCalm_foldDone _)

/-! ## LOAD -/

/-- Within start-up LOAD goes on. -/
theorem startupCalm_loadNext (staged : List Word) (h : d.phc.phop.isStarting = true) :
    d.startupCalm (loadNext staged d) :=
  ⟨fun _ => by simp [Lc44.holdLine, h], fun _ _ _ => h⟩

/-- Within start-up LOAD gives way to RECOVER. -/
theorem startupCalm_loadEndsWith (status : ProfileStatus) (h : d.phc.phop.isStarting = true) :
    d.startupCalm (loadEndsWith status d) :=
  ⟨fun _ => by simp [Lc44.holdLine, h], fun _ _ hw => nomatch hw⟩

/-! ## Requests -/

/-- No owner is given a request while PHOP is STARTING (R193). -/
theorem not_starting_of_filter {phase : Phase} {phop : Phop} {r : Req} (h : requestFilter phase phop r = none) :
    phop.isStarting = false := by
  cases phop with
  | starting g => exact nomatch h
  | none => rfl
  | saving => rfl
  | handingOver g => rfl

/-- A relation that changes of the service line satisfy relates a request to its outcome when its owner does, which is
asked outside start-up alone. -/
theorem request_relates {R : Lc44 → Prop} {r : Req} {owner : List Byte → Lc44 → Lc44} {body : List Byte}
    (hsli : ∀ x y : Lc44, x.keepsOutside [.sli] y → x.sli.mirrorEnabled = y.sli.mirrorEnabled →
      x.sli.mirrorAddress = y.sli.mirrorAddress → R x → R y)
    (howner : ∀ x : Lc44, x.phc.phop.isStarting = false → R x → R (owner body x)) (g : R d) :
    R (request r owner body d) := by
  have refused (s : Status) (l : List Byte) (x : Lc44) (gx : R x) : R (answer s l x) := by
    refine hsli x _ (keeps_answer s l x) ?_ ?_ gx
    all_goals
      unfold answer
      split <;> rfl
  unfold request onFrame
  split
  · exact g
  · split
    · exact hsli d _ (keeps_onSli _ _) rfl rfl g
    · have gt : R (takeFrame r.code body d) := hsli d _ (keeps_takeFrame _ _ _) rfl rfl g
      unfold dispatchRequest
      split
      · exact refused _ _ _ gt
      next hf =>
        split
        · exact howner _ (not_starting_of_filter hf) gt
        · exact refused _ _ _ gt

/-- A handover begins outside start-up. -/
theorem startupCalm_handingOver (h : d.phc.phop.isStarting = false) :
    d.startupCalm
      (d.onPhc fun p => { p with phop := .handingOver .fold, operation := .begun .handover (some .fold) }) :=
  ⟨fun hh => by simpa [Lc44.holdLine, Lc44.onPhc, Phop.isStarting] using Or.inl hh,
    fun g staged hw => absurd (g staged hw) (by simp [h])⟩

end

end Sys2Proof.Machine
end

