-- ==== Sys2Proof/Proofs/Calm.lean ====
section
/-! SUPPORT. What goes on beside the I-port cycle: requests for the M-port, trials, folds, the mirror, PHC's work and
the owners of requests leave the cycle in progress of its kind, the FWD hold and FWD's request as they are. The laws of
the I-port, of the port and of the maps rest on this (R1, R3, R4, R26, R28, R86, R94). -/

namespace Sys2Proof.Machine

set_option Elab.async false

/-! ## The relation -/

/-- A redirected write (R87). -/
def ICycle.redirectedWrite (c : ICycle) : Bool :=
  match c.stage, c.cycle.op with
  | .redirected _, .write _ => true
  | _, _ => false

/-- The cycle in progress is the same one: held or redirected where it was, and not void where it is not void now. -/
structure ICycle.sameKind (c e : ICycle) : Prop where
  cycle : e.cycle = c.cycle
  record : e.record = c.record
  held : e.stage = .held → c.stage = .held
  redirected : e.redirectedWrite = c.redirectedWrite
  unvoided : e.stage = .redirected false → c.stage = .redirected false

/-- The cycle stays of its kind, hold, request and cycle of FWD stay, what CCL classifies by stays that of PHC and SLI,
and a fold begins to wait only for a redirected write. -/
structure Lc44.stepCalm (d e : Lc44) : Prop where
  cycle : ∃ f : ICycle → ICycle, e.iport.cycle = d.iport.cycle.map f ∧ ∀ c : ICycle, c.sameKind (f c)
  hold : e.mpc.hold = d.mpc.hold
  waiting : e.mpc.fwdWaiting = d.mpc.fwdWaiting
  onPort : ∀ p, e.mpc.cycle = some p → p.client = .fwd → d.mpc.cycle = some p
  inStep : d.iport.cycle = none → d.inStep = true → e.inStep = true
  work : e.ovu.work = .awaitWrite → d.ovu.work = .awaitWrite ∨ d.iport.redirectedWrite = true

/-- Beside that, start-up stays calm, no flag is set and no entry of the Region Table changes. -/
structure Lc44.calm (d e : Lc44) : Prop extends toStep : d.stepCalm e where
  startup : d.startupCalm e
  maps : ∀ m, (e.ovu.map m).Sublist (d.ovu.map m)
  table : e.ccl.table = d.ccl.table

theorem ICycle.sameKind.refl (c : ICycle) : c.sameKind c := ⟨rfl, rfl, id, rfl, id⟩

theorem redirectedWrite_eq (p : IPort) : p.redirectedWrite = (p.cycle.map ICycle.redirectedWrite).getD false := by
  unfold IPort.redirectedWrite
  cases p.cycle <;> rfl

section
variable {d e f : Lc44}

theorem inStep_iff (d : Lc44) :
    d.inStep = true ↔ d.ccl.phase = d.phc.phase ∧
      d.ccl.mirror = if d.sli.mirrorEnabled then some d.sli.mirrorAddress else none := by
  simp only [Lc44.inStep, Bool.and_eq_true, decide_eq_true_eq]

theorem Lc44.stepCalm.redirectedWrite (h : d.stepCalm e) : e.iport.redirectedWrite = d.iport.redirectedWrite := by
  obtain ⟨f, hf, hkind⟩ := h.cycle
  rw [redirectedWrite_eq, redirectedWrite_eq, hf, Option.map_map]
  cases d.iport.cycle with
  | none => rfl
  | some c => exact (hkind c).redirected

theorem Lc44.stepCalm.cycle_eq_none (h : d.stepCalm e) : e.iport.cycle = none ↔ d.iport.cycle = none := by
  obtain ⟨f, hf, _⟩ := h.cycle
  rw [hf, Option.map_eq_none_iff]

theorem Lc44.stepCalm.trans (h : d.stepCalm e) (k : e.stepCalm f) : d.stepCalm f where
  cycle := by
    obtain ⟨u, hu, hku⟩ := h.cycle
    obtain ⟨v, hv, hkv⟩ := k.cycle
    refine ⟨v ∘ u, by rw [hv, hu, Option.map_map], fun c => ?_⟩
    obtain ⟨hc, hr, hh, hw, hn⟩ := hku c
    obtain ⟨kc, kr, kh, kw, kn⟩ := hkv (u c)
    exact ⟨kc.trans hc, kr.trans hr, hh ∘ kh, kw.trans hw, hn ∘ kn⟩
  hold := k.hold.trans h.hold
  waiting := k.waiting.trans h.waiting
  onPort p hp hc := h.onPort p (k.onPort p hp hc) hc
  inStep hn hs := k.inStep (h.cycle_eq_none.mpr hn) (h.inStep hn hs)
  work hw := (k.work hw).elim h.work fun hr => Or.inr (h.redirectedWrite ▸ hr)

theorem Lc44.calm.trans (h : d.calm e) (k : e.calm f) : d.calm f :=
  ⟨h.toStep.trans k.toStep, h.startup.trans k.startup, fun m => (k.maps m).trans (h.maps m), k.table.trans h.table⟩

theorem sameCycle (h : e.iport = d.iport) :
    ∃ f : ICycle → ICycle, e.iport.cycle = d.iport.cycle.map f ∧ ∀ c : ICycle, c.sameKind (f c) :=
  ⟨id, by rw [h, Option.map_id, id], fun c => .refl c⟩

theorem calm_refl (d : Lc44) : d.calm d :=
  ⟨⟨sameCycle rfl, rfl, rfl, fun _ h _ => h, fun _ h => h, Or.inl⟩, startupCalm_refl d, fun _ => List.Sublist.refl _, rfl⟩

/-- What leaves the I-port, MPC, CCL, OVU and PHC alone, and the mirror's settings. -/
theorem calm_of_same (hr : e.resetAsserted = d.resetAsserted) (hi : e.iport = d.iport) (hm : e.mpc = d.mpc)
    (hc : e.ccl = d.ccl) (ho : e.ovu = d.ovu) (hp : e.phc = d.phc) (hon : d.sli.mirrorEnabled = e.sli.mirrorEnabled)
    (ha : d.sli.mirrorAddress = e.sli.mirrorAddress) : d.calm e := by
  have hstartup : d.startupCalm e := startupCalm_of_eq hr (by rw [hp]) (by rw [hp])
  refine ⟨⟨sameCycle hi, by rw [hm], by rw [hm], ?_, ?_, ?_⟩, hstartup, ?_, by rw [hc]⟩
  · rw [hm]
    exact fun _ h _ => h
  · unfold Lc44.inStep
    rw [hc, hp, hon, ha]
    exact fun _ => id
  · rw [ho]
    exact Or.inl
  · rw [ho]
    exact fun _ => List.Sublist.refl _

theorem calm_of_keeps {l : List Block} (h : d.keepsOutside l e)
    (hl : ∀ b ∈ [Block.iport, .mpc, .ccl, .ovu, .phc, .sli], b ∉ l := by decide) : d.calm e := by
  have hsli := keeps_sli h (hl .sli (by decide))
  exact calm_of_same h.1 (keeps_iport h (hl _ (by decide))) (keeps_mpc h (hl _ (by decide)))
    (keeps_ccl h (hl _ (by decide))) (keeps_ovu h (hl _ (by decide))) (keeps_phc h (hl _ (by decide)))
    (by rw [hsli]) (by rw [hsli])

/-- A change of the service line that leaves the mirror's settings. -/
theorem calm_of_sli (h : d.keepsOutside [.sli] e) (hon : d.sli.mirrorEnabled = e.sli.mirrorEnabled)
    (ha : d.sli.mirrorAddress = e.sli.mirrorAddress) : d.calm e :=
  calm_of_same h.1 (keeps_iport h) (keeps_mpc h) (keeps_ccl h) (keeps_ovu h) (keeps_phc h) hon ha

/-! ## The state's operations -/

theorem calm_onTru (f : Tru → Tru) (d : Lc44) : d.calm (d.onTru f) := calm_of_keeps (keeps_onTru f d)

theorem calm_onSli (f : Sli → Sli) (d : Lc44) (hon : d.sli.mirrorEnabled = (f d.sli).mirrorEnabled := by rfl)
    (ha : d.sli.mirrorAddress = (f d.sli).mirrorAddress := by rfl) : d.calm (d.onSli f) :=
  calm_of_sli (keeps_onSli f d) hon ha

theorem calm_onMpc (f : Mpc → Mpc) (d : Lc44) (hh : (f d.mpc).hold = d.mpc.hold := by rfl)
    (hw : (f d.mpc).fwdWaiting = d.mpc.fwdWaiting := by rfl) (hc : (f d.mpc).cycle = d.mpc.cycle := by rfl) :
    d.calm (d.onMpc f) :=
  ⟨⟨sameCycle rfl, hh, hw, fun _ h _ => hc.symm.trans h, fun _ h => h, Or.inl⟩, startupCalm_of_keeps (keeps_onMpc f d),
    fun _ => List.Sublist.refl _, rfl⟩

theorem calm_onOvu (f : Ovu → Ovu) (d : Lc44)
    (hw : (f d.ovu).work = .awaitWrite → d.ovu.work = .awaitWrite ∨ d.iport.redirectedWrite = true := by exact nofun)
    (hm : ∀ m, ((f d.ovu).map m).Sublist (d.ovu.map m) := by exact fun m => by cases m <;> exact List.Sublist.refl _) :
    d.calm (d.onOvu f) :=
  ⟨⟨sameCycle rfl, rfl, rfl, fun _ h _ => h, fun _ h => h, hw⟩, startupCalm_of_keeps (keeps_onOvu f d), hm, rfl⟩

theorem stepCalm_onPhc (f : Phc → Phc) (d : Lc44) (hp : (f d.phc).phase = d.phc.phase := by rfl) :
    d.stepCalm (d.onPhc f) := by
  refine ⟨sameCycle rfl, rfl, rfl, fun _ h _ => h, fun _ h => ?_, Or.inl⟩
  rw [inStep_iff] at h ⊢
  exact ⟨h.1.trans hp.symm, h.2⟩

theorem calm_onPhc (f : Phc → Phc) (d : Lc44) (hs : d.startupCalm (d.onPhc f))
    (hp : (f d.phc).phase = d.phc.phase := by rfl) : d.calm (d.onPhc f) :=
  ⟨stepCalm_onPhc f d hp, hs, fun _ => List.Sublist.refl _, rfl⟩

/-- PHC turns to other work than LOAD. -/
theorem calm_turns (f : Phc → Phc) (d : Lc44)
    (hs : (f d.phc).phop.isStarting = true → d.phc.phop.isStarting = true := by exact id)
    (hw : ∀ staged, (f d.phc).work ≠ .loading staged := by exact nofun)
    (hp : (f d.phc).phase = d.phc.phase := by rfl) : d.calm (d.onPhc f) :=
  calm_onPhc f d (startupCalm_of_work rfl hs hw) hp

theorem calm_answer (s : Status) (data : List Byte) (d : Lc44) : d.calm (answer s data d) := by
  refine calm_of_sli (keeps_answer s data d) ?_ ?_
  all_goals
    unfold answer
    split <;> rfl

theorem calm_requestInt (o : IntOwner) (r : MRequest) (d : Lc44) : d.calm (requestInt o r d) := calm_onMpc _ d

theorem calm_requestRst (r : MRequest) (d : Lc44) : d.calm (requestRst r d) := calm_onMpc _ d

theorem calm_requestMir (r : MRequest) (d : Lc44) : d.calm (requestMir r d) := calm_onMpc _ d

/-- What CCL has in force may change: without a cycle it is that of PHC and SLI (R3, R4). -/
theorem inStep_syncCcl (h : d.iport.cycle = none) : (syncCcl d).inStep = true := by
  unfold syncCcl
  rw [h]
  simp [Lc44.inStep, Lc44.onCcl]

theorem table_syncCcl (d : Lc44) : (syncCcl d).ccl.table = d.ccl.table := by
  unfold syncCcl
  split <;> rfl

/-- Reporting to CCL after a change that may leave it out of step. -/
theorem stepCalm_synced (hi : e.iport = d.iport) (hm : d.stepCalm (d.onMpc fun _ => e.mpc)) (ho : e.ovu = d.ovu) :
    d.stepCalm (syncCcl e) := by
  have keeps := keeps_syncCcl e
  have hmpc := keeps_mpc keeps
  refine ⟨sameCycle ((keeps_iport keeps).trans hi), by rw [hmpc]; exact hm.hold, by rw [hmpc]; exact hm.waiting,
    by rw [hmpc]; exact hm.onPort, fun hn _ => inStep_syncCcl (by rw [hi, hn]), ?_⟩
  rw [keeps_ovu keeps, ho]
  exact Or.inl

theorem calm_synced (hs : d.startupCalm e) (hi : e.iport = d.iport) (hm : d.stepCalm (d.onMpc fun _ => e.mpc))
    (ho : e.ovu = d.ovu) (ht : e.ccl.table = d.ccl.table) : d.calm (syncCcl e) := by
  refine ⟨stepCalm_synced hi hm ho, hs.trans (startupCalm_of_keeps (keeps_syncCcl e)), ?_, (table_syncCcl e).trans ht⟩
  rw [keeps_ovu (keeps_syncCcl e), ho]
  exact fun _ => List.Sublist.refl _

theorem calm_setPhase (p : Phase) (d : Lc44) : d.calm (setPhase p d) :=
  (calm_synced (d := d) (e := d.onPhc fun x => { x with phase := p }) (startupCalm_of_eq rfl rfl rfl) rfl
      (calm_refl d).toStep rfl rfl).trans
    (calm_of_keeps (keeps_recomputeTone _))

/-! ## Trials -/

theorem calm_requestHeader (g : HeaderStep) (r t : Bool) (d : Lc44) : d.calm (requestHeader g r t d) :=
  (calm_onTru _ _).trans (calm_requestInt _ _ _)

theorem calm_startHeader (g : HeaderStep) (d : Lc44) : d.calm (startHeader g d) := by
  unfold startHeader
  split
  · exact calm_onTru _ _
  · exact calm_requestHeader _ _ _ _

theorem calm_restoreNext (d : Lc44) : d.calm (restoreNext d) := by
  unfold restoreNext
  split
  · exact (calm_onTru _ _).trans (calm_requestRst _ _)
  · exact calm_requestHeader _ _ _ _

theorem calm_startRollback (x : EndCause) (c : Option Carrier) (d : Lc44) : d.calm (startRollback x c d) := by
  have raised (f : Tru → Tru) : d.calm (raiseAcu .rollback (d.onTru f)) :=
    (calm_onTru f d).trans (calm_of_keeps (keeps_raiseAcu _ _))
  unfold startRollback
  dsimp only
  split
  · exact ((raised _).trans (calm_answer _ _ _)).trans (calm_restoreNext _)
  · exact (raised _).trans (calm_restoreNext _)

theorem calm_takeRollbackCause (x : EndCause) (c : Option Carrier) (d : Lc44) : d.calm (takeRollbackCause x c d) := by
  unfold takeRollbackCause
  split
  · exact calm_onTru _ _
  · exact calm_startRollback _ _ _

theorem calm_restoreEnded (f : Option MFailure) (d : Lc44) : d.calm (restoreEnded f d) := by
  unfold restoreEnded
  split
  · split
    · exact (calm_onTru _ _).trans (calm_restoreNext _)
    · exact (calm_onTru _ _).trans (calm_requestRst _ _)
    · exact (calm_onTru _ _).trans (calm_restoreNext _)
  · exact calm_refl d

theorem calm_entryCheck (d : Lc44) : d.calm (entryCheck d) := by
  unfold entryCheck
  split
  · exact calm_takeRollbackCause _ _ _
  · exact calm_refl d

theorem calm_beginOpening (r : OpenRequest) (d : Lc44) : d.calm (beginOpening r d) := by
  unfold beginOpening
  dsimp only
  split
  · exact (calm_onTru _ _).trans (calm_startHeader _ _)
  · exact ((calm_onTru _ _).trans (calm_onTru _ _)).trans (calm_startHeader _ _)

theorem calm_beginClosing (c : CloseSource) (d : Lc44) : d.calm (beginClosing c d) :=
  (calm_onTru _ _).trans (calm_startHeader _ _)

theorem calm_closeSucceeds (d : Lc44) : d.calm (closeSucceeds d) := by
  unfold closeSucceeds
  dsimp only
  split
  · exact (calm_onTru _ _).trans (calm_answer _ _ _)
  · exact calm_onTru _ _

theorem calm_closeFails (d : Lc44) : d.calm (closeFails d) := by
  have failed {x : Lc44} (h : d.calm x) (held : Bool) :
      d.calm (if held then takeRollbackCause .expired none x else entryCheck x) := by
    split
    · exact h.trans (calm_takeRollbackCause _ _ _)
    · exact h.trans (calm_entryCheck _)
  unfold closeFails
  dsimp only
  refine failed ?_ _
  split
  · exact (calm_onTru _ _).trans (calm_answer _ _ _)
  · exact (calm_onTru _ _).trans (calm_onTru _ _)

theorem calm_failOpen (f : Tru → Tru) (d : Lc44) : d.calm (failOpen f d) :=
  (calm_onTru _ _).trans (calm_answer _ _ _)

theorem calm_headerWritten (step : HeaderStep) (d : Lc44) : d.calm (headerWritten step d) := by
  cases step with
  | staleState => exact calm_requestHeader _ _ _ _
  | staleCount => exact ((calm_onTru _ _).trans (calm_onTru _ _)).trans (calm_requestHeader _ _ _ _)
  | openCount => exact calm_requestHeader _ _ _ _
  | openState => exact ((calm_onTru _ _).trans (calm_answer _ _ _)).trans (calm_entryCheck _)
  | closeState => exact (calm_closeSucceeds _).trans (calm_requestHeader _ _ _ _)
  | closeCount => exact calm_onTru _ _
  | endState => exact calm_requestHeader _ _ _ _
  | endCount => exact calm_of_keeps (keeps_endRollback d)

theorem calm_headerFailed (step : HeaderStep) (timedOut : Bool) (d : Lc44) : d.calm (headerFailed step timedOut d) := by
  cases step with
  | staleState => exact calm_failOpen _ _
  | staleCount => exact calm_failOpen _ _
  | openCount => exact calm_failOpen _ _
  | openState => exact calm_failOpen _ _
  | closeState =>
    unfold headerFailed
    dsimp only
    split
    · exact (calm_closeSucceeds _).trans (calm_onTru _ _)
    · exact calm_closeFails _
  | closeCount => exact calm_onTru _ _
  | endState => exact (calm_onTru _ _).trans (calm_of_keeps (keeps_endRollback _))
  | endCount => exact calm_of_keeps (keeps_endRollback d)

theorem calm_headerEnded (f : Option MFailure) (d : Lc44) : d.calm (headerEnded f d) := by
  unfold headerEnded
  split
  · split
    · exact calm_headerWritten _ _
    · dsimp only
      split
      · exact calm_headerFailed _ _ _
      · exact calm_requestHeader _ _ _ _
  · exact calm_refl d

theorem calm_sequenceAnswered (d : Lc44) : d.calm (sequenceAnswered d) := by
  unfold sequenceAnswered
  split
  · exact calm_startRollback _ _ _
  · split
    · exact calm_requestHeader _ _ _ _
    · exact calm_refl d

/-! ## Folds -/

theorem calm_requestImageWrite (d : Lc44) : d.calm (requestImageWrite d) := by
  unfold requestImageWrite
  split
  · exact calm_requestInt _ _ _
  · exact calm_refl d

theorem calm_foldDone (d : Lc44) : d.calm (foldDone d) :=
  ⟨⟨sameCycle rfl, rfl, rfl, fun _ h _ => h, fun _ h => h, nofun⟩, startupCalm_foldDone d,
    fun m => by cases m <;> exact List.Sublist.refl _, rfl⟩

theorem calm_foldNext (d : Lc44) : d.calm (foldNext d) := by
  unfold foldNext
  split
  · exact calm_foldDone d
  · exact (calm_onOvu _ _).trans (calm_requestInt _ _ _)

theorem calm_foldReleased (d : Lc44) : d.calm (foldReleased d) := by
  unfold foldReleased
  split
  · exact calm_foldNext d
  · exact calm_refl d

/-- A fold that has gone on no longer waits. -/
theorem work_foldNext (d : Lc44) : (foldNext d).ovu.work ≠ .awaitWrite := by
  unfold foldNext
  split <;> exact nofun

theorem work_foldReleased (d : Lc44) : (foldReleased d).ovu.work ≠ .awaitWrite := by
  unfold foldReleased
  split
  · exact work_foldNext d
  next h => exact h

theorem calm_foldFailed (w : FoldFailure) (d : Lc44) : d.calm (foldFailed w d) :=
  ⟨⟨sameCycle rfl, rfl, rfl, fun _ h _ => h, fun _ h => h, nofun⟩, startupCalm_foldFailed w d,
    fun m => by cases m <;> exact List.Sublist.refl _, rfl⟩

/-- A word of the fold is back: its flag goes (R95). -/
theorem calm_foldWritten (m : MapId) (k : Nat) (d : Lc44) : d.calm (foldWritten m k d) := by
  refine Lc44.calm.trans (calm_onOvu _ d ?_ fun j => ?_) (calm_foldNext _)
  · cases m <;> exact Or.inl
  · show ((d.ovu.setMap m (clearFlag k (d.ovu.map m))).map j).Sublist _
    rw [map_setMap]
    split
    next h =>
      rw [h]
      exact List.filter_sublist
    next => exact List.Sublist.refl _

theorem calm_foldEnded (e : MEnd) (d : Lc44) : d.calm (foldEnded e d) := by
  unfold foldEnded
  split
  · unfold foldWrite
    split
    · exact calm_foldNext d
    · split
      · exact calm_foldFailed _ _
      · exact (calm_onOvu _ _).trans (calm_requestInt _ _ _)
  · exact calm_foldFailed _ _
  · exact calm_foldWritten _ _ d
  · exact calm_foldFailed _ _
  · exact calm_refl d

/-! ## The mirror (R198 to R200) -/

theorem calm_startMirror (d : Lc44) : d.calm (startMirror d) :=
  (((calm_onSli _ d).trans (calm_onSli _ _)).trans (calm_requestMir _ _)).trans (calm_onSli _ _)

theorem calm_abandonRefresh (d : Lc44) : d.calm (abandonRefresh d) :=
  (calm_onMpc (fun m => { m with mirWaiting := none }) d).trans
    (calm_onSli (fun s => { s with refresh := none, orphan := d.mpc.carriesMir }) _)

theorem calm_mirrorEnded (f : Option MFailure) (d : Lc44) : d.calm (mirrorEnded f d) := by
  unfold mirrorEnded
  split
  · exact calm_onSli _ d
  · split
    · exact calm_refl d
    · exact calm_onSli _ d
    · split
      · exact (calm_onSli _ d).trans (calm_requestMir _ _)
      · exact calm_onSli _ d

theorem calm_refreshExpired (d : Lc44) : d.calm (refreshExpired d) := by
  unfold refreshExpired
  split
  · exact calm_refl d
  · refine Lc44.calm.trans ?_ (calm_startMirror _)
    split
    · exact (calm_abandonRefresh d).trans (calm_onSli _ _)
    · exact calm_refl d

theorem calm_setMirror (on : Bool) (a : Addr) (d : Lc44) : d.calm (setMirror on a d) := by
  have set (f : Sli → Sli) : d.calm (syncCcl ((abandonRefresh d).onSli f)) :=
    calm_synced (startupCalm_of_keeps (keeps_trans (l := [.mpc, .sli]) (keeps_abandonRefresh d) (keeps_onSli _ _))) rfl
      (calm_onMpc _ d).toStep rfl rfl
  unfold setMirror
  dsimp only
  split
  · exact (set _).trans (calm_startMirror _)
  · exact set _

theorem calm_mirrorToDefaults (d : Lc44) : d.calm (mirrorToDefaults d) :=
  (calm_setMirror false 0 d).trans (calm_onSli _ _)

/-! ## The cycle in progress marked (R43, R89) -/

theorem sameKind_voided (cleared : MapId → Bool) (c : ICycle) : c.sameKind (c.voided cleared) := by
  unfold ICycle.voided
  split
  next hs ho _ =>
    split
    · exact ⟨rfl, rfl, nofun, by simp [ICycle.redirectedWrite, hs, ho], nofun⟩
    · exact .refl c
  · exact .refl c

theorem sameKind_unlive (touched : Fin 64 → Bool) (c : ICycle) :
    c.sameKind { c with stage := c.stage.unlive touched } := by
  obtain ⟨x, r, g⟩ := c
  cases g <;> exact ⟨rfl, rfl, by simp [Stage.unlive], rfl, by simp [Stage.unlive]⟩

theorem calm_onCycle (f : ICycle → ICycle) (d : Lc44) (h : ∀ c : ICycle, c.sameKind (f c)) :
    d.calm (d.onIport fun p => { p with cycle := p.cycle.map f }) :=
  ⟨⟨⟨f, rfl, h⟩, rfl, rfl, fun _ h _ => h, fun _ h => h, Or.inl⟩, startupCalm_of_keeps (keeps_onIport _ d),
    fun _ => List.Sublist.refl _, rfl⟩

theorem calm_unliveRules (touched : Fin 64 → Bool) (d : Lc44) : d.calm (unliveRules touched d) :=
  calm_onCycle _ d (sameKind_unlive touched)

theorem calm_clearMaps (cleared : MapId → Bool) (d : Lc44) : d.calm (clearMaps cleared d) := by
  refine (calm_onOvu _ d Or.inl fun m => ?_).trans (calm_onCycle _ _ (sameKind_voided cleared))
  cases m
  all_goals
    dsimp only [Ovu.map]
    split
    · exact List.nil_sublist _
    · exact List.Sublist.refl _

/-! ## PHC -/

theorem calm_beginSave (d : Lc44) : d.calm (beginSave d) :=
  ⟨⟨sameCycle rfl, rfl, rfl, fun _ h _ => h, fun _ h => h, Or.inl⟩, startupCalm_of_work rfl nofun nofun,
    fun _ => List.Sublist.refl _, rfl⟩

/-- A fold begins, or waits for the redirected write in progress (R94). -/
theorem calm_startFold (d : Lc44) : d.calm (startFold d) := by
  have running : d.calm (d.onOvu fun o => { o with fold := ⟨.running, some 0, none⟩ }) := calm_onOvu _ d Or.inl
  unfold startFold
  dsimp only
  split
  next h => exact running.trans (calm_onOvu _ _ fun _ => Or.inr h)
  next => exact running.trans (calm_foldNext _)

theorem calm_beginHandover (h : d.phc.phop.isStarting = false) : d.calm (beginHandover d) :=
  (calm_onPhc _ d (startupCalm_handingOver h)).trans (calm_startFold _)

theorem calm_imageWriteEnded (f : Option MFailure) (d : Lc44) : d.calm (imageWriteEnded f d) := by
  unfold imageWriteEnded
  split
  next image index _ =>
    have counted : d.calm (d.onPhc (Phc.onRecord fun r => { r with writes := r.writes + 1 })) :=
      calm_onPhc _ d (startupCalm_of_eq rfl rfl rfl)
    dsimp only
    split
    · refine counted.trans ?_
      unfold writingFailed
      dsimp only
      exact calm_turns _ _ nofun
    · split
      · exact (counted.trans (calm_turns (fun p => { p with work := .writing image (index + 1) }) _)).trans
          (calm_requestImageWrite _)
      · have done (x : Lc44) : x.calm (x.onPhc fun p =>
            Phc.onRecord (fun r => { r with result := some .done }) { p with phop := .none, work := .idle }) :=
          calm_turns _ x nofun
        unfold writingDone
        dsimp only
        split
        · exact (counted.trans (done _)).trans (calm_setPhase _ _)
        · exact counted.trans (done _)
  next => exact calm_refl d

theorem calm_recoverRequest (g : RecoverStage) (d : Lc44) : d.calm (recoverRequest g d) := by
  cases g with
  | restore number count todo restored unrestored retry =>
    cases todo with
    | nil => exact calm_refl d
    | cons r todo => exact calm_requestInt _ _ _
  | readState retry => exact calm_requestInt _ _ _
  | readCount state retry => exact calm_requestInt _ _ _
  | readRecord number count good part retry => exact calm_requestInt _ _ _
  | closeState number x retry => exact calm_requestInt _ _ _
  | closeCount x retry => exact calm_requestInt _ _ _

theorem calm_enterRecover (status : ProfileStatus) (g : RecoverStage) (d : Lc44) : d.calm (enterRecover status g d) :=
  (calm_turns (fun p => { p with work := .recovering status g }) d).trans (calm_recoverRequest g _)

theorem calm_endStartup (status : ProfileStatus) (x : RecoverySummary) (close : HeaderClose) (d : Lc44) :
    d.calm (endStartup status x close d) := by
  have ended (f : Phc → Phc) (hp : (f d.phc).phop = .none) (hw : (f d.phc).work = .idle)
      (hphase : (f d.phc).phase = d.phc.phase) : d.calm ((d.onPhc f).onMpc fun m =>
        { m with timeout := m.loadedTimeout.getD Config.defaultMemoryTimeout, loadedTimeout := none }) :=
    (calm_onPhc f d (startupCalm_ended f d hp hw) hphase).trans (calm_onMpc _ _)
  unfold endStartup
  dsimp only
  split
  · exact (ended _ rfl rfl rfl).trans (calm_startMirror _)
  · exact ended _ rfl rfl rfl

theorem calm_recovers (d : Lc44) : Recovers (d.calm ·) where
  tru _ _ h := h.trans (calm_onTru _ _)
  enter _ _ _ h := h.trans (calm_enterRecover _ _ _)
  ends _ _ _ _ h := h.trans (calm_endStartup _ _ _ _)

/-- LOAD goes on. -/
theorem stepCalm_loadNext (staged : List Word) (d : Lc44) : d.stepCalm (loadNext staged d) :=
  (stepCalm_onPhc _ d).trans (calm_requestInt _ _ _).toStep

/-- LOAD gives way to RECOVER. -/
theorem stepCalm_loadEndsWith (status : ProfileStatus) (d : Lc44) : d.stepCalm (loadEndsWith status d) :=
  (stepCalm_onPhc _ d).trans (calm_enterRecover _ _ _).toStep

/-- Within start-up LOAD goes on calmly. -/
theorem calm_loadNext (staged : List Word) (h : d.phc.phop.isStarting = true) : d.calm (loadNext staged d) :=
  ⟨stepCalm_loadNext staged d, startupCalm_loadNext staged h, fun _ => List.Sublist.refl _, rfl⟩

/-- Within start-up LOAD gives way to RECOVER calmly. -/
theorem calm_loadEndsWith (status : ProfileStatus) (h : d.phc.phop.isStarting = true) :
    d.calm (loadEndsWith status d) :=
  ⟨stepCalm_loadEndsWith status d, startupCalm_loadEndsWith status h, fun _ => List.Sublist.refl _, rfl⟩

/-! ## Requests -/

theorem calm_request {r : Req} {owner : List Byte → Lc44 → Lc44} {body : List Byte}
    (h : ∀ x : Lc44, x.phc.phop.isStarting = false → x.calm (owner body x)) (d : Lc44) :
    d.calm (request r owner body d) :=
  request_relates (R := (d.calm ·)) (fun _ _ hk hon ha hx => hx.trans (calm_of_sli hk hon ha))
    (fun x hs hx => hx.trans (h x hs)) (calm_refl d)

theorem calm_then_answer (s : Status) (data : List Byte) (h : d.calm e) : d.calm (answer s data e) :=
  h.trans (calm_answer s data e)

theorem calm_answerChain (s : Status) (data : List Byte) (d : Lc44) : d.calm (answerChain s data d) := by
  refine calm_of_sli (keeps_answerChain s data d) ?_ ?_
  all_goals
    unfold answerChain
    split <;> rfl

end

end Sys2Proof.Machine
end

