-- ==== Sys2Proof/Proofs/CalmCommands.lean ====
section
/-! SUPPORT. The commands that go on beside the I-port cycle: the events of the service line and the owners of requests
leave the cycle, the hold and what CCL classifies by (R15, R187 to R193). -/

namespace Sys2Proof.Machine

set_option Elab.async false

variable {d : Lc44}

/-! ## The service line -/

theorem calm_startSending (l : List (List Byte)) (d : Lc44) : d.calm (startSending l d) :=
  calm_of_sli (keeps_startSending l d) rfl rfl

theorem calm_answerBadFrame (code : Option Byte) (d : Lc44) : d.calm (answerBadFrame code d) :=
  (calm_onSli (fun s => { s with badFrames := satInc Config.max16 s.badFrames }) d).trans (calm_startSending _ _)

theorem calm_receiveByte (b : Byte) (d : Lc44) : d.calm (receiveByte b d) := by
  have received (s : Sli) :
      s.mirrorEnabled = (s.receive b).mirrorEnabled ∧ s.mirrorAddress = (s.receive b).mirrorAddress := by
    unfold Sli.receive
    split
    · split <;> exact ⟨rfl, rfl⟩
    · split <;> exact ⟨rfl, rfl⟩
    all_goals exact ⟨rfl, rfl⟩
  unfold receiveByte
  split
  · exact calm_refl d
  · exact calm_onSli _ d (received _).1 (received _).2

theorem calm_dropPartial (d : Lc44) : d.calm (d.onSli Sli.dropPartial) := by
  have dropped (s : Sli) :
      s.mirrorEnabled = s.dropPartial.mirrorEnabled ∧ s.mirrorAddress = s.dropPartial.mirrorAddress := by
    unfold Sli.dropPartial
    split <;> exact ⟨rfl, rfl⟩
  exact calm_onSli _ d (dropped _).1 (dropped _).2

theorem calm_takeBadFrame (code : Option Byte) (d : Lc44) : d.calm (takeBadFrame code d) := by
  unfold takeBadFrame
  split
  · exact calm_refl d
  · dsimp only
    split
    · exact (calm_onSli _ d).trans (calm_onSli _ _)
    · exact (calm_onSli _ d).trans (calm_answerBadFrame _ _)

theorem calm_discardFrame (d : Lc44) : d.calm (discardFrame d) := by
  unfold discardFrame
  split
  · exact calm_refl d
  · exact calm_onSli _ d

theorem calm_lineFailed (d : Lc44) : d.calm (lineFailed d) := by
  unfold lineFailed
  split
  · exact calm_refl d
  · exact calm_dropPartial d

theorem calm_gapExpired (d : Lc44) : d.calm (gapExpired d) := by
  unfold gapExpired
  split
  · exact calm_refl d
  · split
    · exact (calm_onSli _ d).trans (calm_answerBadFrame _ _)
    · exact calm_dropPartial d

theorem calm_responseEnded (d : Lc44) : d.calm (responseEnded d) := by
  unfold responseEnded
  split
  · exact calm_refl d
  · exact calm_onSli _ d

theorem calm_unknownTaken (code : Byte) (body : List Byte) (d : Lc44) : d.calm (unknownTaken code body d) := by
  unfold unknownTaken onFrame
  split
  · exact calm_refl d
  · split
    · exact calm_refl d
    · split
      · exact calm_onSli _ d
      · exact (calm_onSli _ d).trans (calm_answer _ _ _)

/-! ## The owners of reads -/

theorem calm_ownReadRegion (b : List Byte) (d : Lc44) : d.calm (ownReadRegion b d) := by
  unfold ownReadRegion
  split <;> exact calm_answer _ _ _

theorem calm_ownReadRule (b : List Byte) (d : Lc44) : d.calm (ownReadRule b d) := by
  unfold ownReadRule
  split <;> exact calm_answer _ _ _

theorem calm_ownReadCarrier (b : List Byte) (d : Lc44) : d.calm (ownReadCarrier b d) := by
  unfold ownReadCarrier
  split <;> exact calm_answer _ _ _

theorem calm_ownReadStep (b : List Byte) (d : Lc44) : d.calm (ownReadStep b d) := by
  unfold ownReadStep
  split <;> exact calm_answer _ _ _

theorem calm_ownReadOverlay (b : List Byte) (d : Lc44) : d.calm (ownReadOverlay b d) := by
  unfold ownReadOverlay
  split
  · exact calm_answer _ _ _
  · split <;> exact calm_answer _ _ _

theorem calm_ownReadLog (b : List Byte) (d : Lc44) : d.calm (ownReadLog b d) := by
  unfold ownReadLog
  split
  · exact calm_answerChain _ _ _
  · exact calm_answer _ _ _

theorem calm_ownReadTrial (b : List Byte) (d : Lc44) : d.calm (ownReadTrial b d) := by
  have read (l : List Byte) : d.calm (answerTrial l d) := by
    unfold answerTrial
    split
    · exact calm_answer _ _ _
    · exact calm_answerChain _ _ _
  unfold ownReadTrial
  split
  · split
    · exact read _
    · exact read _
    · exact calm_answer _ _ _
  · exact calm_answer _ _ _

/-! ## The owners of settings -/

/-- The answer after a change that touches neither the I-port nor what its laws rest on. -/
theorem calm_answer_of_keeps {l : List Block} {e : Lc44} (s : Status) (data : List Byte) (h : d.keepsOutside l e)
    (hl : ∀ b ∈ [Block.iport, .mpc, .ccl, .ovu, .phc, .sli], b ∉ l := by decide) : d.calm (answer s data e) :=
  (calm_of_keeps h hl).trans (calm_answer s data e)

theorem calm_ownLoadRule (b : List Byte) (d : Lc44) : d.calm (ownLoadRule b d) := by
  have stored (i : Fin 64) (r : Option Rule) : d.calm (answer .ok [] (storeRule i r d)) :=
    ((calm_of_keeps (keeps_onFgd _ d)).trans (calm_unliveRules _ _)).trans (calm_answer _ _ _)
  unfold ownLoadRule
  dsimp only
  split
  · exact calm_answer _ _ _
  · split
    · split
      · exact stored _ _
      · split
        · exact calm_answer _ _ _
        · split
          · exact stored _ _
          · exact calm_answer _ _ _
    · exact calm_answer _ _ _

theorem calm_ownLoadLayout (b : List Byte) (d : Lc44) : d.calm (ownLoadLayout b d) := by
  unfold ownLoadLayout
  split
  · exact calm_answer _ _ _
  · split
    · exact calm_answer _ _ _
    · exact calm_answer_of_keeps _ _ (keeps_onRcu _ d)

theorem calm_ownSetCarrier (b : List Byte) (d : Lc44) : d.calm (ownSetCarrier b d) := by
  unfold ownSetCarrier
  split
  · exact calm_answer _ _ _
  · split
    · exact calm_answer_of_keeps _ _ (keeps_setRecord _ _ d)
    · exact calm_answer _ _ _

theorem calm_ownPeakReset (b : List Byte) (d : Lc44) : d.calm (ownPeakReset b d) := by
  unfold ownPeakReset
  split
  · exact calm_answer_of_keeps _ _ (keeps_resetPeaks _ d)
  · exact calm_answer _ _ _

theorem calm_ownClearCapture (b : List Byte) (d : Lc44) : d.calm (ownClearCapture b d) := by
  unfold ownClearCapture
  split
  · exact calm_answer _ _ _
  · split
    · exact calm_answer_of_keeps _ _ (keeps_clearCaptures _ d)
    · exact calm_answer _ _ _

theorem calm_ownSetGroups (b : List Byte) (d : Lc44) : d.calm (ownSetGroups b d) := by
  unfold ownSetGroups
  split
  · exact calm_answer_of_keeps _ _ (keeps_trans (l := [.rcu, .raised]) (keeps_onRcu _ d) (keeps_raiseTmu _ _))
  · exact calm_answer _ _ _

theorem calm_ownSetTone (b : List Byte) (d : Lc44) : d.calm (ownSetTone b d) := by
  unfold ownSetTone
  split
  · exact calm_answer _ _ _
  · exact calm_answer_of_keeps _ _ (keeps_trans (l := [.tmu]) (keeps_onTmu _ d) (keeps_recomputeTone _))

theorem calm_ownSetTimes (b : List Byte) (d : Lc44) : d.calm (ownSetTimes b d) := by
  unfold ownSetTimes
  dsimp only
  split
  · exact (calm_onMpc (fun m => { m with timeout := byteAt b 0 }) d).trans
      (calm_answer_of_keeps _ _
        (keeps_trans (l := [.tmu, .rcu, .raised]) (keeps_onTmu _ _) (keeps_setReportTimes _ _ _)))
  · exact calm_answer _ _ _

theorem calm_ownSetMirror (b : List Byte) (d : Lc44) : d.calm (ownSetMirror b d) := by
  unfold ownSetMirror
  split
  · exact (calm_setMirror _ _ d).trans (calm_answer _ _ _)
  · exact calm_answer _ _ _

theorem calm_ownMuteRelease (b : List Byte) (d : Lc44) : d.calm (ownMuteRelease b d) := by
  unfold ownMuteRelease
  split
  · exact calm_answer _ _ _
  · exact calm_answer _ _ _
  · exact calm_answer_of_keeps _ _ (keeps_onTmu _ d)

/-! ## The owners of trials, maps and runs -/

theorem calm_ownTrialOpen (b : List Byte) (d : Lc44) : d.calm (ownTrialOpen b d) := by
  unfold ownTrialOpen
  split
  · exact calm_answer _ _ _
  · split
    · exact calm_beginOpening _ d
    · exact calm_answer _ _ _

theorem calm_ownTrialConfirm (b : List Byte) (d : Lc44) : d.calm (ownTrialConfirm b d) := by
  unfold ownTrialConfirm
  split
  · exact calm_beginClosing _ d
  · split <;> exact calm_answer _ _ _

theorem calm_ownTrialExtend (b : List Byte) (d : Lc44) : d.calm (ownTrialExtend b d) := by
  unfold ownTrialExtend
  split
  · exact calm_answer _ _ _
  · split
    · exact calm_answer_of_keeps _ _ (keeps_onTru _ d)
    · split <;> exact calm_answer _ _ _

theorem calm_ownTrialAbort (b : List Byte) (d : Lc44) : d.calm (ownTrialAbort b d) := by
  unfold ownTrialAbort
  split
  · exact calm_takeRollbackCause _ _ d
  · split <;> exact calm_answer _ _ _

theorem calm_ownOverlayDiscard (b : List Byte) (d : Lc44) : d.calm (ownOverlayDiscard b d) := by
  have cleared (data : List Byte) (maps : MapId → Bool) : d.calm (answer .ok data (clearMaps maps d)) :=
    (calm_clearMaps maps d).trans (calm_answer _ _ _)
  unfold ownOverlayDiscard
  split
  · exact cleared _ _
  · exact cleared _ _
  · exact cleared _ _
  · exact calm_answer _ _ _

theorem calm_ownLoadStep (b : List Byte) (d : Lc44) : d.calm (ownLoadStep b d) := by
  unfold ownLoadStep
  split
  · exact calm_answer _ _ _
  · split
    · split
      · exact calm_answer _ _ _
      · exact calm_answer_of_keeps _ _ (keeps_onAcu _ d)
    · exact calm_answer _ _ _

theorem calm_ownRunStart (b : List Byte) (d : Lc44) : d.calm (ownRunStart b d) := by
  unfold ownRunStart
  dsimp only
  split
  · exact calm_answer _ _ _
  · split
    · exact calm_answer _ _ _
    · split
      · exact calm_answer _ _ _
      · exact calm_answer_of_keeps _ _ (keeps_trans (l := [.acu]) (keeps_onAcu _ d) (keeps_beginStep _ _ _))

theorem calm_ownRunAbort (b : List Byte) (d : Lc44) : d.calm (ownRunAbort b d) := by
  unfold ownRunAbort
  split
  · exact calm_answer _ _ _
  · exact calm_answer_of_keeps _ _ (keeps_endStep _ _ d)

theorem calm_ownLogClear (b : List Byte) (d : Lc44) : d.calm (ownLogClear b d) := by
  unfold ownLogClear
  split
  · exact calm_answer _ _ _
  · exact calm_answer_of_keeps _ _ (keeps_onAcu _ d)

/-! ## The owners that turn to PHC -/

theorem calm_ownBegin (b : List Byte) (d : Lc44) : d.calm (ownBegin b d) :=
  (calm_turns (fun p => { p with work := .probe }) d).trans (calm_requestInt _ _ _)

theorem calm_ownSave (b : List Byte) (d : Lc44) : d.calm (ownSave b d) := by
  unfold ownSave
  split
  · exact (calm_beginSave d).trans (calm_answer _ _ _)
  · exact calm_answer _ _ _

theorem calm_ownHandover (b : List Byte) (h : d.phc.phop.isStarting = false) : d.calm (ownHandover b d) := by
  unfold ownHandover
  split
  · exact (calm_beginHandover h).trans (calm_answer _ _ _)
  · exact calm_answer _ _ _

/-! ## Time (R165) -/

theorem calm_tickAll (d : Lc44) : d.calm (tickAll d) := by
  have seconds (x : Lc44) : x.calm (x.onPhc Phc.tick) := by
    have same (p : Phc) : p.tick.phop = p.phop ∧ p.tick.work = p.work ∧ p.tick.phase = p.phase := by
      unfold Phc.tick
      split
      · exact ⟨rfl, rfl, rfl⟩
      · split <;> exact ⟨rfl, rfl, rfl⟩
    obtain ⟨hphop, hwork, hphase⟩ := same x.phc
    exact calm_onPhc _ x (startupCalm_of_eq rfl hphop hwork) hphase
  have timers : d.calm ((((d.onTru Tru.tick).onRcu Rcu.tick).onTmu Tmu.tick).onAcu Acu.tick) :=
    (((calm_onTru _ d).trans (calm_of_keeps (keeps_onRcu _ _))).trans (calm_of_keeps (keeps_onTmu _ _))).trans
      (calm_of_keeps (keeps_onAcu _ _))
  exact (timers.trans (seconds _)).trans (calm_onSli Sli.tick _)

end Sys2Proof.Machine
end

