-- ==== Sys2Proof/Proofs/StartupCommands.lean ====
section
/-! SUPPORT. Only RESET's release begins start-up, LOAD reads only during it, and no command but the two of RESET brings
HOLD or a LOAD about (R164, R179, R184). The laws of the maps and of the log rest on this. -/

namespace Sys2Proof.Machine

set_option Elab.async false

section
variable {d : Lc44}

/-! ## The operations of PHC -/

theorem startupCalm_arbitrate (d : Lc44) : d.startupCalm (arbitrate d) :=
  (startupCalm_stable d).arbitrate (startupCalm_refl d)

theorem startupCalm_commonReset (next : Nat) (d : Lc44) : d.startupCalm (commonReset next d) := by
  have hphc : (commonReset next d).phc = { d.phc with operation := .reset } := congrArg Lc44.phc (commonReset_eq next d)
  exact startupCalm_of_eq (keeps_commonReset next d).1 (by rw [hphc]) (by rw [hphc])

theorem startupCalm_beginEffect (d : Lc44) : d.startupCalm (beginEffect d) := by
  have zeroed : (commonReset 1 d).startupCalm
      ((commonReset 1 d).onPhc fun p => { p with seconds := 0, accumulator := 0 }) := startupCalm_of_eq rfl rfl rfl
  exact ((startupCalm_commonReset 1 d).trans zeroed).trans (calm_setPhase _ _).startup

theorem startupCalm_wipeEffect (d : Lc44) : d.startupCalm (wipeEffect d) :=
  (((startupCalm_commonReset _ d).trans (calm_setPhase _ _).startup).trans
    (startupCalm_of_keeps (keeps_raiseTmu _ _))).trans (startupCalm_of_keeps (keeps_raiseTmu _ _))

theorem startupCalm_putInForce (staged : List Word) (d : Lc44) : d.startupCalm (putInForce staged d) := by
  have hphc := putInForce_phc staged d
  exact startupCalm_of_eq (keeps_putInForce staged d).1 (by rw [hphc]) (by rw [hphc])

theorem isStarting_putInForce (staged : List Word) (h : d.phc.phop.isStarting = true) :
    (putInForce staged d).phc.phop.isStarting = true := by
  rw [putInForce_phc staged d]
  exact h

theorem startupCalm_loadWordRead (staged : List Word) (h : d.phc.phop.isStarting = true) :
    d.startupCalm (loadWordRead staged d) := by
  unfold loadWordRead
  split
  · exact startupCalm_loadNext staged h
  · split
    · exact startupCalm_loadEndsWith _ h
    · split
      · exact startupCalm_loadNext staged h
      · split
        · exact (startupCalm_putInForce staged d).trans (startupCalm_loadEndsWith _ (isStarting_putInForce staged h))
        · exact startupCalm_loadEndsWith _ h

/-- A cycle of PHC ends: LOAD reads on only from a LOAD. -/
theorem startupCalm_phcEnded (e : MEnd) (g : d.loadsInStartup) : d.startupCalm (phcEnded e d) := by
  unfold phcEnded
  split
  · exact startupCalm_refl d
  · unfold probeEnded
    dsimp only
    have idled : d.startupCalm (d.onPhc fun p => { p with work := .idle }) := startupCalm_of_work rfl id nofun
    split
    · exact idled.trans (startupCalm_of_keeps (keeps_answer _ _ _))
    · exact (idled.trans (startupCalm_beginEffect _)).trans (startupCalm_of_keeps (keeps_answer _ _ _))
  · exact (calm_imageWriteEnded _ _).startup
  next staged hwork =>
    have hstarting := g staged hwork
    split
    · exact startupCalm_loadEndsWith _ hstarting
    · exact startupCalm_loadWordRead _ hstarting
  · split
    · exact ((calm_recovers d).recoverFailed _ _ (calm_refl d)).startup
    · exact ((calm_recovers d).recoverOk _ _ _ (calm_refl d)).startup

theorem startupCalm_memoryEnd (e : MEnd) (g : d.loadsInStartup) : d.startupCalm (memoryEnd e d) :=
  (startupCalm_stable d).memoryEnd (fun _ _ h => h.trans (startupCalm_foldFailed _ _))
    (fun _ _ h => h.trans (startupCalm_of_keeps (keeps_mirrorEnded _ _)))
    (fun e _ h => h.trans (startupCalm_phcEnded e (h.loading g))) e (startupCalm_refl d)

/-! ## The commands -/

theorem startupCalm_restsOn (d : Lc44) : RestsOn [.phc] (d.startupCalm ·) := by
  intro x e hr _ hsame h
  have hphc : e.phc = x.phc := hsame .phc (by simp)
  exact h.trans (startupCalm_of_eq hr (by rw [hphc]) (by rw [hphc]))

theorem startupCalm_request {r : Req} {owner : List Byte → Lc44 → Lc44} {body : List Byte}
    (h : ∀ x : Lc44, x.phc.phop.isStarting = false → x.startupCalm (owner body x)) (d : Lc44) :
    d.startupCalm (request r owner body d) :=
  request_relates (R := (d.startupCalm ·)) (fun _ _ hk _ _ hx => hx.trans (startupCalm_of_keeps hk))
    (fun x hs hx => hx.trans (h x hs)) (startupCalm_refl d)

theorem startupCalm_lossReport (c : Carrier) (d : Lc44) : d.startupCalm (lossReport c d) := by
  unfold lossReport
  split
  · exact (startupCalm_of_keeps (keeps_takeRollbackCause _ _ _)).trans (startupCalm_arbitrate _)
  · exact startupCalm_refl d

theorem startupCalm_deliverTru {x : TruEvent} {f : Lc44 → Lc44} (hf : ∀ y : Lc44, y.startupCalm (f y)) (d : Lc44) :
    d.startupCalm (deliverTru x f d) := by
  unfold deliverTru
  split
  · exact (startupCalm_of_keeps (keeps_takenTru _ _)).trans (hf _)
  · exact startupCalm_refl d

theorem startupCalm_answer (s : Status) (data : List Byte) (d : Lc44) : d.startupCalm (answer s data d) :=
  startupCalm_of_keeps (keeps_answer s data d)

theorem startupCalm_ownWipe (b : List Byte) (d : Lc44) : d.startupCalm (ownWipe b d) := by
  unfold ownWipe
  split
  · exact (startupCalm_wipeEffect d).trans (startupCalm_answer _ _ _)
  · exact startupCalm_answer _ _ _

end

/-- An effect that keeps start-up calm does so as a command. -/
theorem after_startupCalm_of {c : Instr} {f : Lc44 → Lc44} (hc : ∀ s, exec c s = s.effect f) {d : Lc44}
    (hf : d.startupCalm (f d)) : d.startupCalm (d.after c) :=
  after_of_keeps (P := (d.startupCalm ·)) hc (fun _ => hf) (startupCalm_refl d)

/-- No command but the two of RESET brings HOLD about, or a LOAD outside start-up. -/
theorem after_startupCalm {c : Instr} (ha : c ≠ .resetAsserted)
    (hr : ∀ psel commission depol, c ≠ .resetRelease psel commission depol) {d : Lc44} (g : d.loadsInStartup) :
    d.startupCalm (d.after c) := by
  have S := startupCalm_stable d
  have r := startupCalm_refl d
  cases c with
  | resetAsserted => exact absurd rfl ha
  | resetRelease psel commission depol => exact absurd rfl (hr _ _ _)
  | iPortCycle x =>
    refine after_startupCalm_of (exec_iPortCycle x) ?_
    split
    · exact r
    · exact S.arbitrate (S.takeCycle x r)
  | memoryAnswer a =>
    refine after_startupCalm_of (exec_memoryAnswer a) ?_
    cases a with
    | ok w => exact startupCalm_memoryEnd _ g
    | fault => exact startupCalm_memoryEnd _ g
  | memoryTimeout => exact after_startupCalm_of exec_memoryTimeout (startupCalm_memoryEnd _ g)
  | heldWriteRelease => exact after_startupCalm_of exec_heldWriteRelease (S.arbitrate (S.releaseHeld r))
  | markConfirm =>
    refine after_startupCalm_of exec_markConfirm ?_
    have taken := startupCalm_of_keeps (keeps_takenTru .confirm d)
    dsimp only
    split
    · exact S.arbitrate (taken.trans (startupCalm_of_keeps (keeps_beginClosing _ _)))
    · exact taken.trans (startupCalm_of_keeps (keeps_ignoreMark _))
  | markAbort =>
    refine after_startupCalm_of exec_markAbort ?_
    have taken := startupCalm_of_keeps (keeps_takenTru .abort d)
    dsimp only
    split
    · exact S.arbitrate (taken.trans (startupCalm_of_keeps (keeps_takeRollbackCause _ _ _)))
    · exact taken.trans (startupCalm_of_keeps (keeps_ignoreMark _))
  | trialTimerExpiry =>
    refine after_startupCalm_of exec_trialTimerExpiry ?_
    split
    · exact r
    · split
      · exact S.arbitrate (startupCalm_of_keeps (keeps_takeRollbackCause _ _ _))
      · split
        · exact startupCalm_of_keeps (keeps_onTru _ _)
        · exact r
  | truCaptureNotice n =>
    refine after_startupCalm_of (exec_truCaptureNotice n) (startupCalm_deliverTru (fun y => ?_) d)
    split
    · exact startupCalm_lossReport _ _
    · exact startupCalm_refl _
  | truStaleNotice k =>
    exact after_startupCalm_of (exec_truStaleNotice k) (startupCalm_deliverTru (startupCalm_lossReport k) d)
  | tick => exact after_startupCalm_of exec_tick (calm_tickAll d).startup
  | commissioningSecond =>
    refine after_startupCalm_of exec_commissioningSecond ?_
    split
    · exact (calm_tickAll d).startup
    · exact r
  | refreshTimerExpiry =>
    exact after_startupCalm_of exec_refreshTimerExpiry (S.arbitrate (startupCalm_of_keeps (keeps_refreshExpired d)))
  | beginReq body =>
    exact after_startupCalm_of (exec_beginReq body) (S.arbitrate (calm_request (fun x _ => calm_ownBegin body x) d).startup)
  | wipe body =>
    exact after_startupCalm_of (exec_wipe body) (startupCalm_request (fun x _ => startupCalm_ownWipe body x) d)
  | save body =>
    exact after_startupCalm_of (exec_save body) (S.arbitrate (calm_request (fun x _ => calm_ownSave body x) d).startup)
  | handover body =>
    exact after_startupCalm_of (exec_handover body) (S.arbitrate (calm_request (fun _ => calm_ownHandover body) d).startup)
  | setMirror body =>
    exact after_startupCalm_of (exec_setMirror body) (S.arbitrate (calm_request (fun x _ => calm_ownSetMirror body x) d).startup)
  | trialOpen body =>
    exact after_startupCalm_of (exec_trialOpen body) (S.arbitrate (calm_request (fun x _ => calm_ownTrialOpen body x) d).startup)
  | trialConfirm body =>
    exact after_startupCalm_of (exec_trialConfirm body) (S.arbitrate (calm_request (fun x _ => calm_ownTrialConfirm body x) d).startup)
  | trialAbort body =>
    exact after_startupCalm_of (exec_trialAbort body) (S.arbitrate (calm_request (fun x _ => calm_ownTrialAbort body x) d).startup)
  | _ => exact (startupCalm_restsOn d).elsewhere (by rfl) r

end Sys2Proof.Machine
end

