-- ==== Sys2Proof/Proofs/BusLaws.lean ====
section
/-! SUPPORT. The law of the I-port's steps and the law of the maps along the way of an I-port cycle: its take, its
sequence, its answer, the arbiter and the end of an M-port cycle (R1 to R8, R15, R16, R26, R28, R46, R86 to R95). Each
law is kept for itself; the way of a cycle is followed once for both. -/

namespace Sys2Proof.Machine

set_option Elab.async false

/-! ## The two laws -/

/-- The I-port, its hold and the fold are in step (`State.stepLaw`). -/
structure Lc44.stepOk (d : Lc44) : Prop where
  free : d.iport.cycle = none →
    d.inStep = true ∧ d.mpc.hold = none ∧ d.mpc.fwdWaiting = false ∧ d.ovu.work ≠ .awaitWrite
  held : ∀ c, d.iport.cycle = some c → c.stage = .held → d.mpc.hold = none ∧ d.mpc.fwdWaiting = false
  holds : d.mpc.hold ≠ none → d.mpc.fwdWaiting = false
  onPort : ∀ p, d.mpc.cycle = some p → p.client = .fwd → d.mpc.hold = some p.timeout
  awaits : d.ovu.work = .awaitWrite → d.iport.redirectedWrite = true

/-- The presence maps and the Region Table go together, and one entry at most references a map. -/
structure Lc44.tablesOk (d : Lc44) : Prop where
  flags : ∀ m, (d.ovu.map m).Pairwise (· < ·) ∧ ∀ k ∈ d.ovu.map m, d.ccl.owns m k
  unique : ∀ (i j : Fin 16) (r q : Region) (m : MapId), d.ccl.table[i] = some r → d.ccl.table[j] = some q →
    r.map = some m → q.map = some m → i = j

/-- The maps belong to the entries that reference them, now and after the write in progress (`State.mapLaw`). -/
structure Lc44.mapOk (d : Lc44) : Prop where
  tables : d.tablesOk
  write : ∀ (c : ICycle) (m : MapId) (base : Addr), d.iport.cycle = some c → c.stage = .redirected false →
    c.cycle.op ≠ .read → c.record.treatment = .redirect m base → d.ccl.owns m c.record.offset
  hold : d.holdLine = true → d.iport.cycle = none
  loads : d.loadsInStartup

theorem stepLaw_iff (s : State) : s.stepLaw ↔ s.part.stepOk :=
  ⟨fun ⟨free, held, holds, onPort, awaits⟩ => ⟨free, held, holds, onPort, awaits⟩,
    fun ⟨free, held, holds, onPort, awaits⟩ => ⟨free, held, holds, onPort, awaits⟩⟩

theorem mapLaw_iff (s : State) : s.mapLaw ↔ s.part.mapOk :=
  ⟨fun ⟨flags, unique, write, hold, loads⟩ => ⟨⟨flags, unique⟩, write, hold, loads⟩,
    fun ⟨⟨flags, unique⟩, write, hold, loads⟩ => ⟨flags, unique, write, hold, loads⟩⟩

/-- Each law for itself: that of the steps under `u`, that of the maps under `v`. -/
def Lc44.lawsOk (u v : Prop) (d : Lc44) : Prop := (u → d.stepOk) ∧ (v → d.mapOk)

/-- FWD neither waits for the port nor is on it. -/
def Lc44.portQuiet (d : Lc44) : Prop :=
  d.mpc.fwdWaiting = false ∧ ∀ p, d.mpc.cycle = some p → p.client ≠ .fwd

/-- What an answer asks of the port and the tables. -/
def Lc44.answerable (u v : Prop) (d : Lc44) : Prop := (u → d.portQuiet) ∧ (v → d.tablesOk ∧ d.loadsInStartup)

/-- What the next stage of a cycle in progress asks. -/
structure Lc44.ready (u v : Prop) (d : Lc44) : Prop where
  answerable : d.answerable u v
  cycle : d.iport.cycle ≠ none
  work : u → d.ovu.work ≠ .awaitWrite
  hold : v → d.holdLine = false

/-- What an M-port cycle presented for the stage `c` has reached asks. -/
structure Lc44.presentable (u v : Prop) (c : ICycle) (d : Lc44) : Prop where
  quiet : u → d.portQuiet
  cycle : d.iport.cycle = some c
  stage : u → c.stage ≠ .held
  awaits : u → d.ovu.work = .awaitWrite → c.redirectedWrite = true
  maps : v → d.mapOk

section
variable {u v : Prop} {d e : Lc44} {c : ICycle}

/-! ## What goes on beside the cycle -/

theorem Lc44.stepCalm.stepOk (h : d.stepCalm e) (g : d.stepOk) : e.stepOk where
  free hn := by
    have hdn := h.cycle_eq_none.mp hn
    obtain ⟨hstep, hhold, hwaiting, hwork⟩ := g.free hdn
    refine ⟨h.inStep hdn hstep, h.hold.trans hhold, h.waiting.trans hwaiting, fun hw => ?_⟩
    rcases h.work hw with hw | hw
    · exact hwork hw
    · simp [redirectedWrite_eq, hdn] at hw
  held c hc hs := by
    obtain ⟨f, hf, hkind⟩ := h.cycle
    rw [hf, Option.map_eq_some_iff] at hc
    obtain ⟨b, hb, rfl⟩ := hc
    rw [h.hold, h.waiting]
    exact g.held b hb ((hkind b).held hs)
  holds hh := by
    rw [h.waiting]
    exact g.holds (h.hold ▸ hh)
  onPort p hp hc := by
    rw [h.hold]
    exact g.onPort p (h.onPort p hp hc) hc
  awaits hw := by
    rw [h.redirectedWrite]
    exact (h.work hw).elim g.awaits id

theorem owns_of_table {x y : Ccl} (h : y.table = x.table) {m : MapId} {k : Nat} : y.owns m k ↔ x.owns m k := by
  unfold Ccl.owns
  rw [h]

theorem tablesOk_of (ht : e.ccl.table = d.ccl.table) (hm : ∀ m, (e.ovu.map m).Sublist (d.ovu.map m)) (g : d.tablesOk) :
    e.tablesOk where
  flags m := by
    obtain ⟨hsorted, howned⟩ := g.flags m
    exact ⟨hsorted.sublist (hm m), fun k hk => (owns_of_table ht).mpr (howned k ((hm m).subset hk))⟩
  unique := by
    rw [ht]
    exact g.unique

theorem Lc44.calm.mapOk (h : d.calm e) (g : d.mapOk) : e.mapOk where
  tables := tablesOk_of h.table h.maps g.tables
  write c m base hc hs ho ht := by
    obtain ⟨f, hf, hkind⟩ := h.cycle
    rw [hf, Option.map_eq_some_iff] at hc
    obtain ⟨b, hb, rfl⟩ := hc
    have kind := hkind b
    rw [owns_of_table h.table, kind.record]
    rw [kind.cycle] at ho
    rw [kind.record] at ht
    exact g.write b m base hb (kind.unvoided hs) ho ht
  hold hh := h.cycle_eq_none.mpr (g.hold (h.startup.hold hh))
  loads := h.startup.loading g.loads

theorem Lc44.calm.lawsOk (h : d.calm e) (g : d.lawsOk u v) : e.lawsOk u v :=
  ⟨fun hu => h.toStep.stepOk (g.1 hu), fun hv => h.mapOk (g.2 hv)⟩

theorem Lc44.stepCalm.portQuiet (h : d.stepCalm e) (g : d.portQuiet) : e.portQuiet :=
  ⟨h.waiting.trans g.1, fun p hp hc => g.2 p (h.onPort p hp hc) hc⟩

theorem Lc44.calm.answerable (h : d.calm e) (g : d.answerable u v) : e.answerable u v :=
  ⟨fun hu => h.toStep.portQuiet (g.1 hu),
    fun hv => ⟨tablesOk_of h.table h.maps (g.2 hv).1, h.startup.loading (g.2 hv).2⟩⟩

/-- The blocks that the laws rest on are left alone. -/
theorem ready_of_keeps {l : List Block} (h : d.keepsOutside l e) (g : d.ready u v)
    (hl : ∀ b ∈ [Block.iport, .mpc, .ccl, .ovu, .phc, .sli], b ∉ l := by decide) : e.ready u v where
  answerable := (calm_of_keeps h hl).answerable g.answerable
  cycle := by
    rw [keeps_iport h (hl .iport (by decide))]
    exact g.cycle
  work := by
    rw [keeps_ovu h (hl .ovu (by decide))]
    exact g.work
  hold hv := by
    unfold Lc44.holdLine
    rw [h.1, keeps_phc h (hl .phc (by decide))]
    exact g.hold hv

/-! ## The answer -/

/-- With no cycle, nothing held and no fold waiting both laws hold. -/
theorem lawsOk_of_rest (hc : d.iport.cycle = none) (hw : d.ovu.work ≠ .awaitWrite) (hs : d.inStep = true)
    (hh : d.mpc.hold = none) (g : d.answerable u v) : d.lawsOk u v := by
  have none_some {c : ICycle} (h : d.iport.cycle = some c) : False := by simp [hc] at h
  refine ⟨fun hu => ⟨fun _ => ⟨hs, hh, (g.1 hu).1, hw⟩, fun c h => (none_some h).elim, fun h => absurd hh h,
    fun p hp hf => absurd hf ((g.1 hu).2 p hp), fun h => absurd h hw⟩, fun hv => ?_⟩
  exact ⟨(g.2 hv).1, fun c _ _ h => (none_some h).elim, fun _ => hc, (g.2 hv).2⟩

/-- The state that the answer leaves before what follows it. -/
def Lc44.answered (a : IAnswer) (d : Lc44) : Lc44 :=
  syncCcl ((d.onIport fun p => { p with cycle := none, answer := some a }).onMpc fun m => { m with hold := none })

theorem answerable_answered (a : IAnswer) (g : d.answerable u v) : (d.answered a).answerable u v := by
  refine ⟨fun hu => ?_, fun hv => ⟨?_, ?_⟩⟩
  · have hmpc : (d.answered a).mpc = { d.mpc with hold := none } := keeps_mpc (keeps_syncCcl _)
    unfold Lc44.portQuiet
    rw [hmpc]
    exact g.1 hu
  · refine tablesOk_of (d := d) (table_syncCcl _) (fun m => ?_) (g.2 hv).1
    rw [Lc44.answered, keeps_ovu (keeps_syncCcl _)]
    exact List.Sublist.refl _
  · exact (startupCalm_of_keeps (keeps_syncCcl _)).loading (g.2 hv).2

/-- The I-port answered finds nothing left of the cycle (R1, R28, R94). -/
theorem lawsOk_answerCycle (a : IAnswer) (g : d.answerable u v) : (answerCycle a d).lawsOk u v := by
  have hcycle : (d.answered a).iport.cycle = none := congrArg IPort.cycle (keeps_iport (keeps_syncCcl _))
  have follows : (d.answered a).calm
      (if d.iport.inFlight then sequenceAnswered (d.answered a) else d.answered a) := by
    split
    · exact calm_sequenceAnswered _
    · exact calm_refl _
  have ends := follows.trans (calm_foldReleased _)
  refine lawsOk_of_rest (ends.toStep.cycle_eq_none.mpr hcycle) (work_foldReleased _) (ends.inStep hcycle ?_) ?_
    (ends.answerable (answerable_answered a g))
  · exact inStep_syncCcl rfl
  · exact ends.hold.trans (congrArg Mpc.hold (keeps_mpc (keeps_syncCcl _)))

theorem calm_countFault (x : FaultCause) (d : Lc44) : d.calm (countFault x d) :=
  ⟨⟨sameCycle rfl, rfl, rfl, fun _ h _ => h, fun _ h => h, Or.inl⟩, startupCalm_of_keeps (keeps_onCcl _ d),
    fun _ => List.Sublist.refl _, rfl⟩

theorem lawsOk_faultCycle (x : FaultCause) (g : d.answerable u v) : (faultCycle x d).lawsOk u v :=
  lawsOk_answerCycle _ ((calm_countFault x d).answerable g)

/-! ## Presenting (R26, R28) -/

theorem mapOk_onMpc (f : Mpc → Mpc) (g : d.mapOk) : (d.onMpc f).mapOk :=
  ⟨tablesOk_of (d := d) rfl (fun _ => List.Sublist.refl _) g.tables, g.write, g.hold, g.loads⟩

/-- A cycle of FWD on the port under its hold. -/
theorem lawsOk_present (r : MRequest) (g : d.presentable u v c) (hh : u → d.mpc.hold.isSome = true) :
    (present .fwd r d).lawsOk u v := by
  refine ⟨fun hu => ⟨fun h => ?_, fun b hb hs => ?_, fun _ => (g.quiet hu).1, fun p hp _ => ?_, fun hw => ?_⟩,
    fun hv => mapOk_onMpc _ (g.maps hv)⟩
  · exact absurd (g.cycle.symm.trans h) (Option.some_ne_none c)
  · obtain rfl := Option.some.inj (g.cycle.symm.trans hb)
    exact absurd hs (g.stage hu)
  · obtain rfl := Option.some.inj hp
    obtain ⟨n, hn⟩ := Option.isSome_iff_exists.mp (hh hu)
    show d.mpc.hold = some (d.mpc.hold.getD d.mpc.timeout)
    rw [hn, Option.getD_some]
  · show d.iport.redirectedWrite = true
    rw [redirectedWrite_eq, g.cycle]
    exact g.awaits hu hw

/-- FWD requests the port while nothing holds it. -/
theorem lawsOk_requestFwd (g : d.presentable u v c) (hh : u → d.mpc.hold = none) : (requestFwd d).lawsOk u v := by
  refine ⟨fun hu => ⟨fun h => ?_, fun b hb hs => ?_, fun h => absurd (hh hu) h, fun p hp hf => ?_, fun hw => ?_⟩,
    fun hv => mapOk_onMpc _ (g.maps hv)⟩
  · exact absurd (g.cycle.symm.trans h) (Option.some_ne_none c)
  · obtain rfl := Option.some.inj (g.cycle.symm.trans hb)
    exact absurd hs (g.stage hu)
  · exact absurd hf ((g.quiet hu).2 p hp)
  · show d.iport.redirectedWrite = true
    rw [redirectedWrite_eq, g.cycle]
    exact g.awaits hu hw

theorem Lc44.presentable.answerable (g : d.presentable u v c) : d.answerable u v :=
  ⟨g.quiet, fun hv => ⟨(g.maps hv).tables, (g.maps hv).loads⟩⟩

/-- A stage that is not `.held`, and owes no flag that the tables do not allow, is entered. -/
theorem presentable_enterStage {g : Stage} (hr : d.ready u v) (hc : d.iport.cycle = some c) (hg : g ≠ .held)
    (hflag : v → ∀ m base, g = .redirected false → c.cycle.op ≠ .read → c.record.treatment = .redirect m base →
      d.ccl.owns m c.record.offset) : (enterStage g d).presentable u v { c with stage := g } := by
  have hcycle : (enterStage g d).iport.cycle = some { c with stage := g } := congrArg (Option.map _) hc
  refine ⟨fun hu => hr.answerable.1 hu, hcycle, fun _ => hg, fun hu hw => absurd hw (hr.work hu), fun hv => ?_⟩
  refine ⟨tablesOk_of (d := d) rfl (fun _ => List.Sublist.refl _) (hr.answerable.2 hv).1,
    fun b m base hb hs => ?_, fun h => ?_,
    (hr.answerable.2 hv).2⟩
  · obtain rfl := Option.some.inj (hcycle.symm.trans hb)
    exact hflag hv m base hs
  · exact absurd ((hr.hold hv).symm.trans h) Bool.false_ne_true

/-- Where the cycle has come is presented under the hold; the lock pass may end it (R51). -/
theorem lawsOk_presentStage (g : d.presentable u v c) (hh : u → d.mpc.hold.isSome = true) :
    (presentStage d).lawsOk u v := by
  have shown (r : MRequest) := lawsOk_present r g hh
  unfold presentStage
  rw [g.cycle]
  dsimp only
  split
  · exact shown _
  · exact shown _
  next hs => exact ⟨fun hu => absurd hs (g.stage hu), g.maps⟩
  · exact shown _
  · exact shown _
  next q hs =>
    unfold presentGuarded
    dsimp only
    have counted := calm_of_keeps (keeps_countHits (lockPass d.txmute q).hits d)
    split
    · exact lawsOk_faultCycle _ (counted.answerable g.answerable)
    · have hwork : u → d.ovu.work ≠ .awaitWrite := fun hu hw => by
        have := g.awaits hu hw
        simp [ICycle.redirectedWrite, hs] at this
      have hready : d.ready u v := by
        refine ⟨g.answerable, by simp [g.cycle], hwork, fun hv => Bool.eq_false_iff.mpr fun hh => ?_⟩
        exact Option.some_ne_none c (g.cycle.symm.trans ((g.maps hv).hold hh))
      refine lawsOk_present _ (presentable_enterStage (c := c) (ready_of_keeps (keeps_countHits _ _) hready)
        g.cycle nofun nofun) hh

/-! ## The guarded-write sequence -/

/-- The cycle goes on to a stage that needs the port (R26, R28). -/
theorem lawsOk_goOn {g : Stage} (hr : d.ready u v) (hg : g ≠ .held)
    (hflag : v → ∀ c m base, d.iport.cycle = some c → g = .redirected false → c.cycle.op ≠ .read →
      c.record.treatment = .redirect m base → d.ccl.owns m c.record.offset) : (goOn g d).lawsOk u v := by
  obtain ⟨c, hc⟩ := Option.ne_none_iff_exists'.mp hr.cycle
  have entered := presentable_enterStage hr hc hg fun hv m base => hflag hv c m base hc
  unfold goOn
  split
  next h => exact lawsOk_presentStage entered fun _ => h
  next h => exact lawsOk_requestFwd entered fun _ => Option.not_isSome_iff_eq_none.mp h

/-- A stage that is no redirected one sets no flag. -/
theorem lawsOk_goOn_plain {g : Stage} (hr : d.ready u v) (hg : g ≠ .held) (hp : g ≠ .redirected false) :
    (goOn g d).lawsOk u v := lawsOk_goOn hr hg fun _ _ _ _ _ h => absurd h hp

theorem lawsOk_guardRules (data : Word) (q : GuardSeq) (hr : d.ready u v) : (guardRules data q d).lawsOk u v := by
  have hready (hits : List (Fin 64)) : (countHits hits d).ready u v := ready_of_keeps (keeps_countHits _ _) hr
  unfold guardRules
  dsimp only
  split
  · exact lawsOk_faultCycle _ (hready _).answerable
  · split
    · exact lawsOk_goOn_plain (hready _) nofun nofun
    · exact lawsOk_goOn_plain (hready _) nofun nofun

theorem lawsOk_guardGo (journalled : Bool) (first count : Nat) (x : BusCycle) (offset : Nat) (data : Word)
    (hr : d.ready u v) : (guardGo journalled first count x offset data d).lawsOk u v := by
  unfold guardGo
  dsimp only
  split
  · exact lawsOk_goOn_plain hr nofun nofun
  · exact lawsOk_guardRules _ _ hr

/-- A held write neither holds nor waits (R46). -/
theorem lawsOk_hold (hr : d.ready u v) (hh : u → d.mpc.hold = none) : (enterStage .held d).lawsOk u v := by
  obtain ⟨c, hc⟩ := Option.ne_none_iff_exists'.mp hr.cycle
  have hcycle : (enterStage .held d).iport.cycle = some { c with stage := .held } := congrArg (Option.map _) hc
  refine ⟨fun hu => ⟨fun h => ?_, fun b hb hs => ⟨hh hu, (hr.answerable.1 hu).1⟩, fun h => absurd (hh hu) h,
    fun p hp hf => absurd hf ((hr.answerable.1 hu).2 p hp), fun hw => absurd hw (hr.work hu)⟩, fun hv => ?_⟩
  · exact absurd (hcycle.symm.trans h) (Option.some_ne_none _)
  · refine ⟨tablesOk_of (d := d) rfl (fun _ => List.Sublist.refl _) (hr.answerable.2 hv).1, fun b m base hb hs => ?_,
      fun h => ?_, (hr.answerable.2 hv).2⟩
    · obtain rfl := Option.some.inj (hcycle.symm.trans hb)
      exact nomatch hs
    · exact absurd ((hr.hold hv).symm.trans h) Bool.false_ne_true

theorem lawsOk_settle (first count : Nat) (x : BusCycle) (offset : Nat) (data : Word) (hr : d.ready u v)
    (hh : u → d.mpc.hold = none) : (settle first count x offset data d).lawsOk u v := by
  unfold settle
  split
  · exact lawsOk_hold hr hh
  · exact lawsOk_hold hr hh
  · exact lawsOk_guardGo _ _ _ _ _ _ hr
  · exact lawsOk_guardGo _ _ _ _ _ _ hr
  · split
    · exact lawsOk_faultCycle _ (ready_of_keeps (keeps_countRefused d) hr).answerable
    · exact lawsOk_guardGo _ _ _ _ _ _ hr

/-! ## Taking a cycle -/

/-- A redirecting record names an offset of the entry that references its map (R5, R86). -/
theorem classify_owns {x : BusCycle} {m : MapId} {base : Addr} (h : (classify x d).treatment = .redirect m base) :
    d.ccl.owns m (classify x d).offset := by
  unfold classify at h ⊢
  split at h
  · cases h
  next hf =>
    rw [if_neg hf]
    cases hl : d.ccl.lookup x with
    | none => simp [hl, ClassRecord.plain] at h
    | some e =>
      obtain ⟨i, r⟩ := e
      simp only [hl] at h ⊢
      have hmem := List.mem_of_find?_eq_some hl
      have hrange := List.find?_some hl
      rw [mem_entries] at hmem
      simp only [Bool.and_eq_true, decide_eq_true_eq] at hrange
      refine ⟨i, r, hmem, ?_, ?_⟩
      · have htreatment : r.treatment = .redirect m base := by
          cases hp : d.ccl.phase <;> cases ht : r.treatment <;> simp_all [Treatment.inPhase]
        simp [Region.map, htreatment]
      · obtain ⟨⟨hlow, hhigh⟩, _⟩ := hrange
        omega

/-- Without a cycle in progress FWD neither waits nor is on the port. -/
theorem answerable_of_free (g : d.lawsOk u v) (hc : d.iport.cycle = none) : d.answerable u v := by
  refine ⟨fun hu => ?_, fun hv => ⟨(g.2 hv).tables, (g.2 hv).loads⟩⟩
  obtain ⟨_, hhold, hwaiting, _⟩ := (g.1 hu).free hc
  refine ⟨hwaiting, fun p hp hf => ?_⟩
  have := (g.1 hu).onPort p hp hf
  simp [hhold] at this

/-- A cycle is taken while none is in progress, outside start-up (R1). -/
theorem ready_taken (x : BusCycle) (r : ClassRecord) (g : d.lawsOk u v) (hc : d.iport.cycle = none)
    (hh : d.holdLine = false) : (d.onIport fun p => { p with cycle := some ⟨x, r, .forward⟩ }).ready u v where
  answerable := ⟨(answerable_of_free g hc).1,
    fun hv => ⟨tablesOk_of (d := d) rfl (fun _ => List.Sublist.refl _) (g.2 hv).tables, (g.2 hv).loads⟩⟩
  cycle := by simp
  work hu := ((g.1 hu).free hc).2.2.2
  hold _ := hh

theorem lawsOk_handleCycle (x : BusCycle) (r : ClassRecord) (g : d.lawsOk u v) (hc : d.iport.cycle = none)
    (hh : d.holdLine = false) (hr : v → ∀ m base, r.treatment = .redirect m base → d.ccl.owns m r.offset) :
    (handleCycle x r d).lawsOk u v := by
  have taken := ready_taken x r g hc hh
  have forward : (goOn .forward (d.onIport fun p => { p with cycle := some ⟨x, r, .forward⟩ })).lawsOk u v :=
    lawsOk_goOn_plain taken nofun nofun
  have redirected :
      (goOn (.redirected false) (d.onIport fun p => { p with cycle := some ⟨x, r, .forward⟩ })).lawsOk u v :=
    lawsOk_goOn taken nofun fun hv b m base hb _ _ ht => by
      obtain rfl := Option.some.inj hb
      exact hr hv m base ht
  unfold handleCycle
  dsimp only
  split
  · exact lawsOk_faultCycle _ taken.answerable
  · exact lawsOk_settle _ _ _ _ _ taken fun hu => ((g.1 hu).free hc).2.1
  · unfold takeGuardedRead
    split
    · split
      · exact lawsOk_answerCycle _ taken.answerable
      · exact forward
    · exact forward
  · unfold takeRedirectedWrite
    split
    · exact lawsOk_faultCycle _ taken.answerable
    · split
      · exact lawsOk_faultCycle _ taken.answerable
      · exact redirected
  · exact redirected
  · exact forward

theorem lawsOk_takeCycle (x : BusCycle) (g : d.lawsOk u v) (hc : d.iport.cycle = none) (hr : d.resetAsserted = false) :
    (takeCycle x d).lawsOk u v := by
  unfold takeCycle
  split
  · have answered : d.calm (d.onIport fun p => { p with answer := some (.fault none) }) :=
      ⟨⟨⟨id, by simp, .refl⟩, rfl, rfl, fun _ h _ => h, fun _ h => h, Or.inl⟩, startupCalm_of_keeps (keeps_onIport _ d),
        fun _ => List.Sublist.refl _, rfl⟩
    exact answered.lawsOk g
  next hs =>
    have hh : d.holdLine = false := by simp [Lc44.holdLine, hr, hs]
    have handled := lawsOk_handleCycle x (classify x d) g hc hh fun _ _ _ => classify_owns
    split
    · split
      · exact lawsOk_faultCycle _ (answerable_of_free g hc)
      · exact handled
    · exact handled

/-- A cycle in progress that is no redirected write is ready for its next stage once FWD is off the port. -/
theorem ready_of_cycle (g : d.lawsOk u v) (hc : d.iport.cycle = some c) (hw : c.redirectedWrite = false)
    (hq : u → d.portQuiet) : d.ready u v where
  answerable := ⟨hq, fun hv => ⟨(g.2 hv).tables, (g.2 hv).loads⟩⟩
  cycle := by simp [hc]
  work hu h := by
    have := (g.1 hu).awaits h
    simp [redirectedWrite_eq, hc, hw] at this
  hold hv := Bool.eq_false_iff.mpr fun hh => Option.some_ne_none c (hc.symm.trans ((g.2 hv).hold hh))

theorem lawsOk_releaseHeld (g : d.lawsOk u v) : (releaseHeld d).lawsOk u v := by
  unfold releaseHeld
  split
  · exact g
  next b hb =>
    split
    next hs _ _ =>
      have idle (hu : u) : d.mpc.hold = none ∧ d.mpc.fwdWaiting = false := (g.1 hu).held b hb hs
      refine lawsOk_settle _ _ _ _ _ (ready_of_cycle g hb (by simp [ICycle.redirectedWrite, hs]) fun hu => ?_)
        fun hu => (idle hu).1
      refine ⟨(idle hu).2, fun p hp hf => ?_⟩
      have := (g.1 hu).onPort p hp hf
      simp [(idle hu).1] at this
    next => exact g

/-! ## The end of FWD's cycle -/

/-- A flag set within the law of the maps keeps a map sorted (R86). -/
theorem pairwise_setFlag {l : List Nat} (k : Nat) (h : l.Pairwise (· < ·)) : (setFlag k l).Pairwise (· < ·) := by
  induction l with
  | nil => simp [setFlag]
  | cons x l ih =>
    obtain ⟨hx, hl⟩ := List.pairwise_cons.mp h
    unfold setFlag
    split
    next hlt =>
      refine List.pairwise_cons.mpr ⟨fun y hy => ?_, h⟩
      rcases List.mem_cons.mp hy with rfl | hy
      · exact hlt
      · exact hlt.trans (hx y hy)
    next hle =>
      split
      · exact h
      next hne =>
        refine List.pairwise_cons.mpr ⟨fun y hy => ?_, ih hl⟩
        rcases (mem_setFlag k y l).mp hy with hy | rfl
        · exact hx y hy
        · omega

/-- The write in progress sets its flag (R88). -/
theorem tablesOk_setFlag {m : MapId} {k : Nat} (g : d.tablesOk) (hk : d.ccl.owns m k) :
    (d.onOvu fun o => o.setMap m (setFlag k (o.map m))).tablesOk := by
  refine ⟨fun j => ?_, g.unique⟩
  have hmap : (d.onOvu fun o => o.setMap m (setFlag k (o.map m))).ovu.map j =
      if j = m then setFlag k (d.ovu.map m) else d.ovu.map j := map_setMap _ _ _ _
  rw [hmap]
  split
  next h =>
    subst h
    obtain ⟨hsorted, howned⟩ := g.flags j
    refine ⟨pairwise_setFlag k hsorted, fun i hi => ?_⟩
    rcases (mem_setFlag k i _).mp hi with hi | rfl
    · exact howned i hi
    · exact hk
  next => exact g.flags j

/-- FWD's cycle has left the port under its hold (R21, R28). -/
theorem lawsOk_fwdEnded (e : MEnd) (g : d.lawsOk u v) (hp : d.mpc.cycle = none) (hh : u → d.mpc.hold ≠ none) :
    (fwdEnded e d).lawsOk u v := by
  have quiet (hu : u) : d.portQuiet := ⟨(g.1 hu).holds (hh hu), fun p h => by simp [hp] at h⟩
  have answerable : d.answerable u v := ⟨quiet, fun hv => ⟨(g.2 hv).tables, (g.2 hv).loads⟩⟩
  unfold fwdEnded
  split
  · exact g
  next c w hc =>
    have ready (hs : c.redirectedWrite = false) : d.ready u v := ready_of_cycle g hc hs quiet
    unfold fwdOk
    split
    · unfold forwardOk
      split
      · exact lawsOk_answerCycle _ answerable
      next data _ =>
        refine lawsOk_answerCycle _ (Lc44.calm.answerable ?_ answerable)
        exact calm_of_keeps (keeps_acceptedWrite _ _ _)
    next void hs =>
      unfold redirectedOk
      split
      next data m base ho ht =>
        refine lawsOk_answerCycle _ ?_
        split
        · exact answerable
        next hvoid =>
          refine ⟨quiet, fun hv => ⟨tablesOk_setFlag (g.2 hv).tables ?_, (g.2 hv).loads⟩⟩
          exact (g.2 hv).write c m base hc (by simpa [hvoid] using hs) (by simp [ho]) ht
      · exact lawsOk_answerCycle _ answerable
      · exact lawsOk_answerCycle _ answerable
    · exact g
    next q hs =>
      have hready := ready (by simp [ICycle.redirectedWrite, hs])
      unfold preReadOk
      split
      · exact lawsOk_faultCycle _ (ready_of_keeps (keeps_countRefused d) hready).answerable
      · exact lawsOk_guardRules _ _ hready
    next q k hs =>
      have hready := ready (by simp [ICycle.redirectedWrite, hs])
      unfold writeAheadOk
      split
      · exact lawsOk_goOn_plain hready nofun nofun
      · exact lawsOk_goOn_plain (ready_of_keeps (keeps_onTru _ d) hready) nofun nofun
    · unfold guardForwardOk
      refine lawsOk_answerCycle _ ?_
      split
      · exact (calm_onTru _ d).answerable answerable
      · exact answerable
  · unfold fwdFailed
    refine lawsOk_faultCycle _ ?_
    split
    · exact (calm_onTru _ d).answerable answerable
    · exact answerable

/-! ## The arbiter -/

/-- Another client's cycle on the port. -/
theorem calm_present (x : Client) (r : MRequest) (f : Mpc → Mpc) (d : Lc44) (hx : x ≠ .fwd)
    (hh : (f d.mpc).hold = d.mpc.hold := by rfl) (hw : (f d.mpc).fwdWaiting = d.mpc.fwdWaiting := by rfl) :
    d.calm (present x r (d.onMpc f)) :=
  ⟨⟨sameCycle rfl, hh, hw, fun p hp hc => by
      obtain rfl := Option.some.inj hp
      exact absurd hc hx, fun _ h => h, Or.inl⟩,
    startupCalm_of_keeps (keeps_trans (l := [.mpc]) (keeps_onMpc f d) (keeps_present _ _ _)),
    fun _ => List.Sublist.refl _, rfl⟩

theorem lawsOk_grantTo (x : Client) (g : d.lawsOk u v) (hp : d.mpc.cycle = none)
    (hw : x = .fwd → d.mpc.fwdWaiting = true) :
    (grantTo x d).lawsOk u v := by
  cases x with
  | fwd =>
    have waits := hw rfl
    cases hc : d.iport.cycle with
    | none =>
      refine ⟨fun hu => ?_, fun hv => ?_⟩
      · have := ((g.1 hu).free hc).2.2.1
        simp [waits] at this
      · simp only [grantTo, presentStage, Lc44.onMpc_iport, hc]
        exact mapOk_onMpc _ (g.2 hv)
    | some c =>
      refine lawsOk_presentStage (c := c) ⟨fun _ => ⟨rfl, fun p h => ?_⟩, hc, fun hu hs => ?_, fun hu h => ?_,
        fun hv => mapOk_onMpc _ (g.2 hv)⟩ fun _ => rfl
      · exact absurd (hp.symm.trans h) (Option.some_ne_none p).symm
      · have := ((g.1 hu).held c hc hs).2
        simp [waits] at this
      · have := (g.1 hu).awaits h
        rwa [redirectedWrite_eq, hc] at this
  | rst =>
    unfold grantTo
    dsimp only
    split
    · exact g
    · exact (calm_present .rst _ _ d nofun).lawsOk g
  | int =>
    unfold grantTo
    dsimp only
    split
    · exact g
    · exact (calm_present .int _ id d nofun).lawsOk g
  | mir =>
    unfold grantTo
    dsimp only
    split
    · exact g
    · exact (calm_present .mir _ _ d nofun).lawsOk g

theorem lawsOk_arbitrateOnce (g : d.lawsOk u v) : (arbitrateOnce d).lawsOk u v := by
  unfold arbitrateOnce
  split
  next hfree =>
    simp only [Mpc.free, Bool.and_eq_true, Option.isNone_iff_eq_none] at hfree
    split
    · exact g
    next x hx =>
      refine lawsOk_grantTo x g hfree.1 ?_
      rintro rfl
      by_contra hw
      exact choice_ne_fwd (Bool.eq_false_iff.mpr hw) hx
  next => exact g

theorem lawsOk_arbitrate (g : d.lawsOk u v) : (arbitrate d).lawsOk u v := lawsOk_arbitrateOnce (lawsOk_arbitrateOnce g)

end

end Sys2Proof.Machine
end

