-- ==== Sys2Proof/Proofs/TableChanges.lean ====
section
/-! SUPPORT. What replaces the Region Table keeps the law of the I-port's steps and the law of the maps: LOAD-REGION,
BEGIN, WIPE and a profile put in force (R15, R16, R18, R89, R91, R166, R167, R181). -/

namespace Sys2Proof.Machine

set_option Elab.async false

section
variable {u v : Prop} {d e : Lc44}

/-! ## One entry at most references a map (R15) -/

/-- No two entries of the Region Table reference the same map. -/
def Ccl.mapsUnique (c : Ccl) : Prop :=
  ∀ (i j : Fin 16) (r q : Region) (m : MapId), c.table[i] = some r → c.table[j] = some q →
    r.map = some m → q.map = some m → i = j

/-- An entry after one was set. -/
theorem table_set (t : Vector (Option Region) 16) (i j : Fin 16) (r : Option Region) :
    (t.set i r)[j] = if j = i then r else t[j] := by
  show (t.set i.val r i.isLt)[j.val] = _
  rw [Vector.getElem_set]
  by_cases h : j = i
  · rw [if_pos h, if_pos (congrArg Fin.val h.symm)]
  · rw [if_neg h, if_neg fun hv => h (Fin.ext hv.symm)]
    rfl

/-- An entry set whose map no other entry references. -/
theorem mapsUnique_set {c : Ccl} {i : Fin 16} {r : Option Region} (hu : c.mapsUnique)
    (hr : ∀ q m, r = some q → q.map = some m → c.mapTaken i.val m = false) :
    ({ c with table := c.table.set i r } : Ccl).mapsUnique := by
  have free {j : Fin 16} {q s : Region} {m : MapId} (hq : r = some q) (hqm : q.map = some m) (hj : j ≠ i)
      (hs : c.table[j] = some s) (hsm : s.map = some m) : False :=
    Bool.false_ne_true ((hr q m hq hqm).symm.trans (mapTaken_iff.mpr ⟨j, s, hj, hs, hsm⟩))
  intro j k q s m hq hs hqm hsm
  dsimp only at hq hs
  rw [table_set] at hq hs
  split at hq
  next hj =>
    split at hs
    next hk => rw [hj, hk]
    next hk => exact (free hq hqm hk hs hsm).elim
  next hj =>
    split at hs
    next hk => exact (free hs hsm hj hq hqm).elim
    next hk => exact hu j k q s m hq hs hqm hsm

/-- An entry accepted references no map taken by another (R15). -/
theorem mapFree_of_check {psel : BitVec 2} {closing : Option Nat} {taken : MapId → Bool} {raw : RawRegion} {q : Region}
    {m : MapId} (h : raw.check psel closing taken = some q) (hm : q.map = some m) : taken m = false := by
  obtain ⟨_, t, ht, rfl⟩ := regionCheck_parts h
  unfold RawRegion.treatmentOf at ht
  split at ht
  · cases ht
    exact nomatch hm
  · cases ht
    exact nomatch hm
  · split at ht
    · cases ht
      exact nomatch hm
    · cases ht
  · split at ht
    · cases ht
      exact nomatch hm
    · cases ht
  · split at ht
    · cases ht
    next n _ =>
      split at ht
      next hok =>
        cases ht
        obtain rfl : n = m := Option.some.inj hm
        simp only [RawRegion.redirectOk, Bool.and_eq_true, Bool.not_eq_true'] at hok
        exact hok.2
      · cases ht
  · obtain ⟨_, _, rfl⟩ := Option.map_eq_some_iff.mp ht
    exact nomatch hm
  · cases ht

/-! ## What is changed beside the table -/

theorem stepCalm_onCcl (f : Ccl → Ccl) (d : Lc44) (hp : (f d.ccl).phase = d.ccl.phase := by rfl)
    (hm : (f d.ccl).mirror = d.ccl.mirror := by rfl) : d.stepCalm (d.onCcl f) := by
  refine ⟨sameCycle rfl, rfl, rfl, fun _ h _ => h, fun _ h => ?_, Or.inl⟩
  rw [inStep_iff] at h ⊢
  exact ⟨hp.trans h.1, hm.trans h.2⟩

/-- A redirected write that a clearance leaves unvoided is to another map (R89). -/
theorem uncleared_of_voided {cleared : MapId → Bool} {c : ICycle} {m : MapId} {base : Addr}
    (hs : (c.voided cleared).stage = .redirected false) (ho : (c.voided cleared).cycle.op ≠ .read)
    (ht : (c.voided cleared).record.treatment = .redirect m base) : cleared m = false := by
  have kind := sameKind_voided cleared c
  rw [kind.cycle] at ho
  rw [kind.record] at ht
  cases hop : c.cycle.op with
  | read => exact absurd hop ho
  | write w =>
    by_contra hm
    rw [voided_write (kind.unvoided hs) hop ht (Bool.eq_true_of_not_eq_false hm)] at hs
    exact nomatch hs

/-- With the maps empty the law asks only for the table and for the write in progress to be void. -/
theorem mapOk_of_empty (g : d.mapOk) (h : d.stepCalm e) (hs : d.startupCalm e) (hm : ∀ m, e.ovu.map m = [])
    (hu : e.ccl.mapsUnique) (hw : ∀ (c : ICycle) (m : MapId) (base : Addr), e.iport.cycle = some c →
      c.stage = .redirected false → c.cycle.op ≠ .read → c.record.treatment ≠ .redirect m base) : e.mapOk where
  tables := by
    refine ⟨fun m => ?_, hu⟩
    rw [hm]
    exact ⟨List.Pairwise.nil, nofun⟩
  write c m base hc hst ho ht := absurd ht (hw c m base hc hst ho)
  hold hh := h.cycle_eq_none.mpr (g.hold (hs.hold hh))
  loads := hs.loading g.loads

/-! ## BEGIN and WIPE (R166, R167) -/

theorem stepCalm_commonReset (next : Nat) (d : Lc44) : d.stepCalm (commonReset next d) := by
  have ports : d.stepCalm
      ((d.onMpc fun m =>
        { m with timeout := Config.defaultMemoryTimeout, faults := 0, timeouts := 0, lastFailure := none }).onCcl
        fun c => { c with table := Vector.replicate 16 none, faults := .zero }) :=
    (calm_onMpc _ d).toStep.trans (stepCalm_onCcl _ _)
  have rules (x : Lc44) : x.calm (unliveRules (fun _ => true) (x.onFgd fun _ => Fgd.reset)) :=
    (calm_of_keeps (keeps_onFgd _ x)).trans (calm_unliveRules _ _)
  have maps (x : Lc44) : x.calm (clearMaps (fun _ => true) (x.onOvu fun o => { o with fold := .reset })) :=
    (calm_onOvu _ x Or.inl).trans (calm_clearMaps _ _)
  have records (x : Lc44) : x.calm
      (((x.onRcu Rcu.toReset).onTmu Tmu.toDefaults).onAcu fun _ => { Acu.reset with nextSequence := next }) :=
    ((calm_of_keeps (keeps_onRcu _ x)).trans (calm_of_keeps (keeps_onTmu _ _))).trans (calm_of_keeps (keeps_onAcu _ _))
  exact (ports.trans ((((rules _).trans (calm_onTru _ _)).trans (maps _)).trans
    ((records _).trans (calm_mirrorToDefaults _))).toStep).trans
      (stepCalm_onPhc (fun p => { p with operation := .reset }) _)

theorem mapOk_commonReset (next : Nat) (g : d.mapOk) : (commonReset next d).mapOk := by
  have hafresh := commonReset_eq next d
  have htable : (commonReset next d).ccl.table = Vector.replicate 16 none :=
    (congrArg (fun x => x.ccl.table) hafresh).trans (afresh_ccl next d).1
  have hmaps : (commonReset next d).ovu = { d.ovu with map0 := [], map1 := [], fold := .reset } :=
    congrArg Lc44.ovu hafresh
  have hcycle : (commonReset next d).iport.cycle = d.iport.cycle.map ICycle.afresh :=
    congrArg (fun x => x.iport.cycle) hafresh
  refine mapOk_of_empty g (stepCalm_commonReset next d) (startupCalm_commonReset next d) (fun m => ?_) ?_ ?_
  · rw [hmaps]
    cases m <;> rfl
  · intro i j r q m hr
    rw [htable] at hr
    simp at hr
  · intro c m base hc hs ho ht
    rw [hcycle, Option.map_eq_some_iff] at hc
    obtain ⟨b, _, rfl⟩ := hc
    exact Bool.false_ne_true (uncleared_of_voided hs ho ht).symm

theorem lawsOk_commonReset (next : Nat) (g : d.lawsOk u v) : (commonReset next d).lawsOk u v :=
  ⟨fun hu => (stepCalm_commonReset next d).stepOk (g.1 hu), fun hv => mapOk_commonReset next (g.2 hv)⟩

theorem lawsOk_beginEffect (g : d.lawsOk u v) : (beginEffect d).lawsOk u v :=
  ((calm_onPhc _ _ (startupCalm_of_eq rfl rfl rfl)).trans (calm_setPhase _ _)).lawsOk (lawsOk_commonReset 1 g)

theorem lawsOk_wipeEffect (g : d.lawsOk u v) : (wipeEffect d).lawsOk u v :=
  (((calm_setPhase _ _).trans (calm_of_keeps (keeps_raiseTmu _ _))).trans
    (calm_of_keeps (keeps_raiseTmu _ _))).lawsOk (lawsOk_commonReset _ g)

/-! ## LOAD-REGION (R15, R16) -/

/-- The maps that an entry replaced clears. -/
def Lc44.clearedBy (i : Fin 16) (r : Option Region) (d : Lc44) (m : MapId) : Bool :=
  decide (d.ccl.table[i].bind Region.map = some m) || decide (r.bind Region.map = some m)

theorem storeRegion_eq (i : Fin 16) (r : Option Region) (d : Lc44) :
    storeRegion i r d = (clearMaps (d.clearedBy i r) d).onCcl fun c => { c with table := c.table.set i r } := rfl

/-- What another entry owns it still owns. -/
theorem owns_storeRegion {i : Fin 16} {r : Option Region} {m : MapId} {k : Nat} (hm : d.clearedBy i r m = false)
    (h : d.ccl.owns m k) : (storeRegion i r d).ccl.owns m k := by
  obtain ⟨j, q, hq, hqm, hk⟩ := h
  refine ⟨j, q, ?_, hqm, hk⟩
  show (d.ccl.table.set i r)[j] = some q
  rw [table_set, if_neg]
  · exact hq
  · rintro rfl
    simp [Lc44.clearedBy, hq, hqm] at hm

theorem stepCalm_storeRegion (i : Fin 16) (r : Option Region) (d : Lc44) : d.stepCalm (storeRegion i r d) :=
  (calm_clearMaps _ d).toStep.trans (stepCalm_onCcl (fun c => { c with table := c.table.set i r }) _)

theorem mapOk_storeRegion {i : Fin 16} {r : Option Region} (g : d.mapOk)
    (hr : ∀ q m, r = some q → q.map = some m → d.ccl.mapTaken i.val m = false) : (storeRegion i r d).mapOk := by
  have start : d.startupCalm (storeRegion i r d) :=
    (calm_clearMaps _ d).startup.trans (startupCalm_of_keeps (keeps_onCcl _ _))
  refine ⟨⟨fun m => ?_, mapsUnique_set g.tables.unique hr⟩, fun c m base hc hs ho ht => ?_, fun hh => ?_,
    start.loading g.loads⟩
  · show ((clearMaps (d.clearedBy i r) d).ovu.map m).Pairwise _ ∧ ∀ k ∈ (clearMaps (d.clearedBy i r) d).ovu.map m, _
    rw [map_clearMaps]
    obtain ⟨hsorted, howned⟩ := g.tables.flags m
    split
    next => exact ⟨List.Pairwise.nil, nofun⟩
    next hm => exact ⟨hsorted, fun k hk => owns_storeRegion (Bool.eq_false_iff.mpr hm) (howned k hk)⟩
  · have hcycle : (storeRegion i r d).iport.cycle = d.iport.cycle.map (ICycle.voided (d.clearedBy i r)) := rfl
    rw [hcycle] at hc
    obtain ⟨b, hb, rfl⟩ := Option.map_eq_some_iff.mp hc
    have kind := sameKind_voided (d.clearedBy i r) b
    have hm := uncleared_of_voided hs ho ht
    rw [kind.cycle] at ho
    rw [kind.record] at ht ⊢
    exact owns_storeRegion hm (g.write b m base hb (kind.unvoided hs) ho ht)
  · exact (stepCalm_storeRegion i r d).cycle_eq_none.mpr (g.hold (start.hold hh))

theorem lawsOk_ownLoadRegion (b : List Byte) (g : d.lawsOk u v) : (ownLoadRegion b d).lawsOk u v := by
  have refused (s : Status) : (answer s [] d).lawsOk u v := (calm_answer _ _ d).lawsOk g
  unfold ownLoadRegion
  split
  · exact refused _
  · split
    next hi =>
      split
      · exact refused _
      next r hr =>
        refine (calm_answer _ _ _).lawsOk
          ⟨fun hu => (stepCalm_storeRegion _ r d).stepOk (g.1 hu), fun hv => mapOk_storeRegion (g.2 hv) ?_⟩
        rintro q m rfl hm
        unfold checkRegionBody at hr
        split at hr
        · cases hr
        · obtain ⟨p, hp, hq⟩ := Option.map_eq_some_iff.mp hr
          obtain rfl := Option.some.inj hq
          exact mapFree_of_check hp hm
        · cases hr
    · exact refused _

/-! ## A profile put in force (R18, R91, R181) -/

theorem mapsUnique_loadRegions (psel : BitVec 2) (closing : Option Nat) (staged : List Word) (l : List (Fin 16))
    {c : Ccl} (h : c.mapsUnique) : (l.foldl (loadRegionAt psel closing staged) c).mapsUnique := by
  induction l generalizing c with
  | nil => exact h
  | cons i l ih => exact ih (mapsUnique_set h fun _ _ hq hm => mapFree_of_check hq hm)

theorem table_setPhase (p : Phase) (d : Lc44) : (setPhase p d).ccl.table = d.ccl.table :=
  (congrArg Ccl.table (keeps_ccl (keeps_recomputeTone _))).trans (table_syncCcl _)

theorem loadCcl_ccl (staged : List Word) (d : Lc44) :
    (loadCcl staged d).ccl =
      (List.finRange 16).foldl (loadRegionAt d.straps.psel (d.rcu.layout.map Layout.closing) staged) d.ccl := rfl

theorem loadCcl_ovu (staged : List Word) (d : Lc44) :
    (loadCcl staged d).ovu = { d.ovu with map0 := [], map1 := [] } := rfl

theorem putInForce_table (staged : List Word) (d : Lc44) :
    ∃ psel closing, (putInForce staged d).ccl.table =
      ((List.finRange 16).foldl (loadRegionAt psel closing staged) d.ccl).table := by
  have hload : (loadedTables staged d).ccl = (loadCcl staged (loadRcu staged d)).ccl :=
    (keeps_ccl (keeps_loadTmu _ _)).trans ((keeps_ccl (keeps_onAcu _ _)).trans (keeps_ccl (keeps_onFgd _ _)))
  have hrcu : (loadRcu staged d).ccl = d.ccl := keeps_ccl (keeps_onRcu _ _)
  have hmpc : (loadMpc staged (loadedTables staged d)).ccl = (loadedTables staged d).ccl := keeps_ccl (keeps_onMpc _ _)
  have hitems : (loadedItems staged d).ccl.table = (loadMpc staged (loadedTables staged d)).ccl.table :=
    (congrArg Ccl.table (keeps_ccl (keeps_onPhc _ _))).trans (table_syncCcl _)
  refine ⟨(loadRcu staged d).straps.psel, (loadRcu staged d).rcu.layout.map Layout.closing, ?_⟩
  rw [putInForce_eq, table_setPhase, hitems, hmpc, hload, loadCcl_ccl, hrcu]

/-- A phase put in force with the maps empty and a timeout waiting for the end of start-up (R25, R91). -/
theorem stepCalm_loaded {n : Option Nat} (p : Phase) (hi : e.iport = d.iport)
    (hm : e.mpc = { d.mpc with loadedTimeout := n }) (ho : e.ovu = { d.ovu with map0 := [], map1 := [] }) :
    d.stepCalm (setPhase p e) := by
  have emptied : d.stepCalm (d.onOvu fun o => { o with map0 := [], map1 := [] }) :=
    (calm_onOvu _ d Or.inl fun m => by cases m <;> exact List.nil_sublist _).toStep
  have waits : (d.onOvu fun o => { o with map0 := [], map1 := [] }).stepCalm
      ((d.onOvu fun o => { o with map0 := [], map1 := [] }).onMpc fun _ => e.mpc) := by
    rw [hm]
    exact (calm_onMpc _ _).toStep
  have synced := stepCalm_synced (d := d.onOvu fun o => { o with map0 := [], map1 := [] })
    (e := e.onPhc fun x => { x with phase := p }) hi waits ho
  exact (emptied.trans synced).trans (calm_of_keeps (keeps_recomputeTone _)).toStep

theorem stepCalm_putInForce (staged : List Word) (d : Lc44) : d.stepCalm (putInForce staged d) := by
  have hitems := keeps_loadedItems staged d
  have htables := keeps_loadedTables staged d
  have hiport : (loadedItems staged d).iport = d.iport := (keeps_iport hitems).trans (keeps_iport htables)
  have hrcu : (loadRcu staged d).ovu = d.ovu := keeps_ovu (keeps_onRcu _ _)
  have hload : (loadedTables staged d).ovu = (loadCcl staged (loadRcu staged d)).ovu :=
    (keeps_ovu (keeps_loadTmu _ _)).trans ((keeps_ovu (keeps_onAcu _ _)).trans (keeps_ovu (keeps_onFgd _ _)))
  have hovu : (loadedItems staged d).ovu = { d.ovu with map0 := [], map1 := [] } := by
    rw [keeps_ovu hitems, hload, loadCcl_ovu, hrcu]
  have htimeout (x : Lc44) : ∃ n, (loadMpc staged x).mpc = { x.mpc with loadedTimeout := n } := ⟨_, rfl⟩
  obtain ⟨n, hn⟩ := htimeout (loadedTables staged d)
  rw [keeps_mpc htables] at hn
  have hmpc : (loadedItems staged d).mpc = { d.mpc with loadedTimeout := n } :=
    ((keeps_mpc (keeps_onPhc _ _)).trans (keeps_mpc (keeps_loadSli _ _))).trans hn
  exact stepCalm_loaded _ hiport hmpc hovu

theorem mapOk_putInForce (staged : List Word) (g : d.mapOk) (hc : d.iport.cycle = none) :
    (putInForce staged d).mapOk := by
  have calm := stepCalm_putInForce staged d
  obtain ⟨hmap0, hmap1⟩ := putInForce_maps staged d
  obtain ⟨psel, closing, htable⟩ := putInForce_table staged d
  refine mapOk_of_empty g calm (startupCalm_putInForce staged d) (fun m => ?_) ?_ fun c _ _ h => ?_
  · cases m with
    | map0 => exact hmap0
    | map1 => exact hmap1
  · unfold Ccl.mapsUnique
    rw [htable]
    exact mapsUnique_loadRegions psel closing staged _ g.tables.unique
  · exact absurd ((calm.cycle_eq_none.mpr hc).symm.trans h) (Option.some_ne_none c).symm

end

end Sys2Proof.Machine
end

