-- ==== Sys2Proof/Proofs/BusCommands.lean ====
section
/-! SUPPORT. Every command keeps the law of the I-port's steps and the law of the maps (R1 to R4, R26, R28, R86, R94). -/

namespace Sys2Proof.Machine

set_option Elab.async false

section
variable {u v : Prop} {d : Lc44}

/-! ## The end of an M-port cycle -/

theorem stepCalm_loadWordRead (staged : List Word) (d : Lc44) : d.stepCalm (loadWordRead staged d) := by
  unfold loadWordRead
  split
  · exact stepCalm_loadNext _ _
  · split
    · exact stepCalm_loadEndsWith _ _
    · split
      · exact stepCalm_loadNext _ _
      · split
        · exact (stepCalm_putInForce _ _).trans (stepCalm_loadEndsWith _ _)
        · exact stepCalm_loadEndsWith _ _

/-- A LOAD finds no cycle at the I-port when it puts a profile in force (R2). -/
theorem mapOk_loadWordRead (staged : List Word) (g : d.mapOk) (hs : d.phc.phop.isStarting = true) :
    (loadWordRead staged d).mapOk := by
  unfold loadWordRead
  split
  · exact (calm_loadNext _ hs).mapOk g
  · split
    · exact (calm_loadEndsWith _ hs).mapOk g
    · split
      · exact (calm_loadNext _ hs).mapOk g
      · split
        · have hc : d.iport.cycle = none := g.hold (by simp [Lc44.holdLine, hs])
          exact (calm_loadEndsWith _ (isStarting_putInForce staged hs)).mapOk (mapOk_putInForce staged g hc)
        · exact (calm_loadEndsWith _ hs).mapOk g

theorem lawsOk_phcEnded (e : MEnd) (g : d.lawsOk u v) : (phcEnded e d).lawsOk u v := by
  unfold phcEnded
  split
  · exact g
  · have idled : d.calm (d.onPhc fun p => { p with work := .idle }) := calm_turns _ d
    unfold probeEnded
    dsimp only
    split
    · exact (calm_then_answer _ _ idled).lawsOk g
    · exact (calm_answer _ _ _).lawsOk (lawsOk_beginEffect (idled.lawsOk g))
  · exact (calm_imageWriteEnded _ d).lawsOk g
  next staged hwork =>
    have starting (hv : v) : d.phc.phop.isStarting = true := (g.2 hv).loads staged hwork
    split
    · exact ⟨fun hu => (stepCalm_loadEndsWith _ d).stepOk (g.1 hu),
        fun hv => (calm_loadEndsWith _ (starting hv)).mapOk (g.2 hv)⟩
    · exact ⟨fun hu => (stepCalm_loadWordRead _ d).stepOk (g.1 hu),
        fun hv => mapOk_loadWordRead _ (g.2 hv) (starting hv)⟩
  · split
    · exact ((calm_recovers d).recoverFailed _ _ (calm_refl d)).lawsOk g
    · exact ((calm_recovers d).recoverOk _ _ _ (calm_refl d)).lawsOk g

theorem lawsOk_intEnded (o : IntOwner) (e : MEnd) (g : d.lawsOk u v) : (intEnded o e d).lawsOk u v := by
  cases o with
  | tru => exact (calm_headerEnded _ d).lawsOk g
  | ovu => exact (calm_foldEnded e d).lawsOk g
  | phc => exact lawsOk_phcEnded e g

/-- A cycle of another client leaves the port. -/
theorem calm_ended (p : MCycle) (e : MEnd) (d : Lc44) : d.calm (d.onMpc (Mpc.ended p e)) := by
  have hmpc : (Mpc.ended p e d.mpc).hold = d.mpc.hold ∧ (Mpc.ended p e d.mpc).fwdWaiting = d.mpc.fwdWaiting ∧
      (Mpc.ended p e d.mpc).cycle = none := by cases e <;> exact ⟨rfl, rfl, rfl⟩
  obtain ⟨hhold, hwaiting, hcycle⟩ := hmpc
  refine ⟨⟨sameCycle rfl, hhold, hwaiting, fun q hq _ => ?_, fun _ h => h, Or.inl⟩,
    startupCalm_of_keeps (keeps_onMpc _ d), fun _ => List.Sublist.refl _, rfl⟩
  exact absurd (hcycle.symm.trans hq) (Option.some_ne_none q).symm

theorem lawsOk_memoryEnd (e : MEnd) (g : d.lawsOk u v) : (memoryEnd e d).lawsOk u v := by
  unfold memoryEnd
  split
  · exact g
  next p hp =>
    have left := (calm_ended p e d).lawsOk g
    refine lawsOk_arbitrate ?_
    unfold dispatchEnd
    split
    next hf =>
      refine lawsOk_fwdEnded e left (by cases e <;> rfl) fun hu => ?_
      rw [(calm_ended p e d).hold, (g.1 hu).onPort p hp hf]
      exact Option.some_ne_none _
    · exact (calm_restoreEnded _ _).lawsOk left
    · split
      · exact left
      · exact lawsOk_intEnded _ e ((calm_onMpc _ _).lawsOk left)
    · exact (calm_mirrorEnded _ _).lawsOk left

/-! ## RESET and losses -/

theorem lawsOk_inReset (u v : Prop) (mast : Bool) : (Lc44.inReset mast).lawsOk u v := by
  obtain ⟨_, hstep, _, _, _, hmap, _⟩ := lawsHoldAtReset
  exact ⟨fun _ => (stepLaw_iff ⟨Lc44.inReset mast, []⟩).mp hstep,
    fun _ => (mapLaw_iff ⟨Lc44.inReset mast, []⟩).mp hmap⟩

/-- RESET released: HOLD goes on, now for start-up. -/
theorem lawsOk_release (straps : Straps) (g : d.lawsOk u v) (hr : d.resetAsserted = true) :
    (release straps d).lawsOk u v := by
  refine lawsOk_arbitrate ⟨fun hu => ?_, fun hv => ?_⟩
  · have mute (x : Lc44) (f : Tmu → Tmu) (b : Bool) :
        x.stepCalm (({ x with resetAsserted := b, straps := straps } : Lc44).onTmu f) :=
      ⟨sameCycle rfl, rfl, rfl, fun _ h _ => h, fun _ h => h, Or.inl⟩
    exact (((mute d _ _).trans (stepCalm_onPhc (fun p => { p with phop := .starting .load }) _)).trans
      (stepCalm_loadNext [] _)).stepOk (g.1 hu)
  · have hc : d.iport.cycle = none := (g.2 hv).hold (by simp [Lc44.holdLine, hr])
    exact ⟨tablesOk_of (d := d) rfl (fun _ => List.Sublist.refl _) (g.2 hv).tables, (g.2 hv).write, fun _ => hc,
      fun _ _ => rfl⟩

theorem lawsOk_lossReport (c : Carrier) (g : d.lawsOk u v) : (lossReport c d).lawsOk u v := by
  unfold lossReport
  split
  · exact lawsOk_arbitrate ((calm_takeRollbackCause _ _ d).lawsOk g)
  · exact g

theorem lawsOk_deliverTru {x : TruEvent} {f : Lc44 → Lc44} (hf : ∀ y : Lc44, y.lawsOk u v → (f y).lawsOk u v)
    (g : d.lawsOk u v) : (deliverTru x f d).lawsOk u v := by
  unfold deliverTru
  split
  · exact hf _ ((calm_of_keeps (keeps_takenTru _ d)).lawsOk g)
  · exact g

/-! ## The commands -/

theorem calm_restsOn (d : Lc44) : RestsOn [.iport, .mpc, .ccl, .ovu, .phc, .sli] (d.calm ·) := by
  intro x y hr _ same g
  have hsli : y.sli = x.sli := same .sli (by decide)
  exact g.trans (calm_of_same hr (same .iport (by decide)) (same .mpc (by decide)) (same .ccl (by decide))
    (same .ovu (by decide)) (same .phc (by decide)) (by rw [hsli]) (by rw [hsli]))

theorem calm_ownIdent (b : List Byte) (d : Lc44) : d.calm (ownIdent b d) := calm_answer .ok (identData d) d

theorem calm_ownStatus (b : List Byte) (d : Lc44) : d.calm (ownStatus b d) := calm_answerChain .ok (statusData d) d

theorem calm_ownReadLayout (b : List Byte) (d : Lc44) : d.calm (ownReadLayout b d) :=
  calm_answer .ok (layoutData d.rcu.layout) d

/-- A command that goes on beside the I-port cycle. -/
theorem calm_after_of {c : Instr} {f : Lc44 → Lc44} (hc : ∀ s, exec c s = s.effect f) (h : d.calm (f d)) :
    d.calm (d.after c) := after_of_keeps (P := (d.calm ·)) hc (fun _ => h) (calm_refl d)

/-- A request that its owner meets beside the I-port cycle. -/
theorem calm_requested {c : Instr} {r : Req} {owner : List Byte → Lc44 → Lc44} {body : List Byte}
    (hc : ∀ s, exec c s = s.effect (request r owner body)) (h : ∀ x : Lc44, x.calm (owner body x)) :
    d.calm (d.after c) := calm_after_of hc (calm_request (fun x _ => h x) d)

/-- A command after which the arbiter decides. -/
theorem after_arbitrated {c : Instr} {f : Lc44 → Lc44} (hc : ∀ s, exec c s = s.effect fun d => arbitrate (f d))
    (h : (f d).lawsOk u v) (g : d.lawsOk u v) : (d.after c).lawsOk u v :=
  after_of_keeps (P := (·.lawsOk u v)) hc (fun _ => lawsOk_arbitrate h) g

/-- A request that its owner meets beside the I-port cycle, and after which the arbiter decides. -/
theorem after_request {c : Instr} {r : Req} {owner : List Byte → Lc44 → Lc44} {body : List Byte}
    (hc : ∀ s, exec c s = s.effect fun d => arbitrate (request r owner body d))
    (h : ∀ x : Lc44, x.phc.phop.isStarting = false → x.calm (owner body x)) (g : d.lawsOk u v) :
    (d.after c).lawsOk u v := after_arbitrated hc ((calm_request h d).lawsOk g) g

theorem lawsOk_request {r : Req} {owner : List Byte → Lc44 → Lc44} {body : List Byte}
    (h : ∀ x : Lc44, x.lawsOk u v → (owner body x).lawsOk u v) (g : d.lawsOk u v) :
    (request r owner body d).lawsOk u v :=
  request_relates (R := (·.lawsOk u v)) (fun _ _ hk hon ha hx => (calm_of_sli hk hon ha).lawsOk hx)
    (fun x _ hx => h x hx) g

theorem lawsOk_ownWipe (b : List Byte) (g : d.lawsOk u v) : (ownWipe b d).lawsOk u v := by
  unfold ownWipe
  split
  · exact (calm_answer _ _ _).lawsOk (lawsOk_wipeEffect g)
  · exact (calm_answer _ _ _).lawsOk g

/-- A command that leaves the I-port, MPC, CCL, OVU and PHC alone leaves the mirror's settings too. -/
theorem calm_after {c : Instr} (h : leavesAlone [.iport, .mpc, .ccl, .ovu, .phc] c = true) (d : Lc44) :
    d.calm (d.after c) := by
  cases c with
  | resetAsserted | resetRelease _ _ _ | iPortCycle _ | memoryAnswer _ | memoryTimeout | heldWriteRelease | markConfirm
  | markAbort | trialTimerExpiry | truCaptureNotice _ | truStaleNotice _ | tick | commissioningSecond
  | refreshTimerExpiry | wipe _ | loadRegion _ | beginReq _ | setMirror _ | save _ | trialOpen _ | trialConfirm _
  | trialAbort _ | handover _ | loadRule _ | setTimes _ | overlayDiscard _ => cases h
  | badFrame code => exact calm_after_of (exec_badFrame code) (calm_takeBadFrame code d)
  | frameDiscarded => exact calm_after_of exec_frameDiscarded (calm_discardFrame d)
  | lineError => exact calm_after_of exec_lineError (calm_lineFailed d)
  | gapTimerExpiry => exact calm_after_of exec_gapTimerExpiry (calm_gapExpired d)
  | responseSent => exact calm_after_of exec_responseSent (calm_responseEnded d)
  | unknownRequest code body => exact calm_after_of (exec_unknownRequest code body) (calm_unknownTaken code body d)
  | byteReceived b => exact calm_after_of (exec_byteReceived b) (calm_receiveByte b d)
  | ident body => exact calm_requested (exec_ident body) (calm_ownIdent body)
  | status body => exact calm_requested (exec_status body) (calm_ownStatus body)
  | readLayout body => exact calm_requested (exec_readLayout body) (calm_ownReadLayout body)
  | readRegion body => exact calm_requested (exec_readRegion body) (calm_ownReadRegion body)
  | readRule body => exact calm_requested (exec_readRule body) (calm_ownReadRule body)
  | loadLayout body => exact calm_requested (exec_loadLayout body) (calm_ownLoadLayout body)
  | setCarrier body => exact calm_requested (exec_setCarrier body) (calm_ownSetCarrier body)
  | readCarrier body => exact calm_requested (exec_readCarrier body) (calm_ownReadCarrier body)
  | peakReset body => exact calm_requested (exec_peakReset body) (calm_ownPeakReset body)
  | clearCapture body => exact calm_requested (exec_clearCapture body) (calm_ownClearCapture body)
  | setGroups body => exact calm_requested (exec_setGroups body) (calm_ownSetGroups body)
  | setTone body => exact calm_requested (exec_setTone body) (calm_ownSetTone body)
  | muteRelease body => exact calm_requested (exec_muteRelease body) (calm_ownMuteRelease body)
  | trialExtend body => exact calm_requested (exec_trialExtend body) (calm_ownTrialExtend body)
  | readTrial body => exact calm_requested (exec_readTrial body) (calm_ownReadTrial body)
  | readOverlay body => exact calm_requested (exec_readOverlay body) (calm_ownReadOverlay body)
  | loadStep body => exact calm_requested (exec_loadStep body) (calm_ownLoadStep body)
  | readStep body => exact calm_requested (exec_readStep body) (calm_ownReadStep body)
  | runStart body => exact calm_requested (exec_runStart body) (calm_ownRunStart body)
  | runAbort body => exact calm_requested (exec_runAbort body) (calm_ownRunAbort body)
  | readLog body => exact calm_requested (exec_readLog body) (calm_ownReadLog body)
  | logClear body => exact calm_requested (exec_logClear body) (calm_ownLogClear body)
  | _ => exact (calm_restsOn d).elsewhere (by rfl) (calm_refl d)

/-- Every command keeps both laws. -/
theorem after_lawsOk (c : Instr) (d : Lc44) (g : d.lawsOk u v) : (d.after c).lawsOk u v := by
  cases c with
  | resetAsserted =>
    rw [after_resetAsserted]
    exact lawsOk_inReset u v _
  | resetRelease psel commission depol =>
    rw [after_resetRelease]
    split
    next hr => exact lawsOk_release _ g hr
    next => exact g
  | iPortCycle x =>
    refine after_of_keeps (exec_iPortCycle x) (fun hr => ?_) g
    split
    · exact g
    next hc => exact lawsOk_arbitrate (lawsOk_takeCycle x g (by simpa using hc) hr)
  | memoryAnswer a =>
    refine after_of_keeps (exec_memoryAnswer a) (fun _ => ?_) g
    cases a with
    | ok w => exact lawsOk_memoryEnd _ g
    | fault => exact lawsOk_memoryEnd _ g
  | memoryTimeout => exact after_of_keeps exec_memoryTimeout (fun _ => lawsOk_memoryEnd _ g) g
  | heldWriteRelease => exact after_arbitrated exec_heldWriteRelease (lawsOk_releaseHeld g) g
  | markConfirm =>
    have taken := calm_of_keeps (keeps_takenTru .confirm d)
    refine after_of_keeps exec_markConfirm (fun _ => ?_) g
    dsimp only
    split
    · exact lawsOk_arbitrate ((taken.trans (calm_beginClosing _ _)).lawsOk g)
    · exact (taken.trans (calm_of_keeps (keeps_ignoreMark _))).lawsOk g
  | markAbort =>
    have taken := calm_of_keeps (keeps_takenTru .abort d)
    refine after_of_keeps exec_markAbort (fun _ => ?_) g
    dsimp only
    split
    · exact lawsOk_arbitrate ((taken.trans (calm_takeRollbackCause _ _ _)).lawsOk g)
    · exact (taken.trans (calm_of_keeps (keeps_ignoreMark _))).lawsOk g
  | trialTimerExpiry =>
    refine after_of_keeps exec_trialTimerExpiry (fun _ => ?_) g
    split
    · exact g
    · split
      · exact lawsOk_arbitrate ((calm_takeRollbackCause _ _ d).lawsOk g)
      · split
        · exact (calm_onTru _ d).lawsOk g
        · exact g
  | truCaptureNotice n =>
    refine after_of_keeps (exec_truCaptureNotice n) (fun _ => lawsOk_deliverTru (fun y gy => ?_) g) g
    split
    · exact lawsOk_lossReport _ gy
    · exact gy
  | truStaleNotice k =>
    exact after_of_keeps (exec_truStaleNotice k) (fun _ => lawsOk_deliverTru (fun y gy => lawsOk_lossReport k gy) g) g
  | tick => exact (calm_after_of exec_tick (calm_tickAll d)).lawsOk g
  | commissioningSecond =>
    refine (calm_after_of exec_commissioningSecond ?_).lawsOk g
    split
    · exact calm_tickAll d
    · exact calm_refl d
  | refreshTimerExpiry => exact after_arbitrated exec_refreshTimerExpiry ((calm_refreshExpired d).lawsOk g) g
  | wipe body =>
    exact after_of_keeps (exec_wipe body) (fun _ => lawsOk_request (fun _ => lawsOk_ownWipe body) g) g
  | loadRegion body =>
    exact after_of_keeps (exec_loadRegion body) (fun _ => lawsOk_request (fun _ => lawsOk_ownLoadRegion body) g) g
  | beginReq body => exact after_request (exec_beginReq body) (fun x _ => calm_ownBegin body x) g
  | setMirror body => exact after_request (exec_setMirror body) (fun x _ => calm_ownSetMirror body x) g
  | save body => exact after_request (exec_save body) (fun x _ => calm_ownSave body x) g
  | trialOpen body => exact after_request (exec_trialOpen body) (fun x _ => calm_ownTrialOpen body x) g
  | trialConfirm body => exact after_request (exec_trialConfirm body) (fun x _ => calm_ownTrialConfirm body x) g
  | trialAbort body => exact after_request (exec_trialAbort body) (fun x _ => calm_ownTrialAbort body x) g
  | handover body => exact after_request (exec_handover body) (fun _ => calm_ownHandover body) g
  | loadRule body => exact (calm_requested (exec_loadRule body) (calm_ownLoadRule body)).lawsOk g
  | setTimes body => exact (calm_requested (exec_setTimes body) (calm_ownSetTimes body)).lawsOk g
  | overlayDiscard body => exact (calm_requested (exec_overlayDiscard body) (calm_ownOverlayDiscard body)).lawsOk g
  | _ => exact (calm_after (by rfl) d).lawsOk g

/-- Settles O30: every command keeps the law of the maps, and so does every step. -/
theorem presenceFlagsBelongToTheirEntry : Obligations.PresenceFlagsBelongToTheirEntry := by
  intro s t g h
  rw [mapLaw_iff] at g ⊢
  have law (x : Lc44) : x.lawsOk False True ↔ x.mapOk := ⟨fun hx => hx.2 trivial, fun hx => ⟨nofun, fun _ => hx⟩⟩
  exact (law _).mp (step_keeps after_lawsOk ((law _).mpr g) h)

end

end Sys2Proof.Machine
end

