-- ==== Sys2Proof/Proofs/ArbiterSettles.lean ====
section
/-! SUPPORT. The arbiter leaves no request waiting at a free port, and no command brings one about (R29, R30). -/

namespace Sys2Proof.Machine

set_option Elab.async false

section
variable {d : Lc44}

/-! ## The arbiter -/

/-- A client other than FWD that waits is presented: the port is busy. -/
theorem settled_grantTo {x : Client} (hx : x ≠ .fwd) (hw : d.mpc.waits x) : (grantTo x d).mpc.settled = true := by
  have busy (x : Client) (r : MRequest) (e : Lc44) : (present x r e).mpc.settled = true := settled_of_busy _ rfl
  cases x with
  | fwd => exact absurd rfl hx
  | rst =>
    unfold grantTo
    dsimp only
    split
    next h => exact absurd h hw
    next => exact busy _ _ _
  | int =>
    unfold grantTo
    dsimp only
    split
    next h => exact absurd h hw
    next => exact busy _ _ _
  | mir =>
    unfold grantTo
    dsimp only
    split
    next h => exact absurd h hw
    next => exact busy _ _ _

theorem fwdWaiting_answerCycle (a : IAnswer) (h : d.mpc.fwdWaiting = false) :
    (answerCycle a d).mpc.fwdWaiting = false := by
  have answered : (d.answered a).mpc.fwdWaiting = false :=
    (congrArg Mpc.fwdWaiting (keeps_mpc (keeps_syncCcl _))).trans h
  have follows : (d.answered a).calm
      (if d.iport.inFlight then sequenceAnswered (d.answered a) else d.answered a) := by
    split
    · exact calm_sequenceAnswered _
    · exact calm_refl _
  exact (follows.trans (calm_foldReleased _)).waiting.trans answered

/-- FWD, presented or ended at once by the lock pass, does not wait again (R28, R51). -/
theorem fwdWaiting_presentStage (h : d.mpc.fwdWaiting = false) : (presentStage d).mpc.fwdWaiting = false := by
  unfold presentStage
  split
  · exact h
  · split
    · exact h
    · exact h
    · exact h
    · exact h
    · exact h
    next q _ =>
      have counted (l : List (Fin 64)) : (countHits l d).mpc.fwdWaiting = false :=
        (calm_of_keeps (keeps_countHits l d)).waiting.trans h
      unfold presentGuarded
      dsimp only
      split
      · exact fwdWaiting_answerCycle _ ((calm_countFault _ _).waiting.trans (counted _))
      · exact counted (lockPass d.txmute q).hits

/-- One decision settles the port, or FWD's grant has ended at once. -/
theorem settled_or_arbitrateOnce (d : Lc44) :
    (arbitrateOnce d).mpc.settled = true ∨ (arbitrateOnce d).mpc.fwdWaiting = false := by
  unfold arbitrateOnce
  split
  next =>
    split
    next hc => exact Or.inl (settled_of_choice_none hc)
    next x hx =>
      by_cases hfwd : x = .fwd
      · subst hfwd
        exact Or.inr (fwdWaiting_presentStage rfl)
      · exact Or.inl (settled_grantTo hfwd (waits_of_choice hx))
  next hbusy => exact Or.inl (settled_of_busy _ (Bool.eq_false_iff.mpr hbusy))

/-- Where FWD does not wait one decision settles the port. -/
theorem settled_arbitrateOnce (h : d.mpc.fwdWaiting = false) : (arbitrateOnce d).mpc.settled = true := by
  unfold arbitrateOnce
  split
  next =>
    split
    next hc => exact settled_of_choice_none hc
    next x hx => exact settled_grantTo (fun hfwd => choice_ne_fwd h (hfwd ▸ hx)) (waits_of_choice hx)
  next hbusy => exact settled_of_busy _ (Bool.eq_false_iff.mpr hbusy)

/-- The arbiter leaves no request waiting at a free port. -/
theorem settled_arbitrate (d : Lc44) : (arbitrate d).mpc.settled = true := by
  rcases settled_or_arbitrateOnce d with h | h
  · unfold arbitrate
    rw [arbitrateOnce_of_settled _ h]
    exact h
  · exact settled_arbitrateOnce h

theorem settled_memoryEnd (e : MEnd) (g : d.mpc.settled = true) : (memoryEnd e d).mpc.settled = true := by
  unfold memoryEnd
  split
  · exact g
  · exact settled_arbitrate _

/-- WIPE drops the mirror's request, and leaves the others as they are. -/
theorem settled_commonReset (next : Nat) (g : d.mpc.settled = true) : (commonReset next d).mpc.settled = true := by
  have hmpc := congrArg Lc44.mpc (commonReset_eq next d)
  rw [hmpc]
  cases hf : d.mpc.free with
  | false => exact settled_of_busy _ hf
  | true =>
    have hc : d.mpc.choice = none := by simpa [Mpc.settled, hf] using g
    obtain ⟨hfwd, hrst, hint, _⟩ := (choice_eq_none_iff _).mp hc
    exact settled_of_choice_none ((choice_eq_none_iff _).mpr ⟨hfwd, hrst, hint, rfl⟩)

theorem settled_restsOn : RestsOn [.mpc] fun x => x.mpc.settled = true := by
  intro x y _ _ same g
  rw [show y.mpc = x.mpc from same .mpc (by decide)]
  exact g

theorem settled_ownWipe (b : List Byte) (g : d.mpc.settled = true) : (ownWipe b d).mpc.settled = true := by
  have answered (s : Status) (x : Lc44) (gx : x.mpc.settled = true) : (answer s [] x).mpc.settled = true :=
    settled_restsOn.of_keeps (keeps_answer s [] x) gx
  unfold ownWipe
  split
  · refine answered _ _ ?_
    have common := settled_commonReset d.acu.nextSequence g
    have phased := settled_restsOn.of_keeps (keeps_setPhase .transparent _) common
    exact settled_restsOn.of_keeps (keeps_raiseTmu _ _) (settled_restsOn.of_keeps (keeps_raiseTmu _ _) phased)
  · exact answered _ _ g

theorem settled_ownSetTimes (b : List Byte) (g : d.mpc.settled = true) : (ownSetTimes b d).mpc.settled = true := by
  unfold ownSetTimes
  dsimp only
  split
  · refine settled_restsOn.of_keeps (keeps_answer _ _ _) ?_
    exact settled_restsOn.of_keeps (d := d.onMpc fun m => { m with timeout := byteAt b 0 })
      (keeps_trans (l := [.tmu, .rcu, .raised]) (keeps_onTmu _ _) (keeps_setReportTimes _ _ _)) g
  · exact settled_restsOn.of_keeps (keeps_answer _ _ _) g

theorem settled_request {r : Req} {owner : List Byte → Lc44 → Lc44} {body : List Byte}
    (h : ∀ x : Lc44, x.mpc.settled = true → (owner body x).mpc.settled = true) (g : d.mpc.settled = true) :
    (request r owner body d).mpc.settled = true :=
  request_relates (R := fun x => x.mpc.settled = true) (fun _ _ hk _ _ hx => settled_restsOn.of_keeps hk hx)
    (fun x _ hx => h x hx) g

theorem settled_lossReport (c : Carrier) (g : d.mpc.settled = true) : (lossReport c d).mpc.settled = true := by
  unfold lossReport
  split
  · exact settled_arbitrate _
  · exact g

theorem settled_deliverTru {x : TruEvent} {f : Lc44 → Lc44}
    (hf : ∀ y : Lc44, y.mpc.settled = true → (f y).mpc.settled = true) (g : d.mpc.settled = true) :
    (deliverTru x f d).mpc.settled = true := by
  unfold deliverTru
  split
  · exact hf _ (settled_restsOn.of_keeps (keeps_takenTru _ d) g)
  · exact g

/-- A command that ends with the arbiter's decision. -/
theorem settled_after_arbitrated {c : Instr} {f : Lc44 → Lc44}
    (hc : ∀ s, exec c s = s.effect fun d => arbitrate (f d)) (g : d.mpc.settled = true) :
    (d.after c).mpc.settled = true :=
  after_of_keeps (P := fun x => x.mpc.settled = true) hc (fun _ => settled_arbitrate _) g

/-- Every command leaves the port settled. -/
theorem after_settled (c : Instr) (d : Lc44) (g : d.mpc.settled = true) : (d.after c).mpc.settled = true := by
  have keeps {c : Instr} {f : Lc44 → Lc44} (hc : ∀ s, exec c s = s.effect f) (h : (f d).mpc.settled = true) :
      (d.after c).mpc.settled = true := after_of_keeps (P := fun x => x.mpc.settled = true) hc (fun _ => h) g
  cases c with
  | resetAsserted => exact lawsHoldAtReset.1
  | resetRelease psel commission depol =>
    rw [after_resetRelease]
    split
    · exact settled_arbitrate _
    · exact g
  | iPortCycle x =>
    refine keeps (exec_iPortCycle x) ?_
    split
    · exact g
    · exact settled_arbitrate _
  | memoryAnswer a =>
    refine keeps (exec_memoryAnswer a) ?_
    cases a with
    | ok w => exact settled_memoryEnd _ g
    | fault => exact settled_memoryEnd _ g
  | memoryTimeout => exact keeps exec_memoryTimeout (settled_memoryEnd _ g)
  | heldWriteRelease => exact settled_after_arbitrated exec_heldWriteRelease g
  | markConfirm =>
    have taken := settled_restsOn.of_keeps (keeps_takenTru .confirm d) g
    refine keeps exec_markConfirm ?_
    dsimp only
    split
    · exact settled_arbitrate _
    · exact settled_restsOn.of_keeps (keeps_ignoreMark _) taken
  | markAbort =>
    have taken := settled_restsOn.of_keeps (keeps_takenTru .abort d) g
    refine keeps exec_markAbort ?_
    dsimp only
    split
    · exact settled_arbitrate _
    · exact settled_restsOn.of_keeps (keeps_ignoreMark _) taken
  | trialTimerExpiry =>
    refine keeps exec_trialTimerExpiry ?_
    split
    · exact g
    · split
      · exact settled_arbitrate _
      · split
        · exact g
        · exact g
  | truCaptureNotice n =>
    refine keeps (exec_truCaptureNotice n) (settled_deliverTru (fun y gy => ?_) g)
    split
    · exact settled_lossReport _ gy
    · exact gy
  | truStaleNotice k => exact keeps (exec_truStaleNotice k) (settled_deliverTru (fun _ => settled_lossReport k) g)
  | refreshTimerExpiry => exact settled_after_arbitrated exec_refreshTimerExpiry g
  | wipe body => exact keeps (exec_wipe body) (settled_request (fun _ => settled_ownWipe body) g)
  | setTimes body => exact keeps (exec_setTimes body) (settled_request (fun _ => settled_ownSetTimes body) g)
  | beginReq body => exact settled_after_arbitrated (exec_beginReq body) g
  | save body => exact settled_after_arbitrated (exec_save body) g
  | handover body => exact settled_after_arbitrated (exec_handover body) g
  | setMirror body => exact settled_after_arbitrated (exec_setMirror body) g
  | trialOpen body => exact settled_after_arbitrated (exec_trialOpen body) g
  | trialConfirm body => exact settled_after_arbitrated (exec_trialConfirm body) g
  | trialAbort body => exact settled_after_arbitrated (exec_trialAbort body) g
  | _ => exact settled_restsOn.elsewhere (by rfl) g

end

/-- Settles O12: every command leaves the port settled and keeps the I-port in step, and so does every step. -/
theorem portAndIPortStayInStep : Obligations.PortAndIPortStayInStep := by
  refine ⟨fun s t g h => step_keeps (P := fun d => d.mpc.settled = true) after_settled g h, fun s t g h => ?_⟩
  rw [stepLaw_iff] at g ⊢
  have law (d : Lc44) : d.lawsOk True False ↔ d.stepOk := ⟨fun hd => hd.1 trivial, fun hd => ⟨fun _ => hd, nofun⟩⟩
  exact (law _).mp (step_keeps after_lawsOk ((law _).mpr g) h)

end Sys2Proof.Machine
end

