-- ==== Sys2Proof/Proofs/LogLaw.lean ====
section
/-! SUPPORT. The acceptance log (R143, R144, R152, R159, R162): a run in progress has room in the log and filled slots for
every step it can still reach, so each record it appends leaves at most 64 of them, numbered one after another. -/

namespace Sys2Proof.Machine

set_option Elab.async false

/-! ## The books of ACU: plan, log and next sequence -/

/-- The plan has at most 32 steps, and the log at most 64 records, consecutive and followed by the next sequence. -/
def Acu.booksOk (a : Acu) : Prop :=
  a.planLength ≤ 32 ∧ a.log.length ≤ 64 ∧ consecutive a.log = true ∧ endsBefore a.log a.nextSequence = true

/-- From step `i` the plan is filled to its length, and the log has room for a record of each step. -/
def Acu.reaches (i : Nat) (a : Acu) : Prop :=
  i < a.planLength ∧ a.log.length + (a.planLength - i) ≤ 64 ∧ ∀ j, i ≤ j → j < a.planLength → ∃ p, a.stepAt j = some p

/-- The law of ACU: its books and its run. -/
def Acu.lawful (a : Acu) : Prop := a.booksOk ∧ a.runLaw

/-- Plan, log and next sequence are the same. -/
def Acu.sameBooks (a b : Acu) : Prop :=
  b.planLength = a.planLength ∧ b.plan = a.plan ∧ b.log = a.log ∧ b.nextSequence = a.nextSequence

/-- What an operation of ACU keeps: its law, and that no run is in progress. -/
structure Acu.moves (a b : Acu) : Prop where
  lawful : a.lawful → b.lawful
  idle : a.runState = .idle → b.runState = .idle

section
variable {a b c : Acu} {i : Nat}

theorem Acu.moves.refl (a : Acu) : a.moves a := ⟨id, id⟩

theorem Acu.moves.trans (h : a.moves b) (k : b.moves c) : a.moves c :=
  ⟨fun g => k.lawful (h.lawful g), fun g => k.idle (h.idle g)⟩

theorem Acu.sameBooks.booksOk (h : a.sameBooks b) (g : a.booksOk) : b.booksOk := by
  obtain ⟨hlength, _, hlog, hnext⟩ := h
  unfold Acu.booksOk
  rw [hlength, hlog, hnext]
  exact g

theorem Acu.sameBooks.reaches (h : a.sameBooks b) (g : a.reaches i) : b.reaches i := by
  obtain ⟨hlength, hplan, hlog, _⟩ := h
  unfold Acu.reaches Acu.stepAt
  rw [hlength, hlog, hplan]
  exact g

/-- A run in progress has a current step whose reach is provided for. -/
theorem Acu.lawful.run (h : a.lawful) (hr : a.runState ≠ .idle) : ∃ i, a.current = some i ∧ a.reaches i := h.2 hr

theorem lawful_of_run (hb : a.booksOk) (hc : a.current = some i) (hi : a.reaches i) : a.lawful :=
  ⟨hb, fun _ => ⟨i, hc, hi⟩⟩

theorem lawful_of_idle (hb : a.booksOk) (h : a.runState = .idle) : a.lawful := ⟨hb, fun hr => absurd h hr⟩

/-- With the same books, and no run but the one in progress, the law goes on. -/
theorem Acu.sameBooks.moves (h : a.sameBooks b) (hr : a.runState = .idle → b.runState = .idle)
    (hc : b.current = a.current) : a.moves b := by
  refine ⟨fun g => ?_, hr⟩
  by_cases ha : a.runState = .idle
  · exact lawful_of_idle (h.booksOk g.1) (hr ha)
  · obtain ⟨i, hi, hreach⟩ := g.run ha
    exact lawful_of_run (h.booksOk g.1) (hc.trans hi) (h.reaches hreach)

/-! ## The end of a step -/

theorem consecutive_append {l : List LogRecord} {r : LogRecord} (h : consecutive l = true)
    (hr : endsBefore l r.sequence = true) : consecutive (l ++ [r]) = true := by
  induction l with
  | nil => rfl
  | cons x l ih =>
    cases l with
    | nil => simpa [consecutive, endsBefore] using hr
    | cons y l =>
      simp only [consecutive, Bool.and_eq_true, List.cons_append] at h ⊢
      exact ⟨h.1, ih h.2 (by simpa [endsBefore] using hr)⟩

theorem endsBefore_append (l : List LogRecord) (r : LogRecord) : endsBefore (l ++ [r]) (r.sequence + 1) = true := by
  simp [endsBefore]

/-- The record of a step's end finds room, and the next sequence. -/
theorem booksOk_logStep (e : StepEnd) (p : Option PlanStep) (hb : a.booksOk) (hi : a.reaches i) :
    (a.logStep e p).booksOk := by
  obtain ⟨hlength, _, hcons, hends⟩ := hb
  obtain ⟨hlt, hroom, _⟩ := hi
  refine ⟨hlength, ?_, consecutive_append hcons hends, endsBefore_append _ _⟩
  show (a.log ++ [_]).length ≤ 64
  rw [List.length_append, List.length_singleton]
  omega

/-- With the record of step `i` the next step is provided for. -/
theorem reaches_logStep (e : StepEnd) (p : Option PlanStep) (hi : a.reaches i) (hlt : i + 1 < a.planLength) :
    (a.logStep e p).reaches (i + 1) := by
  obtain ⟨_, hroom, hfilled⟩ := hi
  refine ⟨hlt, ?_, fun j hj => hfilled j (Nat.le_of_succ_le hj)⟩
  show (a.log ++ [_]).length + (a.planLength - (i + 1)) ≤ 64
  rw [List.length_append, List.length_singleton]
  omega

/-- The run goes on to the next step, below the plan's length. -/
theorem step_of_goesOn {o : StepOutcome} {j : Nat} (h : a.runNext o = .goesOn j) (hc : a.current = some i) :
    j = i + 1 ∧ i + 1 < a.planLength := by
  unfold Acu.runNext at h
  rw [hc] at h
  split at h
  · cases h
  · split at h
    · cases h
    · split at h
      · cases h
      next hlt => exact ⟨(RunNext.goesOn.inj h).symm, Nat.lt_of_not_le hlt⟩

end

/-! ## The beginning of a step -/

section
variable {d : Lc44} {i : Nat}

theorem sameBooks_enterSettling (p : PlanStep) (d : Lc44) :
    d.acu.sameBooks (enterSettling p d).1.acu ∧ (enterSettling p d).1.acu.current = d.acu.current ∧
      ((enterSettling p d).2 ≠ none → (enterSettling p d).1.acu.runState = d.acu.runState) := by
  unfold enterSettling
  dsimp only
  split
  · refine ⟨?_, ?_, fun h => absurd rfl h⟩
    all_goals
      simp only [Lc44.onAcu]
      split
    · exact ⟨rfl, rfl, rfl, rfl⟩
    · exact ⟨rfl, rfl, rfl, rfl⟩
    · rfl
    · rfl
  · simp only [Lc44.onAcu, foldl_markStale]
    exact ⟨⟨rfl, rfl, rfl, rfl⟩, trivial, fun _ => trivial⟩

theorem sameBooks_openStep (i : Nat) (p : PlanStep) (d : Lc44) :
    d.acu.sameBooks (openStep i p d).1.acu ∧ (openStep i p d).1.acu.current = some i := by
  unfold openStep
  dsimp only
  split
  · exact ⟨⟨rfl, rfl, rfl, rfl⟩, rfl⟩
  · split
    · exact ⟨⟨rfl, rfl, rfl, rfl⟩, rfl⟩
    · obtain ⟨hbooks, hcurrent, _⟩ := sameBooks_enterSettling p
        (d.onAcu fun a => { a with current := some i, aggregates := clearedFor p.mask, measured := 0 })
      exact ⟨hbooks, hcurrent⟩

/-- A step begins within the reach of a run, with fuel for the steps left. -/
theorem lawful_beginStep (fuel : Nat) (hb : d.acu.booksOk) (hi : d.acu.reaches i) (hf : d.acu.planLength - i ≤ fuel) :
    (beginStep fuel i d).acu.lawful := by
  induction fuel generalizing i d with
  | zero => exact absurd hi.1 (by omega)
  | succ k ih =>
    obtain ⟨p, hp⟩ := hi.2.2 i (Nat.le_refl i) hi.1
    obtain ⟨hbooks, hcurrent⟩ := sameBooks_openStep i p d
    have hbe := hbooks.booksOk hb
    have hie := hbooks.reaches hi
    have hfe : (openStep i p d).1.acu.planLength - i ≤ k + 1 := by rw [hbooks.1]; exact hf
    simp only [beginStep, hp]
    generalize openStep i p d = r at *
    obtain ⟨e, ended⟩ := r
    cases ended with
    | none => exact lawful_of_run hbe hcurrent hie
    | some x =>
      dsimp only
      split
      · exact lawful_of_idle (booksOk_logStep x none hbe hie) rfl
      next j hj =>
        obtain ⟨rfl, hlt⟩ := step_of_goesOn hj hcurrent
        refine ih (booksOk_logStep x none hbe hie) (reaches_logStep x none hie hlt) ?_
        show e.acu.planLength - (i + 1) ≤ k
        dsimp only at hfe
        omega

/-- The end of the current step of a run. -/
theorem lawful_endStep (e : StepEnd) (p : Option PlanStep) (hb : d.acu.booksOk) (hc : d.acu.current = some i)
    (hi : d.acu.reaches i) : (endStep e p d).acu.lawful := by
  have hbe := booksOk_logStep e p hb hi
  unfold endStep
  dsimp only
  split
  · exact lawful_of_idle hbe rfl
  next j hj =>
    obtain ⟨rfl, hlt⟩ := step_of_goesOn hj hc
    refine lawful_beginStep _ hbe (reaches_logStep e p hi hlt) ?_
    have hlength := hbe.1
    show (d.acu.logStep e p).planLength - (i + 1) ≤ 32
    omega

/-- A step that ends while a run is in progress keeps the law. -/
theorem moves_endStep (e : StepEnd) (p : Option PlanStep) (hr : d.acu.runState ≠ .idle) :
    d.acu.moves (endStep e p d).acu := by
  refine ⟨fun g => ?_, fun h => absurd h hr⟩
  obtain ⟨i, hc, hi⟩ := g.run hr
  exact lawful_endStep e p g.1 hc hi

/-! ## The events of ACU -/

theorem moves_onAcu (f : Acu → Acu) (d : Lc44) (h : d.acu.sameBooks (f d.acu) := by exact ⟨rfl, rfl, rfl, rfl⟩)
    (hr : (f d.acu).runState = d.acu.runState := by rfl) (hc : (f d.acu).current = d.acu.current := by rfl) :
    d.acu.moves (d.onAcu f).acu := h.moves (fun hi => hr.trans hi) hc

theorem moves_takeStep (d : Lc44) : d.acu.moves (takeStep d).acu := by
  unfold takeStep
  split
  next p harmed _ =>
    have hr : d.acu.runState ≠ .idle := by simp [harmed]
    split
    · exact moves_endStep _ _ hr
    · obtain ⟨hbooks, hcurrent, hrun⟩ := sameBooks_enterSettling p (d.onAcu fun a => { a with timer := none })
      generalize enterSettling p (d.onAcu fun a => { a with timer := none }) = r at *
      obtain ⟨e, ended⟩ := r
      have entered : d.acu.moves e.acu := Acu.sameBooks.moves hbooks (fun h => absurd h hr) hcurrent
      cases ended with
      | none => exact entered
      | some x => exact entered.trans (moves_endStep _ _ (by rw [hrun (by simp)]; exact hr))
  next => exact moves_onAcu _ d

theorem moves_takeAcuCapture (n : CaptureNotice) (d : Lc44) : d.acu.moves (takeAcuCapture n d).acu := by
  unfold takeAcuCapture
  split
  · exact moves_onAcu _ d
  · exact .refl _

theorem not_idle_of_settled {a : Acu} (h : a.settled = true) : a.runState ≠ .idle := by
  rcases settled_iff.mp h with h | h <;> simp [h]

theorem moves_takeAcuStale (k : Carrier) (d : Lc44) : d.acu.moves (takeAcuStale k d).acu := by
  unfold takeAcuStale
  split
  next h =>
    have hr := not_idle_of_settled (Bool.and_eq_true_iff.mp h).1
    exact (moves_onAcu (Acu.markStale k) d).trans (moves_endStep _ _ hr)
  next => exact .refl _

theorem moves_takeMute (d : Lc44) : d.acu.moves (takeMute d).acu := by
  unfold takeMute
  split
  · exact .refl _
  · split
    next h => exact moves_endStep _ _ (not_idle_of_settled (Bool.and_eq_true_iff.mp h).1)
    next => exact .refl _

theorem moves_takeRollback (d : Lc44) : d.acu.moves (takeRollback d).acu := by
  unfold takeRollback
  dsimp only
  refine Acu.moves.trans ?_ (moves_onAcu _ _)
  split
  · exact .refl _
  next hr => exact moves_endStep _ _ hr

theorem moves_armExpired (d : Lc44) : d.acu.moves (armExpired d).acu := by
  unfold armExpired
  split
  next h => exact moves_endStep _ _ (by simp [h.1])
  next => exact .refl _

theorem moves_settleExpired (d : Lc44) : d.acu.moves (settleExpired d).acu := by
  unfold settleExpired
  split
  next hsettling _ =>
    split
    · exact Acu.sameBooks.moves ⟨rfl, rfl, rfl, rfl⟩ (fun h => by simp [hsettling] at h) rfl
    · exact .refl _
  next => exact .refl _

theorem moves_measureExpired (d : Lc44) : d.acu.moves (measureExpired d).acu := by
  unfold measureExpired
  split
  next p hmeasuring _ =>
    split
    · exact (moves_onAcu (fun a => { a with measured := p.measure * 1000 }) d).trans
        (moves_endStep _ _ (by simp [Lc44.onAcu, hmeasuring]))
    · exact .refl _
  next => exact .refl _

theorem moves_deliverAcu {x : AcuEvent} {f : Lc44 → Lc44} (hf : ∀ y : Lc44, y.acu.moves (f y).acu) (d : Lc44) :
    d.acu.moves (deliverAcu x f d).acu := by
  unfold deliverAcu
  split
  · exact hf (takenAcu x d)
  · exact .refl _

theorem moves_tickAll (d : Lc44) : d.acu.moves (tickAll d).acu := by
  rw [tickAll_eq]
  exact Acu.sameBooks.moves ⟨rfl, rfl, rfl, rfl⟩ id rfl

/-! ## The requests of ACU -/

/-- An operation that leaves ACU alone. -/
theorem moves_of_keeps {l : List Block} {e : Lc44} (h : d.keepsOutside l e) (hl : Block.acu ∉ l := by decide) :
    d.acu.moves e.acu := by
  rw [keeps_acu h hl]
  exact .refl _

theorem moves_answer (s : Status) (data : List Byte) (d : Lc44) : d.acu.moves (answer s data d).acu :=
  moves_of_keeps (keeps_answer s data d)

/-- The answer after a change of ACU. -/
theorem moves_then_answer {e : Lc44} (s : Status) (data : List Byte) (h : d.acu.moves e.acu) :
    d.acu.moves (answer s data e).acu := h.trans (moves_answer s data e)

/-- With no run in progress a change that leaves none keeps the law when it keeps the books good. -/
theorem moves_of_idle {a b : Acu} (hr' : b.runState = .idle)
    (hb : a.booksOk → b.booksOk) : a.moves b :=
  ⟨fun g => lawful_of_idle (hb g.1) hr', fun _ => hr'⟩

theorem moves_ownLoadStep (b : List Byte) (d : Lc44) : d.acu.moves (ownLoadStep b d).acu := by
  unfold ownLoadStep
  split
  · exact moves_answer _ _ _
  next hr =>
    split
    · split
      · exact moves_answer _ _ _
      next p hp =>
        refine moves_then_answer _ _ (moves_of_idle (not_not.mp hr) fun hb => ?_)
        have hlength : within 1 32 (byteAt b 1) = true := by
          unfold checkStepBody at hp
          split at hp
          next h => exact (Bool.and_eq_true_iff.mp h).1
          next => cases hp
        simp only [within, Bool.and_eq_true, decide_eq_true_eq] at hlength
        exact ⟨hlength.2, hb.2⟩
    · exact moves_answer _ _ _

theorem moves_ownLogClear (b : List Byte) (d : Lc44) : d.acu.moves (ownLogClear b d).acu := by
  unfold ownLogClear
  split
  · exact moves_answer _ _ _
  next hr =>
    refine moves_then_answer _ _ (moves_of_idle (not_not.mp hr) fun hb => ?_)
    exact ⟨hb.1, Nat.zero_le _, rfl, rfl⟩

theorem moves_ownRunAbort (b : List Byte) (d : Lc44) : d.acu.moves (ownRunAbort b d).acu := by
  unfold ownRunAbort
  split
  · exact moves_answer _ _ _
  next hr => exact moves_then_answer _ _ (moves_endStep _ _ hr)

/-- The conditions of RUN-START provide for the run's reach. -/
theorem reaches_of_ready {f : Nat} (h : ¬ (d.acu.planLength ≤ f ∨ 32 ≤ f ∨ (!stepsReady f d) = true))
    (hfits : d.acu.runFits f = true) : d.acu.reaches f := by
  simp only [not_or, Nat.not_le, Bool.not_eq_true', Bool.not_eq_false] at h
  obtain ⟨hlt, _, hready⟩ := h
  simp only [Acu.runFits, Bool.and_eq_true, decide_eq_true_eq] at hfits
  refine ⟨hlt, hfits.1, fun j hj hlj => ?_⟩
  have hstep := List.all_eq_true.mp hready (j - f) (List.mem_range.mpr (Nat.sub_lt_sub_right hj hlj))
  rw [Nat.add_sub_cancel' hj] at hstep
  cases hp : d.acu.stepAt j with
  | none => simp [hp] at hstep
  | some p => exact ⟨p, rfl⟩

/-- RUN-START takes only a step whose reach is provided for (R143). -/
theorem lawful_ownRunStart (b : List Byte) (g : d.acu.lawful) : (ownRunStart b d).acu.lawful := by
  unfold ownRunStart
  dsimp only
  split
  · exact (moves_answer _ _ _).lawful g
  · split
    · exact (moves_answer _ _ _).lawful g
    next hready =>
      split
      · exact (moves_answer _ _ _).lawful g
      next hfits =>
        have hreach := reaches_of_ready hready (by simpa using hfits)
        refine (moves_answer _ _ _).lawful (lawful_beginStep _ g.1 hreach ?_)
        have hlength := g.1.1
        show d.acu.planLength - byteAt b 0 ≤ 32
        omega

/-! ## BEGIN, WIPE and LOAD -/

theorem moves_commonReset (next : Nat) (d : Lc44) : d.acu.moves (commonReset next d).acu := by
  rw [commonReset_acu]
  have hb : ({ Acu.reset with nextSequence := next } : Acu).booksOk := ⟨Nat.zero_le _, Nat.zero_le _, rfl, rfl⟩
  exact ⟨fun _ => lawful_of_idle hb rfl, fun _ => rfl⟩

theorem moves_beginEffect (d : Lc44) : d.acu.moves (beginEffect d).acu :=
  ((moves_commonReset 1 d).trans (moves_of_keeps (keeps_onPhc _ _))).trans (moves_of_keeps (keeps_setPhase _ _))

theorem moves_wipeEffect (d : Lc44) : d.acu.moves (wipeEffect d).acu :=
  (((moves_commonReset _ d).trans (moves_of_keeps (keeps_setPhase _ _))).trans
    (moves_of_keeps (keeps_raiseTmu _ _))).trans (moves_of_keeps (keeps_raiseTmu _ _))

theorem moves_ownWipe (b : List Byte) (d : Lc44) : d.acu.moves (ownWipe b d).acu := by
  unfold ownWipe
  split
  · exact moves_then_answer _ _ (moves_wipeEffect d)
  · exact moves_answer _ _ _

/-- ACU once a profile is put in force: its plan, the log as stored and the next sequence (R162). -/
theorem putInForce_acu (staged : List Word) (d : Lc44) : (putInForce staged d).acu = (loadAcu staged d).acu := by
  have hbefore : (loadFgd staged (loadCcl staged (loadRcu staged d))).acu = d.acu :=
    (keeps_acu (keeps_onFgd _ _)).trans ((keeps_acu (keeps_loadCcl _ _)).trans (keeps_acu (keeps_onRcu _ _)))
  have hload (x : Lc44) (h : x.acu = d.acu) : (loadAcu staged x).acu = (loadAcu staged d).acu := by
    unfold loadAcu
    simp only [Lc44.onAcu, h]
  unfold putInForce
  refine (keeps_acu (keeps_setPhase _ _)).trans ((keeps_acu (keeps_onPhc _ _)).trans ?_)
  refine (keeps_acu (keeps_loadSli _ _)).trans ((keeps_acu (keeps_onMpc _ _)).trans ?_)
  exact (keeps_acu (keeps_loadTmu _ _)).trans (hload _ hbefore)

/-- The log loaded is one that the law allows (R162). -/
theorem loadLogFrom_ok (staged : List Word) (next : Nat) :
    (loadLogFrom staged next).length ≤ 64 ∧ consecutive (loadLogFrom staged next) = true ∧
      endsBefore (loadLogFrom staged next) next = true := by
  unfold loadLogFrom
  dsimp only
  split
  next h =>
    simp only [Bool.and_eq_true, decide_eq_true_eq] at h
    obtain ⟨⟨⟨⟨hcount, hlength⟩, _⟩, hcons⟩, hends⟩ := h
    exact ⟨hlength.trans_le hcount, hcons, hends⟩
  next => exact ⟨Nat.zero_le _, rfl, rfl⟩

/-- A LOAD replaces plan and log while no run is in progress. -/
theorem moves_putInForce (staged : List Word) (hr : d.acu.runState = .idle) :
    d.acu.moves (putInForce staged d).acu := by
  rw [putInForce_acu]
  refine moves_of_idle hr fun _ => ⟨?_, loadLogFrom_ok _ _⟩
  show (if within 1 32 (bits 5 0 (stagedWord staged 0x003)) then bits 5 0 (stagedWord staged 0x003) else 0) ≤ 32
  split
  next h =>
    simp only [within, Bool.and_eq_true, decide_eq_true_eq] at h
    exact h.2
  next => exact Nat.zero_le _

/-- A cycle of PHC ends: a LOAD that puts a profile in force finds no run in progress. -/
theorem moves_phcEnded (e : MEnd) (hload : ∀ staged, d.phc.work = .loading staged → d.acu.runState = .idle) :
    d.acu.moves (phcEnded e d).acu := by
  unfold phcEnded
  split
  · exact .refl _
  · unfold probeEnded
    dsimp only
    split
    · exact moves_answer .noMem [] (d.onPhc fun p => { p with work := .idle })
    · exact moves_then_answer .ok [] (moves_beginEffect (d.onPhc fun p => { p with work := .idle }))
  · exact moves_of_keeps (keeps_imageWriteEnded _ _)
  next staged hwork =>
    have hr := hload staged hwork
    split
    · exact moves_of_keeps (keeps_loadEndsWith _ _)
    · unfold loadWordRead
      split
      · exact moves_of_keeps (keeps_loadNext _ _)
      · split
        · exact moves_of_keeps (keeps_loadEndsWith _ _)
        · split
          · exact moves_of_keeps (keeps_loadNext _ _)
          · split
            · exact (moves_putInForce _ hr).trans (moves_of_keeps (keeps_loadEndsWith _ _))
            · exact moves_of_keeps (keeps_loadEndsWith _ _)
  · split
    · exact moves_of_keeps (keeps_recoverFailed _ _ _)
    · exact moves_of_keeps (keeps_recoverOk _ _ _ _)

/-! ## The law -/

/-- The law of the log: that of ACU, and no run while HOLD is asserted or LOAD reads. -/
def Lc44.logOk (d : Lc44) : Prop :=
  d.acu.lawful ∧ (d.holdLine = true → d.acu.runState = .idle) ∧ d.loadsInStartup

/-- The law goes on when start-up stays calm and ACU moves by its rules. -/
theorem Lc44.logOk.next {e : Lc44} (g : d.logOk) (h : d.startupCalm e) (m : d.acu.moves e.acu) : e.logOk := by
  obtain ⟨hlaw, hidle, hloads⟩ := g
  exact ⟨m.lawful hlaw, fun hh => m.idle (hidle (h.hold hh)), h.loading hloads⟩

theorem logOk_of_keeps {l : List Block} {e : Lc44} (h : d.keepsOutside l e) (g : d.logOk)
    (hp : Block.phc ∉ l := by decide) (ha : Block.acu ∉ l := by decide) : e.logOk :=
  g.next (startupCalm_of_keeps h hp) (moves_of_keeps h ha)

/-- The way of a bus cycle, a trial or a fold keeps the law. -/
theorem logOk_stable : Stable Lc44.logOk where
  iport _ _ g := logOk_of_keeps (keeps_onIport _ _) g
  mpc _ _ g := logOk_of_keeps (keeps_onMpc _ _) g
  ccl _ _ g := logOk_of_keeps (keeps_onCcl _ _) g
  fgd _ _ g := logOk_of_keeps (keeps_onFgd _ _) g
  tru _ _ g := logOk_of_keeps (keeps_onTru _ _) g
  ovu _ _ g := logOk_of_keeps (keeps_onOvu _ _) g
  answer _ _ _ _ g := logOk_of_keeps (keeps_answer _ _ _) g
  raised _ _ g := logOk_of_keeps (keeps_onRaised _ _) g
  foldDone _ g := g.next (startupCalm_foldDone _) (moves_of_keeps (keeps_foldDone _))

theorem logOk_memoryEnd (e : MEnd) (g : d.logOk) : (memoryEnd e d).logOk := by
  refine logOk_stable.memoryEnd
    (fun w x gx => gx.next (startupCalm_foldFailed w x) (moves_of_keeps (keeps_foldFailed w x)))
    (fun f x gx => logOk_of_keeps (keeps_mirrorEnded f x) gx) (fun e x gx => ?_) e g
  refine gx.next (startupCalm_phcEnded e gx.2.2) (moves_phcEnded e fun staged hw => gx.2.1 ?_)
  simp [Lc44.holdLine, gx.2.2 staged hw]

theorem moves_request {r : Req} {owner : List Byte → Lc44 → Lc44} {body : List Byte}
    (h : ∀ x : Lc44, x.acu.moves (owner body x).acu) (d : Lc44) : d.acu.moves (request r owner body d).acu :=
  request_relates (R := fun x => d.acu.moves x.acu) (fun _ _ hk _ _ hx => hx.trans (moves_of_keeps hk))
    (fun x _ hx => hx.trans (h x)) (.refl _)

end

/-- A command that moves ACU by its rules keeps the law. -/
theorem after_logOk_of_moves {c : Instr} {f : Lc44 → Lc44} (hc : ∀ s, exec c s = s.effect f) {d : Lc44} (g : d.logOk)
    (m : d.acu.moves (f d).acu) (ha : c ≠ .resetAsserted := by nofun)
    (hr : ∀ psel commission depol, c ≠ .resetRelease psel commission depol := by nofun) : (d.after c).logOk := by
  refine g.next (after_startupCalm ha hr g.2.2) ?_
  exact after_of_keeps (P := fun x => d.acu.moves x.acu) hc (fun _ => m) (.refl _)

/-- A command that leaves ACU alone and is none of RESET's keeps the law. -/
theorem after_logOk_elsewhere {c : Instr} {d : Lc44} (h : leavesAlone [.acu] c = true) (g : d.logOk) :
    (d.after c).logOk := by
  have ha : c ≠ .resetAsserted := by
    rintro rfl
    cases h
  have hr (psel : BitVec 2) (commission depol : Bool) : c ≠ .resetRelease psel commission depol := by
    rintro rfl
    cases h
  refine g.next (after_startupCalm ha hr g.2.2) ?_
  have moves_restsOn : RestsOn [.acu] fun x => d.acu.moves x.acu := by
    intro x y _ _ hsame hx
    rw [show y.acu = x.acu from hsame .acu (by simp)]
    exact hx
  exact moves_restsOn.elsewhere h (.refl _)

/-- Every command keeps the law of the log. -/
theorem after_logOk (c : Instr) (d : Lc44) (g : d.logOk) : (d.after c).logOk := by
  cases c with
  | resetAsserted =>
    rw [after_resetAsserted]
    exact ⟨lawful_of_idle ⟨Nat.zero_le _, Nat.zero_le _, rfl, rfl⟩ rfl, fun _ => rfl, nofun⟩
  | resetRelease psel commission depol =>
    rw [after_resetRelease]
    split
    next hr =>
      have hidle : d.acu.runState = .idle := g.2.1 (by simp [Lc44.holdLine, hr])
      refine ⟨by rw [release_acu]; exact g.1, fun _ => by rw [release_acu]; exact hidle, ?_⟩
      exact (startupCalm_arbitrate _).loading fun _ _ => rfl
    next => exact g
  | memoryAnswer a =>
    refine after_of_keeps (exec_memoryAnswer a) (fun _ => ?_) g
    cases a with
    | ok w => exact logOk_memoryEnd _ g
    | fault => exact logOk_memoryEnd _ g
  | memoryTimeout => exact after_of_keeps exec_memoryTimeout (fun _ => logOk_memoryEnd _ g) g
  | stepSignal => exact after_logOk_of_moves exec_stepSignal g (moves_takeStep (takenAcu .step d))
  | acuCaptureNotice n =>
    exact after_logOk_of_moves (exec_acuCaptureNotice n) g (moves_deliverAcu (moves_takeAcuCapture n) d)
  | acuStaleNotice k => exact after_logOk_of_moves (exec_acuStaleNotice k) g (moves_deliverAcu (moves_takeAcuStale k) d)
  | muteNotice => exact after_logOk_of_moves exec_muteNotice g (moves_takeMute (takenAcu .mute d))
  | rollbackNotice => exact after_logOk_of_moves exec_rollbackNotice g (moves_takeRollback (takenAcu .rollback d))
  | armTimeoutExpiry => exact after_logOk_of_moves exec_armTimeoutExpiry g (moves_armExpired d)
  | settleTimerExpiry => exact after_logOk_of_moves exec_settleTimerExpiry g (moves_settleExpired d)
  | measureTimerExpiry => exact after_logOk_of_moves exec_measureTimerExpiry g (moves_measureExpired d)
  | tick => exact after_logOk_of_moves exec_tick g (moves_tickAll d)
  | commissioningSecond =>
    refine after_logOk_of_moves exec_commissioningSecond g ?_
    split
    · exact moves_tickAll d
    · exact .refl _
  | wipe body => exact after_logOk_of_moves (exec_wipe body) g (moves_request (moves_ownWipe body) d)
  | loadStep body => exact after_logOk_of_moves (exec_loadStep body) g (moves_request (moves_ownLoadStep body) d)
  | runAbort body => exact after_logOk_of_moves (exec_runAbort body) g (moves_request (moves_ownRunAbort body) d)
  | logClear body => exact after_logOk_of_moves (exec_logClear body) g (moves_request (moves_ownLogClear body) d)
  | runStart body =>
    refine after_of_keeps (exec_runStart body) (fun hr => ?_) g
    refine (request_relates (R := fun x => x.logOk ∧ x.resetAsserted = false)
      (fun x y hk _ _ hx => ⟨logOk_of_keeps hk hx.1, hk.1.trans hx.2⟩) (fun x hs hx => ⟨?_, ?_⟩) ⟨g, hr⟩).1
    · have hphc := keeps_phc (keeps_ownRunStart body x)
      have hhold : (ownRunStart body x).holdLine = false := by
        simp [Lc44.holdLine, (keeps_ownRunStart body x).1, hphc, hs, hx.2]
      refine ⟨lawful_ownRunStart body hx.1.1, fun h => by simp [hhold] at h, ?_⟩
      exact (startupCalm_of_keeps (keeps_ownRunStart body x)).loading hx.1.2.2
    · exact (keeps_ownRunStart body x).1.trans hx.2
  | _ => exact after_logOk_elsewhere (by rfl) g

/-- Settles O47: every command keeps the law of the log, and so does every step. -/
theorem logStaysWithin64ConsecutiveRecords : Obligations.LogStaysWithin64ConsecutiveRecords := by
  have law (s : State) : s.logLaw ↔ s.part.logOk := by
    unfold State.logLaw Lc44.logOk Acu.lawful Acu.booksOk
    simp only [and_assoc]
    rfl
  intro s t g h
  rw [law] at g ⊢
  exact step_keeps (P := Lc44.logOk) after_logOk g h
end Sys2Proof.Machine
end
